-- ==== Sys2Proof/Word.lean ====
section
/-! DEFINITION. The data words of the CORE: bytes, 16-bit fields, the fixed-length byte groups of the container, colours. -/

namespace Sys2Proof

/-- The unit of SRC, SNK and OUT (20_memory.md R60). -/
abbrev Byte := BitVec 8

/-- A 16-bit field of the container (R66). -/
abbrev Half := BitVec 16

/-- Three bytes: a signature, a version, an authentication code (R38, R43). -/
structure Bytes3 where
  b0 : Byte
  b1 : Byte
  b2 : Byte
deriving DecidableEq, Repr, Inhabited

/-- Eight bytes: an application identifier (R43). -/
structure Bytes8 where
  b0 : Byte
  b1 : Byte
  b2 : Byte
  b3 : Byte
  b4 : Byte
  b5 : Byte
  b6 : Byte
  b7 : Byte
deriving DecidableEq, Repr, Inhabited

/-- Twelve bytes: the fixed fields of a plain text record (R44), kept as read. -/
structure Bytes12 where
  b0 : Byte
  b1 : Byte
  b2 : Byte
  b3 : Byte
  b4 : Byte
  b5 : Byte
  b6 : Byte
  b7 : Byte
  b8 : Byte
  b9 : Byte
  b10 : Byte
  b11 : Byte
deriving DecidableEq, Repr, Inhabited

/-- One entry of a colour table: red, green, blue (R40, R105). -/
structure Rgb where
  r : Byte
  g : Byte
  b : Byte
deriving DecidableEq, Repr, Inhabited

end Sys2Proof
end

