-- ==== Sys2Proof/Config.lean ====
section
/-! DEFINITION. What is fixed for one machine: the source's constants (00_scope.md R11), the open parameters (R12), the causes
a fault records, and the free values. A free value is an opaque constant: nothing in Lean can evaluate it. -/

namespace Sys2Proof

/-- The sub-kinds of `IOError` (60_exceptions.md R301). -/
inductive IoKind where
  | readFailure
  | unexpectedEof
  | writeFailure
deriving DecidableEq, Repr, Inhabited

/-- The five causes of a fault with the values each records (R301 to R305); the position is kept beside it. -/
inductive Cause where
  | ioError (kind : IoKind)
  | invalidSignature (signature : Bytes3)
  | unknownBlock (byte : Byte)
  | badBlockSize (label byte : Byte)
  | invalidCode (code width : Nat)
deriving DecidableEq, Repr, Inhabited

/-- ERRINFO (10_state.md R24, 60_exceptions.md R306): the offending values and the value POS or SPOS had. -/
structure ErrInfo where
  cause : Cause
  position : Nat
deriving DecidableEq, Repr, Inhabited

/-- The values of the parameter PTE_POLICY (R12, decision D12). -/
inductive PtePolicy where
  | continueLoop
  | earlyReturn
deriving DecidableEq, Repr, Inhabited

/-- The parameters the source leaves open that are not oracles of a stream or of UTF-8 (R12): PTE_POLICY, and the capacities of the
pixel buffer (OUT_MAX), of the document store (DOC_MAX) and of the position counters (POS_BITS); `none` is unbounded. [log 12, 13] -/
structure Params where
  ptePolicy : PtePolicy
  outMax : Option Nat
  docMax : Option Nat
  posBits : Option Nat
deriving DecidableEq, Repr, Inhabited

/-- This spec's values of the parameters: the loop goes on, nothing is bounded (R12, decisions D12 and D22). -/
def Params.spec : Params := ⟨.continueLoop, none, none, none⟩

namespace Config

/-- MAXW, the largest code width (R11). -/
def maxW : Nat := 12
/-- DICTSZ, the largest number of dictionary entries (R11). -/
def dictSize : Nat := 4096
/-- KMIN (R11). -/
def kMin : Nat := 2
/-- KMAX (R11). -/
def kMax : Nat := 8
/-- SBMAX, the largest payload of one sub-block (R11). -/
def sbMax : Nat := 255
/-- GCELEN (R11). -/
def gceLen : Byte := 4
/-- APPLEN (R11). -/
def appLen : Byte := 11
/-- PTELEN (R11). -/
def pteLen : Byte := 12

/-- Free numbers: the first argument is the draw (State's counter), the second tells apart the numbers of one draw. [log 7] -/
opaque freeNat : Nat → Nat → Nat
/-- Free bits, drawn as `freeNat`. [log 7] -/
opaque freeBool : Nat → Nat → Bool
/-- A free byte sequence: OUT after a faulted decode (U7). [log 9] -/
opaque freeBytes : Nat → Nat → List Byte
/-- Free answers of a source after a failed read (U6); `none` is IoErr. [log 7] -/
opaque freeAnswers : Nat → List (Option Byte)
/-- Free contents of a dead dictionary (U7). [log 8] -/
opaque freeEntries : Nat → List (Nat × List Byte)
/-- Free contents of a dead encoder table (U7). [log 8] -/
opaque freePairs : Nat → List (Nat × Nat)
/-- ERRINFO between the start of a command and a fault (10_state.md R49). [log 10] -/
opaque freeErrInfo : Nat → ErrInfo
/-- The text that lossy decoding makes of a comment fragment that is not valid UTF-8 (UTF8_LOSSY, R12, U8). [log 11] -/
opaque lossyText : List Byte → List Char

end Config

end Sys2Proof
end

