-- ==== Sys2Proof/Syntax.lean ====
section
/-! DEFINITION. The instructions: one constructor for each of the 42 rows of spec/opcode_table.json, with the row's operands. -/

namespace Sys2Proof

/-! Four rows of the table are a byte that moves PST and operands that are read in the state it leads to (43_container_parser.md R238,
R240, R241, R243, R257): each is run in two steps, the byte and what follows it. -/

/-- EXT.GCE: the label 0xF9; then what stands at P_GCE (30_encoding.md R108). A size byte other than 4 ends the instruction at that
byte, because the size is judged before the body is read (43_container_parser.md R238, 60_exceptions.md R308). -/
inductive GceOperands where
  | label
  | badSize (size : Byte)
  | body (packed : Byte) (delay : Half) (transparentIndex terminator : Byte)
deriving DecidableEq, Repr

/-- EXT.APP: the label 0xFF; then what stands at P_APP up to the sub-blocks (R110, R240). -/
inductive AppOperands where
  | label
  | badSize (size : Byte)
  | header (identifier : Bytes8) (authCode : Bytes3)
deriving DecidableEq, Repr

/-- EXT.PTE: the label 0x01; then what stands at P_PTE up to the sub-blocks (R111, R241). -/
inductive PteOperands where
  | label
  | badSize (size : Byte)
  | header (fields : Bytes12)
deriving DecidableEq, Repr

/-- The operations the CORE can be asked to run (30_encoding.md R126). -/
inductive Instr where
  -- group host
  | parse
  | serialize
  | decode
  | encode
  -- group fixed
  | hdr (signature version : Bytes3)
  | lsd (width height : Half) (packed bgIndex aspect : Byte)
  | gct (table : List Rgb)
  | lct (table : List Rgb)
  | mcs (k : Byte)
  | lzw
  -- group indicator
  | ext
  -- the indicator 0x2C, without operands; then the nine bytes at P_IMGDESC, with all five (R113, R243)
  | img (left top width height : Option Half) (packed : Option Byte)
  | trl
  | unknown (byte : Byte)
  | eos
  -- group label
  | extGce (operands : GceOperands)
  | extCom
  | extApp (operands : AppOperands)
  | extPte (operands : PteOperands)
  | extSkip (label : Byte)
  -- group subblock
  | sbTerm
  | sbData (payload : List Byte)
  -- group code
  | endCode
  | clear
  | known (c : Nat)
  | nextCode (c : Nat)
  | invalid (c : Nat)
  | noCode
  -- group emit
  | sHdr
  | sLsd
  | sGct
  | sGce
  | sCom
  | sApp
  | sPte
  | sImg
  | sTrl
  -- group encstep
  | eClear0
  | eMatch (p : Byte)
  | eMiss (p : Byte)
  | eOverflow (p : Byte)
  | eFinish
deriving DecidableEq, Repr

end Sys2Proof
end

