-- ==== Sys2Proof/WellFormed.lean ====
section
/-! DEFINITION. Which terms of `Instr` stand for an encoding of the spec: the operand ranges of the opcode table's rows. -/

namespace Sys2Proof

/-- The eight lengths a colour table can have (30_encoding.md R104). -/
def tableLengths : List Nat := [2, 4, 8, 16, 32, 64, 128, 256]

/-- The operand checks, one arm a constructor. -/
def Instr.wellFormed : Instr → Bool
  | .parse => true
  | .serialize => true
  | .decode => true
  | .encode => true
  | .hdr _ _ => true
  | .lsd _ _ _ _ _ => true
  | .gct t => tableLengths.contains t.length
  | .lct t => tableLengths.contains t.length
  | .mcs _ => true
  | .lzw => true
  | .ext => true
  | .img none none none none none => true
  | .img (some _) (some _) (some _) (some _) (some _) => true
  | .img _ _ _ _ _ => false
  | .trl => true
  | .unknown b => b != 0x21 && b != 0x2C && b != 0x3B
  | .eos => true
  | .extGce .label => true
  | .extGce (.badSize n) => n != Config.gceLen
  | .extGce (.body _ _ _ _) => true
  | .extCom => true
  | .extApp .label => true
  | .extApp (.badSize n) => n != Config.appLen
  | .extApp (.header _ _) => true
  | .extPte .label => true
  | .extPte (.badSize n) => n != Config.pteLen
  | .extPte (.header _) => true
  | .extSkip l => l != 0xF9 && l != 0xFE && l != 0xFF && l != 0x01
  | .sbTerm => true
  | .sbData p => 1 ≤ p.length && p.length ≤ Config.sbMax
  | .endCode => true
  | .clear => true
  | .known c => c < Config.dictSize
  | .nextCode c => c < Config.dictSize
  | .invalid c => c < Config.dictSize
  | .noCode => true
  | .sHdr => true
  | .sLsd => true
  | .sGct => true
  | .sGce => true
  | .sCom => true
  | .sApp => true
  | .sPte => true
  | .sImg => true
  | .sTrl => true
  | .eClear0 => true
  | .eMatch _ => true
  | .eMiss _ => true
  | .eOverflow _ => true
  | .eFinish => true

end Sys2Proof
end

