-- ==== Sys2Proof/Decode.lean ====
section
/-! DEFINITION. From bytes and bits to instructions and back: the container's encodings (30_encoding.md R100 to R118), the code
stream (R119 to R122), and the commands. Bytes are judged by the SLOT they stand in: the parser's place decides which group of
the opcode table a byte belongs to (R126). The encoder stands after the decoder and is written from the same tables. -/

namespace Sys2Proof

/-! ## Bit fields and byte order -/

/-- `v[hi:lo]` of R14. -/
def bits (v hi lo : Nat) : Nat := v / 2 ^ lo % 2 ^ (hi - lo + 1)

/-- `u16le(lo, hi) = lo + 256*hi` (R14, R66). -/
def u16le (lo hi : Byte) : Half := BitVec.ofNat 16 (lo.toNat + 256 * hi.toNat)

/-- `lo8(v) = v mod 256` (R14). -/
def lo8 (v : Half) : Byte := BitVec.ofNat 8 (v.toNat % 256)

/-- `hi8(v) = (v >> 8) mod 256` (R14). -/
def hi8 (v : Half) : Byte := BitVec.ofNat 8 (v.toNat / 256 % 256)

/-- `gct_flag(p) = p[7]` (R103). -/
def gctFlag (p : Byte) : Bool := bits p.toNat 7 7 == 1
/-- `color_res(p) = p[6:4]` (R103); carried, read by no rule (R116). -/
def colorRes (p : Byte) : Nat := bits p.toNat 6 4
/-- `gct_sort(p) = p[3]` (R103); carried. -/
def gctSort (p : Byte) : Bool := bits p.toNat 3 3 == 1
/-- `gct_exp(p) = p[2:0]` (R103). -/
def gctExp (p : Byte) : Nat := bits p.toNat 2 0
/-- `disposal(p) = p[4:2]` (R108); carried. -/
def disposal (p : Byte) : Nat := bits p.toNat 4 2
/-- `user_input(p) = p[1]` (R108); carried. -/
def userInput (p : Byte) : Bool := bits p.toNat 1 1 == 1
/-- `transparent_flag(p) = p[0]` (R108); carried. -/
def transparentFlag (p : Byte) : Bool := bits p.toNat 0 0 == 1
/-- `lct_flag(p) = p[7]` (R114). -/
def lctFlag (p : Byte) : Bool := bits p.toNat 7 7 == 1
/-- `interlace(p) = p[6]` (R114); carried. -/
def interlace (p : Byte) : Bool := bits p.toNat 6 6 == 1
/-- `lct_sort(p) = p[5]` (R114); carried. -/
def lctSort (p : Byte) : Bool := bits p.toNat 5 5 == 1
/-- `lct_exp(p) = p[2:0]` (R114). -/
def lctExp (p : Byte) : Nat := bits p.toNat 2 0

/-- `ct_len(flag, e)`, the length of a colour table in entries (R104). -/
def ctLen (flag : Bool) (e : Nat) : Nat := if flag then 2 ^ (e + 1) else 0

/-- The sub-fields of a plain text record's 12 bytes (R111); no rule reads them. -/
def gridLeft (f : Bytes12) : Half := u16le f.b0 f.b1
/-- R111. -/
def gridTop (f : Bytes12) : Half := u16le f.b2 f.b3
/-- R111. -/
def gridWidth (f : Bytes12) : Half := u16le f.b4 f.b5
/-- R111. -/
def gridHeight (f : Bytes12) : Half := u16le f.b6 f.b7
/-- R111. -/
def cellWidth (f : Bytes12) : Byte := f.b8
/-- R111. -/
def cellHeight (f : Bytes12) : Byte := f.b9
/-- R111. -/
def foreground (f : Bytes12) : Byte := f.b10
/-- R111. -/
def background (f : Bytes12) : Byte := f.b11

/-! ## Byte groups in stream order -/

/-- The bytes of a group, first one first. -/
def Bytes3.toList (t : Bytes3) : List Byte := [t.b0, t.b1, t.b2]
/-- The bytes of a group, first one first. -/
def Bytes8.toList (t : Bytes8) : List Byte := [t.b0, t.b1, t.b2, t.b3, t.b4, t.b5, t.b6, t.b7]
/-- The bytes of a group, first one first. -/
def Bytes12.toList (t : Bytes12) : List Byte :=
  [t.b0, t.b1, t.b2, t.b3, t.b4, t.b5, t.b6, t.b7, t.b8, t.b9, t.b10, t.b11]
/-- The group that a sequence of three bytes makes (`MustBytes(3)` gives exactly three, R152). -/
def Bytes3.ofList (l : List Byte) : Bytes3 := ⟨l.getD 0 0, l.getD 1 0, l.getD 2 0⟩
/-- As `Bytes3.ofList`. -/
def Bytes8.ofList (l : List Byte) : Bytes8 :=
  ⟨l.getD 0 0, l.getD 1 0, l.getD 2 0, l.getD 3 0, l.getD 4 0, l.getD 5 0, l.getD 6 0, l.getD 7 0⟩
/-- As `Bytes3.ofList`. -/
def Bytes12.ofList (l : List Byte) : Bytes12 :=
  ⟨l.getD 0 0, l.getD 1 0, l.getD 2 0, l.getD 3 0, l.getD 4 0, l.getD 5 0,
   l.getD 6 0, l.getD 7 0, l.getD 8 0, l.getD 9 0, l.getD 10 0, l.getD 11 0⟩
/-- An entry of a colour table in stream order (R105). -/
def Rgb.toList (e : Rgb) : List Byte := [e.r, e.g, e.b]

/-- The literal "GIF" (R38, R101). -/
def gifSignature : Bytes3 := ⟨0x47, 0x49, 0x46⟩

/-! ## Decoding the container -/

/-- The places of a stream that select how its next bytes are read (R126): by position, as an indicator, as a label, behind a label or
an image's indicator, as a sub-block length. -/
inductive Slot where
  | header
  | screen
  | globalTable (entries : Nat)
  | indicator
  | label
  | gceBody
  | appHeader
  | pteHeader
  | subBlock
  | descriptor
  | localTable (entries : Nat)
  | minCode
deriving DecidableEq, Repr

/-- Why a byte sequence is no instruction in a slot. -/
inductive DecodeError where
  /-- the bytes end inside the instruction; all of them belong to it (R251) -/
  | truncated (have_ : Nat)
  /-- the slot asks for a colour table of a length no size exponent gives (R104) -/
  | badTableLength (entries : Nat)
deriving DecidableEq, Repr

/-- The instruction with the bytes behind it, or the reason there is none. -/
abbrev Decoded := Except DecodeError (Instr × List Byte)

/-- HDR: three signature bytes, three version bytes (R101). -/
def decodeHeader : List Byte → Decoded
  | s0 :: s1 :: s2 :: v0 :: v1 :: v2 :: rest => .ok (.hdr ⟨s0, s1, s2⟩ ⟨v0, v1, v2⟩, rest)
  | bs => .error (.truncated bs.length)

/-- LSD (R102). -/
def decodeScreen : List Byte → Decoded
  | w0 :: w1 :: h0 :: h1 :: p :: bg :: a :: rest => .ok (.lsd (u16le w0 w1) (u16le h0 h1) p bg a, rest)
  | bs => .error (.truncated bs.length)

/-- `n` entries of a colour table (R105), or none where the bytes end inside them. -/
def decodeEntries : Nat → List Byte → Option (List Rgb × List Byte)
  | 0, bs => some ([], bs)
  | n + 1, r :: g :: b :: rest =>
    match decodeEntries n rest with
    | some (t, bs) => some (⟨r, g, b⟩ :: t, bs)
    | none => none
  | _ + 1, _ => none

/-- GCT and LCT: a table of `n` entries given to its constructor. -/
def decodeTable (mk : List Rgb → Instr) (n : Nat) (bs : List Byte) : Decoded :=
  if tableLengths.contains n then
    match decodeEntries n bs with
    | some (t, rest) => .ok (mk t, rest)
    | none => .error (.truncated bs.length)
  else .error (.badTableLength n)

/-- MCS (R115). -/
def decodeMinCode : List Byte → Decoded
  | k :: rest => .ok (.mcs k, rest)
  | [] => .error (.truncated 0)

/-- IMG at P_IMGDESC: its five operands. -/
def imgAt (left top width height : Half) (packed : Byte) : Instr :=
  .img (some left) (some top) (some width) (some height) (some packed)

/-- IMG at its indicator: the operands are still to come. -/
def imgIndicator : Instr := .img none none none none none

/-- IMG behind its indicator: nine descriptor bytes (R113). -/
def decodeImage : List Byte → Decoded
  | l0 :: l1 :: t0 :: t1 :: w0 :: w1 :: h0 :: h1 :: p :: rest =>
    .ok (imgAt (u16le l0 l1) (u16le t0 t1) (u16le w0 w1) (u16le h0 h1) p, rest)
  | bs => .error (.truncated bs.length)

/-- The indicator byte (R106); no byte at all is EOS (R249). -/
def decodeIndicator : List Byte → Decoded
  | [] => .ok (.eos, [])
  | b :: rest =>
    if b = 0x21 then .ok (.ext, rest)
    else if b = 0x2C then .ok (imgIndicator, rest)
    else if b = 0x3B then .ok (.trl, rest)
    else .ok (.unknown b, rest)

/-- EXT.GCE behind its label (R108). -/
def decodeGce : List Byte → Decoded
  | [] => .error (.truncated 0)
  | n :: rest =>
    if n = Config.gceLen then
      match rest with
      | p :: d0 :: d1 :: ti :: t :: rest' => .ok (.extGce (.body p (u16le d0 d1) ti t), rest')
      | bs => .error (.truncated (1 + bs.length))
    else .ok (.extGce (.badSize n), rest)

/-- EXT.APP behind its label, up to its sub-blocks (R110). -/
def decodeApp : List Byte → Decoded
  | [] => .error (.truncated 0)
  | n :: rest =>
    if n = Config.appLen then
      match rest with
      | i0 :: i1 :: i2 :: i3 :: i4 :: i5 :: i6 :: i7 :: a0 :: a1 :: a2 :: rest' =>
        .ok (.extApp (.header ⟨i0, i1, i2, i3, i4, i5, i6, i7⟩ ⟨a0, a1, a2⟩), rest')
      | bs => .error (.truncated (1 + bs.length))
    else .ok (.extApp (.badSize n), rest)

/-- EXT.PTE behind its label, up to its sub-blocks (R111). -/
def decodePte : List Byte → Decoded
  | [] => .error (.truncated 0)
  | n :: rest =>
    if n = Config.pteLen then
      match rest with
      | f0 :: f1 :: f2 :: f3 :: f4 :: f5 :: f6 :: f7 :: f8 :: f9 :: f10 :: f11 :: rest' =>
        .ok (.extPte (.header ⟨f0, f1, f2, f3, f4, f5, f6, f7, f8, f9, f10, f11⟩), rest')
      | bs => .error (.truncated (1 + bs.length))
    else .ok (.extPte (.badSize n), rest)

/-- The label byte (R107). -/
def decodeLabel : List Byte → Decoded
  | [] => .error (.truncated 0)
  | b :: rest =>
    if b = 0xF9 then .ok (.extGce .label, rest)
    else if b = 0xFE then .ok (.extCom, rest)
    else if b = 0xFF then .ok (.extApp .label, rest)
    else if b = 0x01 then .ok (.extPte .label, rest)
    else .ok (.extSkip b, rest)

/-- A sub-block: a length byte and its payload, or the terminator (R117). -/
def decodeSubBlock : List Byte → Decoded
  | [] => .error (.truncated 0)
  | n :: rest =>
    if n = 0 then .ok (.sbTerm, rest)
    else if n.toNat ≤ rest.length then .ok (.sbData (rest.take n.toNat), rest.drop n.toNat)
    else .error (.truncated (1 + rest.length))

/-- The instruction that the bytes at a slot stand for; total. -/
def decode (slot : Slot) (bs : List Byte) : Decoded :=
  match slot with
  | .header => decodeHeader bs
  | .screen => decodeScreen bs
  | .globalTable n => decodeTable .gct n bs
  | .indicator => decodeIndicator bs
  | .label => decodeLabel bs
  | .gceBody => decodeGce bs
  | .appHeader => decodeApp bs
  | .pteHeader => decodePte bs
  | .subBlock => decodeSubBlock bs
  | .descriptor => decodeImage bs
  | .localTable n => decodeTable .lct n bs
  | .minCode => decodeMinCode bs

/-! ## The code stream -/

/-- `w` bits of a number, least significant first (R67, R120). -/
def toBits : Nat → Nat → List Bool
  | 0, _ => []
  | w + 1, c => (c % 2 == 1) :: toBits w (c / 2)

/-- The number that bits make, the first bit being bit 0. -/
def ofBits : List Bool → Nat
  | [] => 0
  | b :: bs => b.toNat + 2 * ofBits bs

/-- The bit stream of a sequence of data bytes (R67). -/
def bitsOfBytes (bs : List Byte) : List Bool := bs.flatMap fun b => toBits 8 b.toNat

/-- What the selection of a code reads of the decoder's state (R121). -/
structure CodeContext where
  clr : Nat
  endc : Nat
  next : Nat
  w : Nat
  prev : Option Nat
deriving DecidableEq, Repr

/-- The class of a code: the first condition that holds, in the order of 41_lzw_decoder.md R172. -/
def classify (x : CodeContext) (c : Nat) : Instr :=
  if c = x.endc then .endCode
  else if c = x.clr then .clear
  else if c < x.next then .known c
  else if c = x.next ∧ x.prev ≠ none then .nextCode c
  else .invalid c

/-- The code at the front of a bit stream and the bits behind it; fewer than `w` bits are NOCODE (R119, R183). -/
def decodeCode (x : CodeContext) (bs : List Bool) : Instr × List Bool :=
  if bs.length < x.w then (.noCode, bs)
  else (classify x (ofBits (bs.take x.w)), bs.drop x.w)

/-- The payload bytes of a sub-block sequence whose current sub-block has `rem` bytes left, up to the terminator or the end of
the bytes (R117, and the tolerance of decision D7). -/
def payloadFrom : Nat → List Byte → List Byte
  | _, [] => []
  | 0, n :: t => if n = 0 then [] else payloadFrom n.toNat t
  | rem + 1, b :: t => b :: payloadFrom rem t

/-! ## Commands -/

/-- The values of CMD that start a command (10_state.md R21). The spec gives them no numbers. -/
inductive StartCommand where
  | parse
  | serialize
  | decode
  | encode
deriving DecidableEq, Repr

/-- The row of group `host` that a write of CMD selects. -/
def decodeCommand : StartCommand → Instr
  | .parse => .parse
  | .serialize => .serialize
  | .decode => .decode
  | .encode => .encode

/-! ## Encoding -/

/-- `lo8` then `hi8` (R66). -/
def encodeU16 (v : Half) : List Byte := [lo8 v, hi8 v]

/-- The slot in which an instruction's bytes are read, for the rows that have bytes. -/
def slotOf : Instr → Option Slot
  | .hdr _ _ => some .header
  | .lsd _ _ _ _ _ => some .screen
  | .gct t => some (.globalTable t.length)
  | .lct t => some (.localTable t.length)
  | .mcs _ => some .minCode
  | .ext => some .indicator
  | .img none none none none none => some .indicator
  | .img _ _ _ _ _ => some .descriptor
  | .trl => some .indicator
  | .unknown _ => some .indicator
  | .eos => some .indicator
  | .extGce .label => some .label
  | .extGce (.badSize _) => some .gceBody
  | .extGce (.body _ _ _ _) => some .gceBody
  | .extCom => some .label
  | .extApp .label => some .label
  | .extApp (.badSize _) => some .appHeader
  | .extApp (.header _ _) => some .appHeader
  | .extPte .label => some .label
  | .extPte (.badSize _) => some .pteHeader
  | .extPte (.header _) => some .pteHeader
  | .extSkip _ => some .label
  | .sbTerm => some .subBlock
  | .sbData _ => some .subBlock
  | .parse => none
  | .serialize => none
  | .decode => none
  | .encode => none
  | .lzw => none
  | .endCode => none
  | .clear => none
  | .known _ => none
  | .nextCode _ => none
  | .invalid _ => none
  | .noCode => none
  | .sHdr => none
  | .sLsd => none
  | .sGct => none
  | .sGce => none
  | .sCom => none
  | .sApp => none
  | .sPte => none
  | .sImg => none
  | .sTrl => none
  | .eClear0 => none
  | .eMatch _ => none
  | .eMiss _ => none
  | .eOverflow _ => none
  | .eFinish => none

/-- The bytes of a well-formed instruction (R101 to R118); empty for a row that has none. -/
def encode : Instr → List Byte
  | .hdr s v => s.toList ++ v.toList
  | .lsd w h p bg a => encodeU16 w ++ encodeU16 h ++ [p, bg, a]
  | .gct t => t.flatMap Rgb.toList
  | .lct t => t.flatMap Rgb.toList
  | .mcs k => [k]
  | .ext => [0x21]
  | .img (some l) (some t) (some w) (some h) (some p) => encodeU16 l ++ encodeU16 t ++ encodeU16 w ++ encodeU16 h ++ [p]
  | .img _ _ _ _ _ => [0x2C]
  | .trl => [0x3B]
  | .unknown b => [b]
  | .eos => []
  | .extGce .label => [0xF9]
  | .extGce (.badSize n) => [n]
  | .extGce (.body p d ti t) => [Config.gceLen, p] ++ encodeU16 d ++ [ti, t]
  | .extCom => [0xFE]
  | .extApp .label => [0xFF]
  | .extApp (.badSize n) => [n]
  | .extApp (.header i a) => [Config.appLen] ++ i.toList ++ a.toList
  | .extPte .label => [0x01]
  | .extPte (.badSize n) => [n]
  | .extPte (.header f) => [Config.pteLen] ++ f.toList
  | .extSkip l => [l]
  | .sbTerm => [0x00]
  | .sbData p => BitVec.ofNat 8 p.length :: p
  | .parse => []
  | .serialize => []
  | .decode => []
  | .encode => []
  | .lzw => []
  | .endCode => []
  | .clear => []
  | .known _ => []
  | .nextCode _ => []
  | .invalid _ => []
  | .noCode => []
  | .sHdr => []
  | .sLsd => []
  | .sGct => []
  | .sGce => []
  | .sCom => []
  | .sApp => []
  | .sPte => []
  | .sImg => []
  | .sTrl => []
  | .eClear0 => []
  | .eMatch _ => []
  | .eMiss _ => []
  | .eOverflow _ => []
  | .eFinish => []

/-- The value of the code that a row of group `code` stands for (R121); none for NOCODE and the other groups. -/
def codeValue (x : CodeContext) : Instr → Option Nat
  | .endCode => some x.endc
  | .clear => some x.clr
  | .known c => some c
  | .nextCode c => some c
  | .invalid c => some c
  | _ => none

/-- The bits of a code at the width in force (R119, R120). -/
def encodeCode (x : CodeContext) (i : Instr) : List Bool :=
  match codeValue x i with
  | some c => toBits x.w c
  | none => []

/-- The value of CMD that selects a row of group `host`. -/
def encodeCommand : Instr → Option StartCommand
  | .parse => some .parse
  | .serialize => some .serialize
  | .decode => some .decode
  | .encode => some .encode
  | _ => none

/-- A byte sequence as a sub-block sequence with its terminator (R117, the writer's cut of 40_cursor.md R160): the fuel bounds the
number of chunks. -/
def frameChunks : Nat → List Byte → List Byte
  | 0, _ => []
  | fuel + 1, s =>
    if s.length = 0 then []
    else BitVec.ofNat 8 (min Config.sbMax s.length) :: (s.take Config.sbMax ++ frameChunks fuel (s.drop Config.sbMax))

/-- `PutSubBlocks(s)` as a byte sequence. -/
def frame (s : List Byte) : List Byte := frameChunks s.length s ++ [0x00]

/-! ## Words of the opcode table -/

/-- The `n` bytes of a table word, bit 0 the least significant bit of the first. -/
def wordBytes : Nat → Nat → List Byte
  | 0, _ => []
  | n + 1, w => BitVec.ofNat 8 (w % 256) :: wordBytes n (w / 256)

/-- The zero bytes behind a table word: more than the longest instruction (a colour table of 256 entries, 768 bytes) needs. -/
def zeroTail : List Byte := List.replicate 768 0

/-- The slot of a table word. Six bytes are a header, seven a screen descriptor (the rows of those lengths); any other word is
placed by its first byte: the labels and the terminator in their groups, everything else as an indicator. The catch-all rows
UNKNOWN, EXT.SKIP and SB.DATA share their bytes with other rows and have no word of their own. [log 27] -/
def tableSlot (nbits w : Nat) : Option Slot :=
  if nbits = 0 then none
  else if nbits = 48 then some .header
  else if nbits = 56 then some .screen
  else if w % 256 = 0xF9 ∨ w % 256 = 0xFE ∨ w % 256 = 0xFF ∨ w % 256 = 0x01 then some .label
  else if w % 256 = 0 then some .subBlock
  else some .indicator

/-- The bytes of a table word with its zero tail. -/
def tableBytes (nbits w : Nat) : List Byte := wordBytes (nbits / 8) w ++ zeroTail

/-- The instruction the decoder reads from a table word; none where the word has no bits or the decoder refuses. -/
def decodeTableWord (nbits w : Nat) : Option Instr :=
  match tableSlot nbits w with
  | none => none
  | some slot =>
    match decode slot (tableBytes nbits w) with
    | .ok (i, _) => some i
    | .error _ => none

end Sys2Proof
end

