-- ==== Sys2Proof/Machine/State.lean ====
section
/-! DEFINITION. The state of the CORE (10_state.md), its value at reset (R49, R340), and the reasons a step can stop. -/

namespace Sys2Proof.Machine

/-! ## Host interface registers -/

/-- The values of CMD (R21). -/
inductive Command where
  | none
  | parse
  | serialize
  | decode
  | encode
deriving DecidableEq, Repr

/-- The values of STATUS.STATE (R23). -/
inductive RunState where
  | idle
  | busy
  | doneOk
  | doneFault
deriving DecidableEq, Repr

/-- STATUS (R23). -/
structure Status where
  state : RunState
  err : Nat
  pteSeen : Bool
deriving DecidableEq, Repr

/-- The values of PST (R26). -/
inductive PState where
  | idle
  | header
  | lsd
  | gct
  | loop
  | label
  | gce
  | comment
  | app
  | pte
  | skip
  | imgDesc
  | lct
  | minCode
  | lzw
  | done
  | fault
deriving DecidableEq, Repr

/-- The values of SST (R27). -/
inductive SState where
  | idle
  | header
  | lsd
  | gct
  | gce
  | comment
  | app
  | pte
  | image
  | trailer
  | done
  | fault
deriving DecidableEq, Repr

/-! ## The LZW objects -/

/-- A sparse map: keys strictly rising. -/
abbrev SMap (α : Type) := List (Nat × α)

/-- DICT (R32): an entry that is not listed is `empty`, and no listed entry is empty. -/
abbrev Dict := SMap (List Byte)

/-- ETAB (R36): the pair (code, byte) is held under the key 256 * code + byte. -/
abbrev ETab := SMap Nat

/-- The decoder's state object (R28 to R34). -/
structure Decoder where
  k : Nat
  clr : Nat
  endc : Nat
  next : Nat
  w : Nat
  prev : Option Nat
  dict : Dict
  acc : Nat
  nb : Nat
  sbrem : Nat
  sbterm : Bool
  sbeos : Bool
deriving DecidableEq, Repr

/-- The encoder's state object (R36); `rest` is the model's: the bytes of PIX behind the index p of R214. [log 20] -/
structure Encoder where
  k : Nat
  clr : Nat
  endc : Nat
  tab : ETab
  next : Nat
  w : Nat
  cur : Option Nat
  acc : Nat
  nb : Nat
  buf : List Byte
  rest : List Byte
deriving DecidableEq, Repr

/-- Which unit holds the step (R320): none but PARSE and SER, or the LZW unit they or a command run. [log 20] -/
inductive LzwUnit where
  | off
  | lzwd
  | lzweStart
  | lzwe
deriving DecidableEq, Repr

/-! ## The document store -/

/-- `header` (R38). -/
structure Header where
  signature : Bytes3
  version : Bytes3
deriving DecidableEq, Repr

/-- `screen` (R39). -/
structure Screen where
  width : Half
  height : Half
  packed : Byte
  bgIndex : Byte
  aspect : Byte
deriving DecidableEq, Repr

/-- A graphics control extension record (R41). -/
structure GceRecord where
  packed : Byte
  delay : Half
  transparentIndex : Byte
deriving DecidableEq, Repr

/-- A comment extension record (R42). -/
structure CommentRecord where
  fragments : List (List Byte)
deriving DecidableEq, Repr

/-- An application extension record (R43). -/
structure AppRecord where
  identifier : Bytes8
  authCode : Bytes3
  data : List Byte
deriving DecidableEq, Repr

/-- A plain text extension record (R44). -/
structure PteRecord where
  fields : Bytes12
  text : List Byte
deriving DecidableEq, Repr

/-- An image block record (R45). -/
structure ImageBlock where
  left : Half
  top : Half
  width : Half
  height : Half
  packed : Byte
  lct : Option (List Rgb)
  minCodeSize : Byte
  pixels : List Byte
deriving DecidableEq, Repr

/-- A Document (R37). -/
structure Document where
  header : Header
  screen : Screen
  gct : Option (List Rgb)
  gces : List GceRecord
  comments : List CommentRecord
  apps : List AppRecord
  ptes : List PteRecord
  images : List ImageBlock
deriving DecidableEq, Repr

/-- The working Document of PSTART (R231): no table, no record. Header and screen are zero until HDR and LSD write them. -/
def Document.fresh : Document :=
  { header := ⟨⟨0, 0, 0⟩, ⟨0, 0, 0⟩⟩, screen := ⟨0, 0, 0, 0, 0⟩, gct := none, gces := [], comments := [], apps := [],
    ptes := [], images := [] }

/-- What PARSE holds between two steps (R231, R239 to R243): the working Document D, the image block whose pixels are not known
yet, whether P_APP or P_PTE still waits for its size byte and fixed part, the fragments of the running sub-block loop, and the fixed
part of the extension they belong to. [log 20] -/
structure Scratch where
  doc : Document
  img : ImageBlock
  headerDue : Bool
  frags : List (List Byte)
  appId : Bytes8
  appAuth : Bytes3
  pteFields : Bytes12
deriving DecidableEq, Repr

/-- An image block with nothing read. -/
def ImageBlock.fresh : ImageBlock := ⟨0, 0, 0, 0, 0, none, 0, []⟩

/-- Nothing read. -/
def Scratch.fresh : Scratch :=
  { doc := Document.fresh, img := ImageBlock.fresh, headerDue := false, frags := [],
    appId := ⟨0, 0, 0, 0, 0, 0, 0, 0⟩, appAuth := ⟨0, 0, 0⟩,
    pteFields := ⟨0, 0, 0, 0, 0, 0, 0, 0, 0, 0, 0, 0⟩ }

/-! ## Streams and host -/

/-- SRC (20_memory.md R61): the answers its next accesses give, `none` being IoErr; behind the last answer every access answers
Eos. [log 2] -/
structure Source where
  attached : Bool
  answers : List (Option Byte)
deriving DecidableEq, Repr

/-- SNK (R62): its bytes, and how many more writes succeed (`none`: all). [log 3] -/
structure Sink where
  attached : Bool
  bytes : List Byte
  okWrites : Option Nat
deriving DecidableEq, Repr

/-- What the host or the mutator does (60_exceptions.md R310, R321, R322). [log 1, 23] -/
inductive HostAction where
  | attachSource (answers : List (Option Byte))
  | attachSink (okWrites : Option Nat)
  | writeArgK (k : Byte)
  | writePix (pix : List Byte)
  | writeCmd (c : StartCommand)
  | putDocument (d : Document)
deriving DecidableEq, Repr

/-- An action and when it lands: once the CORE is not BUSY, or after so many steps whatever the CORE does. [log 1] -/
structure HostEvent where
  after : Option Nat
  action : HostAction
deriving DecidableEq, Repr

/-! ## State -/

/-- The state of the machine (R20): groups (a) to (f), the streams, the parameters of R12, the model's place inside a command, the
host's events and the counter of free values. R20 calls the parameters configuration: they stand here because `exec` and `step` have
no other argument, and no instruction, step or act of the host writes them. [log 12, 13] -/
structure State where
  -- (a) host interface registers, R21 to R24
  cmd : Command
  argK : Byte
  argKWritten : Bool
  status : Status
  errInfo : ErrInfo
  -- (b) position and control state, R25 to R27
  pos : Nat
  pst : PState
  spos : Nat
  sst : SState
  -- (c) the decoder's object, R28 to R34
  dec : Decoder
  -- (d) the pixel buffer OUT, called PIX as the encoder's input, R35
  out : List Byte
  pixWritten : Bool
  -- (e) the encoder's object, R36
  enc : Encoder
  -- (f) the document store, R37; none is `invalid`
  doc : Option Document
  -- the streams, R61, R62
  src : Source
  snk : Sink
  -- the parameters, R12; never written
  params : Params
  -- the place inside a command [log 20]
  scratch : Scratch
  lzwUnit : LzwUnit
  imgIdx : Nat
  -- the model's own fields [log 1, 7]
  host : List HostEvent
  fresh : Nat
deriving DecidableEq, Repr

/-- A decoder object of zeros: the reset value the spec leaves open. DESIGN CHOICE [log 6] -/
def Decoder.zero : Decoder := ⟨0, 0, 0, 0, 0, none, [], 0, 0, 0, false, false⟩

/-- An encoder object of zeros: the reset value the spec leaves open. DESIGN CHOICE [log 6] -/
def Encoder.zero : Encoder := ⟨0, 0, 0, [], 0, 0, none, 0, 0, [], []⟩

/-- Power-on reset (70_reset_and_hazards.md R340). CMD, STATUS, POS, SPOS, PST, SST and DOC are the spec's, and so are the
parameters' values (R12); every other value is the model's. DESIGN CHOICE [log 6] -/
def State.reset : State :=
  { cmd := .none, argK := 0, argKWritten := false, status := ⟨.idle, 0, false⟩, errInfo := ⟨.unknownBlock 0, 0⟩,
    pos := 0, pst := .idle, spos := 0, sst := .idle, dec := Decoder.zero, out := [], pixWritten := false, enc := Encoder.zero,
    doc := none, src := ⟨false, []⟩, snk := ⟨false, [], none⟩, params := Params.spec, scratch := Scratch.fresh, lzwUnit := .off,
    imgIdx := 0, host := [], fresh := 0 }

/-! ## Stops -/

/-- Why the machine stops with a fault. The five faults of the spec are no stops: they end a command and the machine goes on
(60_exceptions.md R309, `takeFault`). -/
inductive Fault where
  /-- NEXTCODE, E.MATCH, E.MISS and E.OVERFLOW raise it where the row's own selecting condition fails (no previous code, no
  pending match, no table entry): the row's pseudocode has no value to work on there. Where the rest of a row's condition fails exec
  runs the row. `step` never selects a row so. Safe. [log 15] -/
  | notSelected
  /-- `step` raises it where STATUS is BUSY and no rule names the next operation. No run from reset gets there. Safe. [log 16] -/
  | controlLost
deriving DecidableEq, Repr

/-- Why an operation has no meaning (`refuse` of 00_scope.md R14, 93_implementation_defined.md Part 1). -/
inductive Refusal where
  /-- an instruction without a meaning in this model, by its mnemonic; raised by no arm. Safe. -/
  | notModelled (mnemonic : String)
  /-- a host write or a command while STATUS is BUSY (U3, R310). Safe. -/
  | busy
  /-- a minimum code size outside 2 to 8, raised by DECODE, ENCODE, LZW and S.IMG (U1, R187, R217). Safe. -/
  | badMinCodeSize
  /-- a pixel index of 2^k or more, raised by ENCODE and S.IMG (U2, R211). Safe. -/
  | symbolOutOfAlphabet
  /-- SERIALIZE and its parts where DOC is `invalid` (U4, R284). Safe. -/
  | noDocument
  /-- DECODE or ENCODE where ARG_K was never written (U5, R22). Safe. -/
  | argKNeverWritten
  /-- ENCODE where the buffer does not hold what the host wrote to PIX: never written, or overwritten by the CORE since (U5, R314,
  10_state.md R48). Safe. [log 19] -/
  | pixNeverWritten
  /-- PARSE or DECODE where no SRC was ever attached (R311, R313). Safe. [log 18] -/
  | noSource
  /-- SERIALIZE or ENCODE where no SNK was ever attached (R312, R314). Safe. [log 18] -/
  | noSink
  /-- a step after which the pixel buffer, a Document or a position counter would exceed a finite OUT_MAX, DOC_MAX or POS_BITS
  (U10); raised by no step where they have this spec's values. Safe. [log 13] -/
  | capacityExceeded
deriving DecidableEq, Repr

end Sys2Proof.Machine
end

