-- ==== Sys2Proof/Machine/Capacity.lean ====
section
/-! DEFINITION. The capacities OUT_MAX, DOC_MAX and POS_BITS (00_scope.md R12, 10_state.md R25, R35): a step behind which one of them
is exceeded is refused (93_implementation_defined.md U10). With this spec's values nothing is bounded. [log 13] -/

namespace Sys2Proof.Machine

/-- The bytes a Document holds: the unit of DOC_MAX, which the spec does not give. DESIGN CHOICE [log 13] -/
def documentSize (d : Document) : Nat :=
  13 + 3 * (d.gct.getD []).length + 4 * d.gces.length + (d.comments.map fun c => c.fragments.flatten.length).sum +
    (d.apps.map fun a => 11 + a.data.length).sum + (d.ptes.map fun p => 12 + p.text.length).sum +
    (d.images.map fun m => 10 + 3 * (m.lct.getD []).length + m.pixels.length).sum

/-- The Documents held: DOC, and the working Document of a running PARSE. -/
def documents (s : State) : List Document :=
  s.doc.toList ++ if s.status.state = .busy ∧ s.cmd = .parse then [s.scratch.doc] else []

/-- The position a fault has recorded. -/
def faultPositions (s : State) : List Nat := if s.status.state = .doneFault then [s.errInfo.position] else []

/-- The buffer is within OUT_MAX. -/
def outFits (s : State) : Bool :=
  match s.params.outMax with
  | none => true
  | some n => s.out.length ≤ n

/-- The Documents held are within DOC_MAX. -/
def docFits (s : State) : Bool :=
  match s.params.docMax with
  | none => true
  | some n => (documents s).all fun d => documentSize d ≤ n

/-- POS, SPOS and a recorded position are within POS_BITS (R25). -/
def posFits (s : State) : Bool :=
  match s.params.posBits with
  | none => true
  | some b => ([s.pos, s.spos] ++ faultPositions s).all fun n => n < 2 ^ b

/-- No capacity is exceeded. -/
def capacityOk (s : State) : Bool := outFits s && docFits s && posFits s

/-- A step whose next state exceeds a capacity is refused instead (U10). -/
def capped (o : Host.Outcome State Fault Refusal) : Host.Outcome State Fault Refusal :=
  match o with
  | .next t => if capacityOk t then .next t else .refused .capacityExceeded
  | .fault f => .fault f
  | .refused r => .refused r

end Sys2Proof.Machine
end

