-- ==== Sys2Proof/Machine/Flags.lean ====
section
/-! DEFINITION. The one-bit state and the status fields (10_state.md R23, R46): the CORE has no arithmetic flags. -/

namespace Sys2Proof.Machine

/-- Whether a command runs. -/
def State.busy (s : State) : Bool := s.status.state == .busy

/-- STATUS at the write of CMD (60_exceptions.md R310): PTE_SEEN is kept (R49). -/
def startStatus (t : Status) : Status := { t with state := .busy, err := 0 }

/-- STATUS at a successful end (R315). -/
def okStatus (t : Status) : Status := { t with state := .doneOk }

/-- STATUS at a fault (R309). -/
def faultStatus (code : Nat) (t : Status) : Status := { t with state := .doneFault, err := code }

/-- `STATUS.PTE_SEEN <- v` (43_container_parser.md R231, R241). -/
def setPteSeen (v : Bool) (s : State) : State := { s with status := { s.status with pteSeen := v } }

/-- The sub-block flags at the start of a sub-block loop of an extension (R34). -/
def clearSubBlockFlags (d : Decoder) : Decoder := { d with sbrem := 0, sbterm := false, sbeos := false }

/-- PREV's valid bit with its value: a resolved code becomes the previous code (41_lzw_decoder.md R181). -/
def setPrev (c : Nat) (d : Decoder) : Decoder := { d with prev := some c }

/-- WIDEN (R180): evaluated directly after NEXT has been increased. -/
def widen (d : Decoder) : Decoder := if d.next = 2 ^ d.w ∧ d.w < Config.maxW then { d with w := d.w + 1 } else d

/-- EWIDEN (42_lzw_encoder.md R206): evaluated after every data code, before the registration. -/
def eWiden (e : Encoder) : Encoder := if e.next = 2 ^ e.w ∧ e.w < Config.maxW then { e with w := e.w + 1 } else e

/-- The valid range of a minimum code size (00_scope.md R11, R187, R217). -/
def minCodeSizeOk (k : Nat) : Bool := Config.kMin ≤ k && k ≤ Config.kMax

end Sys2Proof.Machine
end

