-- ==== Sys2Proof/Machine/Ops.lean ====
section
/-! DEFINITION. The operations every meaning shares: sparse maps, the dictionary and the encoder's table, free values, taking a
fault and ending a command, the source and the sink byte by byte (40_cursor.md). Pseudocode names are the spec's. -/

namespace Sys2Proof.Machine

/-! ## Results -/

/-- What an operation of the pseudocode ends in: a result, or `raise` with the position the fault records (00_scope.md R14). -/
inductive Res (α : Type) where
  | ok (a : α) (s : State)
  | raise (c : Cause) (position : Nat) (s : State)

/-- One operation after another; a raise ends the sequence. -/
def Res.bind {α β : Type} (r : Res α) (f : α → State → Res β) : Res β :=
  match r with
  | .ok a s => f a s
  | .raise c p s => .raise c p s

/-! ## Sparse maps -/

/-- The value under a key. -/
def mapGet {α : Type} : SMap α → Nat → Option α
  | [], _ => none
  | (k', v) :: t, k => if k = k' then some v else mapGet t k

/-- Puts a value under a key, keeping the keys in rising order. -/
def mapSet {α : Type} : SMap α → Nat → α → SMap α
  | [], k, v => [(k, v)]
  | (k', v') :: t, k, v =>
    if k < k' then (k, v) :: (k', v') :: t
    else if k = k' then (k, v) :: t
    else (k', v') :: mapSet t k v

/-- Takes a key out. -/
def mapErase {α : Type} (m : SMap α) (k : Nat) : SMap α := m.filter fun e => e.1 != k

/-- The canonical form: keys strictly rising. -/
def mapWf {α : Type} (m : SMap α) : Bool := decide (m.Pairwise fun a b => a.1 < b.1)

/-- A map from pairs in any order, a later pair replacing an earlier one. -/
def mapOf {α : Type} (l : List (Nat × α)) : SMap α := l.foldl (fun m e => mapSet m e.1 e.2) []

/-! ## DICT and ETAB -/

/-- `DICT[i]`; the empty sequence stands for `empty` (10_state.md R32). -/
def dictRead (d : Dict) (i : Nat) : List Byte := (mapGet d i).getD []

/-- `DICT[i] <- s`. -/
def dictWrite (d : Dict) (i : Nat) (s : List Byte) : Dict := if s = [] then mapErase d i else mapSet d i s

/-- `for i in lo .. 4095: DICT[i] <- empty` (41_lzw_decoder.md R171, R174). -/
def dictClearFrom (d : Dict) (lo : Nat) : Dict := d.filter fun e => !(lo ≤ e.1 && e.1 < Config.dictSize)

/-- The dictionary of START: `[i]` for every i below CLR, everything else empty (R171). -/
def dictInit (clr : Nat) : Dict := (List.range clr).map fun i => (i, [BitVec.ofNat 8 i])

/-- The canonical form of DICT: keys strictly rising, and no listed entry empty. -/
def dictWf (d : Dict) : Bool := mapWf d && d.all fun e => e.2 != []

/-- The key of the pair (code, byte) in ETAB. -/
def tabKey (c : Nat) (p : Byte) : Nat := 256 * c + p.toNat

/-- `ETAB[(c, p)]` (10_state.md R36). -/
def tabRead (t : ETab) (c : Nat) (p : Byte) : Option Nat := mapGet t (tabKey c p)

/-- `ETAB[(c, p)] <- v`. -/
def tabWrite (t : ETab) (c : Nat) (p : Byte) (v : Nat) : ETab := mapSet t (tabKey c p) v

/-- The canonical form of the two addressed memories. -/
def Memory.wf (s : State) : Bool := dictWf s.dec.dict && mapWf s.enc.tab

/-! ## The start of the LZW objects -/

/-- `START(k)`: the decoder's object (41_lzw_decoder.md R171). -/
def startDecoder (k : Nat) : Decoder :=
  { k := k, clr := 2 ^ k, endc := 2 ^ k + 1, dict := dictInit (2 ^ k), next := 2 ^ k + 2, w := k + 1, prev := none,
    acc := 0, nb := 0, sbrem := 0, sbterm := false, sbeos := false }

/-- `CLEAR` on the decoder's object (R174): the bit buffer and the sub-block counters are not touched. -/
def clearDecoder (d : Decoder) : Decoder :=
  { d with dict := dictClearFrom d.dict (d.clr + 2), next := d.clr + 2, w := d.k + 1, prev := none }

/-- `ESTART(k)` on the bytes `pix` (42_lzw_encoder.md R201). -/
def startEncoder (k : Nat) (pix : List Byte) : Encoder :=
  { k := k, clr := 2 ^ k, endc := 2 ^ k + 1, tab := [], next := 2 ^ k + 2, w := k + 1, cur := none, acc := 0, nb := 0,
    buf := [], rest := pix }

/-- `START(k)` as a whole: OUT is emptied and the decoder runs. The buffer no longer holds what the host wrote to PIX
(10_state.md R48). [log 19] -/
def startDecode (k : Nat) (s : State) : State :=
  { s with dec := startDecoder k, out := [], pixWritten := false, lzwUnit := .lzwd }

/-- `ESTART(k)` as a whole: PIX is filled and the encoder runs, its initial clear code still to come (20_memory.md R60). -/
def startEncode (k : Nat) (pix : List Byte) (s : State) : State :=
  { s with enc := startEncoder k pix, out := pix, lzwUnit := .lzweStart }

/-- The inputs for which the encoder is defined: every index below 2^k (42_lzw_encoder.md R211). -/
def alphabetOk (k : Nat) (pix : List Byte) : Bool := pix.all fun p => p.toNat < 2 ^ k

/-! ## Dead state -/

/-- A decoder object with free contents, within the registers' widths (93_implementation_defined.md U7). [log 8] -/
def freeDecoder (n : Nat) : Decoder :=
  { k := Config.freeNat n 0 % 256, clr := Config.freeNat n 1 % 512, endc := Config.freeNat n 2 % 512,
    next := Config.freeNat n 3 % 8192, w := Config.freeNat n 4 % 16,
    prev := if Config.freeBool n 0 then some (Config.freeNat n 5 % 4096) else none,
    dict := (mapOf ((Config.freeEntries n).map fun e => (e.1 % 4096, e.2))).filter fun e => e.2 != [],
    acc := Config.freeNat n 6 % 2 ^ 19, nb := Config.freeNat n 7 % 20, sbrem := Config.freeNat n 8 % 256,
    sbterm := Config.freeBool n 1, sbeos := Config.freeBool n 2 }

/-- An encoder object with free contents (U7). Its numbers are others than those of `freeDecoder`. [log 8] -/
def freeEncoder (n : Nat) : Encoder :=
  { k := Config.freeNat n 9 % 256, clr := Config.freeNat n 10 % 512, endc := Config.freeNat n 11 % 512,
    tab := mapOf (Config.freePairs n), next := Config.freeNat n 12 % 8192, w := Config.freeNat n 13 % 16,
    cur := if Config.freeBool n 3 then some (Config.freeNat n 14 % 4096) else none, acc := Config.freeNat n 15 % 2 ^ 19,
    nb := Config.freeNat n 16 % 20, buf := (Config.freeBytes n 1).take 255, rest := [] }

/-- The decoder's object is discarded at the end of its decode (R190, R191). -/
def dropDecoder (s : State) : State := { s with dec := freeDecoder s.fresh, lzwUnit := .off, fresh := s.fresh + 1 }

/-- The encoder's object is discarded at the end of its encode (R201). -/
def dropEncoder (s : State) : State := { s with enc := freeEncoder s.fresh, lzwUnit := .off, fresh := s.fresh + 1 }

/-- The end of every command: both LZW objects are dead, whatever they held (U7, R34 and R36 included). [log 8] -/
def dropObjects (s : State) : State :=
  { s with dec := freeDecoder s.fresh, enc := freeEncoder s.fresh, lzwUnit := .off, fresh := s.fresh + 1 }

/-- A free value for the buffer, no longer than a finite OUT_MAX. [log 9, 13] -/
def boundedBuffer (p : Params) (l : List Byte) : List Byte :=
  match p.outMax with
  | none => l
  | some n => l.take n

/-- A free value for a position counter, within a finite POS_BITS. [log 7, 13] -/
def boundedCounter (p : Params) (n : Nat) : Nat :=
  match p.posBits with
  | none => n
  | some b => n % 2 ^ b

/-- What a fault leaves of a running LZW unit: the OUT of a faulted decode is any value (R309, U7), and no unit runs. [log 8, 9] -/
def abandonUnit (s : State) : State :=
  match s.lzwUnit with
  | .off => dropObjects s
  | .lzwd => dropObjects { s with out := boundedBuffer s.params (Config.freeBytes s.fresh 0) }
  | .lzweStart => dropObjects s
  | .lzwe => dropObjects s

/-! ## Faults: taking one, and what stands in the place of a return -/

/-- The cause codes (60_exceptions.md R306). -/
def causeCode : Cause → Nat
  | .ioError _ => 1
  | .invalidSignature _ => 2
  | .unknownBlock _ => 3
  | .badBlockSize _ _ => 4
  | .invalidCode _ _ => 5

/-- PST or SST, and DOC, at a fault: PARSE loses its Document, SERIALIZE keeps DOC (R309); DECODE leaves PST, which only PARSE
writes (10_state.md R26). Whether the write fault of an ENCODE sets SST to S_FAULT is open (R309 says 'PST (or SST)', R285 'from any
state', and neither R27, R212 nor a vector says it of an ENCODE): SST stays as it was. DESIGN CHOICE [log 30] -/
def faultControl (s : State) : State :=
  match s.cmd with
  | .none => s
  | .parse => { s with pst := .fault, doc := none }
  | .serialize => { s with sst := .fault }
  | .decode => s
  | .encode => s

/-- Taking a fault (R309): the running command stops at once, STATUS and ERRINFO are written, the working Document is dropped,
the LZW objects are dead. There is no return from a fault (R316): the host starts another command. -/
def takeFault (c : Cause) (position : Nat) (s : State) : State :=
  let t := faultControl (abandonUnit s)
  { t with status := faultStatus (causeCode c) t.status, errInfo := ⟨c, position⟩, scratch := Scratch.fresh, imgIdx := 0 }

/-- `finish` of a command (R315). -/
def finishCommand (s : State) : State :=
  dropObjects { s with status := okStatus s.status, scratch := Scratch.fresh, imgIdx := 0 }

/-- An operation without a result, as a step: a raise takes the fault. -/
def Res.toOutcome {α : Type} (r : Res α) (f : α → State → Host.Outcome State Fault Refusal) :
    Host.Outcome State Fault Refusal :=
  match r with
  | .ok a s => f a s
  | .raise c p s => .next (takeFault c p s)

/-- A fault raised by a test of the format, recorded at POS (R302 to R305). -/
def raiseFormat (c : Cause) (s : State) : Host.Outcome State Fault Refusal := .next (takeFault c s.pos s)

/-- The write of CMD that starts a command (R310, R341). ERRINFO is unspecified from here to a fault (10_state.md R49). [log 10] -/
def startCommand (c : Command) (s : State) : State :=
  { s with
    cmd := c, status := startStatus s.status, errInfo := Config.freeErrInfo s.fresh, pos := 0, spos := 0,
    scratch := Scratch.fresh, lzwUnit := .off, imgIdx := 0, fresh := s.fresh + 1 }

/-! ## The source, byte by byte (40_cursor.md section 1) -/

/-- The three answers of SrcNext (R150). -/
inductive SrcAnswer where
  | byte (b : Byte)
  | eos
  | ioErr
deriving DecidableEq, Repr

/-- `SrcNext()` (R150). After IoErr, POS and the later answers are any value (U6). [log 7] -/
def srcNext (s : State) : SrcAnswer × State :=
  match s.src.answers with
  | [] => (.eos, s)
  | some b :: rest => (.byte b, { s with src := { s.src with answers := rest }, pos := s.pos + 1 })
  | none :: _ =>
    (.ioErr, { s with
      src := { s.src with answers := Config.freeAnswers s.fresh }
      pos := boundedCounter s.params (Config.freeNat s.fresh 0)
      fresh := s.fresh + 1 })

/-- `MustByte()` (R151). The position recorded is POS at the failing access (R301). -/
def mustByte (s : State) : Res Byte :=
  match srcNext s with
  | (.byte b, t) => .ok b t
  | (.eos, t) => .raise (.ioError .unexpectedEof) s.pos t
  | (.ioErr, t) => .raise (.ioError .readFailure) s.pos t

/-- `MustBytes(n)` (R152). -/
def mustBytes : Nat → State → Res (List Byte)
  | 0, s => .ok [] s
  | n + 1, s => (mustByte s).bind fun b t => (mustBytes n t).bind fun bs u => .ok (b :: bs) u

/-- `MustU16()` (R153). -/
def mustU16 (s : State) : Res Half :=
  (mustByte s).bind fun lo t => (mustByte t).bind fun hi u => .ok (u16le lo hi) u

/-- `ReadIndicator()` (R154); `none` is NoMore. -/
def readIndicator (s : State) : Res (Option Byte) :=
  match srcNext s with
  | (.byte b, t) => .ok (some b) t
  | (.eos, t) => .ok none t
  | (.ioErr, t) => .raise (.ioError .readFailure) s.pos t

/-! ## Sub-blocks, the strict readers (section 2) -/

/-- What the strict sub-block reader leaves of SBREM and SBEOS where it raises, `n` being the length of the sub-block whose payload
begins at `start`: the bytes not read, and SBEOS set where SRC has ended (10_state.md R34). -/
def Res.markSubBlock {α : Type} (n start : Nat) (r : Res α) : Res α :=
  match r with
  | .ok a s => .ok a s
  | .raise c p s =>
    .raise c p { s with dec := { s.dec with sbrem := n - (p - start), sbeos := c == .ioError .unexpectedEof } }

/-- One turn of the loop of `MustSubBlocks()` (R156): the payload of a data sub-block, or none at the terminator. SBREM and SBTERM
of a turn that is read are written by its row, SB.DATA or SB.TERM. -/
def mustSubBlock (s : State) : Res (Option (List Byte)) :=
  ((mustByte s).markSubBlock 0 s.pos).bind fun n t =>
    if n = 0 then .ok none t else ((mustBytes n.toNat t).markSubBlock n.toNat t.pos).bind fun p u => .ok (some p) u

/-- The loop of `MustSubBlocks()`; every turn consumes a byte, so the fuel is never short when it is the number of answers. -/
def mustSubBlocksLoop : Nat → List (List Byte) → State → Res (List (List Byte))
  | 0, frags, s => .ok frags s
  | fuel + 1, frags, s =>
    (mustSubBlock s).bind fun p t =>
      match p with
      | none => .ok frags t
      | some f => mustSubBlocksLoop fuel (frags ++ [f]) t

/-- `MustSubBlocks()` (R156), the whole loop in one piece; the machine runs it row by row (SB.DATA, SB.TERM). -/
def mustSubBlocks (s : State) : Res (List (List Byte)) := mustSubBlocksLoop (s.src.answers.length + 1) [] s

/-- `SkipSubBlocks()` (R157). -/
def skipSubBlocks (s : State) : Res Unit := (mustSubBlocks s).bind fun _ t => .ok () t

/-! ## The sink, byte by byte (section 4) -/

/-- `SnkPut(b)` (R158): true is Ok. Whether the byte of a failed write reached SNK is any value (U6). [log 7, 25] -/
def snkPut (b : Byte) (s : State) : Bool × State :=
  match s.snk.okWrites with
  | none => (true, { s with snk := { s.snk with bytes := s.snk.bytes ++ [b] }, spos := s.spos + 1 })
  | some (n + 1) =>
    (true, { s with snk := { s.snk with bytes := s.snk.bytes ++ [b], okWrites := some n }, spos := s.spos + 1 })
  | some 0 =>
    (false, { s with snk := { s.snk with bytes := if Config.freeBool s.fresh 0 then s.snk.bytes ++ [b] else s.snk.bytes },
                     fresh := s.fresh + 1 })

/-- `MustPut(b)` (R158). -/
def mustPut (b : Byte) (s : State) : Res Unit :=
  match snkPut b s with
  | (true, t) => .ok () t
  | (false, t) => .raise (.ioError .writeFailure) s.spos t

/-- `PutBytes(s)` (R158). -/
def putBytes : List Byte → State → Res Unit
  | [], s => .ok () s
  | b :: bs, s => (mustPut b s).bind fun _ t => putBytes bs t

/-- `PutU16(v)` (R158). -/
def putU16 (v : Half) (s : State) : Res Unit := (mustPut (lo8 v) s).bind fun _ t => mustPut (hi8 v) t

/-- `PutChunks(s)` (R160): chunks of 255 bytes, the last shorter; the fuel bounds their number. -/
def putChunksLoop : Nat → List Byte → State → Res Unit
  | 0, _, s => .ok () s
  | fuel + 1, l, s =>
    if l.length = 0 then .ok () s
    else
      (mustPut (BitVec.ofNat 8 (min Config.sbMax l.length)) s).bind fun _ t =>
        (putBytes (l.take Config.sbMax) t).bind fun _ u => putChunksLoop fuel (l.drop Config.sbMax) u

/-- `PutChunks(s)` (R160). -/
def putChunks (l : List Byte) (s : State) : Res Unit := putChunksLoop l.length l s

/-- `PutSubBlocks(s)` (R160). -/
def putSubBlocks (l : List Byte) (s : State) : Res Unit := (putChunks l s).bind fun _ t => mustPut 0x00 t

/-- Something written for each record of a sequence, in order. -/
def putEach {α : Type} (f : α → State → Res Unit) : List α → State → Res Unit
  | [], s => .ok () s
  | a :: as, s => (f a s).bind fun _ t => putEach f as t

end Sys2Proof.Machine
end

