-- ==== Sys2Proof/Machine/Operands.lean ====
section
/-! DEFINITION. Operands that are more than bytes: colour tables, UTF-8 fragments, codes taken from and put into the bit stream,
the selection of a code's class and of an encoder step. -/

namespace Sys2Proof.Machine

/-! ## Colour tables -/

/-- `CT(n)` (43_container_parser.md R235). -/
def readTable : Nat → State → Res (List Rgb)
  | 0, s => .ok [] s
  | n + 1, s =>
    (mustByte s).bind fun r t => (mustByte t).bind fun g u => (mustByte u).bind fun b v =>
      (readTable n v).bind fun rest w => .ok (⟨r, g, b⟩ :: rest) w

/-- The entries of a colour table to the sink (44_container_serializer.md R274, R279). -/
def putTable (t : List Rgb) (s : State) : Res Unit := putEach (fun e => putBytes e.toList) t s

/-! ## Comment fragments -/

/-- What the first byte of a UTF-8 character asks of the rest: how many bytes follow, and the range of the first of them. PRESUMED
(the Unicode standard's table of well-formed byte sequences). [log 11] -/
def utf8Lead (b : Nat) : Option (Nat × Nat × Nat) :=
  if b < 0x80 then some (0, 0, 0)
  else if 0xC2 ≤ b ∧ b ≤ 0xDF then some (1, 0x80, 0xBF)
  else if b = 0xE0 then some (2, 0xA0, 0xBF)
  else if b = 0xED then some (2, 0x80, 0x9F)
  else if 0xE1 ≤ b ∧ b ≤ 0xEF then some (2, 0x80, 0xBF)
  else if b = 0xF0 then some (3, 0x90, 0xBF)
  else if 0xF1 ≤ b ∧ b ≤ 0xF3 then some (3, 0x80, 0xBF)
  else if b = 0xF4 then some (3, 0x80, 0x8F)
  else none

/-- Whether bytes are valid UTF-8, `need` bytes of a character being due, the next of them in `lo` to `hi`. -/
def utf8From (need lo hi : Nat) : List Byte → Bool
  | [] => need == 0
  | b :: t =>
    if need = 0 then
      match utf8Lead b.toNat with
      | some (n, l, h) => utf8From n l h t
      | none => false
    else lo ≤ b.toNat && b.toNat ≤ hi && utf8From (need - 1) 0x80 0xBF t

/-- Valid UTF-8. -/
def utf8Valid (bs : List Byte) : Bool := utf8From 0 0 0 bs

/-- The UTF-8 encoding of one character. PRESUMED (the Unicode standard). [log 11] -/
def utf8Char (c : Char) : List Byte :=
  let v := c.val.toNat
  if v < 0x80 then [BitVec.ofNat 8 v]
  else if v < 0x800 then [BitVec.ofNat 8 (0xC0 + v / 64), BitVec.ofNat 8 (0x80 + v % 64)]
  else if v < 0x10000 then
    [BitVec.ofNat 8 (0xE0 + v / 4096), BitVec.ofNat 8 (0x80 + v / 64 % 64), BitVec.ofNat 8 (0x80 + v % 64)]
  else
    [BitVec.ofNat 8 (0xF0 + v / 262144), BitVec.ofNat 8 (0x80 + v / 4096 % 64), BitVec.ofNat 8 (0x80 + v / 64 % 64),
     BitVec.ofNat 8 (0x80 + v % 64)]

/-- `UTF8_LOSSY(p)` (10_state.md R42, U8): p itself when it is valid UTF-8, else the UTF-8 encoding of a free text. [log 11] -/
def utf8Lossy (p : List Byte) : List Byte := if utf8Valid p then p else (Config.lossyText p).flatMap utf8Char

/-! ## Data bytes and codes from the source (40_cursor.md sections 2 and 3) -/

/-- `DataByte()` (R155); `none` is NoMore. -/
def dataByte (s : State) : Res (Option Byte) :=
  if s.dec.sbterm || s.dec.sbeos then .ok none s
  else if s.dec.sbrem = 0 then
    match srcNext s with
    | (.ioErr, t) => .raise (.ioError .readFailure) s.pos t
    | (.eos, t) => .ok none { t with dec := { t.dec with sbeos := true } }
    | (.byte n, t) =>
      if n = 0 then .ok none { t with dec := { t.dec with sbterm := true } }
      else
        match srcNext { t with dec := { t.dec with sbrem := n.toNat } } with
        | (.ioErr, u) => .raise (.ioError .readFailure) t.pos u
        | (.eos, u) => .ok none { u with dec := { u.dec with sbeos := true } }
        | (.byte b, u) => .ok (some b) { u with dec := { u.dec with sbrem := u.dec.sbrem - 1 } }
  else
    match srcNext s with
    | (.ioErr, t) => .raise (.ioError .readFailure) s.pos t
    | (.eos, t) => .ok none { t with dec := { t.dec with sbeos := true } }
    | (.byte b, t) => .ok (some b) { t with dec := { t.dec with sbrem := t.dec.sbrem - 1 } }

/-- The loop of `Drain()`: every turn consumes an answer or ends, so the number of answers and one more is fuel enough. -/
def drainLoop : Nat → State → Res Unit
  | 0, s => .ok () s
  | fuel + 1, s =>
    if s.dec.sbterm || s.dec.sbeos then .ok () s
    else (dataByte s).bind fun _ t => drainLoop fuel t

/-- `Drain()` (R163). -/
def drain (s : State) : Res Unit := drainLoop (s.src.answers.length + 1) s

/-- A data byte enters the bit buffer above the bits already held (10_state.md R33). -/
def pushByte (b : Byte) (d : Decoder) : Decoder := { d with acc := d.acc + b.toNat * 2 ^ d.nb, nb := d.nb + 8 }

/-- `while NB < W` of `NextCode()`: true when W bits are there. Every turn adds 8 bits, so W turns are enough. -/
def fillBits : Nat → State → Res Bool
  | 0, s => .ok (s.dec.w ≤ s.dec.nb) s
  | fuel + 1, s =>
    if s.dec.w ≤ s.dec.nb then .ok true s
    else
      (dataByte s).bind fun b t =>
        match b with
        | none => .ok false t
        | some b => fillBits fuel { t with dec := pushByte b t.dec }

/-- A code of W bits leaves the bit buffer (R33). -/
def popCode (d : Decoder) : Nat × Decoder :=
  (d.acc % 2 ^ d.w, { d with acc := d.acc / 2 ^ d.w, nb := d.nb - d.w })

/-- `NextCode()` (R161); `none` is NoCode. -/
def nextCode (s : State) : Res (Option Nat) :=
  (fillBits s.dec.w s).bind fun full t =>
    if full then .ok (some (popCode t.dec).1) { t with dec := (popCode t.dec).2 } else .ok none t

/-- What the class of a code depends on (30_encoding.md R121). -/
def codeContext (d : Decoder) : CodeContext := { clr := d.clr, endc := d.endc, next := d.next, w := d.w, prev := d.prev }

/-! ## A resolved code (41_lzw_decoder.md section 3) -/

/-- `REGISTER(seq)` with `WIDEN()` (R179, R180). -/
def register (seq : List Byte) (d : Decoder) : Decoder :=
  match d.prev with
  | none => d
  | some p =>
    if d.next < Config.dictSize then
      widen { d with dict := dictWrite d.dict d.next (dictRead d.dict p ++ seq.take 1), next := d.next + 1 }
    else d

/-- APPEND, REGISTER, `PREV <- c` (R178, R179, R181). -/
def resolve (c : Nat) (seq : List Byte) (s : State) : State :=
  { s with out := s.out ++ seq, dec := setPrev c (register seq s.dec) }

/-! ## Codes to the sink (40_cursor.md section 5, 42_lzw_encoder.md R209, R210) -/

/-- EBUF as one chunk: its length byte and its bytes; EBUF is emptied. -/
def putChunk (s : State) : Res Unit :=
  (mustPut (BitVec.ofNat 8 s.enc.buf.length) s).bind fun _ t =>
    (putBytes s.enc.buf t).bind fun _ u => .ok () { u with enc := { u.enc with buf := [] } }

/-- `EmitByte(b)` (R210): a full EBUF goes out as a chunk. -/
def emitByte (b : Byte) (s : State) : Res Unit :=
  let t := { s with enc := { s.enc with buf := s.enc.buf ++ [b] } }
  if t.enc.buf.length = Config.sbMax then putChunk t else .ok () t

/-- `while ENB >= 8` of `PutCode`; every turn takes 8 from ENB, so ENB turns are enough. -/
def emitBits : Nat → State → Res Unit
  | 0, s => .ok () s
  | fuel + 1, s =>
    if 8 ≤ s.enc.nb then
      (emitByte (BitVec.ofNat 8 (s.enc.acc % 256)) s).bind fun _ t =>
        emitBits fuel { t with enc := { t.enc with acc := t.enc.acc / 256, nb := t.enc.nb - 8 } }
    else .ok () s

/-- `PutCode(c)` (R162). -/
def putCode (c : Nat) (s : State) : Res Unit :=
  let t := { s with enc := { s.enc with acc := s.enc.acc + c * 2 ^ s.enc.nb, nb := s.enc.nb + s.enc.w } }
  emitBits t.enc.nb t

/-- `FlushBits()` (R162). -/
def flushBits (s : State) : Res Unit :=
  if 0 < s.enc.nb then
    (emitByte (BitVec.ofNat 8 (s.enc.acc % 256)) s).bind fun _ t => .ok () { t with enc := { t.enc with acc := 0, nb := 0 } }
  else .ok () s

/-- The end of the chunking at EFINISH (R210): a non-empty EBUF as the last chunk, then the terminator. -/
def flushChunks (s : State) : Res Unit :=
  if s.enc.buf.length = 0 then mustPut 0x00 s else (putChunk s).bind fun _ t => mustPut 0x00 t

/-! ## The encoder's steps (42_lzw_encoder.md section 2) -/

/-- The row of group `encstep` that the next index selects. -/
def selectStep (e : Encoder) (p : Byte) : Instr :=
  match e.cur with
  | none => .eMatch p
  | some c =>
    match tabRead e.tab c p with
    | some _ => .eMatch p
    | none => if e.next < Config.dictSize then .eMiss p else .eOverflow p

/-- `PutCode(ECUR)` and `EWIDEN()`, the common start of MISS, OVERFLOW and EFINISH (R205, R208). -/
def putMatch (c : Nat) (s : State) : Res Unit :=
  (putCode c s).bind fun _ t => .ok () { t with enc := eWiden t.enc }

/-- The registration of MISS, and the new match (R205). -/
def registerMiss (c : Nat) (p : Byte) (e : Encoder) : Encoder :=
  { e with tab := tabWrite e.tab c p e.next, next := e.next + 1, cur := some p.toNat }

/-- The reset of OVERFLOW, and the new match (R207). -/
def resetTable (p : Byte) (e : Encoder) : Encoder :=
  { e with tab := [], next := e.clr + 2, w := e.k + 1, cur := some p.toNat }

end Sys2Proof.Machine
end

