-- ==== Sys2Proof/Machine/Code.lean ====
section
/-! DEFINITION. Group `code`: the five classes of a code, and the end of the data (41_lzw_decoder.md R173 to R184). The code has
been taken from the bit stream when a meaning runs. That exec runs a row also on a code outside its class is a DESIGN CHOICE
[log 15]. -/

namespace Sys2Proof.Machine

/-- `finish(OUT)` of a decode (R184, R190): a `DECODE` has ended; in a `PARSE` OUT becomes the image's pixels and the loop goes
on (43_container_parser.md R243, R246). -/
def finishDecode (s : State) : State :=
  match s.cmd with
  | .parse =>
    dropDecoder { s with
      scratch := { s.scratch with doc :=
        { s.scratch.doc with images := s.scratch.doc.images ++ [{ s.scratch.img with pixels := s.out }] } },
      pst := .loop }
  | .none => finishCommand s
  | .serialize => finishCommand s
  | .decode => finishCommand s
  | .encode => finishCommand s

/-- FINISH (R184): the rest of the sub-block sequence is drained. -/
def finishCode (s : State) : Host.Outcome State Fault Refusal := (drain s).toOutcome fun _ t => .next (finishDecode t)

/-- END (R173). -/
def execEndCode (s : State) : Host.Outcome State Fault Refusal := finishCode s

/-- CLEAR (R174). -/
def execClear (s : State) : Host.Outcome State Fault Refusal := .next { s with dec := clearDecoder s.dec }

/-- KNOWN (R175). -/
def execKnown (c : Nat) (s : State) : Host.Outcome State Fault Refusal := .next (resolve c (dictRead s.dec.dict c) s)

/-- NEXTCODE (R176): the synthesised sequence. Without a previous code, where the row is not selected, exec stops: DESIGN CHOICE
[log 15] -/
def execNextCode (c : Nat) (s : State) : Host.Outcome State Fault Refusal :=
  match s.dec.prev with
  | some p => .next (resolve c (dictRead s.dec.dict p ++ (dictRead s.dec.dict p).take 1) s)
  | none => .fault .notSelected

/-- INVALID (R177). -/
def execInvalid (c : Nat) (s : State) : Host.Outcome State Fault Refusal := raiseFormat (.invalidCode c s.dec.w) s

/-- NOCODE (R183): the tolerant end. -/
def execNoCode (s : State) : Host.Outcome State Fault Refusal := finishCode s

end Sys2Proof.Machine
end

