-- ==== Sys2Proof/Machine/Emit.lean ====
section
/-! DEFINITION. Group `emit`: the nine parts of the serializer (44_container_serializer.md R272 to R280). Each writes all its
records and hands over to the next part (R285); S.IMG runs once for each image and once behind the last, the encoder's steps
coming between. A write that fails takes the fault (R282). -/

namespace Sys2Proof.Machine

/-- A part: SST stands in it, its bytes are written, SST goes to the next part. -/
def emitPart (here next : SState) (write : Document → State → Res Unit) (s : State) : Host.Outcome State Fault Refusal :=
  match s.doc with
  | none => .refused .noDocument
  | some d => (write d { s with sst := here }).toOutcome fun _ t => .next { t with sst := next }

/-- S.HDR (R272): as stored, not as the literal. -/
def execSHdr (s : State) : Host.Outcome State Fault Refusal :=
  emitPart .header .lsd (fun d t => (putBytes d.header.signature.toList t).bind fun _ u =>
    putBytes d.header.version.toList u) s

/-- S.LSD (R273). -/
def execSLsd (s : State) : Host.Outcome State Fault Refusal :=
  emitPart .lsd .gct (fun d t => (putU16 d.screen.width t).bind fun _ u => (putU16 d.screen.height u).bind fun _ v =>
    putBytes [d.screen.packed, d.screen.bgIndex, d.screen.aspect] v) s

/-- The table of an optional field, if present (R274, R279). -/
def putOptTable (t : Option (List Rgb)) (s : State) : Res Unit :=
  match t with
  | none => .ok () s
  | some t => putTable t s

/-- S.GCT (R274): present is judged on the Document's field. -/
def execSGct (s : State) : Host.Outcome State Fault Refusal := emitPart .gct .gce (fun d t => putOptTable d.gct t) s

/-- One record of S.GCE: eight bytes (R275). -/
def putGce (g : GceRecord) (s : State) : Res Unit :=
  putBytes [0x21, 0xF9, 0x04, g.packed, lo8 g.delay, hi8 g.delay, g.transparentIndex, 0x00] s

/-- S.GCE (R275). -/
def execSGce (s : State) : Host.Outcome State Fault Refusal := emitPart .gce .comment (fun d t => putEach putGce d.gces t) s

/-- One record of S.COM: the concatenation of the fragments, cut afresh (R276). -/
def putComment (c : CommentRecord) (s : State) : Res Unit :=
  (putBytes [0x21, 0xFE] s).bind fun _ t => putSubBlocks c.fragments.flatten t

/-- S.COM (R276). -/
def execSCom (s : State) : Host.Outcome State Fault Refusal :=
  emitPart .comment .app (fun d t => putEach putComment d.comments t) s

/-- One record of S.APP (R277). -/
def putApp (a : AppRecord) (s : State) : Res Unit :=
  (putBytes [0x21, 0xFF, 0x0B] s).bind fun _ t => (putBytes a.identifier.toList t).bind fun _ u =>
    (putBytes a.authCode.toList u).bind fun _ v => putSubBlocks a.data v

/-- S.APP (R277). -/
def execSApp (s : State) : Host.Outcome State Fault Refusal := emitPart .app .pte (fun d t => putEach putApp d.apps t) s

/-- One record of S.PTE inside the one extension: its size byte, its twelve bytes, its text's data sub-blocks (R278). -/
def putPte (p : PteRecord) (s : State) : Res Unit :=
  (mustPut 0x0C s).bind fun _ t => (putBytes p.fields.toList t).bind fun _ u => putChunks p.text u

/-- S.PTE (R278): all records under one introducer and one terminator; nothing when there is no record. -/
def execSPte (s : State) : Host.Outcome State Fault Refusal :=
  emitPart .pte .image (fun d t =>
    if d.ptes = [] then .ok () t
    else (putBytes [0x21, 0x01] t).bind fun _ u => (putEach putPte d.ptes u).bind fun _ v => mustPut 0x00 v) s

/-- The bytes of an image block before its encoder output (R279). -/
def putImageHead (m : ImageBlock) (s : State) : Res Unit :=
  (mustPut 0x2C s).bind fun _ s1 => (putU16 m.left s1).bind fun _ s2 => (putU16 m.top s2).bind fun _ s3 =>
    (putU16 m.width s3).bind fun _ s4 => (putU16 m.height s4).bind fun _ s5 => (mustPut m.packed s5).bind fun _ s6 =>
      (putOptTable m.lct s6).bind fun _ s7 => mustPut m.minCodeSize s7

/-- `encode(m.pixels, m.min_code_size)` inside S.IMG: its two tests, then ESTART (42_lzw_encoder.md R214). PIX no longer holds what
the host wrote (10_state.md R48). [log 19] -/
def startImageEncode (m : ImageBlock) (s : State) : Host.Outcome State Fault Refusal :=
  if !minCodeSizeOk m.minCodeSize.toNat then .refused .badMinCodeSize
  else if !alphabetOk m.minCodeSize.toNat m.pixels then .refused .symbolOutOfAlphabet
  else .next (startEncode m.minCodeSize.toNat m.pixels { s with pixWritten := false })

/-- S.IMG (R279): the next image's head and the start of its encode, or the hand-over behind the last image. -/
def execSImg (s : State) : Host.Outcome State Fault Refusal :=
  match s.doc with
  | none => .refused .noDocument
  | some d =>
    match d.images[s.imgIdx]? with
    | none => .next { s with sst := .trailer }
    | some m => (putImageHead m { s with sst := .image }).toOutcome fun _ t => startImageEncode m t

/-- S.TRL (R280): the trailer byte, and the end of the command. -/
def execSTrl (s : State) : Host.Outcome State Fault Refusal :=
  (mustPut 0x3B { s with sst := .trailer }).toOutcome fun _ t => .next (finishCommand { t with sst := .done })

end Sys2Proof.Machine
end

