-- ==== Sys2Proof/Machine/EncStep.lean ====
section
/-! DEFINITION. Group `encstep`: the steps of the encoder (42_lzw_encoder.md R202 to R210). The index p has been taken from PIX
when a meaning runs. A write that fails takes the fault (R212). -/

namespace Sys2Proof.Machine

/-- `finish` of an encode (R208): an `ENCODE` has ended; in a `SERIALIZE` the next image follows (44_container_serializer.md
R279). -/
def finishEncode (s : State) : State :=
  match s.cmd with
  | .serialize => dropEncoder { s with imgIdx := s.imgIdx + 1 }
  | .none => finishCommand s
  | .parse => finishCommand s
  | .decode => finishCommand s
  | .encode => finishCommand s

/-- E.CLEAR0 (R202): the initial clear code. -/
def execEClear0 (s : State) : Host.Outcome State Fault Refusal :=
  (putCode s.enc.clr s).toOutcome fun _ t => .next { t with lzwUnit := .lzwe }

/-- E.MATCH (R204): the first index, or the longer string that is known. With a pending match and no entry, where the row is not
selected, exec stops: DESIGN CHOICE [log 15] -/
def execEMatch (p : Byte) (s : State) : Host.Outcome State Fault Refusal :=
  match s.enc.cur with
  | none => .next { s with enc := { s.enc with cur := some p.toNat } }
  | some c =>
    match tabRead s.enc.tab c p with
    | some v => .next { s with enc := { s.enc with cur := some v } }
    | none => .fault .notSelected

/-- E.MISS (R205). DESIGN CHOICE [log 15]: where the row is not selected, with (ECUR, p) in ETAB or ENEXT = 4096, exec runs it all the
same, and without a pending match it stops. -/
def execEMiss (p : Byte) (s : State) : Host.Outcome State Fault Refusal :=
  match s.enc.cur with
  | none => .fault .notSelected
  | some c => (putMatch c s).toOutcome fun _ t => .next { t with enc := registerMiss c p t.enc }

/-- E.OVERFLOW (R205, R207): the table is full; a clear code and a fresh table. DESIGN CHOICE [log 15]: where the row is not selected,
with (ECUR, p) in ETAB or a table that is not full, exec runs it all the same, and without a pending match it stops. -/
def execEOverflow (p : Byte) (s : State) : Host.Outcome State Fault Refusal :=
  match s.enc.cur with
  | none => .fault .notSelected
  | some c =>
    ((putMatch c s).bind fun _ t => putCode t.enc.clr t).toOutcome fun _ u => .next { u with enc := resetTable p u.enc }

/-- The pending match of EFINISH, if there is one (R208). -/
def putPending (s : State) : Res Unit :=
  match s.enc.cur with
  | none => .ok () s
  | some c => putMatch c s

/-- E.FINISH (R208, R210). -/
def execEFinish (s : State) : Host.Outcome State Fault Refusal :=
  ((putPending s).bind fun _ t => (putCode t.enc.endc t).bind fun _ u => (flushBits u).bind fun _ v =>
    flushChunks v).toOutcome fun _ w => .next (finishEncode w)

end Sys2Proof.Machine
end

