-- ==== Sys2Proof/Machine/Fixed.lean ====
section
/-! DEFINITION. Group `fixed`: the blocks selected by position (43_container_parser.md R232 to R235, R244 to R246). Their bytes
have been read when a meaning runs. -/

namespace Sys2Proof.Machine

/-- HDR with CHECKSIG (R232, R233). -/
def execHdr (signature version : Bytes3) (s : State) : Host.Outcome State Fault Refusal :=
  if signature = gifSignature then
    .next { s with scratch := { s.scratch with doc := { s.scratch.doc with header := ⟨signature, version⟩ } }, pst := .lsd }
  else raiseFormat (.invalidSignature signature) s

/-- LSD (R234): the presence flag decides whether a table follows. -/
def execLsd (width height : Half) (packed bgIndex aspect : Byte) (s : State) : Host.Outcome State Fault Refusal :=
  .next { s with
    scratch := { s.scratch with doc := { s.scratch.doc with screen := ⟨width, height, packed, bgIndex, aspect⟩ } },
    pst := if ctLen (gctFlag packed) (gctExp packed) = 0 then .loop else .gct }

/-- GCT (R234, R235). -/
def execGct (table : List Rgb) (s : State) : Host.Outcome State Fault Refusal :=
  .next { s with scratch := { s.scratch with doc := { s.scratch.doc with gct := some table } }, pst := .loop }

/-- LCT (R243, R244). -/
def execLct (table : List Rgb) (s : State) : Host.Outcome State Fault Refusal :=
  .next { s with scratch := { s.scratch with img := { s.scratch.img with lct := some table } }, pst := .minCode }

/-- MCS (R245): stored as read; no test here. -/
def execMcs (k : Byte) (s : State) : Host.Outcome State Fault Refusal :=
  .next { s with scratch := { s.scratch with img := { s.scratch.img with minCodeSize := k } }, pst := .lzw }

/-- LZW (R246): the decoder starts with a fresh object on the image's minimum code size (R187 outside 2 to 8). -/
def execLzw (s : State) : Host.Outcome State Fault Refusal :=
  if minCodeSizeOk s.scratch.img.minCodeSize.toNat then .next (startDecode s.scratch.img.minCodeSize.toNat s)
  else .refused .badMinCodeSize

end Sys2Proof.Machine
end

