-- ==== Sys2Proof/Machine/HostCommands.lean ====
section
/-! DEFINITION. Group `host`: the four commands (60_exceptions.md R310 to R314). The meaning of a command is the start the write
of CMD makes (R310, R341); the steps that follow run its algorithm. -/

namespace Sys2Proof.Machine

/-- PARSE (R311): PSTART (43_container_parser.md R231). -/
def execParse (s : State) : Host.Outcome State Fault Refusal :=
  if s.busy then .refused .busy
  else if !s.src.attached then .refused .noSource
  else .next (setPteSeen false { startCommand .parse s with doc := none, pst := .header })

/-- SERIALIZE (R312, R284): SNK is empty when the command starts (20_memory.md R62). -/
def execSerialize (s : State) : Host.Outcome State Fault Refusal :=
  if s.busy then .refused .busy
  else if s.doc = none then .refused .noDocument
  else if !s.snk.attached then .refused .noSink
  else .next { startCommand .serialize s with sst := .header, snk := { s.snk with bytes := [] } }

/-- DECODE (R313): START(ARG_K) (41_lzw_decoder.md R171, R187). -/
def execDecode (s : State) : Host.Outcome State Fault Refusal :=
  if s.busy then .refused .busy
  else if !s.src.attached then .refused .noSource
  else if !s.argKWritten then .refused .argKNeverWritten
  else if !minCodeSizeOk s.argK.toNat then .refused .badMinCodeSize
  else .next (startDecode s.argK.toNat (startCommand .decode s))

/-- ENCODE (R314): the tests of R214 stand before ESTART(ARG_K) (42_lzw_encoder.md R201, R211, R217). -/
def execEncode (s : State) : Host.Outcome State Fault Refusal :=
  if s.busy then .refused .busy
  else if !s.snk.attached then .refused .noSink
  else if !s.argKWritten then .refused .argKNeverWritten
  else if !s.pixWritten then .refused .pixNeverWritten
  else if !minCodeSizeOk s.argK.toNat then .refused .badMinCodeSize
  else if !alphabetOk s.argK.toNat s.out then .refused .symbolOutOfAlphabet
  else .next (startEncode s.argK.toNat s.out { startCommand .encode s with snk := { s.snk with bytes := [] } })

end Sys2Proof.Machine
end

