-- ==== Sys2Proof/Machine/Label.lean ====
section
/-! DEFINITION. Group `label`: the extensions (43_container_parser.md R238 to R242). The label moves PST; the fixed part is read in
the state it leads to; the sub-blocks that follow the fixed part are rows of their own. -/

namespace Sys2Proof.Machine

/-- The start of an extension's sub-block loop: no fragment yet, the sub-block flags cleared (10_state.md R34). [log 21] -/
def startSubBlocks (p : PState) (s : State) : State :=
  { s with scratch := { s.scratch with headerDue := false, frags := [] }, dec := clearSubBlockFlags s.dec, pst := p }

/-- A label behind which a size byte and a fixed part stand: PST moves, and they are due (R240, R241, R257). -/
def awaitHeader (p : PState) (s : State) : State := { s with scratch := { s.scratch with headerDue := true }, pst := p }

/-- EXT.GCE (R238): the label leads to P_GCE; there the size, then the terminator, are judged, and the record is stored. -/
def execExtGce (operands : GceOperands) (s : State) : Host.Outcome State Fault Refusal :=
  match operands with
  | .label => .next { s with pst := .gce }
  | .badSize n => raiseFormat (.badBlockSize 0xF9 n) s
  | .body packed delay transparentIndex terminator =>
    if terminator = 0 then
      .next { s with
        scratch := { s.scratch with doc :=
          { s.scratch.doc with gces := s.scratch.doc.gces ++ [⟨packed, delay, transparentIndex⟩] } },
        pst := .loop }
    else raiseFormat (.badBlockSize 0xF9 terminator) s

/-- EXT.COM (R239): the sub-block loop starts. -/
def execExtCom (s : State) : Host.Outcome State Fault Refusal := .next (startSubBlocks .comment s)

/-- EXT.APP (R240): the label leads to P_APP; there the size is judged, the header kept, the sub-block loop starts. -/
def execExtApp (operands : AppOperands) (s : State) : Host.Outcome State Fault Refusal :=
  match operands with
  | .label => .next (awaitHeader .app s)
  | .badSize n => raiseFormat (.badBlockSize 0xFF n) s
  | .header identifier authCode =>
    .next (startSubBlocks .app { s with scratch := { s.scratch with appId := identifier, appAuth := authCode } })

/-- EXT.PTE (R241): the label leads to P_PTE; there the size is judged, the fields kept, the sub-block loop starts. -/
def execExtPte (operands : PteOperands) (s : State) : Host.Outcome State Fault Refusal :=
  match operands with
  | .label => .next (awaitHeader .pte s)
  | .badSize n => raiseFormat (.badBlockSize 0x01 n) s
  | .header fields => .next (startSubBlocks .pte { s with scratch := { s.scratch with pteFields := fields } })

/-- EXT.SKIP (R242): the sub-blocks that follow are discarded. -/
def execExtSkip (_label : Byte) (s : State) : Host.Outcome State Fault Refusal := .next (startSubBlocks .skip s)

end Sys2Proof.Machine
end

