-- ==== Sys2Proof/Machine/Indicator.lean ====
section
/-! DEFINITION. Group `indicator`: the byte at P_LOOP, or the end of the stream there (43_container_parser.md R236 to R250). -/

namespace Sys2Proof.Machine

/-- PDONE (R250): the working Document becomes DOC. -/
def parseDone (s : State) : State := finishCommand { s with doc := some s.scratch.doc, pst := .done }

/-- EXT (R237): a label byte follows. -/
def execExt (s : State) : Host.Outcome State Fault Refusal := .next { s with pst := .label }

/-- IMG (R243, R244): the indicator leads to P_IMGDESC; there the descriptor is kept, and the presence flag decides whether a table
follows. -/
def execImg (left top width height : Option Half) (packed : Option Byte) (s : State) : Host.Outcome State Fault Refusal :=
  match left, top, width, height, packed with
  | some l, some t, some w, some h, some p =>
    .next { s with
      scratch := { s.scratch with img := ⟨l, t, w, h, p, none, 0, []⟩ },
      pst := if ctLen (lctFlag p) (lctExp p) = 0 then .minCode else .lct }
  | _, _, _, _, _ => .next { s with pst := .imgDesc }

/-- TRL (R247). -/
def execTrl (s : State) : Host.Outcome State Fault Refusal := .next (parseDone s)

/-- UNKNOWN (R248). -/
def execUnknown (byte : Byte) (s : State) : Host.Outcome State Fault Refusal := raiseFormat (.unknownBlock byte) s

/-- EOS (R249). -/
def execEos (s : State) : Host.Outcome State Fault Refusal := .next (parseDone s)

end Sys2Proof.Machine
end

