-- ==== Sys2Proof/Machine/SubBlock.lean ====
section
/-! DEFINITION. Group `subblock`: the turns of an extension's sub-block loop (40_cursor.md R156, R157; 43_container_parser.md
R239 to R242). Inside image data the length bytes are read by `DataByte()` within `NextCode()` instead (R155). [log 22] What the rows do at a PST
outside an extension is a DESIGN CHOICE [log 15]. -/

namespace Sys2Proof.Machine

/-- A comment whose fragments are complete (R239): each is decoded on its own. -/
def storeComment (s : State) : State :=
  { s with scratch := { s.scratch with doc :=
    { s.scratch.doc with comments := s.scratch.doc.comments ++ [⟨s.scratch.frags.map utf8Lossy⟩] } } }

/-- An application extension whose payload is complete (R240): the cutting is not kept. -/
def storeApp (s : State) : State :=
  { s with scratch := { s.scratch with doc :=
    { s.scratch.doc with apps := s.scratch.doc.apps ++ [⟨s.scratch.appId, s.scratch.appAuth, s.scratch.frags.flatten⟩] } } }

/-- A plain text extension whose text is complete (R241, R253). -/
def storePte (s : State) : State :=
  setPteSeen true { s with scratch := { s.scratch with doc :=
    { s.scratch.doc with ptes := s.scratch.doc.ptes ++ [⟨s.scratch.pteFields, s.scratch.frags.flatten⟩] } } }

/-- What PTE_POLICY does behind a plain text extension (R12, R253): the loop goes on, or the parse ends. [log 12] -/
def afterPte (policy : PtePolicy) (s : State) : State :=
  match policy with
  | .continueLoop => { s with pst := .loop }
  | .earlyReturn => parseDone s

/-- SB.TERM (R117, R156): the sequence is complete; the extension PST stands in is stored. -/
def execSbTerm (s : State) : Host.Outcome State Fault Refusal :=
  let t := { s with dec := { s.dec with sbrem := 0, sbterm := true } }
  match s.pst with
  | .comment => .next { storeComment t with pst := .loop }
  | .app => .next { storeApp t with pst := .loop }
  | .pte => .next (afterPte s.params.ptePolicy (storePte t))
  | _ => .next { t with pst := .loop }

/-- SB.DATA (R117, R156): one fragment; where the extension is skipped it is discarded (R157). -/
def execSbData (payload : List Byte) (s : State) : Host.Outcome State Fault Refusal :=
  match s.pst with
  | .skip => .next { s with dec := { s.dec with sbrem := 0 } }
  | _ => .next { s with scratch := { s.scratch with frags := s.scratch.frags ++ [payload] }, dec := { s.dec with sbrem := 0 } }

end Sys2Proof.Machine
end

