-- ==== Sys2Proof/Machine/Dispatch.lean ====
section
/-! DEFINITION. The meaning of every instruction: one arm a constructor. exec answers for a row in every state, also where the row's
selecting condition fails and no step runs it: DESIGN CHOICE [log 15]. -/

namespace Sys2Proof.Machine

def exec (i : Instr) (s : State) : Host.Outcome State Fault Refusal :=
  match i with
  -- group host
  | .parse => Sys2Proof.Machine.execParse s
  | .serialize => Sys2Proof.Machine.execSerialize s
  | .decode => Sys2Proof.Machine.execDecode s
  | .encode => Sys2Proof.Machine.execEncode s
  -- group fixed
  | .hdr signature version => Sys2Proof.Machine.execHdr signature version s
  | .lsd width height packed bgIndex aspect => Sys2Proof.Machine.execLsd width height packed bgIndex aspect s
  | .gct table => Sys2Proof.Machine.execGct table s
  | .lct table => Sys2Proof.Machine.execLct table s
  | .mcs k => Sys2Proof.Machine.execMcs k s
  | .lzw => Sys2Proof.Machine.execLzw s
  -- group indicator
  | .ext => Sys2Proof.Machine.execExt s
  | .img left top width height packed => Sys2Proof.Machine.execImg left top width height packed s
  | .trl => Sys2Proof.Machine.execTrl s
  | .unknown byte => Sys2Proof.Machine.execUnknown byte s
  | .eos => Sys2Proof.Machine.execEos s
  -- group label
  | .extGce operands => Sys2Proof.Machine.execExtGce operands s
  | .extCom => Sys2Proof.Machine.execExtCom s
  | .extApp operands => Sys2Proof.Machine.execExtApp operands s
  | .extPte operands => Sys2Proof.Machine.execExtPte operands s
  | .extSkip label => Sys2Proof.Machine.execExtSkip label s
  -- group subblock
  | .sbTerm => Sys2Proof.Machine.execSbTerm s
  | .sbData payload => Sys2Proof.Machine.execSbData payload s
  -- group code
  | .endCode => Sys2Proof.Machine.execEndCode s
  | .clear => Sys2Proof.Machine.execClear s
  | .known c => Sys2Proof.Machine.execKnown c s
  | .nextCode c => Sys2Proof.Machine.execNextCode c s
  | .invalid c => Sys2Proof.Machine.execInvalid c s
  | .noCode => Sys2Proof.Machine.execNoCode s
  -- group emit
  | .sHdr => Sys2Proof.Machine.execSHdr s
  | .sLsd => Sys2Proof.Machine.execSLsd s
  | .sGct => Sys2Proof.Machine.execSGct s
  | .sGce => Sys2Proof.Machine.execSGce s
  | .sCom => Sys2Proof.Machine.execSCom s
  | .sApp => Sys2Proof.Machine.execSApp s
  | .sPte => Sys2Proof.Machine.execSPte s
  | .sImg => Sys2Proof.Machine.execSImg s
  | .sTrl => Sys2Proof.Machine.execSTrl s
  -- group encstep
  | .eClear0 => Sys2Proof.Machine.execEClear0 s
  | .eMatch p => Sys2Proof.Machine.execEMatch p s
  | .eMiss p => Sys2Proof.Machine.execEMiss p s
  | .eOverflow p => Sys2Proof.Machine.execEOverflow p s
  | .eFinish => Sys2Proof.Machine.execEFinish s

end Sys2Proof.Machine
end

