-- ==== Sys2Proof/Machine/Fetch.lean ====
section
/-! DEFINITION. What runs next: reading an instruction's bytes from SRC through the cursor, the next code of a decode, the next
part of a serialize, the next step of an encode. -/

namespace Sys2Proof.Machine

/-! ## Reading an instruction's bytes -/

/-- The read of HDR: six bytes, before the signature is judged (43_container_parser.md R232). -/
def readHeader (s : State) : Res Instr :=
  (mustBytes 3 s).bind fun sig t => (mustBytes 3 t).bind fun ver u => .ok (.hdr (Bytes3.ofList sig) (Bytes3.ofList ver)) u

/-- The read of LSD (R234). -/
def readScreen (s : State) : Res Instr :=
  (mustU16 s).bind fun w s1 => (mustU16 s1).bind fun h s2 => (mustByte s2).bind fun p s3 =>
    (mustByte s3).bind fun bg s4 => (mustByte s4).bind fun a s5 => .ok (.lsd w h p bg a) s5

/-- The read of IMG behind its indicator: nine bytes (R243). -/
def readImage (s : State) : Res Instr :=
  (mustU16 s).bind fun l s1 => (mustU16 s1).bind fun t s2 => (mustU16 s2).bind fun w s3 =>
    (mustU16 s3).bind fun h s4 => (mustByte s4).bind fun p s5 => .ok (imgAt l t w h p) s5

/-- LOOP: the indicator (R236, R249). -/
def readAtLoop (s : State) : Res Instr :=
  (readIndicator s).bind fun ind t =>
    match ind with
    | none => .ok .eos t
    | some b =>
      if b = 0x21 then .ok .ext t
      else if b = 0x2C then .ok imgIndicator t
      else if b = 0x3B then .ok .trl t
      else .ok (.unknown b) t

/-- The read of EXT.GCE behind its label; the size is judged before the body is read (R238, R308). -/
def readGce (s : State) : Res Instr :=
  (mustByte s).bind fun n s1 =>
    if n = Config.gceLen then
      (mustByte s1).bind fun p s2 => (mustU16 s2).bind fun d s3 => (mustByte s3).bind fun ti s4 =>
        (mustByte s4).bind fun t s5 => .ok (.extGce (.body p d ti t)) s5
    else .ok (.extGce (.badSize n)) s1

/-- The read of EXT.APP behind its label, up to its sub-blocks (R240). -/
def readApp (s : State) : Res Instr :=
  (mustByte s).bind fun n s1 =>
    if n = Config.appLen then
      (mustBytes 8 s1).bind fun i s2 => (mustBytes 3 s2).bind fun a s3 =>
        .ok (.extApp (.header (Bytes8.ofList i) (Bytes3.ofList a))) s3
    else .ok (.extApp (.badSize n)) s1

/-- The read of EXT.PTE behind its label, up to its sub-blocks (R241). -/
def readPte (s : State) : Res Instr :=
  (mustByte s).bind fun n s1 =>
    if n = Config.pteLen then
      (mustBytes 12 s1).bind fun f s2 => .ok (.extPte (.header (Bytes12.ofList f))) s2
    else .ok (.extPte (.badSize n)) s1

/-- EXT's label byte (R237). -/
def readAtLabel (s : State) : Res Instr :=
  (mustByte s).bind fun lab t =>
    if lab = 0xF9 then .ok (.extGce .label) t
    else if lab = 0xFE then .ok .extCom t
    else if lab = 0xFF then .ok (.extApp .label) t
    else if lab = 0x01 then .ok (.extPte .label) t
    else .ok (.extSkip lab) t

/-- A sub-block of an extension (R156). -/
def readSubBlock (s : State) : Res Instr :=
  (mustSubBlock s).bind fun p t =>
    match p with
    | none => .ok .sbTerm t
    | some f => .ok (.sbData f) t

/-- The read of MCS (R245). -/
def readMinCode (s : State) : Res Instr := (mustByte s).bind fun k t => .ok (.mcs k) t

/-- The instruction at a slot of SRC. -/
def readInstr (slot : Slot) (s : State) : Res Instr :=
  match slot with
  | .header => readHeader s
  | .screen => readScreen s
  | .globalTable n => (readTable n s).bind fun t u => .ok (.gct t) u
  | .indicator => readAtLoop s
  | .label => readAtLabel s
  | .gceBody => readGce s
  | .appHeader => readApp s
  | .pteHeader => readPte s
  | .subBlock => readSubBlock s
  | .descriptor => readImage s
  | .localTable n => (readTable n s).bind fun t u => .ok (.lct t) u
  | .minCode => readMinCode s

/-! ## What runs next -/

/-- The slot that PST selects (R257); none where PST selects no bytes. In P_APP and P_PTE the size byte and the fixed part come
before the sub-blocks (R240, R241). -/
def parseSlot (s : State) : Option Slot :=
  match s.pst with
  | .header => some .header
  | .lsd => some .screen
  | .gct => some (.globalTable (ctLen (gctFlag s.scratch.doc.screen.packed) (gctExp s.scratch.doc.screen.packed)))
  | .loop => some .indicator
  | .label => some .label
  | .comment => some .subBlock
  | .gce => some .gceBody
  | .app => some (if s.scratch.headerDue then .appHeader else .subBlock)
  | .pte => some (if s.scratch.headerDue then .pteHeader else .subBlock)
  | .skip => some .subBlock
  | .imgDesc => some .descriptor
  | .lct => some (.localTable (ctLen (lctFlag s.scratch.img.packed) (lctExp s.scratch.img.packed)))
  | .minCode => some .minCode
  | .idle => none
  | .lzw => none
  | .done => none
  | .fault => none

/-- The next operation of a `PARSE` outside its decodes. -/
def fetchParse (s : State) : Option (Res Instr) :=
  match s.pst with
  | .lzw => some (.ok .lzw s)
  | _ =>
    match parseSlot s with
    | some slot => some (readInstr slot s)
    | none => none

/-- The next part of a `SERIALIZE` outside its encodes (44_container_serializer.md R271, R285). -/
def fetchPart (s : State) : Option (Res Instr) :=
  match s.sst with
  | .header => some (.ok .sHdr s)
  | .lsd => some (.ok .sLsd s)
  | .gct => some (.ok .sGct s)
  | .gce => some (.ok .sGce s)
  | .comment => some (.ok .sCom s)
  | .app => some (.ok .sApp s)
  | .pte => some (.ok .sPte s)
  | .image => some (.ok .sImg s)
  | .trailer => some (.ok .sTrl s)
  | .idle => none
  | .done => none
  | .fault => none

/-- DISPATCH: the next code and its class (41_lzw_decoder.md R172). -/
def fetchCode (s : State) : Res Instr :=
  (nextCode s).bind fun c t =>
    match c with
    | none => .ok .noCode t
    | some c => .ok (classify (codeContext t.dec) c) t

/-- The next step of an encode: the next index is taken from PIX (42_lzw_encoder.md R214). -/
def fetchStep (s : State) : Res Instr :=
  match s.enc.rest with
  | [] => .ok .eFinish s
  | p :: ps => .ok (selectStep s.enc p) { s with enc := { s.enc with rest := ps } }

/-- The next operation of the running command; none where no rule names one. -/
def fetch (s : State) : Option (Res Instr) :=
  match s.lzwUnit with
  | .lzwd => some (fetchCode s)
  | .lzweStart => some (.ok .eClear0 s)
  | .lzwe => some (fetchStep s)
  | .off =>
    match s.cmd with
    | .parse => fetchParse s
    | .serialize => fetchPart s
    | .none => none
    | .decode => none
    | .encode => none

/-! ## Host events -/

/-- What the host does before the CORE's next step. -/
inductive HostDue where
  | act (a : HostAction) (s : State)
  | quiet (s : State)

/-- The host's next event, if it lands now (60_exceptions.md R310, R315): one without a delay waits until the CORE is not BUSY,
one with a delay lands when the delay has run down. [log 1] -/
def hostDue (s : State) : HostDue :=
  match s.host with
  | [] => .quiet s
  | ⟨none, a⟩ :: es => if s.busy then .quiet s else .act a { s with host := es }
  | ⟨some 0, a⟩ :: es => .act a { s with host := es }
  | ⟨some (n + 1), a⟩ :: es => .quiet { s with host := ⟨some n, a⟩ :: es }

/-- Attaching a source (R310): its answers are the host's. -/
def attachSource (answers : List (Option Byte)) (s : State) : State := { s with src := ⟨true, answers⟩ }

/-- Attaching a sink (R310): empty. -/
def attachSink (okWrites : Option Nat) (s : State) : State := { s with snk := ⟨true, [], okWrites⟩ }

/-- Writing ARG_K (10_state.md R22). -/
def writeArgK (k : Byte) (s : State) : State := { s with argK := k, argKWritten := true }

/-- Writing PIX (10_state.md R35). -/
def writePix (pix : List Byte) (s : State) : State := { s with out := pix, pixWritten := true }

/-- The mutator hands back a Document (R322). [log 23] -/
def putDocument (d : Document) (s : State) : State := { s with doc := some d }

/-- A write of the host or the mutator other than CMD: undefined while BUSY (U3, R321). Attaching a stream is no write U3 lists, and
R350 leaves open whether the host may do it while BUSY: it is refused with the rest. DESIGN CHOICE [log 31] -/
def hostWrite (f : State → State) (s : State) : Host.Outcome State Fault Refusal :=
  if s.busy then .refused .busy else .next (f s)

end Sys2Proof.Machine
end

