-- ==== Sys2Proof/Machine/Step.lean ====
section
/-! DEFINITION. One step of the machine, and the placing of an instruction's word where the next step fetches it. -/

namespace Sys2Proof.Machine

/-- What the host or the mutator does, as a step: the write of CMD runs the command's row (60_exceptions.md R310). Attaching a stream
is refused while BUSY like the writes of U3: the model's choice. [log 31] -/
def hostStep (a : HostAction) (s : State) : Host.Outcome State Fault Refusal :=
  match a with
  | .attachSource answers => hostWrite (attachSource answers) s
  | .attachSink okWrites => hostWrite (attachSink okWrites) s
  | .writeArgK k => hostWrite (writeArgK k) s
  | .writePix pix => hostWrite (writePix pix) s
  | .writeCmd c => exec (decodeCommand c) s
  | .putDocument d => hostWrite (putDocument d) s

/-- A step of the CORE: the next operation of the running command is fetched and run; a read that fails while it is fetched
takes the fault (R301, R309). A CORE that is not BUSY does nothing. [log 24] -/
def coreStep (s : State) : Host.Outcome State Fault Refusal :=
  if s.busy then
    match fetch s with
    | some r => r.toOutcome exec
    | none => .fault .controlLost
  else .next s

/-- One step, the capacities left aside: the host's event if one lands now, else the CORE's. -/
def uncappedStep (s : State) : Host.Outcome State Fault Refusal :=
  match hostDue s with
  | .act a t => hostStep a t
  | .quiet t => coreStep t

/-- One step: refused where a finite capacity would be exceeded (93_implementation_defined.md U10). -/
def step (s : State) : Host.Outcome State Fault Refusal := capped (uncappedStep s)

/-- The parser's place for a slot: a sub-block is placed in a comment. -/
def slotPState : Slot → PState
  | .header => .header
  | .screen => .lsd
  | .globalTable _ => .gct
  | .indicator => .loop
  | .label => .label
  | .gceBody => .gce
  | .appHeader => .app
  | .pteHeader => .pte
  | .subBlock => .comment
  | .descriptor => .imgDesc
  | .localTable _ => .lct
  | .minCode => .minCode

/-- A running `PARSE` whose SRC holds the word and zeros behind it, PST standing at the word's slot, no host event due. [log 4] -/
def State.withFetchWord (s : State) (nbits w : Nat) : State :=
  match tableSlot nbits w with
  | none => s
  | some slot =>
    { s with
      cmd := .parse, status := { s.status with state := .busy }, pst := slotPState slot, lzwUnit := .off,
      src := ⟨true, (tableBytes nbits w).map some⟩, host := [] }

end Sys2Proof.Machine
end

