-- ==== Sys2Proof/Safety.lean ====
section
/-! DEFINITION. The words claims are stated in: reading and writing on a stream that holds out, the bit stream an encode has
emitted, and the invariant of the machine (41_lzw_decoder.md R188, 42_lzw_encoder.md R215, 10_state.md, 43 R257, 44 R285). -/

namespace Sys2Proof.Machine

/-! ## Streams that hold out -/

/-- `bs` have been taken from SRC and `rest` are the answers to come. -/
def took (bs : List Byte) (rest : List (Option Byte)) (s : State) : State :=
  { s with src := { s.src with answers := rest }, pos := s.pos + bs.length }

/-- The next `n` writes to SNK succeed. -/
def room (s : State) (n : Nat) : Bool :=
  match s.snk.okWrites with
  | none => true
  | some m => n ≤ m

/-- The same state with a SNK that takes every byte. -/
def roomy (s : State) : State := { s with snk := { s.snk with okWrites := none } }

/-- `bs` have been written to SNK. -/
def wrote (bs : List Byte) (s : State) : State :=
  { s with
    snk := { s.snk with bytes := s.snk.bytes ++ bs, okWrites := s.snk.okWrites.map fun m => m - bs.length },
    spos := s.spos + bs.length }

/-- The bytes of SRC up to its end or its first failing access. -/
def available : List (Option Byte) → List Byte
  | some b :: t => b :: available t
  | _ => []

/-! ## What a decode has left to read -/

/-- Whether the sub-block reader gives no more data bytes (10_state.md R34). -/
def subBlocksDone (d : Decoder) : Bool := d.sbterm || d.sbeos

/-- The data bytes a decode has not taken yet: the payloads up to the terminator, or up to the end of the bytes. -/
def dataLeft (s : State) : List Byte :=
  if subBlocksDone s.dec then [] else payloadFrom s.dec.sbrem (available s.src.answers)

/-- The bit stream in front of a decode: the bits it holds, then those of the data bytes to come (20_memory.md R67, R68). -/
def bitsLeft (s : State) : List Bool := toBits s.dec.nb s.dec.acc ++ bitsOfBytes (dataLeft s)

/-- The bytes behind the terminator of a sub-block sequence whose current sub-block has `rem` bytes left. -/
def behindFrom : Nat → List Byte → List Byte
  | _, [] => []
  | 0, n :: t => if n = 0 then t else behindFrom n.toNat t
  | rem + 1, _ :: t => behindFrom rem t

/-- The bytes of SRC behind the sub-block sequence of a decode. -/
def behind (s : State) : List Byte :=
  if subBlocksDone s.dec then available s.src.answers else behindFrom s.dec.sbrem (available s.src.answers)

/-- Whether a sub-block sequence whose current sub-block has `rem` bytes left reaches its terminator in these bytes. -/
def terminated : Nat → List Byte → Bool
  | _, [] => false
  | 0, n :: t => if n = 0 then true else terminated n.toNat t
  | rem + 1, _ :: t => terminated rem t

/-- The sub-block sequence of a decode has not ended and does not reach its terminator in the bytes at hand. -/
def sequenceOpen (s : State) : Bool := !subBlocksDone s.dec && !terminated s.dec.sbrem (available s.src.answers)

/-- The bytes end inside the instruction at a slot, or, at an indicator, before it. -/
def InstrRunsOut (slot : Slot) (bs : List Byte) : Prop :=
  (∃ n, decode slot bs = .error (.truncated n)) ∨ (slot = .indicator ∧ bs = [])

/-- A decode whose sub-block sequence is open in the bytes at hand has no whole code left in them, or drains behind the end code. -/
def CodesRunOut (s : State) : Prop :=
  sequenceOpen s = true ∧
    ((bitsLeft s).length < s.dec.w ∨ (decodeCode (codeContext s.dec) (bitsLeft s)).1 = .endCode)

/-- The CORE's next step needs more than the bytes at hand. -/
def ReadsBeyond (s : State) : Prop :=
  (s.lzwUnit = .off ∧ s.cmd = .parse ∧ ∃ slot, parseSlot s = some slot ∧ InstrRunsOut slot (available s.src.answers)) ∨
  (s.lzwUnit = .lzwd ∧ CodesRunOut s)

/-- SRC answers with these bytes and then with Eos: no access fails. -/
def sourceHolds (s : State) (bs : List Byte) : Prop := s.src.answers = bs.map some

/-- `t` is `s` with `used` taken from SRC and the decoder's bit buffer and sub-block state moved on. -/
def Fed (s t : State) (used : List Byte) (rest : List (Option Byte)) : Prop :=
  t = { took used rest s with
    dec := { s.dec with
      acc := t.dec.acc, nb := t.dec.nb, sbrem := t.dec.sbrem, sbterm := t.dec.sbterm, sbeos := t.dec.sbeos } }

/-- A sub-block sequence with these payloads and its terminator (R117). -/
def subBlocks (frags : List (List Byte)) : List Byte := (frags.flatMap fun f => BitVec.ofNat 8 f.length :: f) ++ [0x00]

/-- Payloads that sub-blocks can hold: 1 to 255 bytes each (R117). -/
def payloadsOk (frags : List (List Byte)) : Prop := ∀ f, f ∈ frags → 1 ≤ f.length ∧ f.length ≤ 255

/-! ## What a step writes -/

/-- The head of an image block (44_container_serializer.md R279). -/
def imageHead (m : ImageBlock) : List Byte :=
  [0x2C] ++ (encodeU16 m.left ++ (encodeU16 m.top ++ (encodeU16 m.width ++ (encodeU16 m.height ++ ([m.packed] ++
    ((m.lct.getD []).flatMap Rgb.toList ++ [m.minCodeSize]))))))

/-- The image whose head a SERIALIZE writes next. -/
def imageAtHand (s : State) : Option ImageBlock :=
  if s.lzwUnit = .off ∧ s.cmd = .serialize ∧ s.sst = .image then s.doc.bind fun d => d.images[s.imgIdx]? else none

/-- What the CORE's step writes to a SNK that takes everything. An image outside the encoder's domain is refused behind its head
(42_lzw_encoder.md R211), so what is written of an image is named; every other step goes on. -/
structure WouldWrite (s : State) (all : List Byte) : Prop where
  image : ∀ m, imageAtHand s = some m → all = imageHead m
  bytes : ∀ v, coreStep (roomy s) = .next v → v.snk.bytes = s.snk.bytes ++ all
  goesOn : imageAtHand s = none → ∃ v, coreStep (roomy s) = .next v

/-! ## What an encode has emitted -/

/-- The full chunks of 255 bytes of a packed output, each behind its length byte (42_lzw_encoder.md R210). -/
def fullChunks (packed : List Byte) : List Byte :=
  frameChunks packed.length (packed.take (255 * (packed.length / 255)))

/-- The encode that began when SNK held `base` has emitted the bit stream `bs`: whole bytes of it stand on SNK in full chunks or
wait in EBUF, and fewer than 8 bits wait in EACC (R209, R210, 40_cursor.md R162). -/
def Emitted (base : List Byte) (bs : List Bool) (s : State) : Prop :=
  ∃ packed : List Byte,
    s.snk.bytes = base ++ fullChunks packed ∧
    s.enc.buf = packed.drop (255 * (packed.length / 255)) ∧
    bs = bitsOfBytes packed ++ toBits s.enc.nb s.enc.acc ∧
    s.enc.nb ≤ 7 ∧ s.enc.acc < 2 ^ s.enc.nb

/-! ## A running command -/

/-- A `PARSE` that runs outside its decodes, PST standing at `p`, no host event to come, the parameters at this spec's values. -/
def Parsing (p : PState) (s : State) : Prop :=
  s.busy = true ∧ s.cmd = .parse ∧ s.lzwUnit = .off ∧ s.host = [] ∧ s.params = Params.spec ∧ s.pst = p

/-! ## The invariant -/

/-- The decoder's object while it decodes (R188 (a) to (e), (g), R180). -/
structure DecoderInv (d : Decoder) : Prop where
  kRange : 2 ≤ d.k ∧ d.k ≤ 8
  clrIs : d.clr = 2 ^ d.k
  endIs : d.endc = d.clr + 1
  nextRange : d.clr + 2 ≤ d.next ∧ d.next ≤ 4096
  wRange : d.k + 1 ≤ d.w ∧ d.w ≤ 12
  nextFits : d.next ≤ 2 ^ d.w
  nextFull : d.next = 2 ^ d.w → d.w = 12
  wTight : d.w = d.k + 1 ∨ 2 ^ (d.w - 1) ≤ d.next
  literals : ∀ i, i < d.clr → dictRead d.dict i = [BitVec.ofNat 8 i]
  filled : ∀ i, dictRead d.dict i ≠ [] ↔ (i < d.clr ∨ (d.clr + 2 ≤ i ∧ i < d.next))
  alphabet : ∀ i b, b ∈ dictRead d.dict i → b.toNat < d.clr
  prevKnown : ∀ p, d.prev = some p → p < d.next ∧ p ≠ d.clr ∧ p ≠ d.endc
  prevNone : d.prev = none → d.next = d.clr + 2
  sbremRange : d.sbrem ≤ 255

/-- The bit buffer between two codes (R188 (f)). -/
def bitBufferOk (d : Decoder) : Prop := d.nb ≤ 7 ∧ d.acc < 2 ^ d.nb

/-- The encoder's object while it encodes (10_state.md R36, 42_lzw_encoder.md R215). -/
structure EncoderInv (e : Encoder) : Prop where
  kRange : 2 ≤ e.k ∧ e.k ≤ 8
  clrIs : e.clr = 2 ^ e.k
  endIs : e.endc = e.clr + 1
  nextRange : e.clr + 2 ≤ e.next ∧ e.next ≤ 4096
  wRange : e.k + 1 ≤ e.w ∧ e.w ≤ 12
  nextFits : e.next ≤ 2 ^ e.w
  table : ∀ c p v, tabRead e.tab c p = some v → e.clr + 2 ≤ v ∧ v < e.next
  curKnown : ∀ c, e.cur = some c → c < e.next ∧ c ≠ e.clr ∧ c ≠ e.endc
  bitBuffer : e.nb ≤ 7 ∧ e.acc < 2 ^ e.nb
  bufRange : e.buf.length ≤ 254
  alphabet : ∀ p, p ∈ e.rest → p.toNat < e.clr

/-- The states of PST in which a running PARSE waits for bytes, or for the start of a decode (R257). -/
def parseWaits : PState → Bool
  | .header => true
  | .lsd => true
  | .gct => true
  | .loop => true
  | .label => true
  | .gce => true
  | .comment => true
  | .app => true
  | .pte => true
  | .skip => true
  | .imgDesc => true
  | .lct => true
  | .minCode => true
  | .lzw => true
  | .idle => false
  | .done => false
  | .fault => false

/-- The states of SST in which a running SERIALIZE has a part to write (44_container_serializer.md R285). -/
def partWaits : SState → Bool
  | .header => true
  | .lsd => true
  | .gct => true
  | .gce => true
  | .comment => true
  | .app => true
  | .pte => true
  | .image => true
  | .trailer => true
  | .idle => false
  | .done => false
  | .fault => false

/-- Whether an LZW unit of the encoder runs. -/
def encoding (u : LzwUnit) : Bool := u == .lzweStart || u == .lzwe

/-- The command, the control states and the running unit fit together. -/
def controlOk (s : State) : Prop :=
  match s.cmd with
  | .none => False
  | .parse => (s.lzwUnit = .off ∧ parseWaits s.pst = true) ∨ (s.lzwUnit = .lzwd ∧ s.pst = .lzw)
  | .serialize => s.doc ≠ none ∧
      ((s.lzwUnit = .off ∧ partWaits s.sst = true) ∨ (encoding s.lzwUnit = true ∧ s.sst = .image))
  | .decode => s.lzwUnit = .lzwd
  | .encode => encoding s.lzwUnit = true

/-- The invariant every step keeps. -/
structure Inv (s : State) : Prop where
  memory : Memory.wf s = true
  control : s.busy = true → controlOk s
  unitOff : s.busy = false → s.lzwUnit = .off
  tables : s.busy = true → s.cmd = .parse →
    (s.pst = .gct → gctFlag s.scratch.doc.screen.packed = true) ∧ (s.pst = .lct → lctFlag s.scratch.img.packed = true)
  decoder : s.lzwUnit = .lzwd → DecoderInv s.dec ∧ bitBufferOk s.dec ∧ ∀ b, b ∈ s.out → b.toNat < s.dec.clr
  encoder : s.lzwUnit = .lzwe → EncoderInv s.enc
  encoderStart : s.lzwUnit = .lzweStart →
    ∃ k pix, (2 ≤ k ∧ k ≤ 8) ∧ alphabetOk k pix = true ∧ s.enc = startEncoder k pix
  errZero : s.status.state ≠ .doneFault → s.status.err = 0
  errRange : s.status.err ≤ 5

/-- A safe run: the machine never stops with a fault. Refusals are the spec's own (93_implementation_defined.md). -/
def SafeFor (n : Nat) (s : State) : Prop := ∀ r, Sys2Proof.core.run n s ≠ .fault r

end Sys2Proof.Machine
end

