-- ==== Sys2Proof/Certificates/Slice0/Obligations.lean ====
section
/-! DEFINITION. The statements for the provers. A statement about `step` speaks of the state `t` in which the CORE takes the step:
`hostDue s = .quiet t` says that no host event lands before it. `capped` is what a finite OUT_MAX, DOC_MAX or POS_BITS does to a step
(log 13): with this spec's values it does nothing (`CapacitiesRefuseParametersStay`). A statement about `exec` speaks of every state
that meets its hypotheses; where the row's selecting condition is not among them, it holds also where no step runs the row, and what
the row does there is the model's choice (log 15). -/

open Sys2Proof Sys2Proof.Machine

/-! ## Encodings -/

/-- Decoding the encoding of a well-formed instruction gives it back, whatever bytes follow (R101 to R118). EOS is the end of the
stream, so nothing follows it. -/
def Obligations.DecodeEncodeBlocks : Prop :=
  ∀ (i : Instr) (slot : Slot) (rest : List Byte),
    i.wellFormed = true → slotOf i = some slot → (i = .eos → rest = []) →
      decode slot (encode i ++ rest) = .ok (i, rest)

/-- Bytes that decode are the encoding of the instruction they decode to, which is well formed and belongs to the slot. -/
def Obligations.DecodedBytesAreTheEncoding : Prop :=
  ∀ (slot : Slot) (bs : List Byte) (i : Instr) (rest : List Byte),
    decode slot bs = .ok (i, rest) → bs = encode i ++ rest ∧ slotOf i = some slot ∧ i.wellFormed = true

/-- The conditions of the five classes of a code (30_encoding.md R121), each exactly. -/
def Obligations.CodeClassConditions : Prop :=
  ∀ (x : CodeContext) (c : Nat), x.endc = x.clr + 1 → x.endc < x.next →
    (classify x c = .endCode ↔ c = x.endc) ∧
    (classify x c = .clear ↔ c = x.clr) ∧
    (classify x c = .known c ↔ c < x.next ∧ c ≠ x.clr ∧ c ≠ x.endc) ∧
    (classify x c = .nextCode c ↔ c = x.next ∧ x.prev ≠ none) ∧
    (classify x c = .invalid c ↔ (c = x.next ∧ x.prev = none) ∨ x.next < c) ∧
    classify x c ∈ [.endCode, .clear, .known c, .nextCode c, .invalid c]

/-- A code written at the width in force is read back as the class its value has, and the bits behind it stay. -/
def Obligations.CodesReadBackAsWritten : Prop :=
  ∀ (x : CodeContext) (c : Nat) (rest : List Bool), c < 2 ^ x.w →
    decodeCode x (encodeCode x (classify x c) ++ rest) = (classify x c, rest)

/-- Words written out from their encodings (30_encoding.md R101 to R117). Words of the opcode table: HDR "GIF89a", LSD of a screen of
one pixel without a table, EXT, IMG, TRL, EXT.GCE, EXT.COM, EXT.APP, EXT.PTE, SB.TERM; and the bytes behind four of them in their
slots: the body of EXT.GCE, the fixed parts of EXT.APP and EXT.PTE, the descriptor of IMG, and a data sub-block. Which slot a table
word is read in, by its length and its first byte, is the model's choice (log 27). -/
def Obligations.TableWordsDecode : Prop :=
  decodeTableWord 48 0x613938464947 = some (.hdr ⟨0x47, 0x49, 0x46⟩ ⟨0x38, 0x39, 0x61⟩) ∧
  decodeTableWord 56 0x00000000010001 = some (.lsd 1 1 0 0 0) ∧
  decodeTableWord 8 0x21 = some .ext ∧
  decodeTableWord 8 0x2C = some imgIndicator ∧
  decodeTableWord 8 0x3B = some .trl ∧
  decodeTableWord 8 0xF9 = some (.extGce .label) ∧
  decodeTableWord 8 0xFE = some .extCom ∧
  decodeTableWord 8 0xFF = some (.extApp .label) ∧
  decodeTableWord 8 0x01 = some (.extPte .label) ∧
  decodeTableWord 8 0x00 = some .sbTerm ∧
  decode .gceBody [0x04, 0x01, 0x0A, 0x00, 0x02, 0x00] = .ok (.extGce (.body 1 10 2 0), []) ∧
  decode .appHeader [0x0B, 0x4E, 0x45, 0x54, 0x53, 0x43, 0x41, 0x50, 0x45, 0x32, 0x2E, 0x30] =
    .ok (.extApp (.header ⟨0x4E, 0x45, 0x54, 0x53, 0x43, 0x41, 0x50, 0x45⟩ ⟨0x32, 0x2E, 0x30⟩), []) ∧
  decode .pteHeader [0x0C, 1, 2, 3, 4, 5, 6, 7, 8, 9, 10, 11, 12] =
    .ok (.extPte (.header ⟨1, 2, 3, 4, 5, 6, 7, 8, 9, 10, 11, 12⟩), []) ∧
  decode .descriptor [0x01, 0x02, 0x00, 0x03, 0x00, 0x04, 0x00, 0x80, 0x80] = .ok (imgAt 0x0201 0x0300 0x0400 0x8000 0x80, []) ∧
  decode .subBlock [0x03, 0x61, 0x62, 0x63] = .ok (.sbData [0x61, 0x62, 0x63], [])

/-- `MustU16()` reads the low byte first, then the high byte (40_cursor.md R153); the same two bytes are written for the value
(20_memory.md R66); and it faults where SRC ends before either byte (R151, a decision of the spec, D8). A read that fails is in
`ReadFailureRaisedAtTheAccess`. -/
def Obligations.MustU16ReadsLowByteFirst : Prop :=
  (∀ (s : State) (lo hi : Byte) (rest : List (Option Byte)), s.src.answers = some lo :: some hi :: rest →
    ∃ v : Half, mustU16 s = .ok v (took [lo, hi] rest s) ∧ v.toNat = lo.toNat + 256 * hi.toNat ∧ encodeU16 v = [lo, hi]) ∧
  (∀ (s : State) (lo : Byte), s.src.answers = [some lo] →
    mustU16 s = .raise (.ioError .unexpectedEof) (s.pos + 1) (took [lo] [] s)) ∧
  ∀ s : State, s.src.answers = [] → mustU16 s = .raise (.ioError .unexpectedEof) s.pos s

/-- `PutSubBlocks(l)` where SNK takes its bytes (40_cursor.md R160): what it writes, how many bytes, and that a reader of the
framing gets `l` back and stands behind the terminator. -/
def Obligations.SubBlockFraming : Prop :=
  ∀ (l rest : List Byte) (s : State),
    (room s (frame l).length = true → putSubBlocks l s = .ok () (wrote (frame l) s)) ∧
    (frame l).length = l.length + (l.length + 254) / 255 + 1 ∧
    payloadFrom 0 (frame l ++ rest) = l ∧ behindFrom 0 (frame l ++ rest) = rest

/-! ## What a step runs -/

/-- In a `PARSE` outside its decodes a step runs the instruction the bytes at POS decode to, behind its bytes; at P_LZW, where PST
selects no bytes, it runs LZW, which takes none itself (43_container_parser.md R246). -/
def Obligations.StepRunsDecodedInstruction : Prop :=
  (∀ (s t : State) (slot : Slot) (i : Instr) (rest : List Byte),
    hostDue s = .quiet t → t.busy = true → t.cmd = .parse → t.lzwUnit = .off → parseSlot t = some slot →
    decode slot (available t.src.answers) = .ok (i, rest) → (i = .eos → t.src.answers = []) →
      step s = capped (exec i (took (encode i) (t.src.answers.drop (encode i).length) t))) ∧
  ∀ s t : State, hostDue s = .quiet t → t.busy = true → t.cmd = .parse → t.lzwUnit = .off → t.pst = .lzw →
    step s = capped (exec .lzw t)

/-- Where SRC ends inside an instruction a step raises `IOError(UnexpectedEof)` behind the last byte (43_container_parser.md R251,
a decision of the spec, D8). -/
def Obligations.StepFaultsAtTruncation : Prop :=
  ∀ (s t : State) (slot : Slot) (bs : List Byte) (n : Nat),
    hostDue s = .quiet t → t.busy = true → t.cmd = .parse → t.lzwUnit = .off → parseSlot t = some slot →
    sourceHolds t bs → decode slot bs = .error (.truncated n) →
      ∃ u, step s = capped (.next u) ∧ u.status = ⟨.doneFault, 1, t.status.pteSeen⟩ ∧
        u.errInfo = ⟨.ioError .unexpectedEof, t.pos + bs.length⟩ ∧ u.pos = t.pos + bs.length ∧ u.src.answers = [] ∧
        u.pst = .fault ∧ u.doc = none

/-- A step of a decode takes the next code off the bit stream, across sub-block boundaries, and runs its class: the length bytes
between contribute no bits and no bit is dropped (20_memory.md R68). -/
def Obligations.StepRunsCodeOffTheBitStream : Prop :=
  ∀ (s t : State) (bs : List Byte),
    hostDue s = .quiet t → t.busy = true → t.lzwUnit = .lzwd → sourceHolds t bs → bitBufferOk t.dec →
      ∃ (u : State) (used bs' : List Byte),
        step s = capped (exec (decodeCode (codeContext t.dec) (bitsLeft t)).1 u) ∧
        bitsLeft u = (decodeCode (codeContext t.dec) (bitsLeft t)).2 ∧
        bs = used ++ bs' ∧ Fed t u used (bs'.map some) ∧ behind u = behind t ∧
        (t.dec.w ≤ (bitsLeft t).length → bitBufferOk u.dec)

/-- In a `SERIALIZE` outside its encodes a step runs the part SST stands at (44_container_serializer.md R271, R285). -/
def Obligations.StepRunsPartOfSst : Prop :=
  ∀ s t : State, hostDue s = .quiet t → t.busy = true → t.cmd = .serialize → t.lzwUnit = .off →
    (t.sst = .header → step s = capped (exec .sHdr t)) ∧ (t.sst = .lsd → step s = capped (exec .sLsd t)) ∧
    (t.sst = .gct → step s = capped (exec .sGct t)) ∧ (t.sst = .gce → step s = capped (exec .sGce t)) ∧
    (t.sst = .comment → step s = capped (exec .sCom t)) ∧ (t.sst = .app → step s = capped (exec .sApp t)) ∧
    (t.sst = .pte → step s = capped (exec .sPte t)) ∧ (t.sst = .image → step s = capped (exec .sImg t)) ∧
    (t.sst = .trailer → step s = capped (exec .sTrl t))

/-- Which row a step of an encode runs: the initial clear code; then for each index, taken from PIX, a match where there is no
pending string or the longer string is known, else a miss, or an overflow where the table is full; behind the last index the
end (42_lzw_encoder.md R202, R204, R205, R207, R208, R214). -/
def Obligations.StepRunsEncoderRow : Prop :=
  ∀ s t : State, hostDue s = .quiet t → t.busy = true →
    (t.lzwUnit = .lzweStart → step s = capped (exec .eClear0 t)) ∧
    (t.lzwUnit = .lzwe → t.enc.rest = [] → step s = capped (exec .eFinish t)) ∧
    (∀ p ps, t.lzwUnit = .lzwe → t.enc.rest = p :: ps →
      (t.enc.cur = none → step s = capped (exec (.eMatch p) { t with enc := { t.enc with rest := ps } })) ∧
      (∀ c, t.enc.cur = some c →
        (tabRead t.enc.tab c p ≠ none → step s = capped (exec (.eMatch p) { t with enc := { t.enc with rest := ps } })) ∧
        (tabRead t.enc.tab c p = none → t.enc.next < 4096 →
          step s = capped (exec (.eMiss p) { t with enc := { t.enc with rest := ps } })) ∧
        (tabRead t.enc.tab c p = none → 4096 ≤ t.enc.next →
          step s = capped (exec (.eOverflow p) { t with enc := { t.enc with rest := ps } }))))

/-- What the host and the mutator do where the CORE is not BUSY, that a write of CMD runs the command's row, that every one of
these acts is refused while the CORE is BUSY, and that an idle CORE does nothing (60_exceptions.md R310, R321, R322;
93_implementation_defined.md U3). That the host is a list of events, that attaching a stream is among the acts refused while BUSY
(log 31), and that an idle step changes nothing, is the model's choice (logs 1, 18, 23, 24, 31). -/
def Obligations.HostActsBetweenCommands : Prop :=
  ∀ s t : State, (∀ a, hostDue s = .act a t →
      (t.busy = true → step s = .refused .busy) ∧
      (t.busy = false →
        (∀ l, a = .attachSource l → step s = capped (.next { t with src := ⟨true, l⟩ })) ∧
        (∀ n, a = .attachSink n → step s = capped (.next { t with snk := ⟨true, [], n⟩ })) ∧
        (∀ k, a = .writeArgK k → step s = capped (.next { t with argK := k, argKWritten := true })) ∧
        (∀ l, a = .writePix l → step s = capped (.next { t with out := l, pixWritten := true })) ∧
        (∀ d, a = .putDocument d → step s = capped (.next { t with doc := some d })) ∧
        (∀ c, a = .writeCmd c → step s = capped (exec (decodeCommand c) t)))) ∧
    (hostDue s = .quiet t → t.busy = false → step s = capped (.next t))

/-! ## Reset -/

/-- The values the spec gives for power-on reset (70_reset_and_hazards.md R340, a decision of the spec, D21); every other field is
the model's choice (log 6) and is not stated. -/
def Obligations.ResetValuesOfTheSpec : Prop :=
  State.reset.cmd = .none ∧ State.reset.status = ⟨.idle, 0, false⟩ ∧ State.reset.pos = 0 ∧ State.reset.spos = 0 ∧
  State.reset.pst = .idle ∧ State.reset.sst = .idle ∧ State.reset.doc = none

/-- The invariant holds after reset. -/
def Obligations.ResetMeetsInvariant : Prop := Inv State.reset

/-! ## Group host -/

/-- PARSE starts (60_exceptions.md R310, R311; PSTART, 43_container_parser.md R231). -/
def Obligations.ParseStarts : Prop :=
  ∀ s : State, s.busy = false → s.src.attached = true →
    ∃ t, exec .parse s = .next t ∧ t.cmd = .parse ∧ t.status = ⟨.busy, 0, false⟩ ∧ t.pos = 0 ∧ t.spos = 0 ∧ t.pst = .header ∧
      t.doc = none ∧ t.scratch.doc.gct = none ∧ t.scratch.doc.gces = [] ∧ t.scratch.doc.comments = [] ∧
      t.scratch.doc.apps = [] ∧ t.scratch.doc.ptes = [] ∧ t.scratch.doc.images = [] ∧ t.lzwUnit = .off ∧
      t = { s with
        cmd := t.cmd, status := t.status, errInfo := t.errInfo, pos := t.pos, spos := t.spos, pst := t.pst, doc := t.doc,
        scratch := t.scratch, lzwUnit := t.lzwUnit, imgIdx := t.imgIdx, fresh := t.fresh }

/-- SERIALIZE starts (R310, R312; 44_container_serializer.md R284; 20_memory.md R62). -/
def Obligations.SerializeStarts : Prop :=
  ∀ s : State, s.busy = false → s.doc ≠ none → s.snk.attached = true →
    ∃ t, exec .serialize s = .next t ∧ t.cmd = .serialize ∧ t.status = ⟨.busy, 0, s.status.pteSeen⟩ ∧ t.pos = 0 ∧ t.spos = 0 ∧
      t.sst = .header ∧ t.snk = { s.snk with bytes := [] } ∧ t.imgIdx = 0 ∧ t.lzwUnit = .off ∧
      t = { s with
        cmd := t.cmd, status := t.status, errInfo := t.errInfo, pos := t.pos, spos := t.spos, sst := t.sst, snk := t.snk,
        scratch := t.scratch, lzwUnit := t.lzwUnit, imgIdx := t.imgIdx, fresh := t.fresh }

/-- DECODE starts (R310, R313): START(ARG_K) (41_lzw_decoder.md R171). -/
def Obligations.DecodeStarts : Prop :=
  ∀ s : State, s.busy = false → s.src.attached = true → s.argKWritten = true → 2 ≤ s.argK.toNat → s.argK.toNat ≤ 8 →
    ∃ t, exec .decode s = .next t ∧ t.cmd = .decode ∧ t.status = ⟨.busy, 0, s.status.pteSeen⟩ ∧ t.pos = 0 ∧ t.spos = 0 ∧
      t.dec.k = s.argK.toNat ∧ t.dec.clr = 2 ^ s.argK.toNat ∧ t.dec.endc = t.dec.clr + 1 ∧ t.dec.next = t.dec.clr + 2 ∧
      t.dec.w = s.argK.toNat + 1 ∧ t.dec.prev = none ∧ t.dec.acc = 0 ∧ t.dec.nb = 0 ∧ t.dec.sbrem = 0 ∧ t.dec.sbterm = false ∧
      t.dec.sbeos = false ∧ (∀ i, i < t.dec.clr → dictRead t.dec.dict i = [BitVec.ofNat 8 i]) ∧
      (∀ i, t.dec.clr ≤ i → dictRead t.dec.dict i = []) ∧ t.out = [] ∧ t.lzwUnit = .lzwd ∧
      t = { s with
        cmd := t.cmd, status := t.status, errInfo := t.errInfo, pos := t.pos, spos := t.spos, dec := t.dec, out := t.out
        pixWritten := t.pixWritten, scratch := t.scratch, lzwUnit := t.lzwUnit, imgIdx := t.imgIdx, fresh := t.fresh }

/-- ENCODE starts (R310, R314): ESTART(ARG_K) on PIX (42_lzw_encoder.md R201). -/
def Obligations.EncodeStarts : Prop :=
  ∀ s : State, s.busy = false → s.snk.attached = true → s.argKWritten = true → s.pixWritten = true →
    2 ≤ s.argK.toNat → s.argK.toNat ≤ 8 → (∀ p, p ∈ s.out → p.toNat < 2 ^ s.argK.toNat) →
    ∃ t, exec .encode s = .next t ∧ t.cmd = .encode ∧ t.status = ⟨.busy, 0, s.status.pteSeen⟩ ∧ t.pos = 0 ∧ t.spos = 0 ∧
      t.snk = { s.snk with bytes := [] } ∧ t.enc.k = s.argK.toNat ∧ t.enc.clr = 2 ^ s.argK.toNat ∧
      t.enc.endc = t.enc.clr + 1 ∧ (∀ c p, tabRead t.enc.tab c p = none) ∧ t.enc.next = t.enc.clr + 2 ∧
      t.enc.w = s.argK.toNat + 1 ∧ t.enc.cur = none ∧ t.enc.acc = 0 ∧ t.enc.nb = 0 ∧ t.enc.buf = [] ∧ t.enc.rest = s.out ∧
      t.lzwUnit = .lzweStart ∧
      t = { s with
        cmd := t.cmd, status := t.status, errInfo := t.errInfo, pos := t.pos, spos := t.spos, snk := t.snk, enc := t.enc,
        scratch := t.scratch, lzwUnit := t.lzwUnit, imgIdx := t.imgIdx, fresh := t.fresh }

/-- The situations to which the spec gives no meaning are refused by name (93_implementation_defined.md U1 to U5). The spec gives U5 no
tag: the names `argKNeverWritten` and `pixNeverWritten` are the model's (logs 18, 19), and so is which refusal is named where several
hold, as the clauses have it (ARG_K before PIX, both before the values; log 18). The buffer no longer counts as PIX once the CORE has
overwritten it, in a DECODE, at an image of a PARSE or of a SERIALIZE (10_state.md R48, 70_reset_and_hazards.md R341; log 19). The
refusals for a stream that was never attached are the model's too (log 18) and not stated. -/
def Obligations.UndefinedCommandsRefused : Prop :=
  (∀ (c : StartCommand) (s : State), s.busy = true → exec (decodeCommand c) s = .refused .busy) ∧
  (∀ s : State, s.busy = false → s.doc = none → exec .serialize s = .refused .noDocument) ∧
  (∀ s : State, s.busy = false → s.src.attached = true → s.argKWritten = false →
    exec .decode s = .refused .argKNeverWritten) ∧
  (∀ s : State, s.busy = false → s.snk.attached = true → s.argKWritten = false →
    exec .encode s = .refused .argKNeverWritten) ∧
  (∀ s : State, s.busy = false → s.snk.attached = true → s.argKWritten = true → s.pixWritten = false →
    exec .encode s = .refused .pixNeverWritten) ∧
  (∀ (s t : State) (i : Instr), i = .decode ∨ i = .lzw ∨ i = .sImg → s.lzwUnit = .off → exec i s = .next t → t.lzwUnit ≠ .off →
    t.pixWritten = false) ∧
  (∀ s : State, s.busy = false → s.src.attached = true → s.argKWritten = true → (s.argK.toNat < 2 ∨ 8 < s.argK.toNat) →
    exec .decode s = .refused .badMinCodeSize) ∧
  (∀ s : State, s.busy = false → s.snk.attached = true → s.argKWritten = true → s.pixWritten = true →
    (s.argK.toNat < 2 ∨ 8 < s.argK.toNat) → exec .encode s = .refused .badMinCodeSize) ∧
  (∀ s : State, s.busy = false → s.snk.attached = true → s.argKWritten = true → s.pixWritten = true →
    2 ≤ s.argK.toNat → s.argK.toNat ≤ 8 → (∃ p, p ∈ s.out ∧ 2 ^ s.argK.toNat ≤ p.toNat) →
    exec .encode s = .refused .symbolOutOfAlphabet) ∧
  (∀ s : State, (s.scratch.img.minCodeSize.toNat < 2 ∨ 8 < s.scratch.img.minCodeSize.toNat) →
    exec .lzw s = .refused .badMinCodeSize) ∧
  (∀ s : State, s.doc = none →
    exec .sHdr s = .refused .noDocument ∧ exec .sLsd s = .refused .noDocument ∧ exec .sGct s = .refused .noDocument ∧
    exec .sGce s = .refused .noDocument ∧ exec .sCom s = .refused .noDocument ∧ exec .sApp s = .refused .noDocument ∧
    exec .sPte s = .refused .noDocument ∧ exec .sImg s = .refused .noDocument)

/-! ## Groups fixed and indicator -/

/-- HDR, LSD, GCT, LCT and MCS store what was read and go on to the next place of the stream; nothing else changes
(43_container_parser.md R232 to R235, R243 to R245). For HDR the signature is "GIF"; the other signatures are in
`FormatFaultsRecordTheirValues`. -/
def Obligations.PositionalRowsStoreWhatWasRead : Prop :=
  ∀ s : State,
    (∀ v : Bytes3, ∃ t, exec (.hdr ⟨0x47, 0x49, 0x46⟩ v) s = .next t ∧
      t = { s with scratch := { s.scratch with doc := t.scratch.doc }, pst := .lsd } ∧
      t.scratch.doc = { s.scratch.doc with header := ⟨⟨0x47, 0x49, 0x46⟩, v⟩ }) ∧
    (∀ (w h : Half) (p bg a : Byte), ∃ t, exec (.lsd w h p bg a) s = .next t ∧
      t = { s with scratch := { s.scratch with doc := t.scratch.doc }, pst := t.pst } ∧
      t.scratch.doc = { s.scratch.doc with screen := ⟨w, h, p, bg, a⟩ } ∧
      (128 ≤ p.toNat → t.pst = .gct) ∧ (p.toNat < 128 → t.pst = .loop)) ∧
    (∀ tab : List Rgb, ∃ t, exec (.gct tab) s = .next t ∧
      t = { s with scratch := { s.scratch with doc := t.scratch.doc }, pst := .loop } ∧
      t.scratch.doc = { s.scratch.doc with gct := some tab }) ∧
    (∀ tab : List Rgb, ∃ t, exec (.lct tab) s = .next t ∧
      t = { s with scratch := { s.scratch with img := t.scratch.img }, pst := .minCode } ∧
      t.scratch.img = { s.scratch.img with lct := some tab }) ∧
    (∀ k : Byte, ∃ t, exec (.mcs k) s = .next t ∧
      t = { s with scratch := { s.scratch with img := t.scratch.img }, pst := .lzw } ∧
      t.scratch.img = { s.scratch.img with minCodeSize := k })

/-- LZW starts the decoder with a fresh object (START, 41_lzw_decoder.md R171), whatever the dead objects before it held: nothing
but the decoder's object, OUT (with its mark as PIX) and the running unit changes. DECODE starts it with the same object for the same k. -/
def Obligations.ImageDecodeStartsFresh : Prop :=
  ∀ (s : State) (k : Nat), s.scratch.img.minCodeSize.toNat = k → 2 ≤ k → k ≤ 8 →
    ∃ t, exec .lzw s = .next t ∧ t = { s with dec := t.dec, out := [], pixWritten := t.pixWritten, lzwUnit := .lzwd } ∧
      t.dec.k = k ∧ t.dec.clr = 2 ^ k ∧ t.dec.endc = 2 ^ k + 1 ∧ t.dec.next = 2 ^ k + 2 ∧ t.dec.w = k + 1 ∧ t.dec.prev = none ∧
      t.dec.acc = 0 ∧ t.dec.nb = 0 ∧ t.dec.sbrem = 0 ∧ t.dec.sbterm = false ∧ t.dec.sbeos = false ∧
      (∀ i, i < 2 ^ k → dictRead t.dec.dict i = [BitVec.ofNat 8 i]) ∧
      (∀ i, 2 ^ k ≤ i → dictRead t.dec.dict i = []) ∧
      (∀ (d : Decoder) (o : List Byte), exec .lzw { s with dec := d, out := o } = .next t) ∧
      ∀ u : State, u.busy = false → u.src.attached = true → u.argKWritten = true → u.argK.toNat = k →
        ∃ v, exec .decode u = .next v ∧ v.dec = t.dec ∧ v.out = []

/-- The bytes that only move PST (R237, R238, R240, R241, R243, R257): EXT to P_LABEL, IMG's indicator to P_IMGDESC, the labels of
EXT.GCE, EXT.APP and EXT.PTE to P_GCE, P_APP and P_PTE, where their fixed parts are due. IMG's descriptor is kept, and bit 7 of its
packed byte decides whether a table follows. Nothing else changes. -/
def Obligations.ExtensionAndImageOpen : Prop :=
  ∀ s : State, exec .ext s = .next { s with pst := .label } ∧ exec imgIndicator s = .next { s with pst := .imgDesc } ∧
    exec (.extGce .label) s = .next { s with pst := .gce } ∧
    exec (.extApp .label) s = .next { s with pst := .app, scratch := { s.scratch with headerDue := true } } ∧
    exec (.extPte .label) s = .next { s with pst := .pte, scratch := { s.scratch with headerDue := true } } ∧
    ∀ (l t w h : Half) (p : Byte), ∃ u, exec (imgAt l t w h p) s = .next u ∧
      u = { s with scratch := { s.scratch with img := u.scratch.img }, pst := u.pst } ∧
      u.scratch.img.left = l ∧ u.scratch.img.top = t ∧ u.scratch.img.width = w ∧ u.scratch.img.height = h ∧
      u.scratch.img.packed = p ∧ u.scratch.img.lct = none ∧
      (128 ≤ p.toNat → u.pst = .lct) ∧ (p.toNat < 128 → u.pst = .minCode)

/-- TRL, and the end of the stream at an indicator, end the parse successfully: DOC is the working Document, PST is P_DONE, the
command is DONE_OK; nothing of SRC is taken behind the trailer (R247, R249, R250). The LZW objects hold any value behind a command
(93_implementation_defined.md U7). -/
def Obligations.TrailerOrEndOfStreamEndsParse : Prop :=
  ∀ (s : State) (i : Instr), i = .trl ∨ i = .eos →
    ∃ t, exec i s = .next t ∧ t.doc = some s.scratch.doc ∧ t.pst = .done ∧
      t.status = ⟨.doneOk, s.status.err, s.status.pteSeen⟩ ∧
      t = { s with
        doc := t.doc, pst := t.pst, status := t.status, dec := t.dec, enc := t.enc, scratch := t.scratch, lzwUnit := .off
        imgIdx := t.imgIdx, fresh := t.fresh }

/-- The format faults (R302 to R305, R309): an invalid signature, an unknown indicator, the wrong sizes and the wrong terminator
of an extension, an invalid code. Each ends the command at once with its code, the offending values and POS; a faulted PARSE
leaves no Document. A faulted DECODE keeps PST, SST and DOC: R309's `PST <- P_FAULT` is not taken for it, since PST is written only by
PARSE (10_state.md R26; log 30), and DOC is untouched by DECODE (R49). The tests of the terminator and of the plain text size are
decisions of the spec (D10, D11). -/
def Obligations.FormatFaultsRecordTheirValues : Prop :=
  ∀ (s : State) (i : Instr) (c : Cause),
    ((∃ sig v, i = .hdr sig v ∧ sig ≠ ⟨0x47, 0x49, 0x46⟩ ∧ c = .invalidSignature sig) ∨
     (∃ b, i = .unknown b ∧ c = .unknownBlock b) ∨
     (∃ n, i = .extGce (.badSize n) ∧ c = .badBlockSize 0xF9 n) ∨
     (∃ p d ti t, i = .extGce (.body p d ti t) ∧ t ≠ 0 ∧ c = .badBlockSize 0xF9 t) ∨
     (∃ n, i = .extApp (.badSize n) ∧ c = .badBlockSize 0xFF n) ∨
     (∃ n, i = .extPte (.badSize n) ∧ c = .badBlockSize 0x01 n) ∨
     (∃ n, i = .invalid n ∧ c = .invalidCode n s.dec.w)) →
    ∃ t, exec i s = .next t ∧ t.errInfo = ⟨c, s.pos⟩ ∧ t.status.state = .doneFault ∧
      t.status.pteSeen = s.status.pteSeen ∧ t.lzwUnit = .off ∧
      t.status.err = (match c with
        | .ioError _ => 1
        | .invalidSignature _ => 2
        | .unknownBlock _ => 3
        | .badBlockSize _ _ => 4
        | .invalidCode _ _ => 5) ∧
      (s.cmd = .parse → t.pst = .fault ∧ t.doc = none ∧ t.sst = s.sst) ∧
      (s.cmd = .decode → t.pst = s.pst ∧ t.doc = s.doc ∧ t.sst = s.sst) ∧
      t = { s with
        status := t.status, errInfo := t.errInfo, pst := t.pst, sst := t.sst, doc := t.doc, dec := t.dec, out := t.out,
        enc := t.enc, scratch := t.scratch, lzwUnit := t.lzwUnit, imgIdx := t.imgIdx, fresh := t.fresh }

/-! ## Groups label and subblock -/

/-- EXT.GCE's body with a zero terminator: the record is appended, the loop goes on, nothing else changes (R238). -/
def Obligations.ControlExtensionStored : Prop :=
  ∀ (s : State) (p : Byte) (d : Half) (ti : Byte),
    ∃ t, exec (.extGce (.body p d ti 0)) s = .next t ∧
      t = { s with scratch := { s.scratch with doc := t.scratch.doc }, pst := .loop } ∧
      t.scratch.doc = { s.scratch.doc with gces := s.scratch.doc.gces ++ [⟨p, d, ti⟩] }

/-- EXT.COM, the fixed parts of EXT.APP and EXT.PTE, and EXT.SKIP open a sub-block loop: no fragment yet, the sub-block flags cleared
(10_state.md R34; log 21), the fixed part kept; nothing else changes (R239 to R242). -/
def Obligations.SubBlockLoopsOpen : Prop :=
  ∀ (s : State) (i : Instr) (p : PState),
    ((i = .extCom ∧ p = .comment) ∨ (∃ a b, i = .extApp (.header a b) ∧ p = .app) ∨
     (∃ f, i = .extPte (.header f) ∧ p = .pte) ∨ (∃ l, i = .extSkip l ∧ p = .skip)) →
    ∃ t, exec i s = .next t ∧ t.pst = p ∧ t.scratch.frags = [] ∧ t.scratch.headerDue = false ∧ t.scratch.doc = s.scratch.doc ∧
      t.scratch.img = s.scratch.img ∧
      (∀ a b, i = .extApp (.header a b) → t.scratch.appId = a ∧ t.scratch.appAuth = b) ∧
      (∀ f, i = .extPte (.header f) → t.scratch.pteFields = f) ∧
      t = { s with pst := p, scratch := t.scratch, dec := { s.dec with sbrem := 0, sbterm := false, sbeos := false } }

/-- SB.DATA appends a fragment (and in a skipped extension discards it); SB.TERM completes the sequence: the comment, application
or plain text record is appended and the loop goes on; a skipped extension leaves the Document as it was (R239 to R242, R253). Behind
a plain text extension the loop goes on by this spec's PTE_POLICY, its decision D12; by the other value the parse ends there. That SBREM
is 0 behind SB.DATA, and SBREM 0 and SBTERM 1 behind SB.TERM, is the model's reading of 10_state.md R34 (log 21). -/
def Obligations.SubBlockRowsStore : Prop :=
  ∀ (s : State) (p : PState), s.pst = p → p = .comment ∨ p = .app ∨ p = .pte ∨ p = .skip →
    (∀ f : List Byte, ∃ t, exec (.sbData f) s = .next t ∧
      t = { s with scratch := { s.scratch with frags := t.scratch.frags }, dec := { s.dec with sbrem := 0 } } ∧
      t.scratch.frags = if p = .skip then s.scratch.frags else s.scratch.frags ++ [f]) ∧
    ((p = .pte → s.params.ptePolicy = .continueLoop) → ∃ t, exec .sbTerm s = .next t ∧
      t = { s with
        scratch := { s.scratch with doc := t.scratch.doc }, dec := { s.dec with sbrem := 0, sbterm := true }, pst := .loop
        status := t.status } ∧
      t.status = (if p = .pte then { s.status with pteSeen := true } else s.status) ∧
      (p = .comment → t.scratch.doc =
        { s.scratch.doc with comments := s.scratch.doc.comments ++ [⟨s.scratch.frags.map utf8Lossy⟩] }) ∧
      (p = .app → t.scratch.doc = { s.scratch.doc with
        apps := s.scratch.doc.apps ++ [⟨s.scratch.appId, s.scratch.appAuth, s.scratch.frags.flatten⟩] }) ∧
      (p = .pte → t.scratch.doc =
        { s.scratch.doc with ptes := s.scratch.doc.ptes ++ [⟨s.scratch.pteFields, s.scratch.frags.flatten⟩] }) ∧
      (p = .skip → t.scratch.doc = s.scratch.doc)) ∧
    (p = .pte → s.params.ptePolicy = .earlyReturn → ∃ t, exec .sbTerm s = .next t ∧
      t.doc = some { s.scratch.doc with ptes := s.scratch.doc.ptes ++ [⟨s.scratch.pteFields, s.scratch.frags.flatten⟩] } ∧
      t.pst = .done ∧ t.status = ⟨.doneOk, s.status.err, true⟩ ∧
      t = { s with
        doc := t.doc, pst := t.pst, status := t.status, dec := t.dec, enc := t.enc, scratch := t.scratch, lzwUnit := .off
        imgIdx := t.imgIdx, fresh := t.fresh })

/-! ## Group code -/

/-- END and NOCODE finish the decode (41_lzw_decoder.md R173, R183, R184): the rest of the sub-block sequence is drained, OUT is
the result. In a DECODE the command ends; in a PARSE OUT becomes the pixels of the image and the loop goes on
(43_container_parser.md R243, R246). What the dead object holds is any value, and so is what both hold behind a command (U7). -/
def Obligations.EndOfDataFinishesDecode : Prop :=
  ∀ (s : State) (bs : List Byte) (i : Instr), i = .endCode ∨ i = .noCode → sourceHolds s bs →
    s.cmd = .parse ∨ s.cmd = .decode →
    ∃ (t : State) (used : List Byte), exec i s = .next t ∧ bs = used ++ behind s ∧
      t.src = { s.src with answers := (behind s).map some } ∧ t.pos = s.pos + used.length ∧ t.out = s.out ∧ t.lzwUnit = .off ∧
      (s.cmd = .decode → t.status = { s.status with state := .doneOk } ∧ t.pst = s.pst) ∧
      (s.cmd = .parse → t.status = s.status ∧ t.pst = .loop ∧ t.enc = s.enc ∧ t.scratch = { s.scratch with doc := { s.scratch.doc with
        images := s.scratch.doc.images ++ [{ s.scratch.img with pixels := s.out }] } }) ∧
      t = { s with
        src := t.src, pos := t.pos, dec := t.dec, enc := t.enc, lzwUnit := t.lzwUnit, status := t.status, pst := t.pst
        scratch := t.scratch, imgIdx := t.imgIdx, fresh := t.fresh }

/-- CLEAR resets the dictionary, NEXT, W and PREV and nothing else: not OUT, not the bit buffer, not the sub-block state (R174).
-/
def Obligations.ClearResetsDictionaryAndWidth : Prop :=
  ∀ s : State, ∃ t, exec .clear s = .next t ∧ t = { s with dec := t.dec } ∧
    t.dec = { s.dec with dict := t.dec.dict, next := s.dec.clr + 2, w := s.dec.k + 1, prev := none } ∧
    ∀ i, dictRead t.dec.dict i = if s.dec.clr + 2 ≤ i ∧ i ≤ 4095 then [] else dictRead s.dec.dict i

/-- KNOWN outputs the entry, which is not empty, and registers (R175, R178, R179, R180): with a previous code and a dictionary
that is not full, entry NEXT becomes the previous sequence and the first byte of this one, NEXT grows by one, and W grows by one
exactly when NEXT reaches 2^W below 12; else nothing is registered. The code becomes the previous code: R181, which the spec marks as
its own inference (derived from R176 and R179). Nothing else changes. -/
def Obligations.KnownCodeOutputsAndRegisters : Prop :=
  ∀ (s : State) (c : Nat), DecoderInv s.dec → c < s.dec.next → c ≠ s.dec.clr → c ≠ s.dec.endc →
    ∃ t, exec (.known c) s = .next t ∧ dictRead s.dec.dict c ≠ [] ∧ t.out = s.out ++ dictRead s.dec.dict c ∧
      t = { s with out := t.out, dec := t.dec } ∧
      t.dec = { s.dec with dict := t.dec.dict, next := t.dec.next, w := t.dec.w, prev := some c } ∧
      (s.dec.prev = none ∨ s.dec.next = 4096 →
        t.dec.next = s.dec.next ∧ t.dec.w = s.dec.w ∧ ∀ j, dictRead t.dec.dict j = dictRead s.dec.dict j) ∧
      (∀ p, s.dec.prev = some p → s.dec.next < 4096 →
        t.dec.next = s.dec.next + 1 ∧
        t.dec.w = (if s.dec.next + 1 = 2 ^ s.dec.w ∧ s.dec.w < 12 then s.dec.w + 1 else s.dec.w) ∧
        ∀ j, dictRead t.dec.dict j =
          if j = s.dec.next then dictRead s.dec.dict p ++ (dictRead s.dec.dict c).take 1 else dictRead s.dec.dict j)

/-- NEXTCODE outputs the previous sequence and its first byte again (R176, R178), and the registration writes exactly that sequence
under the code (R179, R180). The code becomes the previous code: R181, which the spec marks as its own inference (derived from R176 and
R179). -/
def Obligations.NextCodeOutputsAndRegistersItself : Prop :=
  ∀ (s : State) (c p : Nat), DecoderInv s.dec → s.dec.prev = some p → c = s.dec.next → c < 4096 →
    ∃ t, exec (.nextCode c) s = .next t ∧
      t.out = s.out ++ (dictRead s.dec.dict p ++ (dictRead s.dec.dict p).take 1) ∧
      dictRead t.dec.dict c = dictRead s.dec.dict p ++ (dictRead s.dec.dict p).take 1 ∧
      (∀ j, j ≠ c → dictRead t.dec.dict j = dictRead s.dec.dict j) ∧
      t = { s with out := t.out, dec := t.dec } ∧
      t.dec = { s.dec with dict := t.dec.dict, next := c + 1, w := t.dec.w, prev := some c } ∧
      t.dec.w = (if c + 1 = 2 ^ s.dec.w ∧ s.dec.w < 12 then s.dec.w + 1 else s.dec.w)

/-! ## Group emit -/

/-- S.HDR and S.LSD write the six and seven bytes of the stored fields and hand over; DOC is not changed
(44_container_serializer.md R272, R273). -/
def Obligations.HeaderAndScreenWritten : Prop :=
  ∀ (s : State) (d : Document), s.doc = some d →
    (∀ sig ver : List Byte, sig = d.header.signature.toList → ver = d.header.version.toList → room s 6 = true →
      exec .sHdr s = .next (wrote (sig ++ ver) { s with sst := .lsd })) ∧
    (room s 7 = true → exec .sLsd s = .next (wrote
      (encodeU16 d.screen.width ++ encodeU16 d.screen.height ++ [d.screen.packed, d.screen.bgIndex, d.screen.aspect])
      { s with sst := .gct }))

/-- S.GCT writes the entries that are stored, present or not judged on the Document's field; S.GCE eight bytes a record; S.COM the
concatenated fragments cut afresh; S.APP the fixed part and the payload cut afresh (R274 to R277; that the table is judged on the
field, that every record is written and that long comments are cut at 255 bytes are decisions of the spec, D24, D13, D14). -/
def Obligations.TableAndExtensionsWritten : Prop :=
  ∀ (s : State) (d : Document) (bs : List Byte), s.doc = some d → room s bs.length = true →
    (bs = (match d.gct with
        | none => []
        | some t => t.flatMap fun e => [e.r, e.g, e.b]) → exec .sGct s = .next (wrote bs { s with sst := .gce })) ∧
    (bs = (d.gces.flatMap fun g => [0x21, 0xF9, 0x04, g.packed, lo8 g.delay, hi8 g.delay, g.transparentIndex, 0x00]) →
      exec .sGce s = .next (wrote bs { s with sst := .comment })) ∧
    (bs = (d.comments.flatMap fun c => [0x21, 0xFE] ++ frame c.fragments.flatten) →
      exec .sCom s = .next (wrote bs { s with sst := .app })) ∧
    (bs = (d.apps.flatMap fun a => [0x21, 0xFF, 0x0B] ++ a.identifier.toList ++ a.authCode.toList ++ frame a.data) →
      exec .sApp s = .next (wrote bs { s with sst := .pte }))

/-- S.PTE writes all records under one introducer and one terminator, each with its size byte, its twelve bytes and its text's
data sub-blocks, and nothing where there is no record (R278, whose layout is the spec's decision D16). -/
def Obligations.PlainTextsWritten : Prop :=
  ∀ (s : State) (d : Document) (bs : List Byte), s.doc = some d → room s bs.length = true →
    (d.ptes = [] → exec .sPte s = .next { s with sst := .image }) ∧
    (d.ptes ≠ [] →
      bs = [0x21, 0x01] ++ (d.ptes.flatMap fun p => [0x0C] ++ p.fields.toList ++ frameChunks p.text.length p.text) ++ [0x00] →
      exec .sPte s = .next (wrote bs { s with sst := .image }))

/-- S.IMG writes the head of the next image as stored and starts an encode of its pixels with a fresh object (R279;
42_lzw_encoder.md R201, R217); behind the last image it hands over to the trailer. Outside the encoder's domain it is refused. -/
def Obligations.ImageHeadWrittenAndEncodeStarted : Prop :=
  ∀ (s : State) (d : Document), s.doc = some d →
    (d.images[s.imgIdx]? = none → exec .sImg s = .next { s with sst := .trailer }) ∧
    (∀ (m : ImageBlock) (bs : List Byte), d.images[s.imgIdx]? = some m →
      bs = [0x2C] ++ encodeU16 m.left ++ encodeU16 m.top ++ encodeU16 m.width ++ encodeU16 m.height ++ [m.packed] ++
        (match m.lct with
          | none => []
          | some t => t.flatMap fun e => [e.r, e.g, e.b]) ++ [m.minCodeSize] →
      room s bs.length = true →
      (2 ≤ m.minCodeSize.toNat → m.minCodeSize.toNat ≤ 8 → (∀ p, p ∈ m.pixels → p.toNat < 2 ^ m.minCodeSize.toNat) →
        ∃ t, exec .sImg s = .next t ∧
          t = { wrote bs s with
            sst := .image, enc := t.enc, out := m.pixels, pixWritten := t.pixWritten, lzwUnit := .lzweStart } ∧
          t.enc.k = m.minCodeSize.toNat ∧ t.enc.clr = 2 ^ m.minCodeSize.toNat ∧ t.enc.endc = t.enc.clr + 1 ∧
          (∀ c p, tabRead t.enc.tab c p = none) ∧ t.enc.next = t.enc.clr + 2 ∧ t.enc.w = m.minCodeSize.toNat + 1 ∧
          t.enc.cur = none ∧ t.enc.acc = 0 ∧ t.enc.nb = 0 ∧ t.enc.buf = [] ∧ t.enc.rest = m.pixels) ∧
      (m.minCodeSize.toNat < 2 ∨ 8 < m.minCodeSize.toNat → exec .sImg s = .refused .badMinCodeSize) ∧
      (2 ≤ m.minCodeSize.toNat → m.minCodeSize.toNat ≤ 8 → (∃ p, p ∈ m.pixels ∧ 2 ^ m.minCodeSize.toNat ≤ p.toNat) →
        exec .sImg s = .refused .symbolOutOfAlphabet))

/-- S.TRL writes the trailer byte and ends the command; it reads no Document (R280). The LZW objects hold any value behind a command
(93_implementation_defined.md U7). -/
def Obligations.TrailerWrittenEndsSerialize : Prop :=
  ∀ s : State, room s 1 = true → ∃ t, exec .sTrl s = .next t ∧ t.snk = (wrote [0x3B] s).snk ∧ t.spos = s.spos + 1 ∧
    t.sst = .done ∧ t.status = { s.status with state := .doneOk } ∧
    t = { s with
      snk := t.snk, spos := t.spos, sst := t.sst, status := t.status, dec := t.dec, enc := t.enc, scratch := t.scratch
      lzwUnit := .off, imgIdx := t.imgIdx, fresh := t.fresh }

/-! ## Group encstep

`ws` is what a row writes to SNK: the full chunks its bits complete. `Emitted base bits s` says that the encode, which began when
SNK held `base`, has emitted the bit stream `bits`. -/

/-- E.CLEAR0 emits the clear code at the first width and changes no table state (42_lzw_encoder.md R202). -/
def Obligations.InitialClearEmitted : Prop :=
  ∀ (s : State) (base : List Byte) (bits : List Bool), Emitted base bits s → s.enc.clr < 2 ^ s.enc.w →
    ∃ (ws : List Byte) (t : State), (room s ws.length = true → exec .eClear0 s = .next t) ∧
      Emitted base (bits ++ toBits s.enc.w s.enc.clr) t ∧
      t = { wrote ws s with
        enc := { s.enc with acc := t.enc.acc, nb := t.enc.nb, buf := t.enc.buf }, lzwUnit := .lzwe }

/-- E.MATCH makes the index, or the code of the longer known string, the pending match; it emits nothing and raises nothing
(R204). -/
def Obligations.MatchExtendsPendingString : Prop :=
  ∀ (s : State) (p : Byte),
    (s.enc.cur = none → exec (.eMatch p) s = .next { s with enc := { s.enc with cur := some p.toNat } }) ∧
    (∀ c v, s.enc.cur = some c → tabRead s.enc.tab c p = some v →
      exec (.eMatch p) s = .next { s with enc := { s.enc with cur := some v } })

/-- E.MISS emits the pending match at the width in force, widens when ENEXT is 2^EW below 12, registers the longer string under
ENEXT, and starts a new match (R205 where the table is not full, R206). That it does so also where (ECUR, p) is in ETAB or the table is
full, where no step runs the row, is the model's choice (log 15). -/
def Obligations.MissEmitsAndRegisters : Prop :=
  ∀ (s : State) (p : Byte) (c : Nat) (base : List Byte) (bits : List Bool),
    Emitted base bits s → s.enc.cur = some c → c < 2 ^ s.enc.w →
    ∃ (ws : List Byte) (t : State), (room s ws.length = true → exec (.eMiss p) s = .next t) ∧
      Emitted base (bits ++ toBits s.enc.w c) t ∧
      t = { wrote ws s with
        enc := { s.enc with
          acc := t.enc.acc, nb := t.enc.nb, buf := t.enc.buf, tab := t.enc.tab, next := s.enc.next + 1
          w := if s.enc.next = 2 ^ s.enc.w ∧ s.enc.w < 12 then s.enc.w + 1 else s.enc.w
          cur := some p.toNat } } ∧
      ∀ c' p', tabRead t.enc.tab c' p' = if c' = c ∧ p' = p then some s.enc.next else tabRead s.enc.tab c' p'

/-- E.OVERFLOW emits the pending match and then a clear code at width 12, and starts a fresh table and a new match (R205, R207, a
decision of the spec, D17). That it does so also where (ECUR, p) is in ETAB, where no step runs the row, is the model's choice
(log 15). -/
def Obligations.OverflowEmitsClearAndResets : Prop :=
  ∀ (s : State) (p : Byte) (c : Nat) (base : List Byte) (bits : List Bool),
    Emitted base bits s → s.enc.cur = some c → c < 4096 → s.enc.clr < 4096 → s.enc.next = 4096 → s.enc.w = 12 →
    ∃ (ws : List Byte) (t : State), (room s ws.length = true → exec (.eOverflow p) s = .next t) ∧
      Emitted base (bits ++ toBits 12 c ++ toBits 12 s.enc.clr) t ∧
      t = { wrote ws s with
        enc := { s.enc with
          acc := t.enc.acc, nb := t.enc.nb, buf := t.enc.buf, tab := t.enc.tab, next := s.enc.clr + 2, w := s.enc.k + 1
          cur := some p.toNat } } ∧
      ∀ c' p', tabRead t.enc.tab c' p' = none

/-- E.FINISH emits the pending match, widens, emits the end code, fills the last byte with zero bits, and writes the last chunk
and the terminator, so that SNK holds the whole packed output as one sub-block sequence (R208 to R210). An ENCODE has then
ended; a SERIALIZE goes on with the next image. -/
def Obligations.FinishEmitsEndCodeAndFrames : Prop :=
  ∀ (s : State) (base : List Byte) (bits : List Bool), Emitted base bits s → EncoderInv s.enc →
    s.cmd = .encode ∨ s.cmd = .serialize →
    ∃ (ws packed : List Byte) (z w : Nat) (t : State),
      (room s ws.length = true → exec .eFinish s = .next t) ∧
      t.snk.bytes = base ++ frame packed ∧ z < 8 ∧
      w = (if s.enc.cur ≠ none ∧ s.enc.next = 2 ^ s.enc.w ∧ s.enc.w < 12 then s.enc.w + 1 else s.enc.w) ∧
      bitsOfBytes packed =
        bits ++ (match s.enc.cur with | none => [] | some c => toBits s.enc.w c) ++ toBits w s.enc.endc ++
          List.replicate z false ∧
      (s.cmd = .encode → t.status = { s.status with state := .doneOk }) ∧
      (s.cmd = .serialize → t.status = s.status ∧ t.imgIdx = s.imgIdx + 1 ∧ t.scratch = s.scratch ∧ t.dec = s.dec) ∧
      t = { wrote ws s with
        dec := t.dec, enc := t.enc, lzwUnit := .off, status := t.status, imgIdx := t.imgIdx, scratch := t.scratch
        fresh := t.fresh }

/-! ## Several steps -/

/-- LSD and the global table it announces (43_container_parser.md R234): with bit 7 of the packed byte set the next step reads
2^(e+1) entries of three bytes, else none is read. -/
def Obligations.ScreenDescriptorThenGlobalTable : Prop :=
  ∀ (s : State) (w h : Half) (p bg a : Byte) (table rest : List Byte), Parsing .lsd s →
    available s.src.answers = encodeU16 w ++ encodeU16 h ++ [p, bg, a] ++ table ++ rest →
    (p.toNat < 128 → table = [] → ∃ t, Sys2Proof.core.run 1 s = .next t ∧ Parsing .loop t ∧
      t.scratch.doc = { s.scratch.doc with screen := ⟨w, h, p, bg, a⟩ } ∧ t.pos = s.pos + 7 ∧
      available t.src.answers = rest) ∧
    (128 ≤ p.toNat → table.length = 3 * 2 ^ (p.toNat % 8 + 1) → ∃ (t : State) (tab : List Rgb),
      Sys2Proof.core.run 2 s = .next t ∧ Parsing .loop t ∧ tab.length = 2 ^ (p.toNat % 8 + 1) ∧
      (tab.flatMap fun e => [e.r, e.g, e.b]) = table ∧
      t.scratch.doc = { s.scratch.doc with screen := ⟨w, h, p, bg, a⟩, gct := some tab } ∧
      t.pos = s.pos + 7 + table.length ∧ available t.src.answers = rest)

/-- An image block up to its code stream (R243 to R245): the descriptor, the local table exactly when bit 7 of its packed byte is
set, with 2^(e+1) entries, and the minimum code size as read. -/
def Obligations.ImageDescriptorThenLocalTable : Prop :=
  ∀ (s : State) (l t w h : Half) (p k : Byte) (table rest : List Byte), Parsing .loop s →
    available s.src.answers =
      [0x2C] ++ encodeU16 l ++ encodeU16 t ++ encodeU16 w ++ encodeU16 h ++ [p] ++ table ++ [k] ++ rest →
    (p.toNat < 128 → table = [] → ∃ u, Sys2Proof.core.run 3 s = .next u ∧ Parsing .lzw u ∧
      u.scratch.img.left = l ∧ u.scratch.img.top = t ∧ u.scratch.img.width = w ∧ u.scratch.img.height = h ∧
      u.scratch.img.packed = p ∧ u.scratch.img.minCodeSize = k ∧ u.scratch.img.lct = none ∧
      u.scratch.doc = s.scratch.doc ∧ u.pos = s.pos + 11 ∧ available u.src.answers = rest) ∧
    (128 ≤ p.toNat → table.length = 3 * 2 ^ (p.toNat % 8 + 1) → ∃ (u : State) (tab : List Rgb),
      Sys2Proof.core.run 4 s = .next u ∧ Parsing .lzw u ∧
      u.scratch.img.left = l ∧ u.scratch.img.top = t ∧ u.scratch.img.width = w ∧ u.scratch.img.height = h ∧
      u.scratch.img.packed = p ∧ u.scratch.img.minCodeSize = k ∧ u.scratch.img.lct = some tab ∧
      tab.length = 2 ^ (p.toNat % 8 + 1) ∧ (tab.flatMap fun e => [e.r, e.g, e.b]) = table ∧
      u.scratch.doc = s.scratch.doc ∧ u.pos = s.pos + 11 + table.length ∧ available u.src.answers = rest)

/-- A comment extension from its label to its terminator gives one record with one fragment a sub-block, each decoded on its own,
a fragment that is valid UTF-8 unchanged (R239, 10_state.md R42; which fragments are valid UTF-8 the spec does not say: that is log
11's, PRESUMED from the Unicode standard); an extension with an unknown label is consumed whole and stores nothing (R242). -/
def Obligations.CommentAndUnknownExtensionsRead : Prop :=
  ∀ (s : State) (lab : Byte) (frags : List (List Byte)) (rest : List Byte), Parsing .label s → payloadsOk frags →
    available s.src.answers = [lab] ++ subBlocks frags ++ rest →
    (lab = 0xFE → ∃ t, Sys2Proof.core.run (frags.length + 2) s = .next t ∧ Parsing .loop t ∧
      t.scratch.doc = { s.scratch.doc with comments := s.scratch.doc.comments ++ [⟨frags.map utf8Lossy⟩] } ∧
      ((∀ f, f ∈ frags → utf8Valid f = true) → frags.map utf8Lossy = frags) ∧
      t.pos = s.pos + 1 + (subBlocks frags).length ∧ available t.src.answers = rest) ∧
    (lab ≠ 0xF9 → lab ≠ 0xFE → lab ≠ 0xFF → lab ≠ 0x01 →
      ∃ t, Sys2Proof.core.run (frags.length + 2) s = .next t ∧ Parsing .loop t ∧ t.scratch.doc = s.scratch.doc ∧
      t.doc = s.doc ∧ t.status = s.status ∧ t.pos = s.pos + 1 + (subBlocks frags).length ∧ available t.src.answers = rest)

/-- An application and a plain text extension from the label to the terminator give one record each, the payloads put together;
the plain text one sets PTE_SEEN (R240, R241, R253; the size byte of the second is the spec's decision D11). -/
def Obligations.ApplicationAndPlainTextRead : Prop :=
  ∀ (s : State) (frags : List (List Byte)) (rest : List Byte), Parsing .label s → payloadsOk frags →
    (∀ (a : Bytes8) (b : Bytes3), available s.src.answers = [0xFF, 0x0B] ++ a.toList ++ b.toList ++ subBlocks frags ++ rest →
      ∃ t, Sys2Proof.core.run (frags.length + 3) s = .next t ∧ Parsing .loop t ∧ t.status = s.status ∧
      t.scratch.doc = { s.scratch.doc with apps := s.scratch.doc.apps ++ [⟨a, b, frags.flatten⟩] } ∧
      t.pos = s.pos + 13 + (subBlocks frags).length ∧ available t.src.answers = rest) ∧
    (∀ f : Bytes12, available s.src.answers = [0x01, 0x0C] ++ f.toList ++ subBlocks frags ++ rest →
      ∃ t, Sys2Proof.core.run (frags.length + 3) s = .next t ∧ Parsing .loop t ∧
      t.status = { s.status with pteSeen := true } ∧
      t.scratch.doc = { s.scratch.doc with ptes := s.scratch.doc.ptes ++ [⟨f, frags.flatten⟩] } ∧
      t.pos = s.pos + 14 + (subBlocks frags).length ∧ available t.src.answers = rest)

/-- The round trip (42_lzw_encoder.md R213), with this spec's parameters: an ENCODE of a sequence within the alphabet starts and ends
successfully; and every DECODE of what it wrote, with the same k, whatever follows it on SRC, ends successfully by an end code, takes
exactly those bytes, and returns the sequence. `a` is a state in which the ENCODE can be started, `b` one in which the DECODE can. -/
def Obligations.EncodeThenDecodeReturnsPixels : Prop :=
  ∀ (a : State) (k : Byte) (pix : List Byte), 2 ≤ k.toNat → k.toNat ≤ 8 → (∀ p, p ∈ pix → p.toNat < 2 ^ k.toNat) →
    a.busy = false → a.host = [⟨none, .writeCmd .encode⟩] → a.params = Params.spec → a.snk.attached = true → a.snk.okWrites = none →
    a.argK = k → a.argKWritten = true → a.out = pix → a.pixWritten = true →
    ∃ (m : Nat) (c : State), Sys2Proof.core.run m a = .next c ∧ c.host = [] ∧ c.cmd = .encode ∧ c.status.state = .doneOk ∧
      c.spos = c.snk.bytes.length ∧
      ∀ (b : State) (rest : List Byte), b.busy = false → b.host = [⟨none, .writeCmd .decode⟩] → b.params = Params.spec →
        b.src.attached = true → b.argK = k → b.argKWritten = true → sourceHolds b (c.snk.bytes ++ rest) →
        ∃ (n : Nat) (d e : State), Sys2Proof.core.run n b = .next d ∧ d.busy = true ∧
          (decodeCode (codeContext d.dec) (bitsLeft d)).1 = .endCode ∧
          Sys2Proof.core.run (n + 1) b = .next e ∧ e.host = [] ∧ e.status.state = .doneOk ∧ e.out = pix ∧
          e.pos = c.snk.bytes.length ∧ available e.src.answers = rest

/-! ## The whole machine -/

/-- Every step keeps the invariant, from every state that meets it. -/
def Obligations.StepKeepsInvariant : Prop := ∀ s t : State, Inv s → step s = .next t → Inv t

/-- Every step keeps the canonical form of DICT and ETAB, from every state that has it. -/
def Obligations.StepKeepsMemoryForm : Prop := ∀ s t : State, Memory.wf s = true → step s = .next t → Memory.wf t = true

/-- The CORE never ends a command in any way other than success or one of the five faults (60_exceptions.md R319): from a state
that meets the invariant a step never stops with a fault of the model, and a command that ends is DONE_OK with code 0 or
DONE_FAULT with the code of the cause it recorded. -/
def Obligations.CommandEndsOkOrByOneOfFiveFaults : Prop :=
  ∀ s : State, Inv s → (∀ f, step s ≠ .fault f) ∧
    ∀ t, step s = .next t → s.busy = true → t.busy = false →
      t.status.state = .doneOk ∧ t.status.err = 0 ∨
      t.status.state = .doneFault ∧ t.status.err = causeCode t.errInfo.cause ∧ 1 ≤ t.status.err ∧ t.status.err ≤ 5

/-- A command that runs, the host staying quiet, ends, or meets a situation the spec refuses (70_reset_and_hazards.md R363, marked
derived in the spec). -/
def Obligations.EveryCommandEnds : Prop :=
  ∀ s : State, Inv s → s.busy = true → s.host = [] →
    ∃ n, (∃ t, Sys2Proof.core.run n s = .next t ∧ t.busy = false) ∨ (∃ r, Sys2Proof.core.run n s = .refused r)

/-- What a step of the CORE may change of what the host sees (10_state.md R21, R23, R37, R49; 44_container_serializer.md R270):
never CMD, ARG_K or the streams' attachment; DOC in a PARSE alone, and there it is `invalid` or, at the successful end, the
working Document (by the other PTE_POLICY with the plain text record that ends the parse); PTE_SEEN in a PARSE alone, where it is
never cleared. -/
def Obligations.HostVisibleStateOnlyAsStated : Prop :=
  ∀ s t u : State, Inv s → t.busy = true → hostDue s = .quiet t → step s = .next u →
    u.cmd = t.cmd ∧ u.argK = t.argK ∧ u.argKWritten = t.argKWritten ∧ u.src.attached = t.src.attached ∧
    u.snk.attached = t.snk.attached ∧
    (t.cmd ≠ .parse → u.doc = t.doc ∧ u.status.pteSeen = t.status.pteSeen) ∧
    (t.cmd = .parse → (t.status.pteSeen = true → u.status.pteSeen = true) ∧
      (u.status.state = .doneOk → u.doc ≠ none ∧ u.pst = .done ∧
        (t.params.ptePolicy = .continueLoop → u.doc = some t.scratch.doc)) ∧
      (u.status.state = .doneFault → u.doc = none ∧ u.pst = .fault) ∧
      (u.busy = true → u.doc = t.doc))

/-- SRC and SNK are never active in the same command: a step of a PARSE or DECODE leaves SNK and SPOS alone, one of a SERIALIZE or
ENCODE leaves SRC and POS alone (20_memory.md R78). -/
def Obligations.StreamsNeverActiveTogether : Prop :=
  ∀ s t u : State, Inv s → t.busy = true → hostDue s = .quiet t → step s = .next u →
    (t.cmd = .parse ∨ t.cmd = .decode → u.snk = t.snk ∧ u.spos = t.spos) ∧
    (t.cmd = .serialize ∨ t.cmd = .encode → u.src = t.src ∧ u.pos = t.pos)

/-- A step of the CORE takes the bytes of SRC in order, none skipped and none twice, and POS counts them, where SRC does not fail
(20_memory.md R71, R75; 10_state.md R25). -/
def Obligations.SourceConsumedInOrder : Prop :=
  ∀ (s t u : State) (bs : List Byte), t.busy = true → hostDue s = .quiet t → sourceHolds t bs → step s = .next u →
    ∃ used bs', bs = used ++ bs' ∧ sourceHolds u bs' ∧ u.pos = t.pos + used.length

/-- An access to SRC that fails is `IOError(ReadFailure)` at that access (43_container_parser.md R252), with the code of R306 and the
position of R301, decisions of the spec (D8, D20). Where `bs` stands before the failing access, a step stays before it, the access still to come, or faults with the number of bytes
consumed before it; it faults where it needs more than `bs` (`ReadsBeyond`), and stays where it does not. -/
def Obligations.ReadFailureRaisedAtTheAccess : Prop :=
  ∀ (s t : State) (bs : List Byte) (more : List (Option Byte)), t.busy = true → hostDue s = .quiet t →
    t.src.answers = bs.map some ++ none :: more →
    let stays := fun u : State =>
      ∃ used bs', bs = used ++ bs' ∧ u.src.answers = bs'.map some ++ none :: more ∧ u.pos = t.pos + used.length
    let faults := fun u : State =>
      u.status = ⟨.doneFault, 1, t.status.pteSeen⟩ ∧ u.errInfo = ⟨.ioError .readFailure, t.pos + bs.length⟩
    (∀ u, step s = .next u → stays u ∨ faults u) ∧
    ((t.lzwUnit = .lzwd → bitBufferOk t.dec) →
      (ReadsBeyond t → ∃ u, step s = capped (.next u) ∧ faults u) ∧
      (¬ ReadsBeyond t → ∀ u, step s = .next u → stays u))

/-- The only fault of SERIALIZE and ENCODE is `IOError(WriteFailure)` at the write that fails, and a write that SNK refuses raises it
(44_container_serializer.md R282; 42_lzw_encoder.md R212). A step writes `all` to a SNK that takes everything (`WouldWrite`); where SNK
takes `m` more bytes, fewer than that, the step faults: the first `m` of them stand on SNK and stay there, and whether the next one
stands there too is open; DOC is kept, and SST is S_FAULT in a SERIALIZE. For an image outside the encoder's domain, where that step is
refused behind its head, `all` is the head. That SPOS and the recorded position count the bytes written is R301's with the model's
reading (log 25). -/
def Obligations.WriteFailureKeepsWhatWasWritten : Prop :=
  ∀ s t : State, Inv s → t.busy = true → hostDue s = .quiet t → t.cmd = .serialize ∨ t.cmd = .encode →
    let failed := fun (u : State) (m : Nat) (all : List Byte) =>
      u.status.state = .doneFault ∧ u.status.err = 1 ∧ u.errInfo = ⟨.ioError .writeFailure, t.spos + m⟩ ∧
      (u.snk.bytes = t.snk.bytes ++ all.take m ∨ u.snk.bytes = t.snk.bytes ++ all.take (m + 1)) ∧ u.spos = t.spos + m ∧
      u.doc = t.doc ∧ (t.cmd = .serialize → u.sst = .fault)
    (∃ all, WouldWrite t all) ∧
    (∀ u, step s = .next u → u.status.state = .doneFault →
      ∃ m all, t.snk.okWrites = some m ∧ WouldWrite t all ∧ m < all.length ∧ failed u m all) ∧
    ∀ m all, t.snk.okWrites = some m → WouldWrite t all → m < all.length → ∃ u, step s = capped (.next u) ∧ failed u m all

/-- SNK only grows while a command runs, and SPOS with it: no byte that was written is changed or taken back
(20_memory.md R62, R71). -/
def Obligations.SinkOnlyGrows : Prop :=
  ∀ s t u : State, t.busy = true → hostDue s = .quiet t → step s = .next u → t.snk.bytes <+: u.snk.bytes ∧ t.spos ≤ u.spos

/-- What taking a fault leaves (60_exceptions.md R309, a decision of the spec, D23): the state is DONE_FAULT with the code of the
recorded cause, no unit runs, PST is P_FAULT and DOC `invalid` behind a PARSE, SST is S_FAULT behind a SERIALIZE, and PST, SST and DOC
are kept otherwise; and each cause comes from the commands that can raise it (R301 to R306). R309's `PST <- P_FAULT` is not taken for a
DECODE, since PST is written only by PARSE (10_state.md R26), and DOC is untouched by DECODE and ENCODE (R49). That a faulted ENCODE leaves SST (log 30), and that the working fields
are emptied (`u.scratch`, log 20), is the model's choice. -/
def Obligations.FaultEntryOfEachCommand : Prop :=
  ∀ s t u : State, Inv s → t.busy = true → hostDue s = .quiet t → step s = .next u → u.status.state = .doneFault →
    u.status.err = causeCode u.errInfo.cause ∧ u.lzwUnit = .off ∧ u.scratch = Scratch.fresh ∧
    (t.cmd = .parse → u.pst = .fault ∧ u.sst = t.sst ∧ u.doc = none ∧ u.errInfo.cause ≠ .ioError .writeFailure) ∧
    (t.cmd = .decode → u.pst = t.pst ∧ u.sst = t.sst ∧ u.doc = t.doc ∧
      (u.errInfo.cause = .ioError .readFailure ∨ ∃ c w, u.errInfo.cause = .invalidCode c w)) ∧
    (t.cmd = .serialize → u.pst = t.pst ∧ u.sst = .fault ∧ u.doc = t.doc ∧ u.errInfo.cause = .ioError .writeFailure) ∧
    (t.cmd = .encode → u.pst = t.pst ∧ u.sst = t.sst ∧ u.doc = t.doc ∧ u.errInfo.cause = .ioError .writeFailure) ∧
    (∀ b, u.errInfo.cause = .unknownBlock b → t.pst = .loop ∧ b ≠ 0x21 ∧ b ≠ 0x2C ∧ b ≠ 0x3B)

/-- The control transfers of a `PARSE` (43_container_parser.md R257); between two transfers PST stays where more bytes are due in the
same state: a fixed part or a sub-block, or the codes of an image. Behind a plain text extension the parse ends by the other value of
PTE_POLICY (R253). -/
def Obligations.ParserControlTransfers : Prop :=
  ∀ s t u : State, Inv s → t.busy = true → hostDue s = .quiet t → t.cmd = .parse → step s = .next u →
    u.pst = .fault ∨
    (t.pst = .header ∧ u.pst = .lsd) ∨ (t.pst = .lsd ∧ (u.pst = .gct ∨ u.pst = .loop)) ∨ (t.pst = .gct ∧ u.pst = .loop) ∨
    (t.pst = .loop ∧ (u.pst = .label ∨ u.pst = .imgDesc ∨ u.pst = .done)) ∨
    (t.pst = .label ∧ (u.pst = .gce ∨ u.pst = .comment ∨ u.pst = .app ∨ u.pst = .pte ∨ u.pst = .skip)) ∨
    (t.pst = .gce ∧ u.pst = .loop) ∨
    ((t.pst = .comment ∨ t.pst = .app ∨ t.pst = .pte ∨ t.pst = .skip) ∧ (u.pst = t.pst ∨ u.pst = .loop)) ∨
    (t.pst = .pte ∧ u.pst = .done ∧ t.params.ptePolicy = .earlyReturn) ∨
    (t.pst = .imgDesc ∧ (u.pst = .lct ∨ u.pst = .minCode)) ∨
    (t.pst = .lct ∧ u.pst = .minCode) ∨ (t.pst = .minCode ∧ u.pst = .lzw) ∨
    (t.pst = .lzw ∧ (u.pst = .lzw ∨ u.pst = .loop))

/-- The parameters and the capacities (00_scope.md R12; 93_implementation_defined.md U10): reset has this spec's values, no step
changes a parameter, with this spec's values no step is refused for a capacity, and with finite ones a step that goes on leaves the
buffer, the Documents and the position counters within them, while a step that would not is refused. That a capacity may be reached
and only more is refused, and the unit of DOC_MAX, are the model's choice (log 13). -/
def Obligations.CapacitiesRefuseParametersStay : Prop :=
  State.reset.params = ⟨.continueLoop, none, none, none⟩ ∧
  ∀ s : State,
    (∀ t, step s = .next t → t.params = s.params ∧ uncappedStep s = .next t ∧
      (∀ n, s.params.outMax = some n → t.out.length ≤ n) ∧
      (∀ n, s.params.docMax = some n → (∀ d, t.doc = some d → documentSize d ≤ n) ∧
        (t.busy = true → t.cmd = .parse → documentSize t.scratch.doc ≤ n)) ∧
      (∀ n, s.params.posBits = some n → t.pos < 2 ^ n ∧ t.spos < 2 ^ n ∧
        (t.status.state = .doneFault → t.errInfo.position < 2 ^ n))) ∧
    (s.params = ⟨.continueLoop, none, none, none⟩ → step s = uncappedStep s) ∧
    (step s ≠ uncappedStep s → step s = .refused .capacityExceeded)
end

