-- ==== Sys2Proof/Laws/Bits.lean ====
section
/-! SUPPORT. The laws of bit streams and of the sub-block framing, as functions of lists. -/

namespace Sys2Proof

/-! ## Bits -/

@[simp] theorem toBits_length (w c : Nat) : (toBits w c).length = w := by
  induction w generalizing c with
  | zero => rfl
  | succ w ih => simp [toBits, ih]

theorem ofBits_toBits (w c : Nat) : ofBits (toBits w c) = c % 2 ^ w := by
  induction w generalizing c with
  | zero => simp [toBits, ofBits, Nat.mod_one]
  | succ w ih =>
    simp only [toBits, ofBits, ih]
    have h1 : (c % 2 == 1).toNat = c % 2 := by
      rcases Nat.mod_two_eq_zero_or_one c with h | h <;> simp [h]
    have h2 : c % 2 ^ (w + 1) = c % 2 + 2 * (c / 2 % 2 ^ w) := by
      rw [Nat.pow_succ', Nat.mod_mul]
    omega

theorem ofBits_lt (bs : List Bool) : ofBits bs < 2 ^ bs.length := by
  induction bs with
  | nil => simp [ofBits]
  | cons b t ih =>
    simp only [ofBits, List.length_cons, Nat.pow_succ]
    have : b.toNat ≤ 1 := by cases b <;> simp
    omega

theorem toBits_ofBits (bs : List Bool) : toBits bs.length (ofBits bs) = bs := by
  induction bs with
  | nil => rfl
  | cons b t ih =>
    simp only [List.length_cons, toBits, ofBits]
    have h1 : (b.toNat + 2 * ofBits t) % 2 = b.toNat := by cases b <;> simp
    have h2 : (b.toNat + 2 * ofBits t) / 2 = ofBits t := by
      cases b
      · simp
      · simp; omega
    rw [h1, h2, ih]
    cases b <;> rfl

/-- Two fields side by side. -/
theorem toBits_append (m n a b : Nat) (h : a < 2 ^ m) : toBits (m + n) (a + b * 2 ^ m) = toBits m a ++ toBits n b := by
  induction m generalizing a with
  | zero =>
    have ha : a = 0 := by simpa using h
    simp [toBits, ha]
  | succ m ih =>
    rw [show m + 1 + n = (m + n) + 1 from by omega]
    have e : b * 2 ^ (m + 1) = 2 * (b * 2 ^ m) := by rw [Nat.pow_succ]; ring
    have h1 : (a + b * 2 ^ (m + 1)) % 2 = a % 2 := by omega
    have h2 : (a + b * 2 ^ (m + 1)) / 2 = a / 2 + b * 2 ^ m := by omega
    simp only [toBits, h1, h2, List.cons_append]
    rw [ih (a / 2) (by rw [Nat.pow_succ] at h; omega)]

/-- The front of a field and what is behind it. -/
theorem toBits_split (m n c : Nat) : toBits (m + n) c = toBits m (c % 2 ^ m) ++ toBits n (c / 2 ^ m) := by
  rw [← toBits_append m n _ _ (Nat.mod_lt _ (by positivity)), Nat.mod_add_div']

theorem toBits_mod (w c : Nat) : toBits w (c % 2 ^ w) = toBits w c := by
  have h := toBits_ofBits (toBits w c)
  rw [toBits_length, ofBits_toBits] at h
  exact h

@[simp] theorem bitsOfBytes_nil : bitsOfBytes [] = [] := rfl
@[simp] theorem bitsOfBytes_cons (b : Byte) (t : List Byte) : bitsOfBytes (b :: t) = toBits 8 b.toNat ++ bitsOfBytes t := rfl
@[simp] theorem bitsOfBytes_append (a b : List Byte) : bitsOfBytes (a ++ b) = bitsOfBytes a ++ bitsOfBytes b := by
  simp [bitsOfBytes]

@[simp] theorem bitsOfBytes_length (bs : List Byte) : (bitsOfBytes bs).length = 8 * bs.length := by
  induction bs with
  | nil => rfl
  | cons b t ih => simp [ih]; omega

/-! ## Framing -/

@[simp] theorem frameChunks_nil (n : Nat) : frameChunks n [] = [] := by cases n <;> simp [frameChunks]

theorem frameChunks_cons (n : Nat) {s : List Byte} (h : s ≠ []) :
    frameChunks (n + 1) s =
      BitVec.ofNat 8 (min 255 s.length) :: (s.take 255 ++ frameChunks n (s.drop 255)) := by
  have h' : ¬ s.length = 0 := by simpa using h
  rw [frameChunks, if_neg h']
  rfl

/-- Enough fuel is enough. -/
theorem frameChunks_fuel (m n : Nat) (s : List Byte) (hm : s.length ≤ m) (hn : s.length ≤ n) :
    frameChunks m s = frameChunks n s := by
  induction m generalizing n s with
  | zero =>
    have : s = [] := by simpa using hm
    simp [this]
  | succ m ih =>
    by_cases hs : s = []
    · simp [hs]
    · have hp : 0 < s.length := List.length_pos_of_ne_nil hs
      obtain ⟨k, rfl⟩ : ∃ k, n = k + 1 := ⟨n - 1, by omega⟩
      rw [frameChunks_cons m hs, frameChunks_cons k hs, ih k (s.drop 255) (by simp; omega) (by simp; omega)]

/-- A sequence's data sub-blocks. -/
def chunks (s : List Byte) : List Byte := frameChunks s.length s

@[simp] theorem chunks_nil : chunks [] = [] := rfl

theorem frame_eq (s : List Byte) : frame s = chunks s ++ [0x00] := rfl

theorem frameChunks_eq_chunks {n : Nat} {s : List Byte} (h : s.length ≤ n) : frameChunks n s = chunks s :=
  frameChunks_fuel n s.length s h le_rfl

theorem chunks_of_ne {s : List Byte} (h : s ≠ []) :
    chunks s = BitVec.ofNat 8 (min 255 s.length) :: (s.take 255 ++ chunks (s.drop 255)) := by
  have hp : 0 < s.length := List.length_pos_of_ne_nil h
  obtain ⟨k, hk⟩ : ∃ k, s.length = k + 1 := ⟨s.length - 1, by omega⟩
  rw [chunks, hk, frameChunks_cons k h, frameChunks_eq_chunks (by simp; omega), ← hk]

/-- A sequence of at most 255 bytes is one sub-block. -/
theorem chunks_single {s : List Byte} (h : s ≠ []) (hl : s.length ≤ 255) : chunks s = BitVec.ofNat 8 s.length :: s := by
  rw [chunks_of_ne h, List.take_of_length_le hl, List.drop_eq_nil_of_le hl, Nat.min_eq_right hl]
  simp

/-- Whole chunks stand before the rest. -/
theorem chunks_append (j : Nat) (a b : List Byte) (ha : a.length = 255 * j) : chunks (a ++ b) = chunks a ++ chunks b := by
  induction j generalizing a with
  | zero =>
    have : a = [] := by simpa using ha
    simp [this]
  | succ j ih =>
    have hne : a ≠ [] := by intro h; simp [h] at ha
    have hne' : a ++ b ≠ [] := by simp [hne]
    have hl : 255 ≤ a.length := by omega
    rw [chunks_of_ne hne', chunks_of_ne hne, List.take_append_of_le_length hl, List.drop_append_of_le_length hl,
      ih (a.drop 255) (by simp; omega)]
    simp only [List.length_append]
    rw [Nat.min_eq_left hl, Nat.min_eq_left (by omega)]
    simp

/-! ## Reading a framed sequence -/

theorem payloadFrom_take (rem : Nat) (a t : List Byte) (h : a.length = rem) :
    payloadFrom rem (a ++ t) = a ++ payloadFrom 0 t := by
  induction a generalizing rem with
  | nil => simp at h; subst h; simp
  | cons b a ih =>
    obtain ⟨k, rfl⟩ : ∃ k, rem = k + 1 := ⟨rem - 1, by simp at h; omega⟩
    simp only [List.cons_append, payloadFrom]
    rw [ih k (by simpa using h)]

theorem ofNat8_ne_zero {n : Nat} (h1 : 1 ≤ n) (h2 : n ≤ 255) : BitVec.ofNat 8 n ≠ 0 := by
  intro h
  have := congrArg BitVec.toNat h
  simp at this
  omega

theorem toNat_ofNat8 {n : Nat} (h : n ≤ 255) : (BitVec.ofNat 8 n).toNat = n := by
  simp; omega

theorem payloadFrom_chunk (s t : List Byte) (h1 : s ≠ []) (h2 : s.length ≤ 255) :
    payloadFrom 0 (BitVec.ofNat 8 s.length :: (s ++ t)) = s ++ payloadFrom 0 t := by
  have hp : 0 < s.length := List.length_pos_of_ne_nil h1
  rw [payloadFrom, if_neg (ofNat8_ne_zero hp h2), toNat_ofNat8 h2, payloadFrom_take _ s t rfl]

theorem payloadFrom_chunks (s t : List Byte) : payloadFrom 0 (chunks s ++ t) = s ++ payloadFrom 0 t := by
  generalize hn : s.length = n
  induction n using Nat.strong_induction_on generalizing s with
  | _ n ih =>
    by_cases hs : s = []
    · simp [hs]
    · have hp : 0 < s.length := List.length_pos_of_ne_nil hs
      have h1 : min 255 s.length = (s.take 255).length := by simp
      have h2 : s.take 255 ≠ [] := by simp [hs]
      rw [chunks_of_ne hs, h1, List.cons_append, List.append_assoc, payloadFrom_chunk _ _ h2 (by simp),
        ih (s.drop 255).length (by simp; omega) _ rfl, ← List.append_assoc, List.take_append_drop]

end Sys2Proof

namespace Sys2Proof.Machine

/-! ## What stands behind a framed sequence -/

theorem behind_take (rem : Nat) (a t : List Byte) (h : a.length = rem) : behindFrom rem (a ++ t) = behindFrom 0 t := by
  induction a generalizing rem with
  | nil => simp at h; subst h; simp
  | cons b a ih =>
    obtain ⟨k, rfl⟩ : ∃ k, rem = k + 1 := ⟨rem - 1, by simp at h; omega⟩
    simp only [List.cons_append, behindFrom]
    rw [ih k (by simpa using h)]

theorem behind_chunk (s t : List Byte) (h1 : s ≠ []) (h2 : s.length ≤ 255) :
    behindFrom 0 (BitVec.ofNat 8 s.length :: (s ++ t)) = behindFrom 0 t := by
  have hp : 0 < s.length := List.length_pos_of_ne_nil h1
  rw [behindFrom, if_neg (ofNat8_ne_zero hp h2), toNat_ofNat8 h2, behind_take _ s t rfl]

theorem behind_chunks (s t : List Byte) : behindFrom 0 (chunks s ++ t) = behindFrom 0 t := by
  generalize hn : s.length = n
  induction n using Nat.strong_induction_on generalizing s with
  | _ n ih =>
    by_cases hs : s = []
    · simp [hs]
    · have hp : 0 < s.length := List.length_pos_of_ne_nil hs
      have h1 : min 255 s.length = (s.take 255).length := by simp
      have h2 : s.take 255 ≠ [] := by simp [hs]
      rw [chunks_of_ne hs, h1, List.cons_append, List.append_assoc, behind_chunk _ _ h2 (by simp),
        ih (s.drop 255).length (by simp; omega) _ rfl]

theorem chunks_length (s : List Byte) : (chunks s).length = s.length + (s.length + 254) / 255 := by
  generalize hn : s.length = n
  induction n using Nat.strong_induction_on generalizing s with
  | _ n ih =>
    by_cases hs : s = []
    · subst hs; simp at hn; subst hn; simp
    · have hp : 0 < s.length := List.length_pos_of_ne_nil hs
      rw [chunks_of_ne hs]
      simp only [List.length_cons, List.length_append]
      rw [ih (s.drop 255).length (by simp; omega) _ rfl]
      simp; omega

end Sys2Proof.Machine
end

