-- ==== Sys2Proof/Laws/Capacity.lean ====
section
/-! SUPPORT. What the capacities of 00_scope.md R12 do to a step: nothing, or a refusal; and nothing where they have this spec's
values. -/

namespace Sys2Proof.Machine

@[simp] theorem capped_fault (f : Fault) : capped (.fault f) = .fault f := rfl
@[simp] theorem capped_refused (r : Refusal) : capped (.refused r) = .refused r := rfl

theorem capped_next_iff {o : Host.Outcome State Fault Refusal} {t : State} :
    capped o = .next t ↔ o = .next t ∧ capacityOk t = true := by
  cases o with
  | next u =>
    simp only [capped]
    by_cases h : capacityOk u = true
    · rw [if_pos h]
      exact ⟨fun e => ⟨e, by cases e; exact h⟩, fun e => e.1⟩
    · rw [if_neg h]
      exact ⟨fun e => by simp at e, fun e => by cases e.1; exact absurd e.2 h⟩
  | fault f => simp
  | refused r => simp

theorem capacityOk_spec {s : State} (h : s.params = Params.spec) : capacityOk s = true := by
  simp [capacityOk, outFits, docFits, posFits, h, Params.spec]

theorem capped_spec {t : State} (h : t.params = Params.spec) : capped (.next t) = .next t :=
  capped_next_iff.2 ⟨rfl, capacityOk_spec h⟩

/-! ## The step -/

theorem step_quiet {s t : State} (h : hostDue s = .quiet t) : step s = capped (coreStep t) := by rw [step, uncappedStep, h]

theorem step_act {s t : State} {a : HostAction} (h : hostDue s = .act a t) : step s = capped (hostStep a t) := by
  rw [step, uncappedStep, h]

/-- A step that goes on is the step without capacities. -/
theorem step_next {s t : State} (h : step s = .next t) : uncappedStep s = .next t := (capped_next_iff.1 h).1

theorem step_next_quiet {s t u : State} (hq : hostDue s = .quiet t) (h : step s = .next u) : coreStep t = .next u := by
  rw [step_quiet hq] at h
  exact (capped_next_iff.1 h).1

theorem step_next_act {s t u : State} {a : HostAction} (hq : hostDue s = .act a t) (h : step s = .next u) :
    hostStep a t = .next u := by
  rw [step_act hq] at h
  exact (capped_next_iff.1 h).1

theorem step_fault {s : State} {f : Fault} : step s = .fault f ↔ uncappedStep s = .fault f := by
  unfold step
  cases uncappedStep s with
  | next t => simp only [capped]; split <;> simp
  | fault g => simp
  | refused r => simp

end Sys2Proof.Machine
end

