-- ==== Sys2Proof/Laws/State.lean ====
section
/-! SUPPORT. What each shared update of the state does to each field, true by rfl, so that no proof unfolds a record update. -/

namespace Sys2Proof.Machine

/-! ## setPteSeen -/

@[simp] theorem setPteSeen_cmd (v : Bool) (s : State) : (setPteSeen v s).cmd = s.cmd := rfl
@[simp] theorem setPteSeen_argK (v : Bool) (s : State) : (setPteSeen v s).argK = s.argK := rfl
@[simp] theorem setPteSeen_argKWritten (v : Bool) (s : State) : (setPteSeen v s).argKWritten = s.argKWritten := rfl
@[simp] theorem setPteSeen_status (v : Bool) (s : State) : (setPteSeen v s).status = { s.status with pteSeen := v } := rfl
@[simp] theorem setPteSeen_errInfo (v : Bool) (s : State) : (setPteSeen v s).errInfo = s.errInfo := rfl
@[simp] theorem setPteSeen_pos (v : Bool) (s : State) : (setPteSeen v s).pos = s.pos := rfl
@[simp] theorem setPteSeen_pst (v : Bool) (s : State) : (setPteSeen v s).pst = s.pst := rfl
@[simp] theorem setPteSeen_spos (v : Bool) (s : State) : (setPteSeen v s).spos = s.spos := rfl
@[simp] theorem setPteSeen_sst (v : Bool) (s : State) : (setPteSeen v s).sst = s.sst := rfl
@[simp] theorem setPteSeen_dec (v : Bool) (s : State) : (setPteSeen v s).dec = s.dec := rfl
@[simp] theorem setPteSeen_out (v : Bool) (s : State) : (setPteSeen v s).out = s.out := rfl
@[simp] theorem setPteSeen_pixWritten (v : Bool) (s : State) : (setPteSeen v s).pixWritten = s.pixWritten := rfl
@[simp] theorem setPteSeen_enc (v : Bool) (s : State) : (setPteSeen v s).enc = s.enc := rfl
@[simp] theorem setPteSeen_doc (v : Bool) (s : State) : (setPteSeen v s).doc = s.doc := rfl
@[simp] theorem setPteSeen_src (v : Bool) (s : State) : (setPteSeen v s).src = s.src := rfl
@[simp] theorem setPteSeen_snk (v : Bool) (s : State) : (setPteSeen v s).snk = s.snk := rfl
@[simp] theorem setPteSeen_scratch (v : Bool) (s : State) : (setPteSeen v s).scratch = s.scratch := rfl
@[simp] theorem setPteSeen_lzwUnit (v : Bool) (s : State) : (setPteSeen v s).lzwUnit = s.lzwUnit := rfl
@[simp] theorem setPteSeen_params (v : Bool) (s : State) : (setPteSeen v s).params = s.params := rfl
@[simp] theorem setPteSeen_imgIdx (v : Bool) (s : State) : (setPteSeen v s).imgIdx = s.imgIdx := rfl
@[simp] theorem setPteSeen_host (v : Bool) (s : State) : (setPteSeen v s).host = s.host := rfl
@[simp] theorem setPteSeen_fresh (v : Bool) (s : State) : (setPteSeen v s).fresh = s.fresh := rfl

/-! ## startDecode -/

@[simp] theorem startDecode_cmd (k : Nat) (s : State) : (startDecode k s).cmd = s.cmd := rfl
@[simp] theorem startDecode_argK (k : Nat) (s : State) : (startDecode k s).argK = s.argK := rfl
@[simp] theorem startDecode_argKWritten (k : Nat) (s : State) : (startDecode k s).argKWritten = s.argKWritten := rfl
@[simp] theorem startDecode_status (k : Nat) (s : State) : (startDecode k s).status = s.status := rfl
@[simp] theorem startDecode_errInfo (k : Nat) (s : State) : (startDecode k s).errInfo = s.errInfo := rfl
@[simp] theorem startDecode_pos (k : Nat) (s : State) : (startDecode k s).pos = s.pos := rfl
@[simp] theorem startDecode_pst (k : Nat) (s : State) : (startDecode k s).pst = s.pst := rfl
@[simp] theorem startDecode_spos (k : Nat) (s : State) : (startDecode k s).spos = s.spos := rfl
@[simp] theorem startDecode_sst (k : Nat) (s : State) : (startDecode k s).sst = s.sst := rfl
@[simp] theorem startDecode_dec (k : Nat) (s : State) : (startDecode k s).dec = startDecoder k := rfl
@[simp] theorem startDecode_out (k : Nat) (s : State) : (startDecode k s).out = [] := rfl
@[simp] theorem startDecode_pixWritten (k : Nat) (s : State) : (startDecode k s).pixWritten = false := rfl
@[simp] theorem startDecode_enc (k : Nat) (s : State) : (startDecode k s).enc = s.enc := rfl
@[simp] theorem startDecode_doc (k : Nat) (s : State) : (startDecode k s).doc = s.doc := rfl
@[simp] theorem startDecode_src (k : Nat) (s : State) : (startDecode k s).src = s.src := rfl
@[simp] theorem startDecode_snk (k : Nat) (s : State) : (startDecode k s).snk = s.snk := rfl
@[simp] theorem startDecode_scratch (k : Nat) (s : State) : (startDecode k s).scratch = s.scratch := rfl
@[simp] theorem startDecode_lzwUnit (k : Nat) (s : State) : (startDecode k s).lzwUnit = .lzwd := rfl
@[simp] theorem startDecode_params (k : Nat) (s : State) : (startDecode k s).params = s.params := rfl
@[simp] theorem startDecode_imgIdx (k : Nat) (s : State) : (startDecode k s).imgIdx = s.imgIdx := rfl
@[simp] theorem startDecode_host (k : Nat) (s : State) : (startDecode k s).host = s.host := rfl
@[simp] theorem startDecode_fresh (k : Nat) (s : State) : (startDecode k s).fresh = s.fresh := rfl

/-! ## startEncode -/

@[simp] theorem startEncode_cmd (k : Nat) (pix : List Byte) (s : State) : (startEncode k pix s).cmd = s.cmd := rfl
@[simp] theorem startEncode_argK (k : Nat) (pix : List Byte) (s : State) : (startEncode k pix s).argK = s.argK := rfl
@[simp] theorem startEncode_argKWritten (k : Nat) (pix : List Byte) (s : State) :
    (startEncode k pix s).argKWritten = s.argKWritten := rfl
@[simp] theorem startEncode_status (k : Nat) (pix : List Byte) (s : State) : (startEncode k pix s).status = s.status := rfl
@[simp] theorem startEncode_errInfo (k : Nat) (pix : List Byte) (s : State) : (startEncode k pix s).errInfo = s.errInfo := rfl
@[simp] theorem startEncode_pos (k : Nat) (pix : List Byte) (s : State) : (startEncode k pix s).pos = s.pos := rfl
@[simp] theorem startEncode_pst (k : Nat) (pix : List Byte) (s : State) : (startEncode k pix s).pst = s.pst := rfl
@[simp] theorem startEncode_spos (k : Nat) (pix : List Byte) (s : State) : (startEncode k pix s).spos = s.spos := rfl
@[simp] theorem startEncode_sst (k : Nat) (pix : List Byte) (s : State) : (startEncode k pix s).sst = s.sst := rfl
@[simp] theorem startEncode_dec (k : Nat) (pix : List Byte) (s : State) : (startEncode k pix s).dec = s.dec := rfl
@[simp] theorem startEncode_out (k : Nat) (pix : List Byte) (s : State) : (startEncode k pix s).out = pix := rfl
@[simp] theorem startEncode_pixWritten (k : Nat) (pix : List Byte) (s : State) :
    (startEncode k pix s).pixWritten = s.pixWritten := rfl
@[simp] theorem startEncode_enc (k : Nat) (pix : List Byte) (s : State) : (startEncode k pix s).enc = startEncoder k pix := rfl
@[simp] theorem startEncode_doc (k : Nat) (pix : List Byte) (s : State) : (startEncode k pix s).doc = s.doc := rfl
@[simp] theorem startEncode_src (k : Nat) (pix : List Byte) (s : State) : (startEncode k pix s).src = s.src := rfl
@[simp] theorem startEncode_snk (k : Nat) (pix : List Byte) (s : State) : (startEncode k pix s).snk = s.snk := rfl
@[simp] theorem startEncode_scratch (k : Nat) (pix : List Byte) (s : State) : (startEncode k pix s).scratch = s.scratch := rfl
@[simp] theorem startEncode_lzwUnit (k : Nat) (pix : List Byte) (s : State) : (startEncode k pix s).lzwUnit = .lzweStart := rfl
@[simp] theorem startEncode_params (k : Nat) (pix : List Byte) (s : State) : (startEncode k pix s).params = s.params := rfl
@[simp] theorem startEncode_imgIdx (k : Nat) (pix : List Byte) (s : State) : (startEncode k pix s).imgIdx = s.imgIdx := rfl
@[simp] theorem startEncode_host (k : Nat) (pix : List Byte) (s : State) : (startEncode k pix s).host = s.host := rfl
@[simp] theorem startEncode_fresh (k : Nat) (pix : List Byte) (s : State) : (startEncode k pix s).fresh = s.fresh := rfl

/-! ## dropDecoder -/

@[simp] theorem dropDecoder_cmd (s : State) : (dropDecoder s).cmd = s.cmd := rfl
@[simp] theorem dropDecoder_argK (s : State) : (dropDecoder s).argK = s.argK := rfl
@[simp] theorem dropDecoder_argKWritten (s : State) : (dropDecoder s).argKWritten = s.argKWritten := rfl
@[simp] theorem dropDecoder_status (s : State) : (dropDecoder s).status = s.status := rfl
@[simp] theorem dropDecoder_errInfo (s : State) : (dropDecoder s).errInfo = s.errInfo := rfl
@[simp] theorem dropDecoder_pos (s : State) : (dropDecoder s).pos = s.pos := rfl
@[simp] theorem dropDecoder_pst (s : State) : (dropDecoder s).pst = s.pst := rfl
@[simp] theorem dropDecoder_spos (s : State) : (dropDecoder s).spos = s.spos := rfl
@[simp] theorem dropDecoder_sst (s : State) : (dropDecoder s).sst = s.sst := rfl
@[simp] theorem dropDecoder_dec (s : State) : (dropDecoder s).dec = freeDecoder s.fresh := rfl
@[simp] theorem dropDecoder_out (s : State) : (dropDecoder s).out = s.out := rfl
@[simp] theorem dropDecoder_pixWritten (s : State) : (dropDecoder s).pixWritten = s.pixWritten := rfl
@[simp] theorem dropDecoder_enc (s : State) : (dropDecoder s).enc = s.enc := rfl
@[simp] theorem dropDecoder_doc (s : State) : (dropDecoder s).doc = s.doc := rfl
@[simp] theorem dropDecoder_src (s : State) : (dropDecoder s).src = s.src := rfl
@[simp] theorem dropDecoder_snk (s : State) : (dropDecoder s).snk = s.snk := rfl
@[simp] theorem dropDecoder_scratch (s : State) : (dropDecoder s).scratch = s.scratch := rfl
@[simp] theorem dropDecoder_lzwUnit (s : State) : (dropDecoder s).lzwUnit = .off := rfl
@[simp] theorem dropDecoder_params (s : State) : (dropDecoder s).params = s.params := rfl
@[simp] theorem dropDecoder_imgIdx (s : State) : (dropDecoder s).imgIdx = s.imgIdx := rfl
@[simp] theorem dropDecoder_host (s : State) : (dropDecoder s).host = s.host := rfl
@[simp] theorem dropDecoder_fresh (s : State) : (dropDecoder s).fresh = s.fresh + 1 := rfl

/-! ## dropEncoder -/

@[simp] theorem dropEncoder_cmd (s : State) : (dropEncoder s).cmd = s.cmd := rfl
@[simp] theorem dropEncoder_argK (s : State) : (dropEncoder s).argK = s.argK := rfl
@[simp] theorem dropEncoder_argKWritten (s : State) : (dropEncoder s).argKWritten = s.argKWritten := rfl
@[simp] theorem dropEncoder_status (s : State) : (dropEncoder s).status = s.status := rfl
@[simp] theorem dropEncoder_errInfo (s : State) : (dropEncoder s).errInfo = s.errInfo := rfl
@[simp] theorem dropEncoder_pos (s : State) : (dropEncoder s).pos = s.pos := rfl
@[simp] theorem dropEncoder_pst (s : State) : (dropEncoder s).pst = s.pst := rfl
@[simp] theorem dropEncoder_spos (s : State) : (dropEncoder s).spos = s.spos := rfl
@[simp] theorem dropEncoder_sst (s : State) : (dropEncoder s).sst = s.sst := rfl
@[simp] theorem dropEncoder_dec (s : State) : (dropEncoder s).dec = s.dec := rfl
@[simp] theorem dropEncoder_out (s : State) : (dropEncoder s).out = s.out := rfl
@[simp] theorem dropEncoder_pixWritten (s : State) : (dropEncoder s).pixWritten = s.pixWritten := rfl
@[simp] theorem dropEncoder_enc (s : State) : (dropEncoder s).enc = freeEncoder s.fresh := rfl
@[simp] theorem dropEncoder_doc (s : State) : (dropEncoder s).doc = s.doc := rfl
@[simp] theorem dropEncoder_src (s : State) : (dropEncoder s).src = s.src := rfl
@[simp] theorem dropEncoder_snk (s : State) : (dropEncoder s).snk = s.snk := rfl
@[simp] theorem dropEncoder_scratch (s : State) : (dropEncoder s).scratch = s.scratch := rfl
@[simp] theorem dropEncoder_lzwUnit (s : State) : (dropEncoder s).lzwUnit = .off := rfl
@[simp] theorem dropEncoder_params (s : State) : (dropEncoder s).params = s.params := rfl
@[simp] theorem dropEncoder_imgIdx (s : State) : (dropEncoder s).imgIdx = s.imgIdx := rfl
@[simp] theorem dropEncoder_host (s : State) : (dropEncoder s).host = s.host := rfl
@[simp] theorem dropEncoder_fresh (s : State) : (dropEncoder s).fresh = s.fresh + 1 := rfl

/-! ## dropObjects -/

@[simp] theorem dropObjects_cmd (s : State) : (dropObjects s).cmd = s.cmd := rfl
@[simp] theorem dropObjects_argK (s : State) : (dropObjects s).argK = s.argK := rfl
@[simp] theorem dropObjects_argKWritten (s : State) : (dropObjects s).argKWritten = s.argKWritten := rfl
@[simp] theorem dropObjects_status (s : State) : (dropObjects s).status = s.status := rfl
@[simp] theorem dropObjects_errInfo (s : State) : (dropObjects s).errInfo = s.errInfo := rfl
@[simp] theorem dropObjects_pos (s : State) : (dropObjects s).pos = s.pos := rfl
@[simp] theorem dropObjects_pst (s : State) : (dropObjects s).pst = s.pst := rfl
@[simp] theorem dropObjects_spos (s : State) : (dropObjects s).spos = s.spos := rfl
@[simp] theorem dropObjects_sst (s : State) : (dropObjects s).sst = s.sst := rfl
@[simp] theorem dropObjects_dec (s : State) : (dropObjects s).dec = freeDecoder s.fresh := rfl
@[simp] theorem dropObjects_out (s : State) : (dropObjects s).out = s.out := rfl
@[simp] theorem dropObjects_pixWritten (s : State) : (dropObjects s).pixWritten = s.pixWritten := rfl
@[simp] theorem dropObjects_enc (s : State) : (dropObjects s).enc = freeEncoder s.fresh := rfl
@[simp] theorem dropObjects_doc (s : State) : (dropObjects s).doc = s.doc := rfl
@[simp] theorem dropObjects_src (s : State) : (dropObjects s).src = s.src := rfl
@[simp] theorem dropObjects_snk (s : State) : (dropObjects s).snk = s.snk := rfl
@[simp] theorem dropObjects_params (s : State) : (dropObjects s).params = s.params := rfl
@[simp] theorem dropObjects_scratch (s : State) : (dropObjects s).scratch = s.scratch := rfl
@[simp] theorem dropObjects_lzwUnit (s : State) : (dropObjects s).lzwUnit = .off := rfl
@[simp] theorem dropObjects_imgIdx (s : State) : (dropObjects s).imgIdx = s.imgIdx := rfl
@[simp] theorem dropObjects_host (s : State) : (dropObjects s).host = s.host := rfl
@[simp] theorem dropObjects_fresh (s : State) : (dropObjects s).fresh = s.fresh + 1 := rfl

/-! ## finishCommand -/

@[simp] theorem finishCommand_cmd (s : State) : (finishCommand s).cmd = s.cmd := rfl
@[simp] theorem finishCommand_argK (s : State) : (finishCommand s).argK = s.argK := rfl
@[simp] theorem finishCommand_argKWritten (s : State) : (finishCommand s).argKWritten = s.argKWritten := rfl
@[simp] theorem finishCommand_status (s : State) : (finishCommand s).status = okStatus s.status := rfl
@[simp] theorem finishCommand_errInfo (s : State) : (finishCommand s).errInfo = s.errInfo := rfl
@[simp] theorem finishCommand_pos (s : State) : (finishCommand s).pos = s.pos := rfl
@[simp] theorem finishCommand_pst (s : State) : (finishCommand s).pst = s.pst := rfl
@[simp] theorem finishCommand_spos (s : State) : (finishCommand s).spos = s.spos := rfl
@[simp] theorem finishCommand_sst (s : State) : (finishCommand s).sst = s.sst := rfl
@[simp] theorem finishCommand_dec (s : State) : (finishCommand s).dec = freeDecoder s.fresh := rfl
@[simp] theorem finishCommand_out (s : State) : (finishCommand s).out = s.out := rfl
@[simp] theorem finishCommand_pixWritten (s : State) : (finishCommand s).pixWritten = s.pixWritten := rfl
@[simp] theorem finishCommand_enc (s : State) : (finishCommand s).enc = freeEncoder s.fresh := rfl
@[simp] theorem finishCommand_doc (s : State) : (finishCommand s).doc = s.doc := rfl
@[simp] theorem finishCommand_src (s : State) : (finishCommand s).src = s.src := rfl
@[simp] theorem finishCommand_snk (s : State) : (finishCommand s).snk = s.snk := rfl
@[simp] theorem finishCommand_scratch (s : State) : (finishCommand s).scratch = Scratch.fresh := rfl
@[simp] theorem finishCommand_lzwUnit (s : State) : (finishCommand s).lzwUnit = .off := rfl
@[simp] theorem finishCommand_params (s : State) : (finishCommand s).params = s.params := rfl
@[simp] theorem finishCommand_imgIdx (s : State) : (finishCommand s).imgIdx = 0 := rfl
@[simp] theorem finishCommand_host (s : State) : (finishCommand s).host = s.host := rfl
@[simp] theorem finishCommand_fresh (s : State) : (finishCommand s).fresh = s.fresh + 1 := rfl

/-! ## startCommand -/

@[simp] theorem startCommand_cmd (c : Command) (s : State) : (startCommand c s).cmd = c := rfl
@[simp] theorem startCommand_argK (c : Command) (s : State) : (startCommand c s).argK = s.argK := rfl
@[simp] theorem startCommand_argKWritten (c : Command) (s : State) : (startCommand c s).argKWritten = s.argKWritten := rfl
@[simp] theorem startCommand_status (c : Command) (s : State) : (startCommand c s).status = startStatus s.status := rfl
@[simp] theorem startCommand_errInfo (c : Command) (s : State) : (startCommand c s).errInfo = Config.freeErrInfo s.fresh := rfl
@[simp] theorem startCommand_pos (c : Command) (s : State) : (startCommand c s).pos = 0 := rfl
@[simp] theorem startCommand_pst (c : Command) (s : State) : (startCommand c s).pst = s.pst := rfl
@[simp] theorem startCommand_spos (c : Command) (s : State) : (startCommand c s).spos = 0 := rfl
@[simp] theorem startCommand_sst (c : Command) (s : State) : (startCommand c s).sst = s.sst := rfl
@[simp] theorem startCommand_dec (c : Command) (s : State) : (startCommand c s).dec = s.dec := rfl
@[simp] theorem startCommand_out (c : Command) (s : State) : (startCommand c s).out = s.out := rfl
@[simp] theorem startCommand_pixWritten (c : Command) (s : State) : (startCommand c s).pixWritten = s.pixWritten := rfl
@[simp] theorem startCommand_enc (c : Command) (s : State) : (startCommand c s).enc = s.enc := rfl
@[simp] theorem startCommand_doc (c : Command) (s : State) : (startCommand c s).doc = s.doc := rfl
@[simp] theorem startCommand_src (c : Command) (s : State) : (startCommand c s).src = s.src := rfl
@[simp] theorem startCommand_snk (c : Command) (s : State) : (startCommand c s).snk = s.snk := rfl
@[simp] theorem startCommand_scratch (c : Command) (s : State) : (startCommand c s).scratch = Scratch.fresh := rfl
@[simp] theorem startCommand_lzwUnit (c : Command) (s : State) : (startCommand c s).lzwUnit = .off := rfl
@[simp] theorem startCommand_params (c : Command) (s : State) : (startCommand c s).params = s.params := rfl
@[simp] theorem startCommand_imgIdx (c : Command) (s : State) : (startCommand c s).imgIdx = 0 := rfl
@[simp] theorem startCommand_host (c : Command) (s : State) : (startCommand c s).host = s.host := rfl
@[simp] theorem startCommand_fresh (c : Command) (s : State) : (startCommand c s).fresh = s.fresh + 1 := rfl

/-! ## attachSource -/

@[simp] theorem attachSource_cmd (a : List (Option Byte)) (s : State) : (attachSource a s).cmd = s.cmd := rfl
@[simp] theorem attachSource_argK (a : List (Option Byte)) (s : State) : (attachSource a s).argK = s.argK := rfl
@[simp] theorem attachSource_argKWritten (a : List (Option Byte)) (s : State) :
    (attachSource a s).argKWritten = s.argKWritten := rfl
@[simp] theorem attachSource_status (a : List (Option Byte)) (s : State) : (attachSource a s).status = s.status := rfl
@[simp] theorem attachSource_errInfo (a : List (Option Byte)) (s : State) : (attachSource a s).errInfo = s.errInfo := rfl
@[simp] theorem attachSource_pos (a : List (Option Byte)) (s : State) : (attachSource a s).pos = s.pos := rfl
@[simp] theorem attachSource_pst (a : List (Option Byte)) (s : State) : (attachSource a s).pst = s.pst := rfl
@[simp] theorem attachSource_spos (a : List (Option Byte)) (s : State) : (attachSource a s).spos = s.spos := rfl
@[simp] theorem attachSource_sst (a : List (Option Byte)) (s : State) : (attachSource a s).sst = s.sst := rfl
@[simp] theorem attachSource_dec (a : List (Option Byte)) (s : State) : (attachSource a s).dec = s.dec := rfl
@[simp] theorem attachSource_out (a : List (Option Byte)) (s : State) : (attachSource a s).out = s.out := rfl
@[simp] theorem attachSource_pixWritten (a : List (Option Byte)) (s : State) :
    (attachSource a s).pixWritten = s.pixWritten := rfl
@[simp] theorem attachSource_enc (a : List (Option Byte)) (s : State) : (attachSource a s).enc = s.enc := rfl
@[simp] theorem attachSource_doc (a : List (Option Byte)) (s : State) : (attachSource a s).doc = s.doc := rfl
@[simp] theorem attachSource_src (a : List (Option Byte)) (s : State) : (attachSource a s).src = ⟨true, a⟩ := rfl
@[simp] theorem attachSource_snk (a : List (Option Byte)) (s : State) : (attachSource a s).snk = s.snk := rfl
@[simp] theorem attachSource_scratch (a : List (Option Byte)) (s : State) : (attachSource a s).scratch = s.scratch := rfl
@[simp] theorem attachSource_lzwUnit (a : List (Option Byte)) (s : State) : (attachSource a s).lzwUnit = s.lzwUnit := rfl
@[simp] theorem attachSource_params (a : List (Option Byte)) (s : State) : (attachSource a s).params = s.params := rfl
@[simp] theorem attachSource_imgIdx (a : List (Option Byte)) (s : State) : (attachSource a s).imgIdx = s.imgIdx := rfl
@[simp] theorem attachSource_host (a : List (Option Byte)) (s : State) : (attachSource a s).host = s.host := rfl
@[simp] theorem attachSource_fresh (a : List (Option Byte)) (s : State) : (attachSource a s).fresh = s.fresh := rfl

/-! ## attachSink -/

@[simp] theorem attachSink_cmd (o : Option Nat) (s : State) : (attachSink o s).cmd = s.cmd := rfl
@[simp] theorem attachSink_argK (o : Option Nat) (s : State) : (attachSink o s).argK = s.argK := rfl
@[simp] theorem attachSink_argKWritten (o : Option Nat) (s : State) : (attachSink o s).argKWritten = s.argKWritten := rfl
@[simp] theorem attachSink_status (o : Option Nat) (s : State) : (attachSink o s).status = s.status := rfl
@[simp] theorem attachSink_errInfo (o : Option Nat) (s : State) : (attachSink o s).errInfo = s.errInfo := rfl
@[simp] theorem attachSink_pos (o : Option Nat) (s : State) : (attachSink o s).pos = s.pos := rfl
@[simp] theorem attachSink_pst (o : Option Nat) (s : State) : (attachSink o s).pst = s.pst := rfl
@[simp] theorem attachSink_spos (o : Option Nat) (s : State) : (attachSink o s).spos = s.spos := rfl
@[simp] theorem attachSink_sst (o : Option Nat) (s : State) : (attachSink o s).sst = s.sst := rfl
@[simp] theorem attachSink_dec (o : Option Nat) (s : State) : (attachSink o s).dec = s.dec := rfl
@[simp] theorem attachSink_out (o : Option Nat) (s : State) : (attachSink o s).out = s.out := rfl
@[simp] theorem attachSink_pixWritten (o : Option Nat) (s : State) : (attachSink o s).pixWritten = s.pixWritten := rfl
@[simp] theorem attachSink_enc (o : Option Nat) (s : State) : (attachSink o s).enc = s.enc := rfl
@[simp] theorem attachSink_doc (o : Option Nat) (s : State) : (attachSink o s).doc = s.doc := rfl
@[simp] theorem attachSink_src (o : Option Nat) (s : State) : (attachSink o s).src = s.src := rfl
@[simp] theorem attachSink_snk (o : Option Nat) (s : State) : (attachSink o s).snk = ⟨true, [], o⟩ := rfl
@[simp] theorem attachSink_scratch (o : Option Nat) (s : State) : (attachSink o s).scratch = s.scratch := rfl
@[simp] theorem attachSink_lzwUnit (o : Option Nat) (s : State) : (attachSink o s).lzwUnit = s.lzwUnit := rfl
@[simp] theorem attachSink_params (o : Option Nat) (s : State) : (attachSink o s).params = s.params := rfl
@[simp] theorem attachSink_imgIdx (o : Option Nat) (s : State) : (attachSink o s).imgIdx = s.imgIdx := rfl
@[simp] theorem attachSink_host (o : Option Nat) (s : State) : (attachSink o s).host = s.host := rfl
@[simp] theorem attachSink_fresh (o : Option Nat) (s : State) : (attachSink o s).fresh = s.fresh := rfl

/-! ## writeArgK -/

@[simp] theorem writeArgK_cmd (k : Byte) (s : State) : (writeArgK k s).cmd = s.cmd := rfl
@[simp] theorem writeArgK_argK (k : Byte) (s : State) : (writeArgK k s).argK = k := rfl
@[simp] theorem writeArgK_argKWritten (k : Byte) (s : State) : (writeArgK k s).argKWritten = true := rfl
@[simp] theorem writeArgK_status (k : Byte) (s : State) : (writeArgK k s).status = s.status := rfl
@[simp] theorem writeArgK_errInfo (k : Byte) (s : State) : (writeArgK k s).errInfo = s.errInfo := rfl
@[simp] theorem writeArgK_pos (k : Byte) (s : State) : (writeArgK k s).pos = s.pos := rfl
@[simp] theorem writeArgK_pst (k : Byte) (s : State) : (writeArgK k s).pst = s.pst := rfl
@[simp] theorem writeArgK_spos (k : Byte) (s : State) : (writeArgK k s).spos = s.spos := rfl
@[simp] theorem writeArgK_sst (k : Byte) (s : State) : (writeArgK k s).sst = s.sst := rfl
@[simp] theorem writeArgK_dec (k : Byte) (s : State) : (writeArgK k s).dec = s.dec := rfl
@[simp] theorem writeArgK_out (k : Byte) (s : State) : (writeArgK k s).out = s.out := rfl
@[simp] theorem writeArgK_pixWritten (k : Byte) (s : State) : (writeArgK k s).pixWritten = s.pixWritten := rfl
@[simp] theorem writeArgK_enc (k : Byte) (s : State) : (writeArgK k s).enc = s.enc := rfl
@[simp] theorem writeArgK_doc (k : Byte) (s : State) : (writeArgK k s).doc = s.doc := rfl
@[simp] theorem writeArgK_src (k : Byte) (s : State) : (writeArgK k s).src = s.src := rfl
@[simp] theorem writeArgK_snk (k : Byte) (s : State) : (writeArgK k s).snk = s.snk := rfl
@[simp] theorem writeArgK_scratch (k : Byte) (s : State) : (writeArgK k s).scratch = s.scratch := rfl
@[simp] theorem writeArgK_lzwUnit (k : Byte) (s : State) : (writeArgK k s).lzwUnit = s.lzwUnit := rfl
@[simp] theorem writeArgK_params (k : Byte) (s : State) : (writeArgK k s).params = s.params := rfl
@[simp] theorem writeArgK_imgIdx (k : Byte) (s : State) : (writeArgK k s).imgIdx = s.imgIdx := rfl
@[simp] theorem writeArgK_host (k : Byte) (s : State) : (writeArgK k s).host = s.host := rfl
@[simp] theorem writeArgK_fresh (k : Byte) (s : State) : (writeArgK k s).fresh = s.fresh := rfl

/-! ## writePix -/

@[simp] theorem writePix_cmd (l : List Byte) (s : State) : (writePix l s).cmd = s.cmd := rfl
@[simp] theorem writePix_argK (l : List Byte) (s : State) : (writePix l s).argK = s.argK := rfl
@[simp] theorem writePix_argKWritten (l : List Byte) (s : State) : (writePix l s).argKWritten = s.argKWritten := rfl
@[simp] theorem writePix_status (l : List Byte) (s : State) : (writePix l s).status = s.status := rfl
@[simp] theorem writePix_errInfo (l : List Byte) (s : State) : (writePix l s).errInfo = s.errInfo := rfl
@[simp] theorem writePix_pos (l : List Byte) (s : State) : (writePix l s).pos = s.pos := rfl
@[simp] theorem writePix_pst (l : List Byte) (s : State) : (writePix l s).pst = s.pst := rfl
@[simp] theorem writePix_spos (l : List Byte) (s : State) : (writePix l s).spos = s.spos := rfl
@[simp] theorem writePix_sst (l : List Byte) (s : State) : (writePix l s).sst = s.sst := rfl
@[simp] theorem writePix_dec (l : List Byte) (s : State) : (writePix l s).dec = s.dec := rfl
@[simp] theorem writePix_out (l : List Byte) (s : State) : (writePix l s).out = l := rfl
@[simp] theorem writePix_pixWritten (l : List Byte) (s : State) : (writePix l s).pixWritten = true := rfl
@[simp] theorem writePix_enc (l : List Byte) (s : State) : (writePix l s).enc = s.enc := rfl
@[simp] theorem writePix_doc (l : List Byte) (s : State) : (writePix l s).doc = s.doc := rfl
@[simp] theorem writePix_src (l : List Byte) (s : State) : (writePix l s).src = s.src := rfl
@[simp] theorem writePix_snk (l : List Byte) (s : State) : (writePix l s).snk = s.snk := rfl
@[simp] theorem writePix_scratch (l : List Byte) (s : State) : (writePix l s).scratch = s.scratch := rfl
@[simp] theorem writePix_lzwUnit (l : List Byte) (s : State) : (writePix l s).lzwUnit = s.lzwUnit := rfl
@[simp] theorem writePix_params (l : List Byte) (s : State) : (writePix l s).params = s.params := rfl
@[simp] theorem writePix_imgIdx (l : List Byte) (s : State) : (writePix l s).imgIdx = s.imgIdx := rfl
@[simp] theorem writePix_host (l : List Byte) (s : State) : (writePix l s).host = s.host := rfl
@[simp] theorem writePix_fresh (l : List Byte) (s : State) : (writePix l s).fresh = s.fresh := rfl

/-! ## putDocument -/

@[simp] theorem putDocument_cmd (d : Document) (s : State) : (putDocument d s).cmd = s.cmd := rfl
@[simp] theorem putDocument_argK (d : Document) (s : State) : (putDocument d s).argK = s.argK := rfl
@[simp] theorem putDocument_argKWritten (d : Document) (s : State) : (putDocument d s).argKWritten = s.argKWritten := rfl
@[simp] theorem putDocument_status (d : Document) (s : State) : (putDocument d s).status = s.status := rfl
@[simp] theorem putDocument_errInfo (d : Document) (s : State) : (putDocument d s).errInfo = s.errInfo := rfl
@[simp] theorem putDocument_pos (d : Document) (s : State) : (putDocument d s).pos = s.pos := rfl
@[simp] theorem putDocument_pst (d : Document) (s : State) : (putDocument d s).pst = s.pst := rfl
@[simp] theorem putDocument_spos (d : Document) (s : State) : (putDocument d s).spos = s.spos := rfl
@[simp] theorem putDocument_sst (d : Document) (s : State) : (putDocument d s).sst = s.sst := rfl
@[simp] theorem putDocument_dec (d : Document) (s : State) : (putDocument d s).dec = s.dec := rfl
@[simp] theorem putDocument_out (d : Document) (s : State) : (putDocument d s).out = s.out := rfl
@[simp] theorem putDocument_pixWritten (d : Document) (s : State) : (putDocument d s).pixWritten = s.pixWritten := rfl
@[simp] theorem putDocument_enc (d : Document) (s : State) : (putDocument d s).enc = s.enc := rfl
@[simp] theorem putDocument_doc (d : Document) (s : State) : (putDocument d s).doc = some d := rfl
@[simp] theorem putDocument_src (d : Document) (s : State) : (putDocument d s).src = s.src := rfl
@[simp] theorem putDocument_snk (d : Document) (s : State) : (putDocument d s).snk = s.snk := rfl
@[simp] theorem putDocument_scratch (d : Document) (s : State) : (putDocument d s).scratch = s.scratch := rfl
@[simp] theorem putDocument_lzwUnit (d : Document) (s : State) : (putDocument d s).lzwUnit = s.lzwUnit := rfl
@[simp] theorem putDocument_params (d : Document) (s : State) : (putDocument d s).params = s.params := rfl
@[simp] theorem putDocument_imgIdx (d : Document) (s : State) : (putDocument d s).imgIdx = s.imgIdx := rfl
@[simp] theorem putDocument_host (d : Document) (s : State) : (putDocument d s).host = s.host := rfl
@[simp] theorem putDocument_fresh (d : Document) (s : State) : (putDocument d s).fresh = s.fresh := rfl

/-! ## startSubBlocks -/

@[simp] theorem startSubBlocks_cmd (p : PState) (s : State) : (startSubBlocks p s).cmd = s.cmd := rfl
@[simp] theorem startSubBlocks_argK (p : PState) (s : State) : (startSubBlocks p s).argK = s.argK := rfl
@[simp] theorem startSubBlocks_argKWritten (p : PState) (s : State) : (startSubBlocks p s).argKWritten = s.argKWritten := rfl
@[simp] theorem startSubBlocks_status (p : PState) (s : State) : (startSubBlocks p s).status = s.status := rfl
@[simp] theorem startSubBlocks_errInfo (p : PState) (s : State) : (startSubBlocks p s).errInfo = s.errInfo := rfl
@[simp] theorem startSubBlocks_pos (p : PState) (s : State) : (startSubBlocks p s).pos = s.pos := rfl
@[simp] theorem startSubBlocks_pst (p : PState) (s : State) : (startSubBlocks p s).pst = p := rfl
@[simp] theorem startSubBlocks_spos (p : PState) (s : State) : (startSubBlocks p s).spos = s.spos := rfl
@[simp] theorem startSubBlocks_sst (p : PState) (s : State) : (startSubBlocks p s).sst = s.sst := rfl
@[simp] theorem startSubBlocks_dec (p : PState) (s : State) : (startSubBlocks p s).dec = clearSubBlockFlags s.dec := rfl
@[simp] theorem startSubBlocks_out (p : PState) (s : State) : (startSubBlocks p s).out = s.out := rfl
@[simp] theorem startSubBlocks_pixWritten (p : PState) (s : State) : (startSubBlocks p s).pixWritten = s.pixWritten := rfl
@[simp] theorem startSubBlocks_enc (p : PState) (s : State) : (startSubBlocks p s).enc = s.enc := rfl
@[simp] theorem startSubBlocks_doc (p : PState) (s : State) : (startSubBlocks p s).doc = s.doc := rfl
@[simp] theorem startSubBlocks_src (p : PState) (s : State) : (startSubBlocks p s).src = s.src := rfl
@[simp] theorem startSubBlocks_snk (p : PState) (s : State) : (startSubBlocks p s).snk = s.snk := rfl
@[simp] theorem startSubBlocks_scratch (p : PState) (s : State) : (startSubBlocks p s).scratch =
    { s.scratch with headerDue := false, frags := [] } := rfl
@[simp] theorem startSubBlocks_lzwUnit (p : PState) (s : State) : (startSubBlocks p s).lzwUnit = s.lzwUnit := rfl
@[simp] theorem startSubBlocks_params (p : PState) (s : State) : (startSubBlocks p s).params = s.params := rfl
@[simp] theorem startSubBlocks_imgIdx (p : PState) (s : State) : (startSubBlocks p s).imgIdx = s.imgIdx := rfl
@[simp] theorem startSubBlocks_host (p : PState) (s : State) : (startSubBlocks p s).host = s.host := rfl
@[simp] theorem startSubBlocks_fresh (p : PState) (s : State) : (startSubBlocks p s).fresh = s.fresh := rfl

/-! ## awaitHeader -/

@[simp] theorem awaitHeader_cmd (p : PState) (s : State) : (awaitHeader p s).cmd = s.cmd := rfl
@[simp] theorem awaitHeader_argK (p : PState) (s : State) : (awaitHeader p s).argK = s.argK := rfl
@[simp] theorem awaitHeader_argKWritten (p : PState) (s : State) : (awaitHeader p s).argKWritten = s.argKWritten := rfl
@[simp] theorem awaitHeader_status (p : PState) (s : State) : (awaitHeader p s).status = s.status := rfl
@[simp] theorem awaitHeader_errInfo (p : PState) (s : State) : (awaitHeader p s).errInfo = s.errInfo := rfl
@[simp] theorem awaitHeader_pos (p : PState) (s : State) : (awaitHeader p s).pos = s.pos := rfl
@[simp] theorem awaitHeader_pst (p : PState) (s : State) : (awaitHeader p s).pst = p := rfl
@[simp] theorem awaitHeader_spos (p : PState) (s : State) : (awaitHeader p s).spos = s.spos := rfl
@[simp] theorem awaitHeader_sst (p : PState) (s : State) : (awaitHeader p s).sst = s.sst := rfl
@[simp] theorem awaitHeader_dec (p : PState) (s : State) : (awaitHeader p s).dec = s.dec := rfl
@[simp] theorem awaitHeader_out (p : PState) (s : State) : (awaitHeader p s).out = s.out := rfl
@[simp] theorem awaitHeader_pixWritten (p : PState) (s : State) : (awaitHeader p s).pixWritten = s.pixWritten := rfl
@[simp] theorem awaitHeader_enc (p : PState) (s : State) : (awaitHeader p s).enc = s.enc := rfl
@[simp] theorem awaitHeader_doc (p : PState) (s : State) : (awaitHeader p s).doc = s.doc := rfl
@[simp] theorem awaitHeader_src (p : PState) (s : State) : (awaitHeader p s).src = s.src := rfl
@[simp] theorem awaitHeader_snk (p : PState) (s : State) : (awaitHeader p s).snk = s.snk := rfl
@[simp] theorem awaitHeader_params (p : PState) (s : State) : (awaitHeader p s).params = s.params := rfl
@[simp] theorem awaitHeader_scratch (p : PState) (s : State) : (awaitHeader p s).scratch =
    { s.scratch with headerDue := true } := rfl
@[simp] theorem awaitHeader_lzwUnit (p : PState) (s : State) : (awaitHeader p s).lzwUnit = s.lzwUnit := rfl
@[simp] theorem awaitHeader_imgIdx (p : PState) (s : State) : (awaitHeader p s).imgIdx = s.imgIdx := rfl
@[simp] theorem awaitHeader_host (p : PState) (s : State) : (awaitHeader p s).host = s.host := rfl
@[simp] theorem awaitHeader_fresh (p : PState) (s : State) : (awaitHeader p s).fresh = s.fresh := rfl

/-! ## resolve -/

@[simp] theorem resolve_cmd (c : Nat) (l : List Byte) (s : State) : (resolve c l s).cmd = s.cmd := rfl
@[simp] theorem resolve_argK (c : Nat) (l : List Byte) (s : State) : (resolve c l s).argK = s.argK := rfl
@[simp] theorem resolve_argKWritten (c : Nat) (l : List Byte) (s : State) : (resolve c l s).argKWritten = s.argKWritten := rfl
@[simp] theorem resolve_status (c : Nat) (l : List Byte) (s : State) : (resolve c l s).status = s.status := rfl
@[simp] theorem resolve_errInfo (c : Nat) (l : List Byte) (s : State) : (resolve c l s).errInfo = s.errInfo := rfl
@[simp] theorem resolve_pos (c : Nat) (l : List Byte) (s : State) : (resolve c l s).pos = s.pos := rfl
@[simp] theorem resolve_pst (c : Nat) (l : List Byte) (s : State) : (resolve c l s).pst = s.pst := rfl
@[simp] theorem resolve_spos (c : Nat) (l : List Byte) (s : State) : (resolve c l s).spos = s.spos := rfl
@[simp] theorem resolve_sst (c : Nat) (l : List Byte) (s : State) : (resolve c l s).sst = s.sst := rfl
@[simp] theorem resolve_dec (c : Nat) (l : List Byte) (s : State) : (resolve c l s).dec = setPrev c (register l s.dec) := rfl
@[simp] theorem resolve_out (c : Nat) (l : List Byte) (s : State) : (resolve c l s).out = s.out ++ l := rfl
@[simp] theorem resolve_pixWritten (c : Nat) (l : List Byte) (s : State) : (resolve c l s).pixWritten = s.pixWritten := rfl
@[simp] theorem resolve_enc (c : Nat) (l : List Byte) (s : State) : (resolve c l s).enc = s.enc := rfl
@[simp] theorem resolve_doc (c : Nat) (l : List Byte) (s : State) : (resolve c l s).doc = s.doc := rfl
@[simp] theorem resolve_src (c : Nat) (l : List Byte) (s : State) : (resolve c l s).src = s.src := rfl
@[simp] theorem resolve_snk (c : Nat) (l : List Byte) (s : State) : (resolve c l s).snk = s.snk := rfl
@[simp] theorem resolve_scratch (c : Nat) (l : List Byte) (s : State) : (resolve c l s).scratch = s.scratch := rfl
@[simp] theorem resolve_lzwUnit (c : Nat) (l : List Byte) (s : State) : (resolve c l s).lzwUnit = s.lzwUnit := rfl
@[simp] theorem resolve_params (c : Nat) (l : List Byte) (s : State) : (resolve c l s).params = s.params := rfl
@[simp] theorem resolve_imgIdx (c : Nat) (l : List Byte) (s : State) : (resolve c l s).imgIdx = s.imgIdx := rfl
@[simp] theorem resolve_host (c : Nat) (l : List Byte) (s : State) : (resolve c l s).host = s.host := rfl
@[simp] theorem resolve_fresh (c : Nat) (l : List Byte) (s : State) : (resolve c l s).fresh = s.fresh := rfl

/-! ## parseDone -/

@[simp] theorem parseDone_cmd (s : State) : (parseDone s).cmd = s.cmd := rfl
@[simp] theorem parseDone_argK (s : State) : (parseDone s).argK = s.argK := rfl
@[simp] theorem parseDone_argKWritten (s : State) : (parseDone s).argKWritten = s.argKWritten := rfl
@[simp] theorem parseDone_status (s : State) : (parseDone s).status = okStatus s.status := rfl
@[simp] theorem parseDone_errInfo (s : State) : (parseDone s).errInfo = s.errInfo := rfl
@[simp] theorem parseDone_pos (s : State) : (parseDone s).pos = s.pos := rfl
@[simp] theorem parseDone_pst (s : State) : (parseDone s).pst = .done := rfl
@[simp] theorem parseDone_spos (s : State) : (parseDone s).spos = s.spos := rfl
@[simp] theorem parseDone_sst (s : State) : (parseDone s).sst = s.sst := rfl
@[simp] theorem parseDone_dec (s : State) : (parseDone s).dec = freeDecoder s.fresh := rfl
@[simp] theorem parseDone_out (s : State) : (parseDone s).out = s.out := rfl
@[simp] theorem parseDone_pixWritten (s : State) : (parseDone s).pixWritten = s.pixWritten := rfl
@[simp] theorem parseDone_enc (s : State) : (parseDone s).enc = freeEncoder s.fresh := rfl
@[simp] theorem parseDone_doc (s : State) : (parseDone s).doc = some s.scratch.doc := rfl
@[simp] theorem parseDone_src (s : State) : (parseDone s).src = s.src := rfl
@[simp] theorem parseDone_snk (s : State) : (parseDone s).snk = s.snk := rfl
@[simp] theorem parseDone_scratch (s : State) : (parseDone s).scratch = Scratch.fresh := rfl
@[simp] theorem parseDone_lzwUnit (s : State) : (parseDone s).lzwUnit = .off := rfl
@[simp] theorem parseDone_params (s : State) : (parseDone s).params = s.params := rfl
@[simp] theorem parseDone_imgIdx (s : State) : (parseDone s).imgIdx = 0 := rfl
@[simp] theorem parseDone_host (s : State) : (parseDone s).host = s.host := rfl
@[simp] theorem parseDone_fresh (s : State) : (parseDone s).fresh = s.fresh + 1 := rfl

/-! ## took -/

@[simp] theorem took_cmd (l : List Byte) (r : List (Option Byte)) (s : State) : (took l r s).cmd = s.cmd := rfl
@[simp] theorem took_argK (l : List Byte) (r : List (Option Byte)) (s : State) : (took l r s).argK = s.argK := rfl
@[simp] theorem took_argKWritten (l : List Byte) (r : List (Option Byte)) (s : State) :
    (took l r s).argKWritten = s.argKWritten := rfl
@[simp] theorem took_status (l : List Byte) (r : List (Option Byte)) (s : State) : (took l r s).status = s.status := rfl
@[simp] theorem took_errInfo (l : List Byte) (r : List (Option Byte)) (s : State) : (took l r s).errInfo = s.errInfo := rfl
@[simp] theorem took_pos (l : List Byte) (r : List (Option Byte)) (s : State) : (took l r s).pos = s.pos + l.length := rfl
@[simp] theorem took_pst (l : List Byte) (r : List (Option Byte)) (s : State) : (took l r s).pst = s.pst := rfl
@[simp] theorem took_spos (l : List Byte) (r : List (Option Byte)) (s : State) : (took l r s).spos = s.spos := rfl
@[simp] theorem took_sst (l : List Byte) (r : List (Option Byte)) (s : State) : (took l r s).sst = s.sst := rfl
@[simp] theorem took_dec (l : List Byte) (r : List (Option Byte)) (s : State) : (took l r s).dec = s.dec := rfl
@[simp] theorem took_out (l : List Byte) (r : List (Option Byte)) (s : State) : (took l r s).out = s.out := rfl
@[simp] theorem took_pixWritten (l : List Byte) (r : List (Option Byte)) (s : State) :
    (took l r s).pixWritten = s.pixWritten := rfl
@[simp] theorem took_enc (l : List Byte) (r : List (Option Byte)) (s : State) : (took l r s).enc = s.enc := rfl
@[simp] theorem took_doc (l : List Byte) (r : List (Option Byte)) (s : State) : (took l r s).doc = s.doc := rfl
@[simp] theorem took_src (l : List Byte) (r : List (Option Byte)) (s : State) : (took l r s).src = { s.src with answers :=
    r } := rfl
@[simp] theorem took_snk (l : List Byte) (r : List (Option Byte)) (s : State) : (took l r s).snk = s.snk := rfl
@[simp] theorem took_scratch (l : List Byte) (r : List (Option Byte)) (s : State) : (took l r s).scratch = s.scratch := rfl
@[simp] theorem took_lzwUnit (l : List Byte) (r : List (Option Byte)) (s : State) : (took l r s).lzwUnit = s.lzwUnit := rfl
@[simp] theorem took_params (l : List Byte) (r : List (Option Byte)) (s : State) : (took l r s).params = s.params := rfl
@[simp] theorem took_imgIdx (l : List Byte) (r : List (Option Byte)) (s : State) : (took l r s).imgIdx = s.imgIdx := rfl
@[simp] theorem took_host (l : List Byte) (r : List (Option Byte)) (s : State) : (took l r s).host = s.host := rfl
@[simp] theorem took_fresh (l : List Byte) (r : List (Option Byte)) (s : State) : (took l r s).fresh = s.fresh := rfl

/-! ## wrote -/

@[simp] theorem wrote_cmd (l : List Byte) (s : State) : (wrote l s).cmd = s.cmd := rfl
@[simp] theorem wrote_argK (l : List Byte) (s : State) : (wrote l s).argK = s.argK := rfl
@[simp] theorem wrote_argKWritten (l : List Byte) (s : State) : (wrote l s).argKWritten = s.argKWritten := rfl
@[simp] theorem wrote_status (l : List Byte) (s : State) : (wrote l s).status = s.status := rfl
@[simp] theorem wrote_errInfo (l : List Byte) (s : State) : (wrote l s).errInfo = s.errInfo := rfl
@[simp] theorem wrote_pos (l : List Byte) (s : State) : (wrote l s).pos = s.pos := rfl
@[simp] theorem wrote_pst (l : List Byte) (s : State) : (wrote l s).pst = s.pst := rfl
@[simp] theorem wrote_spos (l : List Byte) (s : State) : (wrote l s).spos = s.spos + l.length := rfl
@[simp] theorem wrote_sst (l : List Byte) (s : State) : (wrote l s).sst = s.sst := rfl
@[simp] theorem wrote_dec (l : List Byte) (s : State) : (wrote l s).dec = s.dec := rfl
@[simp] theorem wrote_out (l : List Byte) (s : State) : (wrote l s).out = s.out := rfl
@[simp] theorem wrote_pixWritten (l : List Byte) (s : State) : (wrote l s).pixWritten = s.pixWritten := rfl
@[simp] theorem wrote_enc (l : List Byte) (s : State) : (wrote l s).enc = s.enc := rfl
@[simp] theorem wrote_doc (l : List Byte) (s : State) : (wrote l s).doc = s.doc := rfl
@[simp] theorem wrote_src (l : List Byte) (s : State) : (wrote l s).src = s.src := rfl
@[simp] theorem wrote_snk (l : List Byte) (s : State) : (wrote l s).snk = { s.snk with
    bytes := s.snk.bytes ++ l, okWrites := s.snk.okWrites.map fun m => m - l.length } := rfl
@[simp] theorem wrote_scratch (l : List Byte) (s : State) : (wrote l s).scratch = s.scratch := rfl
@[simp] theorem wrote_lzwUnit (l : List Byte) (s : State) : (wrote l s).lzwUnit = s.lzwUnit := rfl
@[simp] theorem wrote_params (l : List Byte) (s : State) : (wrote l s).params = s.params := rfl
@[simp] theorem wrote_imgIdx (l : List Byte) (s : State) : (wrote l s).imgIdx = s.imgIdx := rfl
@[simp] theorem wrote_host (l : List Byte) (s : State) : (wrote l s).host = s.host := rfl
@[simp] theorem wrote_fresh (l : List Byte) (s : State) : (wrote l s).fresh = s.fresh := rfl

end Sys2Proof.Machine
end

