-- ==== Sys2Proof/Laws/Reads.lean ====
section
/-! SUPPORT. Reading from SRC: every strict reader is a parser of bytes. `Implements r p` says all a reader can do: where the
bytes of SRC are enough for `p` the reader takes exactly the bytes `p` takes; where they are not it takes them all and raises. -/

namespace Sys2Proof.Machine

/-! ## Results -/

@[simp] theorem Res.bind_ok {α β : Type} (a : α) (s : State) (f : α → State → Res β) : (Res.ok a s).bind f = f a s := rfl
@[simp] theorem Res.bind_raise {α β : Type} (c : Cause) (p : Nat) (s : State) (f : α → State → Res β) :
    (Res.raise c p s : Res α).bind f = .raise c p s := rfl
@[simp] theorem Res.toOutcome_ok {α : Type} (a : α) (s : State) (f : α → State → Host.Outcome State Fault Refusal) :
    (Res.ok a s).toOutcome f = f a s := rfl
@[simp] theorem Res.toOutcome_raise {α : Type} (c : Cause) (p : Nat) (s : State)
    (f : α → State → Host.Outcome State Fault Refusal) : (Res.raise c p s : Res α).toOutcome f = .next (takeFault c p s) := rfl

theorem Res.bind_assoc {α β γ : Type} (r : Res α) (f : α → State → Res β) (g : β → State → Res γ) :
    (r.bind f).bind g = r.bind fun a s => (f a s).bind g := by cases r <;> rfl

theorem Res.bind_ok_iff {α β : Type} {r : Res α} {f : α → State → Res β} {b : β} {u : State} :
    r.bind f = .ok b u ↔ ∃ a t, r = .ok a t ∧ f a t = .ok b u := by
  cases r with
  | ok a s =>
    simp only [Res.bind_ok, Res.ok.injEq]
    exact ⟨fun h => ⟨a, s, ⟨rfl, rfl⟩, h⟩, fun ⟨_, _, ⟨h1, h2⟩, h⟩ => h1 ▸ h2 ▸ h⟩
  | raise c p s => simp

theorem Res.bind_raise_iff {α β : Type} {r : Res α} {f : α → State → Res β} {c : Cause} {p : Nat} {u : State} :
    r.bind f = .raise c p u ↔ r = .raise c p u ∨ ∃ a t, r = .ok a t ∧ f a t = .raise c p u := by
  cases r with
  | ok a s =>
    simp only [Res.bind_ok, Res.ok.injEq, reduceCtorEq, false_or]
    exact ⟨fun h => ⟨a, s, ⟨rfl, rfl⟩, h⟩, fun ⟨_, _, ⟨h1, h2⟩, h⟩ => h1 ▸ h2 ▸ h⟩
  | raise c' p' s => simp

/-! ## Taking bytes -/

/-- What a failed read leaves (U6). -/
def failedRead (s : State) : State :=
  { s with
    src := { s.src with answers := Config.freeAnswers s.fresh }, pos := boundedCounter s.params (Config.freeNat s.fresh 0)
    fresh := s.fresh + 1 }

theorem took_nil (s : State) : took [] s.src.answers s = s := rfl

theorem took_took (bs cs : List Byte) (r1 r2 : List (Option Byte)) (s : State) :
    took cs r2 (took bs r1 s) = took (bs ++ cs) r2 s := by
  simp [took, Nat.add_assoc]

theorem mustByte_byte {s : State} {b : Byte} {rest : List (Option Byte)} (h : s.src.answers = some b :: rest) :
    mustByte s = .ok b (took [b] rest s) := by
  simp [mustByte, srcNext, h, took]

theorem mustByte_eos {s : State} (h : s.src.answers = []) : mustByte s = .raise (.ioError .unexpectedEof) s.pos s := by
  simp [mustByte, srcNext, h]

theorem mustByte_fail {s : State} {rest : List (Option Byte)} (h : s.src.answers = none :: rest) :
    mustByte s = .raise (.ioError .readFailure) s.pos (failedRead s) := by
  simp [mustByte, srcNext, h, failedRead]

/-- The answers are the bytes at hand and then the end of the stream or a failing access. -/
theorem answers_available (l : List (Option Byte)) :
    ∃ rest, l = (available l).map some ++ rest ∧ (rest = [] ∨ ∃ r, rest = none :: r) := by
  induction l with
  | nil => exact ⟨[], rfl, .inl rfl⟩
  | cons a t ih =>
    cases a with
    | none => exact ⟨none :: t, rfl, .inr ⟨t, rfl⟩⟩
    | some b =>
      obtain ⟨rest, h1, h2⟩ := ih
      exact ⟨rest, by rw [available, List.map_cons, List.cons_append, ← h1], h2⟩

@[simp] theorem available_map_append (bs : List Byte) (rest : List (Option Byte)) :
    available (bs.map some ++ rest) = bs ++ available rest := by
  induction bs with
  | nil => rfl
  | cons b t ih => simp [available, ih]

@[simp] theorem available_map (bs : List Byte) : available (bs.map some) = bs := by
  have := available_map_append bs []
  simpa [available] using this

@[simp] theorem available_none (r : List (Option Byte)) : available (none :: r) = [] := rfl
@[simp] theorem available_nil : available [] = [] := rfl

/-! ## Bytes that have been fed to a reader -/

theorem Fed.refl {s : State} : Fed s s [] s.src.answers := rfl

theorem Fed.trans {s t u : State} {a b : List Byte} {r1 r2 : List (Option Byte)} (h1 : Fed s t a r1) (h2 : Fed t u b r2) :
    Fed s u (a ++ b) r2 := by
  unfold Fed at *
  rw [h2, h1]
  simp [took, Nat.add_assoc]

theorem Fed.answers {s t : State} {a : List Byte} {r : List (Option Byte)} (h : Fed s t a r) : t.src.answers = r := by
  rw [h]; rfl

theorem Fed.pos {s t : State} {a : List Byte} {r : List (Option Byte)} (h : Fed s t a r) : t.pos = s.pos + a.length := by
  rw [h]; rfl

/-- A read of bytes outside the decoder. -/
theorem fed_took (s : State) (used : List Byte) (r : List (Option Byte)) : Fed s (took used r s) used r := rfl

/-! ## Readers as parsers -/

/-- A parser of bytes; `none` is a truncation. -/
abbrev Parser (α : Type) := List Byte → Option (α × List Byte)

/-- One byte. -/
def pByte : Parser Byte
  | [] => none
  | b :: t => some (b, t)

/-- One parser after another. -/
def pBind {α β : Type} (p : Parser α) (q : α → Parser β) : Parser β := fun bs =>
  match p bs with
  | none => none
  | some (a, t) => q a t

/-- What a strict reader does where its bytes run out. The sub-block reader marks SBREM and SBEOS besides. -/
def RanOut {α : Type} (r : Res α) (s : State) (bs : List Byte) (rest : List (Option Byte)) : Prop :=
  (rest = [] → ∃ v, Fed s v bs [] ∧ r = .raise (.ioError .unexpectedEof) (s.pos + bs.length) v) ∧
  (∀ t, rest = none :: t → ∃ v, Fed s v bs rest ∧
    r = .raise (.ioError .readFailure) (s.pos + bs.length) (failedRead v))

theorem RanOut.bind {α β : Type} {r : Res α} {s : State} {bs : List Byte} {rest : List (Option Byte)} (h : RanOut r s bs rest)
    (f : α → State → Res β) : RanOut (r.bind f) s bs rest :=
  ⟨fun e => by obtain ⟨v, hv, hr⟩ := h.1 e; exact ⟨v, hv, by rw [hr, Res.bind_raise]⟩,
    fun t e => by obtain ⟨v, hv, hr⟩ := h.2 t e; exact ⟨v, hv, by rw [hr, Res.bind_raise]⟩⟩

/-- The reader does what the parser says, and nothing else. -/
structure Implements {α : Type} (r : State → Res α) (p : Parser α) : Prop where
  full : ∀ s bs rest a tail, s.src.answers = bs.map some ++ rest → p bs = some (a, tail) →
    ∃ used, bs = used ++ tail ∧ r s = .ok a (took used (tail.map some ++ rest) s)
  short : ∀ s bs rest, s.src.answers = bs.map some ++ rest → p bs = none → RanOut (r s) s bs rest

theorem implements_pure {α : Type} (a : α) : Implements (fun s => .ok a s) fun bs => some (a, bs) where
  full := by
    intro s bs rest a' tail h hp
    simp only [Option.some.injEq, Prod.mk.injEq] at hp
    obtain ⟨rfl, rfl⟩ := hp
    exact ⟨[], rfl, by rw [← h, took_nil]⟩
  short := by intro s bs rest _ hp; simp at hp

theorem implements_mustByte : Implements mustByte pByte where
  full := by
    intro s bs rest a tail h hp
    cases bs with
    | nil => simp [pByte] at hp
    | cons b t =>
      simp only [pByte, Option.some.injEq, Prod.mk.injEq] at hp
      obtain ⟨rfl, rfl⟩ := hp
      exact ⟨[b], rfl, mustByte_byte h⟩
  short := by
    intro s bs rest h hp
    cases bs with
    | cons b t => simp [pByte] at hp
    | nil =>
      constructor
      · rintro rfl
        exact ⟨s, (show s.src.answers = [] from h) ▸ Fed.refl, mustByte_eos h⟩
      · rintro t rfl
        exact ⟨s, (show s.src.answers = none :: t from h) ▸ Fed.refl, mustByte_fail h⟩

theorem Implements.bind {α β : Type} {r : State → Res α} {p : Parser α} {f : α → State → Res β} {q : α → Parser β}
    (hr : Implements r p) (hf : ∀ a, Implements (f a) (q a)) : Implements (fun s => (r s).bind f) (pBind p q) where
  full := by
    intro s bs rest b tail h hp
    unfold pBind at hp
    split at hp
    · simp at hp
    · rename_i a t ha
      obtain ⟨used, rfl, h1⟩ := hr.full s bs rest a t h ha
      obtain ⟨used2, rfl, h2⟩ := (hf a).full (took used (t.map some ++ rest) s) t rest b tail rfl hp
      exact ⟨used ++ used2, by simp, by rw [h1, Res.bind_ok, h2, took_took]⟩
  short := by
    intro s bs rest h hp
    unfold pBind at hp
    split at hp
    · rename_i ha
      exact (hr.short s bs rest h ha).bind _
    · rename_i a t ha
      obtain ⟨used, rfl, h1⟩ := hr.full s bs rest a t h ha
      obtain ⟨h2, h3⟩ := (hf a).short (took used (t.map some ++ rest) s) t rest rfl hp
      refine ⟨fun e => ?_, fun u e => ?_⟩
      · subst e
        obtain ⟨v, hv, hr⟩ := h2 rfl
        exact ⟨v, (fed_took _ _ _).trans hv, by rw [h1, Res.bind_ok, hr]; simp [Nat.add_assoc]⟩
      · obtain ⟨v, hv, hr⟩ := h3 u e
        exact ⟨v, (fed_took _ _ _).trans hv, by rw [h1, Res.bind_ok, hr]; simp [Nat.add_assoc]⟩

theorem Implements.ite {α : Type} {r1 r2 : State → Res α} {p1 p2 : Parser α} {c : Prop} [Decidable c]
    (h1 : Implements r1 p1) (h2 : Implements r2 p2) :
    Implements (fun s => if c then r1 s else r2 s) (if c then p1 else p2) := by
  by_cases h : c
  · simpa only [if_pos h]
  · simpa only [if_neg h]

/-- `MustU16()`. -/
def pU16 : Parser Half := pBind pByte fun lo => pBind pByte fun hi bs => some (u16le lo hi, bs)

theorem implements_mustU16 : Implements mustU16 pU16 :=
  implements_mustByte.bind fun lo => implements_mustByte.bind fun hi => implements_pure (u16le lo hi)

/-- `MustBytes(n)`. -/
def pBytes : Nat → Parser (List Byte)
  | 0 => fun bs => some ([], bs)
  | n + 1 => pBind pByte fun b => pBind (pBytes n) fun l bs => some (b :: l, bs)

theorem implements_mustBytes (n : Nat) : Implements (mustBytes n) (pBytes n) := by
  induction n with
  | zero => exact implements_pure []
  | succ n ih => exact implements_mustByte.bind fun b => ih.bind fun l => implements_pure (b :: l)

/-- `CT(n)`. -/
def pTable : Nat → Parser (List Rgb)
  | 0 => fun bs => some ([], bs)
  | n + 1 => pBind pByte fun r => pBind pByte fun g => pBind pByte fun b => pBind (pTable n) fun t bs => some (⟨r, g,
    b⟩ :: t, bs)

theorem implements_readTable (n : Nat) : Implements (readTable n) (pTable n) := by
  induction n with
  | zero => exact implements_pure []
  | succ n ih =>
    exact implements_mustByte.bind fun r => implements_mustByte.bind fun g => implements_mustByte.bind fun b =>
      ih.bind fun t => implements_pure (⟨r, g, b⟩ :: t)

/-- Marking the sub-block state where the reader raises. -/
theorem Implements.markSubBlock {α : Type} {r : State → Res α} {p : Parser α} (h : Implements r p) (n : Nat) :
    Implements (fun s => (r s).markSubBlock n s.pos) p where
  full := by
    intro s bs rest a tail hs hp
    obtain ⟨used, h1, h2⟩ := h.full s bs rest a tail hs hp
    exact ⟨used, h1, by rw [h2]; rfl⟩
  short := by
    intro s bs rest hs hp
    obtain ⟨h1, h2⟩ := h.short s bs rest hs hp
    refine ⟨fun e => ?_, fun t e => ?_⟩
    · obtain ⟨v, hv, hr⟩ := h1 e
      refine ⟨{ v with dec := { v.dec with sbrem := n - (s.pos + bs.length - s.pos), sbeos := true } }, ?_, by rw [hr]; rfl⟩
      unfold Fed at *
      conv_lhs => rw [hv]
    · obtain ⟨v, hv, hr⟩ := h2 t e
      refine ⟨{ v with dec := { v.dec with sbrem := n - (s.pos + bs.length - s.pos), sbeos := false } }, ?_, by rw [hr]; rfl⟩
      unfold Fed at *
      conv_lhs => rw [hv]

/-- One turn of `MustSubBlocks()`. -/
def pSubBlock : Parser (Option (List Byte)) :=
  pBind pByte fun n => if n = 0 then fun bs => some (none, bs) else pBind (pBytes n.toNat) fun p bs => some (some p, bs)

theorem implements_mustSubBlock : Implements mustSubBlock pSubBlock := by
  refine (implements_mustByte.markSubBlock 0).bind fun n => ?_
  by_cases h : n = 0
  · simp only [if_pos h]
    exact implements_pure none
  · simp only [if_neg h]
    exact ((implements_mustBytes n.toNat).markSubBlock n.toNat).bind fun p => implements_pure (some p)

theorem pBytes_eq (n : Nat) (bs : List Byte) :
    pBytes n bs = if n ≤ bs.length then some (bs.take n, bs.drop n) else none := by
  induction n generalizing bs with
  | zero => simp [pBytes]
  | succ n ih =>
    cases bs with
    | nil => simp [pBytes, pBind, pByte]
    | cons b t =>
      simp only [pBytes, pBind, pByte, ih, List.length_cons, Nat.add_le_add_iff_right]
      by_cases h : n ≤ t.length <;> simp [h]

theorem pTable_eq (n : Nat) (bs : List Byte) : pTable n bs = decodeEntries n bs := by
  induction n generalizing bs with
  | zero => simp [pTable, decodeEntries]
  | succ n ih =>
    rcases bs with _ | ⟨r, _ | ⟨g, _ | ⟨b, t⟩⟩⟩ <;> simp [pTable, pBind, pByte, decodeEntries, ih]
    cases decodeEntries n t <;> rfl

/-- Bytes that are there are taken. -/
theorem mustBytes_full {s : State} {bs : List Byte} {rest : List (Option Byte)} (h : s.src.answers = bs.map some ++ rest) :
    mustBytes bs.length s = .ok bs (took bs rest s) := by
  obtain ⟨used, h1, h2⟩ := (implements_mustBytes bs.length).full s bs rest bs [] h (by simp [pBytes_eq])
  simp only [List.append_nil] at h1
  subst h1
  simpa using h2

end Sys2Proof.Machine
end

