-- ==== Sys2Proof/Laws/Codes.lean ====
section
/-! SUPPORT. Taking data bytes and codes from SRC: each operation either moves on in the bytes at hand,
  giving what the bit stream
says, or raises `IOError(ReadFailure)` at the failing access; it does nothing else. -/

namespace Sys2Proof.Machine

/-- How SRC goes on behind its bytes: it ends, or it fails. -/
def EndsOrFails (rest : List (Option Byte)) : Prop := rest = [] ∨ ∃ r, rest = none :: r

/-- What an operation that reads data leaves when an access fails. -/
def FailedAt (s u : State) (p : Nat) (bs : List Byte) (rest : List (Option Byte)) : Prop :=
  p = s.pos + bs.length ∧ (∃ r, rest = none :: r) ∧
    ∃ v, Fed s v bs rest ∧ u = failedRead v

theorem FailedAt.trans {s t u : State} {p : Nat} {used bs : List Byte} {rest : List (Option Byte)}
    (h : Fed s t used (bs.map some ++ rest)) (hf : FailedAt t u p bs rest) : FailedAt s u p (used ++ bs) rest := by
  obtain ⟨hp, hr, v, hv, hu⟩ := hf
  refine ⟨?_, hr, v, h.trans hv, hu⟩
  rw [hp, h.pos, List.length_append, Nat.add_assoc]

theorem FailedAt.rest_ne {s u : State} {p : Nat} {bs : List Byte} {rest : List (Option Byte)} (h : FailedAt s u p bs rest) :
    rest ≠ [] := by
  obtain ⟨-, ⟨r, rfl⟩, -⟩ := h
  simp

/-! ## `DataByte()` -/

/-- The bytes and bits an operation that reads data leaves to come. -/
structure Moved (s t : State) (bs : List Byte) (rest : List (Option Byte)) (n : Nat) : Prop where
  used : ∃ used bs', bs = used ++ bs' ∧ Fed s t used (bs'.map some ++ rest)
  data : dataLeft t = (dataLeft s).drop n
  behind : behind t = behind s
  seqOpen : rest ≠ [] → sequenceOpen t = sequenceOpen s
  sbrem : s.dec.sbrem ≤ 255 → t.dec.sbrem ≤ 255

theorem Moved.refl {s : State} {bs : List Byte} {rest : List (Option Byte)} (h : s.src.answers = bs.map some ++ rest) :
    Moved s s bs rest 0 := ⟨⟨[], bs, rfl, h ▸ Fed.refl⟩, rfl, rfl, fun _ => rfl, id⟩

theorem Moved.trans {s t u : State} {bs bs' : List Byte} {rest : List (Option Byte)} {m n : Nat} {used : List Byte}
    (h1 : Moved s t bs rest m) (hb : bs = used ++ bs') (hf : Fed s t used (bs'.map some ++ rest)) (h2 : Moved t u bs' rest n) :
    Moved s u bs rest (m + n) := by
  obtain ⟨u2, bs2, hb2, hf2⟩ := h2.used
  refine ⟨⟨used ++ u2, bs2, by rw [hb, hb2, List.append_assoc], hf.trans hf2⟩, ?_, h2.behind.trans h1.behind,
    fun h => (h2.seqOpen h).trans (h1.seqOpen h), fun h => h2.sbrem (h1.sbrem h)⟩
  rw [h2.data, h1.data, List.drop_drop, Nat.add_comm]

theorem toNat_pred_le (n : Byte) : n.toNat - 1 ≤ 255 := by have := n.isLt; omega

/-- All `DataByte()` can do. -/
theorem dataByte_spec {s : State} {bs : List Byte} {rest : List (Option Byte)} (hs : s.src.answers = bs.map some ++ rest)
    (hr : EndsOrFails rest) :
    (∃ t, dataByte s = .ok (dataLeft s).head? t ∧ Moved s t bs rest 1 ∧
      t.dec.acc = s.dec.acc ∧ t.dec.nb = s.dec.nb ∧ (dataLeft s = [] → subBlocksDone t.dec = true)) ∨
    (∃ p u, dataByte s = .raise (.ioError .readFailure) p u ∧ FailedAt s u p bs rest ∧ dataLeft s = [] ∧
      sequenceOpen s = true) := by
  have hav : available s.src.answers = bs := by
    rw [hs, available_map_append]
    rcases hr with rfl | ⟨r, rfl⟩ <;> simp
  by_cases hd : (s.dec.sbterm || s.dec.sbeos) = true
  · left
    have hdl : dataLeft s = [] := by simp [dataLeft, subBlocksDone, hd]
    refine ⟨s, by rw [dataByte, if_pos hd, hdl]; rfl, ⟨⟨[], bs, rfl, hs ▸ Fed.refl⟩, by simp [hdl], rfl, fun _ => rfl, id⟩, rfl, rfl,
      fun _ => hd⟩
  · have hd' : subBlocksDone s.dec = false := by simpa [subBlocksDone] using hd
    have hdt : s.dec.sbterm = false := by simp at hd; exact hd.1
    have hde : s.dec.sbeos = false := by simp at hd; exact hd.2
    have hdl : dataLeft s = payloadFrom s.dec.sbrem bs := by simp [dataLeft, hd', hav]
    have hbl : behind s = behindFrom s.dec.sbrem bs := by simp [behind, hd', hav]
    have hso : sequenceOpen s = !terminated s.dec.sbrem bs := by simp [sequenceOpen, hd', hav]
    rw [hdl]
    cases hrem : s.dec.sbrem with
    | zero =>
      cases bs with
      | nil =>
        rcases hr with rfl | ⟨r, rfl⟩
        · left
          have hs' : s.src.answers = [] := by simpa using hs
          refine ⟨{ s with dec := { s.dec with sbeos := true } }, ?_, ⟨⟨[], [], rfl, ?_⟩, ?_, ?_, fun h => absurd rfl h,
            fun h => h⟩, rfl, rfl, ?_⟩
          · simp [dataByte, hd, hrem, srcNext, hs', payloadFrom]
          · simp [Fed, took]
            rw [← hs']
          · simp [dataLeft, subBlocksDone, payloadFrom, hs', hdt, hde]
          · simp [behind, subBlocksDone, behindFrom, hs', hdt, hde]
          · simp [subBlocksDone]
        · right
          have hs' : s.src.answers = none :: r := by simpa using hs
          refine ⟨s.pos, failedRead s, ?_, ⟨rfl, ⟨r, rfl⟩, s, ?_, rfl⟩, by simp [payloadFrom],
            by rw [hso]; simp [terminated]⟩
          · simp [dataByte, hd, hrem, srcNext, hs', failedRead]
          · rw [← hs']; exact Fed.refl
      | cons n t =>
        have hs' : s.src.answers = some n :: (t.map some ++ rest) := by simpa using hs
        by_cases hn : n = 0#8
        · left
          refine ⟨{ took [n] (t.map some ++ rest) s with dec := { s.dec with sbterm := true } }, ?_,
            ⟨⟨[n], t, rfl, ?_⟩, ?_, ?_, fun _ => ?_, fun h => h⟩, rfl, rfl, ?_⟩
          · simp [dataByte, hd, hrem, srcNext, hs', hn, payloadFrom, took]
          · simp [Fed, took]
          · simp [dataLeft, subBlocksDone, payloadFrom, hn, hdt, hde, hs', hrem, available]
          · rw [hbl, hrem]
            simp only [behind, subBlocksDone, behindFrom, hn, Bool.true_or, if_true, took, available_map_append]
            rcases hr with rfl | ⟨r, rfl⟩ <;> simp
          · rw [hso, hrem]; simp [sequenceOpen, subBlocksDone, terminated, hn]
          · simp [subBlocksDone]
        · cases t with
          | nil =>
            rcases hr with rfl | ⟨r, rfl⟩
            · left
              have hs' : s.src.answers = [some n] := by simpa using hs
              refine ⟨{ took [n] [] s with dec := { s.dec with sbrem := n.toNat, sbeos := true } }, ?_,
                ⟨⟨[n], [], rfl, ?_⟩, ?_, ?_, fun h => absurd rfl h, fun _ => by have := n.isLt; show n.toNat ≤ 255; omega⟩, rfl, rfl, ?_⟩
              · simp [dataByte, hd, hrem, srcNext, hs', hn, payloadFrom, took]
              · simp [Fed, took]
              · simp [dataLeft, subBlocksDone, payloadFrom, hn, hdt, hde, hs', hrem, available]
              · rw [hbl, hrem]
                simp [behind, subBlocksDone, behindFrom, hn, took]
              · simp [subBlocksDone]
            · right
              have hs' : s.src.answers = some n :: none :: r := by simpa using hs
              refine ⟨s.pos + 1, failedRead { took [n] (none :: r) s with dec := { s.dec with sbrem := n.toNat } }, ?_,
                ⟨rfl, ⟨r, rfl⟩, { took [n] (none :: r) s with dec := { s.dec with sbrem := n.toNat } }, ?_, rfl⟩, ?_,
                by rw [hso, hrem]; simp [terminated, hn]⟩
              · simp [dataByte, hd, hrem, srcNext, hs', hn, took, failedRead]
              · simp [Fed, took]
              · simp [payloadFrom, hn]
          | cons b t =>
            left
            have hs' : s.src.answers = some n :: some b :: (t.map some ++ rest) := by simpa using hs
            have hn1 : ∃ k, n.toNat = k + 1 := ⟨n.toNat - 1, by
              have : n.toNat ≠ 0 := fun h => hn (BitVec.eq_of_toNat_eq (by simpa using h))
              omega⟩
            obtain ⟨k, hk⟩ := hn1
            have hav' : available (t.map some ++ rest) = t := by
              rw [available_map_append]
              rcases hr with rfl | ⟨r, rfl⟩ <;> simp
            refine ⟨{ took [n, b] (t.map some ++ rest) s with dec := { s.dec with sbrem := k } }, ?_,
              ⟨⟨[n, b], t, rfl, ?_⟩, ?_, ?_, fun _ => ?_, fun _ => by have := n.isLt; show k ≤ 255; omega⟩, rfl, rfl, ?_⟩
            · simp [dataByte, hd, hrem, srcNext, hs', hn, payloadFrom, took, hk]
            · simp [Fed, took]
            · simp [dataLeft, subBlocksDone, payloadFrom, hn, hdt, hde, hs', hrem, available, hk, hav', took]
            · rw [hbl, hrem]
              simp [behind, subBlocksDone, behindFrom, hn, hdt, hde, hk, took]
              rcases hr with rfl | ⟨r, rfl⟩ <;> simp
            · rw [hso, hrem]; simp [sequenceOpen, subBlocksDone, terminated, hn, hdt, hde, hk, took, hav']
            · simp [payloadFrom, hn, hk]
    | succ k =>
      cases bs with
      | nil =>
        rcases hr with rfl | ⟨r, rfl⟩
        · left
          have hs' : s.src.answers = [] := by simpa using hs
          refine ⟨{ s with dec := { s.dec with sbeos := true } }, ?_, ⟨⟨[], [], rfl, ?_⟩, ?_, ?_, fun h => absurd rfl h,
            fun h => h⟩, rfl, rfl, ?_⟩
          · simp [dataByte, hd, hrem, srcNext, hs', payloadFrom]
          · simp [Fed, took]
            rw [← hs']
          · simp [dataLeft, subBlocksDone, payloadFrom, hs', hdt, hde]
          · simp [behind, subBlocksDone, behindFrom, hs', hdt, hde]
          · simp [subBlocksDone]
        · right
          have hs' : s.src.answers = none :: r := by simpa using hs
          refine ⟨s.pos, failedRead s, ?_, ⟨rfl, ⟨r, rfl⟩, s, ?_, rfl⟩, by simp [payloadFrom],
            by rw [hso]; simp [terminated]⟩
          · simp [dataByte, hd, hrem, srcNext, hs', failedRead]
          · rw [← hs']; exact Fed.refl
      | cons b t =>
        left
        have hs' : s.src.answers = some b :: (t.map some ++ rest) := by simpa using hs
        refine ⟨{ took [b] (t.map some ++ rest) s with dec := { s.dec with sbrem := k } }, ?_,
          ⟨⟨[b], t, rfl, ?_⟩, ?_, ?_, fun _ => ?_, fun h => by show k ≤ 255; omega⟩, rfl, rfl, ?_⟩
        · simp [dataByte, hd, hrem, srcNext, hs', payloadFrom, took]
        · simp [Fed, took]
        · simp [dataLeft, subBlocksDone, payloadFrom, hdt, hde, hs', hrem, available, took]
        · rw [hbl, hrem]
          simp [behind, subBlocksDone, behindFrom, hdt, hde, took]
          rcases hr with rfl | ⟨r, rfl⟩ <;> simp
        · rw [hso, hrem]
          simp only [sequenceOpen, subBlocksDone, terminated, hdt, hde, took, available_map_append]
          rcases hr with rfl | ⟨r, rfl⟩ <;> simp
        · simp [payloadFrom]

/-! ## `Drain()` -/

theorem payloadFrom_length (rem : Nat) (bs : List Byte) : (payloadFrom rem bs).length ≤ bs.length := by
  induction bs generalizing rem with
  | nil => simp [payloadFrom]
  | cons b t ih =>
    cases rem with
    | zero =>
      simp only [payloadFrom, List.length_cons]
      split
      · simp
      · have := ih b.toNat; omega
    | succ k =>
      simp only [payloadFrom, List.length_cons]
      have := ih k; omega

theorem available_length (l : List (Option Byte)) : (available l).length ≤ l.length := by
  obtain ⟨rest, h, -⟩ := answers_available l
  have := congrArg List.length h
  simp at this
  omega

theorem dataLeft_length (s : State) : (dataLeft s).length ≤ s.src.answers.length := by
  unfold dataLeft
  split
  · simp
  · exact (payloadFrom_length _ _).trans (available_length _)

/-- What draining and filling have in common: they move on, or an access fails. -/
theorem drainLoop_spec (fuel : Nat) : ∀ {s : State} {bs : List Byte} {rest : List (Option Byte)},
    s.src.answers = bs.map some ++ rest → EndsOrFails rest → (dataLeft s).length < fuel →
    (∃ t n, drainLoop fuel s = .ok () t ∧ Moved s t bs rest n ∧ t.dec.acc = s.dec.acc ∧ t.dec.nb = s.dec.nb ∧
      subBlocksDone t.dec = true) ∨
    (∃ p u, drainLoop fuel s = .raise (.ioError .readFailure) p u ∧ FailedAt s u p bs rest ∧ sequenceOpen s = true) := by
  induction fuel with
  | zero => intro s bs rest _ _ h; omega
  | succ fuel ih =>
    intro s bs rest hs hr hf
    by_cases hd : (s.dec.sbterm || s.dec.sbeos) = true
    · left
      exact ⟨s, 0, by rw [drainLoop, if_pos hd], Moved.refl hs, rfl, rfl, hd⟩
    · have hstep : drainLoop (fuel + 1) s = (dataByte s).bind fun _ t => drainLoop fuel t := by
        rw [drainLoop, if_neg hd]
      rcases dataByte_spec hs hr with ⟨t, ht, hm, ha, hn, hdone⟩ | ⟨p, u, hraise, hfail, -, hopen⟩
      · obtain ⟨used, bs', hb, hfed⟩ := hm.used
        rw [hstep, ht, Res.bind_ok]
        by_cases hdl : dataLeft s = []
        · left
          have hd' := hdone hdl
          refine ⟨t, 1, ?_, hm, ha, hn, hd'⟩
          cases fuel with
          | zero => rfl
          | succ f => rw [drainLoop, if_pos (show (t.dec.sbterm || t.dec.sbeos) = true from hd')]
        · have hlen : (dataLeft t).length < fuel := by
            rw [hm.data, List.length_drop]
            have := List.length_pos_of_ne_nil hdl
            omega
          rcases ih hfed.answers hr hlen with ⟨u, n, hu, hm2, ha2, hn2, hd2⟩ | ⟨p, u, hu, hfail, hopen⟩
          · exact .inl ⟨u, 1 + n, hu, hm.trans hb hfed hm2, ha2.trans ha, hn2.trans hn, hd2⟩
          · exact .inr ⟨p, u, hu, hb ▸ FailedAt.trans hfed hfail, (hm.seqOpen hfail.rest_ne).symm.trans hopen⟩
      · right
        exact ⟨p, u, by rw [hstep, hraise, Res.bind_raise], hfail, hopen⟩

/-- All `Drain()` can do. -/
theorem drain_spec {s : State} {bs : List Byte} {rest : List (Option Byte)} (hs : s.src.answers = bs.map some ++ rest)
    (hr : EndsOrFails rest) :
    (∃ t n, drain s = .ok () t ∧ Moved s t bs rest n ∧ t.dec.acc = s.dec.acc ∧ t.dec.nb = s.dec.nb ∧
      subBlocksDone t.dec = true) ∨
    (∃ p u, drain s = .raise (.ioError .readFailure) p u ∧ FailedAt s u p bs rest ∧ sequenceOpen s = true) :=
  drainLoop_spec _ hs hr (by have := dataLeft_length s; omega)

/-! ## `NextCode()` -/

theorem Moved.withBits {s t : State} {bs : List Byte} {rest : List (Option Byte)} {n : Nat} (h : Moved s t bs rest n)
    (a m : Nat) : Moved s { t with dec := { t.dec with acc := a, nb := m } } bs rest n := by
  obtain ⟨⟨used, bs', hb, hf⟩, hd, hbe, hso, hsb⟩ := h
  refine ⟨⟨used, bs', hb, ?_⟩, hd, hbe, hso, hsb⟩
  unfold Fed at *
  conv_lhs => rw [hf]

theorem Moved.w {s t : State} {bs : List Byte} {rest : List (Option Byte)} {n : Nat} (h : Moved s t bs rest n) :
    t.dec.w = s.dec.w := by
  obtain ⟨used, bs', -, hf⟩ := h.used
  rw [hf]

theorem bitsLeft_length (s : State) : (bitsLeft s).length = s.dec.nb + 8 * (dataLeft s).length := by simp [bitsLeft]

/-- All `while NB < W` of `NextCode()` can do. -/
theorem fillBits_spec (fuel : Nat) : ∀ {s : State} {bs : List Byte} {rest : List (Option Byte)},
    s.src.answers = bs.map some ++ rest → EndsOrFails rest → s.dec.acc < 2 ^ s.dec.nb → s.dec.w ≤ s.dec.nb + 8 * fuel →
    (∃ t n, fillBits fuel s = .ok (decide (s.dec.w ≤ (bitsLeft s).length)) t ∧ Moved s t bs rest n ∧
      bitsLeft t = bitsLeft s ∧ t.dec.acc < 2 ^ t.dec.nb ∧
      (s.dec.w ≤ (bitsLeft s).length → s.dec.w ≤ t.dec.nb ∧ (t.dec.nb = s.dec.nb ∨ t.dec.nb ≤ s.dec.w + 7)) ∧
      ((bitsLeft s).length < s.dec.w → subBlocksDone t.dec = true ∧ t.dec.nb < s.dec.w)) ∨
    (∃ p u, fillBits fuel s = .raise (.ioError .readFailure) p u ∧ FailedAt s u p bs rest ∧
      (bitsLeft s).length < s.dec.w ∧ sequenceOpen s = true) := by
  induction fuel with
  | zero =>
    intro s bs rest hs hr ha hw
    left
    have h1 : s.dec.w ≤ s.dec.nb := by omega
    have h2 : s.dec.w ≤ (bitsLeft s).length := by rw [bitsLeft_length]; omega
    exact ⟨s, 0, by simp [fillBits, h1, h2], Moved.refl hs, rfl, ha, fun _ => ⟨h1, .inl rfl⟩, fun h => by omega⟩
  | succ fuel ih =>
    intro s bs rest hs hr ha hw
    by_cases h1 : s.dec.w ≤ s.dec.nb
    · left
      have h2 : s.dec.w ≤ (bitsLeft s).length := by rw [bitsLeft_length]; omega
      exact ⟨s, 0, by simp [fillBits, h1, h2], Moved.refl hs, rfl, ha, fun _ => ⟨h1, .inl rfl⟩, fun h => by omega⟩
    · have hstep : fillBits (fuel + 1) s = (dataByte s).bind fun b t =>
          match b with
          | none => .ok false t
          | some b => fillBits fuel { t with dec := pushByte b t.dec } := if_neg h1
      rcases dataByte_spec hs hr with ⟨t, ht, hm, hta, htn, hdone⟩ | ⟨p, u, hraise, hfail, hdl, hopen⟩
      · obtain ⟨used, bs', hb, hfed⟩ := hm.used
        cases hdl : dataLeft s with
        | nil =>
          left
          have hlen : (bitsLeft s).length < s.dec.w := by rw [bitsLeft_length, hdl]; simp; omega
          refine ⟨t, 1, ?_, hm, ?_, by rw [hta, htn]; exact ha, fun h => by omega, fun _ => ⟨hdone hdl, by omega⟩⟩
          · rw [hstep, ht, hdl, Res.bind_ok]
            simp only [List.head?_nil]
            rw [decide_eq_false (by omega)]
          · simp [bitsLeft, hta, htn, hm.data, hdl]
        | cons b l =>
          set t' : State := { t with dec := pushByte b t.dec } with ht'
          have hm' : Moved s t' bs rest 1 := hm.withBits _ _
          obtain ⟨used', bs2, hb2, hfed2⟩ := hm'.used
          have hdt : dataLeft t' = l := by rw [hm'.data, hdl]; rfl
          have hbits : bitsLeft t' = bitsLeft s := by
            unfold bitsLeft
            rw [hdt, hdl, bitsOfBytes_cons, ← List.append_assoc]
            congr 1
            show toBits (t.dec.nb + 8) (t.dec.acc + b.toNat * 2 ^ t.dec.nb) = _
            rw [hta, htn, toBits_append _ _ _ _ ha]
          have hacc : t'.dec.acc < 2 ^ t'.dec.nb := by
            show t.dec.acc + b.toNat * 2 ^ t.dec.nb < 2 ^ (t.dec.nb + 8)
            rw [hta, htn, Nat.pow_add]
            have hbt : b.toNat + 1 ≤ 2 ^ 8 := b.isLt
            calc s.dec.acc + b.toNat * 2 ^ s.dec.nb < 2 ^ s.dec.nb + b.toNat * 2 ^ s.dec.nb := by omega
              _ = 2 ^ s.dec.nb * (b.toNat + 1) := by ring
              _ ≤ 2 ^ s.dec.nb * 2 ^ 8 := Nat.mul_le_mul_left _ hbt
          have hw' : t'.dec.w ≤ t'.dec.nb + 8 * fuel := by
            rw [hm'.w]
            show s.dec.w ≤ t.dec.nb + 8 + 8 * fuel
            omega
          have hnb' : t'.dec.nb = s.dec.nb + 8 := by show t.dec.nb + 8 = _; omega
          rw [hstep, ht, hdl, Res.bind_ok]
          simp only [List.head?_cons]
          rcases ih hfed2.answers hr hacc hw' with ⟨u, n, hu, hm2, hbu, hau, hfull, hshort⟩ | ⟨p, u, hu, hfail, hsh, hopen⟩
          · left
            rw [hbits, hm'.w] at hu hfull hshort
            refine ⟨u, 1 + n, hu, hm'.trans hb2 hfed2 hm2, hbu.trans hbits, hau, fun h => ?_, hshort⟩
            obtain ⟨x1, x2⟩ := hfull h
            exact ⟨x1, .inr (by omega)⟩
          · right
            rw [hbits, hm'.w] at hsh
            exact ⟨p, u, hu, hb2 ▸ FailedAt.trans hfed2 hfail, hsh, (hm'.seqOpen hfail.rest_ne).symm.trans hopen⟩
      · right
        refine ⟨p, u, by rw [hstep, hraise, Res.bind_raise], hfail, ?_, hopen⟩
        rw [bitsLeft_length, hdl]; simp; omega

/-- All `NextCode()` can do: it gives the first W bits of the bit stream and leaves the rest, or `NoCode` where fewer are left,
or raises at the failing access. -/
theorem nextCode_spec {s : State} {bs : List Byte} {rest : List (Option Byte)} (hs : s.src.answers = bs.map some ++ rest)
    (hr : EndsOrFails rest) (ha : s.dec.acc < 2 ^ s.dec.nb) :
    (s.dec.w ≤ (bitsLeft s).length ∧ ∃ t n, nextCode s = .ok (some (ofBits ((bitsLeft s).take s.dec.w))) t ∧
      Moved s t bs rest n ∧ bitsLeft t = (bitsLeft s).drop s.dec.w ∧ t.dec.acc < 2 ^ t.dec.nb ∧
      (s.dec.nb ≤ s.dec.w + 7 → t.dec.nb ≤ 7)) ∨
    ((bitsLeft s).length < s.dec.w ∧ ∃ t n, nextCode s = .ok none t ∧ Moved s t bs rest n ∧ bitsLeft t = bitsLeft s ∧
      t.dec.acc < 2 ^ t.dec.nb ∧ t.dec.nb < s.dec.w ∧ subBlocksDone t.dec = true) ∨
    ((bitsLeft s).length < s.dec.w ∧ sequenceOpen s = true ∧
      ∃ p u, nextCode s = .raise (.ioError .readFailure) p u ∧ FailedAt s u p bs rest) := by
  rcases fillBits_spec s.dec.w hs hr ha (by omega) with ⟨t, n, ht, hm, hb, hacc, hfull, hshort⟩ | ⟨p, u, hu, hfail, hsh, hopen⟩
  · by_cases hw : s.dec.w ≤ (bitsLeft s).length
    · left
      obtain ⟨h1, h2⟩ := hfull hw
      have hsplit : bitsLeft t = toBits s.dec.w (t.dec.acc % 2 ^ s.dec.w) ++
          (toBits (t.dec.nb - s.dec.w) (t.dec.acc / 2 ^ s.dec.w) ++ bitsOfBytes (dataLeft t)) := by
        unfold bitsLeft
        rw [← List.append_assoc, ← toBits_split, Nat.add_sub_cancel' h1]
      refine ⟨hw, { t with dec := (popCode t.dec).2 }, n, ?_, hm.withBits _ _, ?_, ?_, fun h => ?_⟩
      · rw [nextCode, ht, Res.bind_ok, decide_eq_true hw, if_pos rfl]
        congr 2
        show t.dec.acc % 2 ^ t.dec.w = _
        rw [hm.w, ← hb, hsplit, List.take_append_of_le_length (by simp), List.take_of_length_le (by simp), ofBits_toBits,
          Nat.mod_mod]
      · rw [← hb, hsplit, List.drop_append_of_le_length (by simp), List.drop_of_length_le (by simp), List.nil_append]
        show toBits (t.dec.nb - t.dec.w) (t.dec.acc / 2 ^ t.dec.w) ++ bitsOfBytes (dataLeft t) = _
        rw [hm.w]
      · show t.dec.acc / 2 ^ t.dec.w < 2 ^ (t.dec.nb - t.dec.w)
        rw [hm.w, Nat.div_lt_iff_lt_mul (by positivity), ← Nat.pow_add, Nat.sub_add_cancel h1]
        exact hacc
      · show t.dec.nb - t.dec.w ≤ 7
        rw [hm.w]
        omega
    · right; left
      obtain ⟨h1, h2⟩ := hshort (by omega)
      refine ⟨by omega, t, n, ?_, hm, hb, hacc, h2, h1⟩
      rw [nextCode, ht, Res.bind_ok, decide_eq_false hw]
      rfl
  · right; right
    exact ⟨hsh, hopen, p, u, by rw [nextCode, hu, Res.bind_raise], hfail⟩

/-! ## Whatever the bit buffer holds

The same operations from a state whose bit buffer is not known to be in range: where they leave SRC. -/

theorem pushByte_acc {d : Decoder} (b : Byte) (h : d.acc < 2 ^ d.nb) : (pushByte b d).acc < 2 ^ (pushByte b d).nb := by
  show d.acc + b.toNat * 2 ^ d.nb < 2 ^ (d.nb + 8)
  rw [Nat.pow_add]
  have hbt : b.toNat + 1 ≤ 2 ^ 8 := b.isLt
  calc d.acc + b.toNat * 2 ^ d.nb < 2 ^ d.nb + b.toNat * 2 ^ d.nb := by omega
    _ = 2 ^ d.nb * (b.toNat + 1) := by ring
    _ ≤ 2 ^ d.nb * 2 ^ 8 := Nat.mul_le_mul_left _ hbt

theorem fillBits_frame (fuel : Nat) : ∀ {s : State} {bs : List Byte} {rest : List (Option Byte)},
    s.src.answers = bs.map some ++ rest → EndsOrFails rest → s.dec.w ≤ s.dec.nb + 8 * fuel →
    (∃ full t n, fillBits fuel s = .ok full t ∧ Moved s t bs rest n ∧ (s.dec.acc < 2 ^ s.dec.nb → t.dec.acc < 2 ^ t.dec.nb) ∧
      (full = true → s.dec.w ≤ t.dec.nb ∧ (t.dec.nb = s.dec.nb ∨ t.dec.nb ≤ s.dec.w + 7))) ∨
    (∃ p u, fillBits fuel s = .raise (.ioError .readFailure) p u ∧ FailedAt s u p bs rest) := by
  induction fuel with
  | zero =>
    intro s bs rest hs hr hw
    exact .inl ⟨true, s, 0, by simp [fillBits]; omega, Moved.refl hs, id, fun _ => ⟨by omega, .inl rfl⟩⟩
  | succ fuel ih =>
    intro s bs rest hs hr hw
    by_cases h1 : s.dec.w ≤ s.dec.nb
    · exact .inl ⟨true, s, 0, by simp [fillBits, h1], Moved.refl hs, id, fun _ => ⟨h1, .inl rfl⟩⟩
    · have hstep : fillBits (fuel + 1) s = (dataByte s).bind fun b t =>
          match b with
          | none => .ok false t
          | some b => fillBits fuel { t with dec := pushByte b t.dec } := if_neg h1
      rcases dataByte_spec hs hr with ⟨t, ht, hm, hta, htn, -⟩ | ⟨p, u, hraise, hfail, -⟩
      · rw [hstep, ht, Res.bind_ok]
        cases hdl : (dataLeft s).head? with
        | none => exact .inl ⟨false, t, 1, rfl, hm, by rw [hta, htn]; exact id, by simp⟩
        | some b =>
          have hm' : Moved s { t with dec := pushByte b t.dec } bs rest 1 := hm.withBits _ _
          obtain ⟨used, bs', hb, hfed⟩ := hm'.used
          have hnb : (pushByte b t.dec).nb = s.dec.nb + 8 := by show t.dec.nb + 8 = _; omega
          have hwt : (pushByte b t.dec).w = s.dec.w := hm'.w
          have hacc : s.dec.acc < 2 ^ s.dec.nb → (pushByte b t.dec).acc < 2 ^ (pushByte b t.dec).nb :=
            fun h => pushByte_acc b (by rw [hta, htn]; exact h)
          have hle : ({ t with dec := pushByte b t.dec } : State).dec.w ≤
              ({ t with dec := pushByte b t.dec } : State).dec.nb + 8 * fuel := by
            show (pushByte b t.dec).w ≤ (pushByte b t.dec).nb + 8 * fuel
            omega
          rcases ih hfed.answers hr hle with ⟨full, u, n, hu, hm2, ha2, hf2⟩ | ⟨p, u, hu, hfail⟩
          · refine .inl ⟨full, u, 1 + n, hu, hm'.trans hb hfed hm2, fun h => ha2 (hacc h), fun h => ?_⟩
            obtain ⟨x1, x2⟩ := hf2 h
            change (pushByte b t.dec).w ≤ _ at x1
            change _ = (pushByte b t.dec).nb ∨ _ ≤ (pushByte b t.dec).w + 7 at x2
            rw [hwt] at x1 x2
            exact ⟨x1, .inr (by omega)⟩
          · exact .inr ⟨p, u, hu, hb ▸ FailedAt.trans hfed hfail⟩
      · exact .inr ⟨p, u, by rw [hstep, hraise, Res.bind_raise], hfail⟩

/-- Where `NextCode()` leaves SRC, whatever the bit buffer held; a code fits the width. -/
theorem nextCode_frame {s : State} {bs : List Byte} {rest : List (Option Byte)} (hs : s.src.answers = bs.map some ++ rest)
    (hr : EndsOrFails rest) :
    (∃ c t n, nextCode s = .ok c t ∧ Moved s t bs rest n ∧
      ∀ v, c = some v → v < 2 ^ s.dec.w ∧ (bitBufferOk s.dec → bitBufferOk t.dec)) ∨
    (∃ p u, nextCode s = .raise (.ioError .readFailure) p u ∧ FailedAt s u p bs rest) := by
  rcases fillBits_frame s.dec.w hs hr (by omega) with ⟨full, t, n, ht, hm, hacc, hf⟩ | ⟨p, u, hu, hfail⟩
  · left
    rw [nextCode, ht, Res.bind_ok]
    cases full with
    | false => exact ⟨none, t, n, rfl, hm, by simp⟩
    | true =>
      obtain ⟨h1, h2⟩ := hf rfl
      refine ⟨_, _, n, rfl, hm.withBits _ _, fun v hv => ?_⟩
      simp only [Option.some.injEq] at hv
      subst hv
      refine ⟨?_, fun hb => ⟨?_, ?_⟩⟩
      · show t.dec.acc % 2 ^ t.dec.w < _
        rw [hm.w]; exact Nat.mod_lt _ (by positivity)
      · show t.dec.nb - t.dec.w ≤ 7
        rw [hm.w]
        have := hb.1
        omega
      · show t.dec.acc / 2 ^ t.dec.w < 2 ^ (t.dec.nb - t.dec.w)
        rw [hm.w, Nat.div_lt_iff_lt_mul (by positivity), ← Nat.pow_add, Nat.sub_add_cancel h1]
        exact hacc hb.2
  · exact .inr ⟨p, u, by rw [nextCode, hu, Res.bind_raise], hfail⟩

end Sys2Proof.Machine
end

