-- ==== Sys2Proof/Laws/Maps.lean ====
section
/-! SUPPORT. The laws of the sparse maps, of DICT and of ETAB: a read after a write, the canonical form, and the contents of the
start states. -/

namespace Sys2Proof.Machine

variable {α : Type}

/-! ## Reading after writing -/

theorem mapGet_mapSet (m : SMap α) (k j : Nat) (v : α) :
    mapGet (mapSet m k v) j = if j = k then some v else mapGet m j := by
  induction m with
  | nil => simp [mapSet, mapGet]
  | cons e t ih =>
    obtain ⟨k', v'⟩ := e
    simp only [mapSet]
    split
    · simp [mapGet]
    · split
      · subst_vars; simp [mapGet]; split <;> simp_all
      · simp only [mapGet, ih]
        by_cases h : j = k' <;> by_cases h' : j = k <;> simp_all

theorem mapGet_filter (m : SMap α) (q : Nat → Bool) (j : Nat) :
    mapGet (m.filter fun e => q e.1) j = if q j then mapGet m j else none := by
  induction m with
  | nil => simp [mapGet]
  | cons e t ih =>
    obtain ⟨k', v'⟩ := e
    by_cases h : q k' = true
    · rw [List.filter_cons_of_pos (by simpa using h)]
      simp only [mapGet, ih]
      by_cases hj : j = k' <;> simp_all
    · rw [List.filter_cons_of_neg (by simpa using h), ih]
      simp only [mapGet]
      by_cases hj : j = k' <;> simp_all

theorem dictRead_dictWrite (d : Dict) (i j : Nat) (s : List Byte) :
    dictRead (dictWrite d i s) j = if j = i then s else dictRead d j := by
  unfold dictWrite
  split
  · subst_vars
    simp only [dictRead, mapErase, mapGet_filter d (fun x => x != i)]
    by_cases h : j = i <;> simp [h]
  · simp only [dictRead, mapGet_mapSet]
    by_cases h : j = i <;> simp [h]

theorem dictRead_dictClearFrom (d : Dict) (lo j : Nat) :
    dictRead (dictClearFrom d lo) j = if lo ≤ j ∧ j < 4096 then [] else dictRead d j := by
  have h := mapGet_filter d (fun x => !(decide (lo ≤ x) && decide (x < Config.dictSize))) j
  simp only [dictRead, dictClearFrom]
  rw [h]
  by_cases hj : lo ≤ j ∧ j < 4096
  · simp [hj, Config.dictSize]
  · rw [if_neg hj, if_pos]
    have h' : ¬ lo ≤ j ∨ ¬ j < 4096 := by omega
    rcases h' with h' | h' <;> simp [h', Config.dictSize]

theorem mapGet_dictInit (n i lo : Nat) :
    mapGet ((List.range' lo n).map fun i => (i, [BitVec.ofNat 8 i])) i =
      if lo ≤ i ∧ i < lo + n then some [BitVec.ofNat 8 i] else none := by
  induction n generalizing lo with
  | zero => simp [mapGet]
  | succ n ih =>
    simp only [List.range'_succ, List.map_cons, mapGet, ih]
    by_cases h : i = lo
    · subst h; simp
    · simp only [h, if_false]
      by_cases h2 : lo ≤ i ∧ i < lo + (n + 1)
      · rw [if_pos h2, if_pos (by omega)]
      · rw [if_neg h2, if_neg (by omega)]

theorem dictRead_dictInit (clr i : Nat) :
    dictRead (dictInit clr) i = if i < clr then [BitVec.ofNat 8 i] else [] := by
  have := mapGet_dictInit clr i 0
  rw [← List.range_eq_range'] at this
  simp only [dictRead, dictInit, this]
  by_cases h : i < clr <;> simp [h]

theorem tabKey_inj {c c' : Nat} {p p' : Byte} (h : tabKey c p = tabKey c' p') : c = c' ∧ p = p' := by
  have h1 := p.isLt
  have h2 := p'.isLt
  unfold tabKey at h
  refine ⟨by omega, BitVec.eq_of_toNat_eq (by omega)⟩

theorem tabRead_tabWrite (t : ETab) (c c' : Nat) (p p' : Byte) (v : Nat) :
    tabRead (tabWrite t c p v) c' p' = if c' = c ∧ p' = p then some v else tabRead t c' p' := by
  simp only [tabRead, tabWrite, mapGet_mapSet]
  by_cases h : c' = c ∧ p' = p
  · simp [h]
  · have : tabKey c' p' ≠ tabKey c p := fun e => h (tabKey_inj e)
    simp [h, this]

@[simp] theorem tabRead_nil (c : Nat) (p : Byte) : tabRead [] c p = none := rfl

/-! ## The canonical form -/

theorem mem_mapSet {m : SMap α} {k : Nat} {v : α} {e : Nat × α} (h : e ∈ mapSet m k v) : e = (k, v) ∨ e ∈ m := by
  induction m with
  | nil => simpa [mapSet] using h
  | cons a t ih =>
    simp only [mapSet] at h
    split at h
    · simpa using h
    · split at h
      · simp only [List.mem_cons] at h ⊢; tauto
      · simp only [List.mem_cons] at h ⊢
        rcases h with h | h
        · exact .inr (.inl h)
        · rcases ih h with h | h
          · exact .inl h
          · exact .inr (.inr h)

theorem mapWf_iff (m : SMap α) : mapWf m = true ↔ m.Pairwise fun a b => a.1 < b.1 := by simp [mapWf]

theorem mapWf_mapSet {m : SMap α} (h : mapWf m = true) (k : Nat) (v : α) : mapWf (mapSet m k v) = true := by
  rw [mapWf_iff] at *
  induction m with
  | nil => simp [mapSet]
  | cons a t ih =>
    rw [List.pairwise_cons] at h
    obtain ⟨k', v'⟩ := a
    simp only [mapSet]
    split
    · rename_i hk
      refine List.pairwise_cons.2 ⟨fun b hb => ?_, List.pairwise_cons.2 h⟩
      rcases List.mem_cons.1 hb with rfl | hb
      · exact hk
      · exact lt_trans hk (h.1 b hb)
    · split
      · subst_vars; exact List.pairwise_cons.2 h
      · refine List.pairwise_cons.2 ⟨fun b hb => ?_, ih h.2⟩
        rcases mem_mapSet hb with rfl | hb
        · show k' < k; omega
        · exact h.1 b hb

theorem mapWf_filter {m : SMap α} (h : mapWf m = true) (q : Nat × α → Bool) : mapWf (m.filter q) = true := by
  rw [mapWf_iff] at *; exact h.filter q

theorem mapWf_mapOf (l : List (Nat × α)) : mapWf (mapOf l) = true := by
  unfold mapOf
  suffices ∀ m : SMap α, mapWf m = true → mapWf (l.foldl (fun m e => mapSet m e.1 e.2) m) = true from
    this [] (by simp [mapWf])
  induction l with
  | nil => exact fun m h => h
  | cons a t ih => exact fun m h => ih _ (mapWf_mapSet h _ _)

theorem dictWf_iff (d : Dict) : dictWf d = true ↔ mapWf d = true ∧ ∀ e, e ∈ d → e.2 ≠ [] := by
  simp [dictWf]

theorem dictWf_filter {d : Dict} (h : dictWf d = true) (q : Nat × List Byte → Bool) : dictWf (d.filter q) = true := by
  rw [dictWf_iff] at *
  exact ⟨mapWf_filter h.1 q, fun e he => h.2 e (List.mem_of_mem_filter he)⟩

theorem dictWf_dictWrite {d : Dict} (h : dictWf d = true) (i : Nat) (s : List Byte) : dictWf (dictWrite d i s) = true := by
  unfold dictWrite
  split
  · exact dictWf_filter h _
  · rw [dictWf_iff] at *
    refine ⟨mapWf_mapSet h.1 _ _, fun e he => ?_⟩
    rcases mem_mapSet he with rfl | he
    · assumption
    · exact h.2 e he

theorem dictWf_dictClearFrom {d : Dict} (h : dictWf d = true) (lo : Nat) : dictWf (dictClearFrom d lo) = true :=
  dictWf_filter h _

theorem dictWf_dictInit (clr : Nat) : dictWf (dictInit clr) = true := by
  rw [dictWf_iff, mapWf_iff]
  constructor
  · simp only [dictInit, List.pairwise_map]
    exact List.pairwise_lt_range
  · intro e he
    simp only [dictInit, List.mem_map] at he
    obtain ⟨i, -, rfl⟩ := he
    simp

theorem dictWf_freeDecoder (n : Nat) : dictWf (freeDecoder n).dict = true := by
  rw [dictWf_iff]
  exact ⟨mapWf_filter (mapWf_mapOf _) _, fun e he => by simpa using (List.mem_filter.1 he).2⟩

theorem mapWf_freeEncoder (n : Nat) : mapWf (freeEncoder n).tab = true := mapWf_mapOf _

theorem memoryWf_iff (s : State) : Memory.wf s = true ↔ dictWf s.dec.dict = true ∧ mapWf s.enc.tab = true := by
  simp [Memory.wf]

/-- Two equal memories are equal data: two canonical maps that read alike are the same list. -/
theorem map_ext {m n : SMap α} (hm : mapWf m = true) (hn : mapWf n = true) (h : ∀ k, mapGet m k = mapGet n k) : m = n := by
  rw [mapWf_iff] at hm hn
  have low : ∀ (l : SMap α) (k : Nat), (∀ e, e ∈ l → k < e.1) → mapGet l k = none := by
    intro l k hl
    induction l with
    | nil => rfl
    | cons a t ih =>
      have := hl a (by simp)
      simp only [mapGet]
      rw [if_neg (by omega)]
      exact ih fun e he => hl e (by simp [he])
  induction m generalizing n with
  | nil =>
    cases n with
    | nil => rfl
    | cons b t => have := h b.1; simp [mapGet] at this
  | cons a s ih =>
    cases n with
    | nil => have := h a.1; simp [mapGet] at this
    | cons b t =>
      rw [List.pairwise_cons] at hm hn
      have hab : a.1 = b.1 := by
        rcases lt_trichotomy a.1 b.1 with hlt | heq | hgt
        · have h1 := h a.1
          rw [low (b :: t) a.1 (fun e he => by
            rcases List.mem_cons.1 he with rfl | he
            · exact hlt
            · exact lt_trans hlt (hn.1 e he))] at h1
          simp [mapGet] at h1
        · exact heq
        · have h1 := h b.1
          rw [low (a :: s) b.1 (fun e he => by
            rcases List.mem_cons.1 he with rfl | he
            · exact hgt
            · exact lt_trans hgt (hm.1 e he))] at h1
          simp [mapGet] at h1
      have hv : a.2 = b.2 := by
        have h1 := h a.1
        simp only [mapGet, hab, if_true, Option.some.injEq] at h1
        exact h1
      have : a = b := Prod.ext hab hv
      subst this
      congr 1
      refine ih hm.2 hn.2 fun k => ?_
      by_cases hk : k = a.1
      · subst hk
        rw [low s a.1 hm.1, low t a.1 hn.1]
      · have h1 := h k
        simp only [mapGet] at h1
        rwa [if_neg hk, if_neg hk] at h1

end Sys2Proof.Machine
end

