-- ==== Sys2Proof/Laws/Decoder.lean ====
section
/-! SUPPORT. The decoder's object: what a registration writes, and that START, CLEAR and a resolved code keep its invariant
(41_lzw_decoder.md R188). -/

namespace Sys2Proof.Machine

/-! ## Registration -/

theorem widen_eq (d : Decoder) : widen d = { d with w := (widen d).w } := by unfold widen; split <;> rfl

theorem widen_w (d : Decoder) : (widen d).w = if d.next = 2 ^ d.w ∧ d.w < 12 then d.w + 1 else d.w := by
  unfold widen Config.maxW; split <;> rfl

theorem register_none {d : Decoder} (seq : List Byte) (h : d.prev = none) : register seq d = d := by simp [register, h]

theorem register_full {d : Decoder} (seq : List Byte) (h : d.next = 4096) : register seq d = d := by
  unfold register
  split
  · rfl
  · rw [if_neg (by simp [h, Config.dictSize])]

theorem register_some {d : Decoder} (seq : List Byte) {p : Nat} (hp : d.prev = some p) (hn : d.next < 4096) :
    register seq d = { d with
      dict := dictWrite d.dict d.next (dictRead d.dict p ++ seq.take 1)
      next := d.next + 1
      w := if d.next + 1 = 2 ^ d.w ∧ d.w < 12 then d.w + 1 else d.w } := by
  unfold register
  split
  · simp_all
  · rename_i q hq
    rw [hp] at hq
    cases hq
    rw [if_pos (show d.next < Config.dictSize from hn), widen_eq, widen_w]

theorem register_wf {d : Decoder} (seq : List Byte) (h : dictWf d.dict = true) : dictWf (register seq d).dict = true := by
  unfold register
  split
  · exact h
  · split
    · rw [widen_eq]; exact dictWf_dictWrite h _ _
    · exact h

/-- What REGISTER keeps whatever it does. -/
theorem register_fields (seq : List Byte) (d : Decoder) :
    (register seq d).k = d.k ∧ (register seq d).clr = d.clr ∧ (register seq d).endc = d.endc ∧ (register seq d).prev = d.prev ∧
      (register seq d).acc = d.acc ∧ (register seq d).nb = d.nb ∧ (register seq d).sbrem = d.sbrem ∧
      (register seq d).sbterm = d.sbterm ∧ (register seq d).sbeos = d.sbeos := by
  unfold register
  split
  · simp
  · split
    · rw [widen_eq]; simp
    · simp

/-! ## The start -/

theorem pow_mul_two (n : Nat) : 2 ^ (n + 1) = 2 * 2 ^ n := by rw [Nat.pow_succ]; ring

theorem clr_bounds {k : Nat} (h2 : 2 ≤ k) (h8 : k ≤ 8) : 4 ≤ 2 ^ k ∧ 2 ^ k ≤ 256 := by
  have h1 : 2 ^ 2 ≤ 2 ^ k := Nat.pow_le_pow_right (by norm_num) h2
  have h3 : 2 ^ k ≤ 2 ^ 8 := Nat.pow_le_pow_right (by norm_num) h8
  omega

theorem decoderInv_start {k : Nat} (h2 : 2 ≤ k) (h8 : k ≤ 8) : DecoderInv (startDecoder k) := by
  obtain ⟨c1, c2⟩ := clr_bounds h2 h8
  have hp := pow_mul_two k
  refine ⟨⟨h2, h8⟩, rfl, rfl, ?_, ?_, ?_, ?_, .inl rfl, ?_, ?_, ?_, ?_, fun _ => rfl, Nat.zero_le _⟩ <;>
    simp only [startDecoder]
  · omega
  · omega
  · omega
  · omega
  · intro i hi; rw [dictRead_dictInit, if_pos hi]
  · intro i; rw [dictRead_dictInit]; split <;> simp <;> omega
  · intro i b hb
    rw [dictRead_dictInit] at hb
    split at hb
    · rename_i hi
      simp only [List.mem_singleton] at hb
      subst hb
      simp; omega
    · simp at hb
  · simp

theorem decoderInv_clear {d : Decoder} (h : DecoderInv d) : DecoderInv (clearDecoder d) := by
  obtain ⟨c1, c2⟩ := clr_bounds h.kRange.1 h.kRange.2
  have hc := h.clrIs
  have hp := pow_mul_two d.k
  have hrd : ∀ j, dictRead (clearDecoder d).dict j = if j < d.clr then dictRead d.dict j else [] := by
    intro j
    show dictRead (dictClearFrom d.dict (d.clr + 2)) j = _
    rw [dictRead_dictClearFrom]
    have hf := h.filled j
    have hn := h.nextRange
    by_cases h1 : j < d.clr
    · rw [if_pos h1, if_neg (by omega)]
    · rw [if_neg h1]
      split
      · rfl
      · by_contra hne
        have := hf.1 hne
        omega
  constructor
  · exact h.kRange
  · exact h.clrIs
  · exact h.endIs
  · show d.clr + 2 ≤ d.clr + 2 ∧ d.clr + 2 ≤ 4096; omega
  · have := h.kRange; show d.k + 1 ≤ d.k + 1 ∧ d.k + 1 ≤ 12; omega
  · show d.clr + 2 ≤ 2 ^ (d.k + 1); omega
  · show d.clr + 2 = 2 ^ (d.k + 1) → _; omega
  · exact .inl rfl
  · intro i hi
    have hi' : i < d.clr := hi
    rw [hrd, if_pos hi']; exact h.literals i hi'
  · intro i
    show _ ↔ (i < d.clr ∨ (d.clr + 2 ≤ i ∧ i < d.clr + 2))
    rw [hrd]
    have hf := h.filled i
    split
    · rw [hf]; omega
    · simp; omega
  · intro i b hb
    rw [hrd] at hb
    split at hb
    · exact h.alphabet i b hb
    · simp at hb
  · intro p hp'; exact absurd hp' (by simp [clearDecoder])
  · intro _; rfl
  · exact h.sbremRange

/-! ## A resolved code -/

/-- APPEND's other half: registering a resolved sequence and making its code the previous one keeps the invariant. -/
theorem decoderInv_register {d : Decoder} (h : DecoderInv d) {c : Nat} {seq : List Byte} (_hs : seq ≠ [])
    (hb : ∀ b, b ∈ seq → b.toNat < d.clr) (hc : c ≠ d.clr ∧ c ≠ d.endc)
    (hn : c < d.next ∨ (c = d.next ∧ d.next < 4096 ∧ d.prev ≠ none)) : DecoderInv (setPrev c (register seq d)) := by
  obtain ⟨c1, c2⟩ := clr_bounds h.kRange.1 h.kRange.2
  have hcl := h.clrIs
  have hen := h.endIs
  have hnr := h.nextRange
  cases hp : d.prev with
  | none =>
    have hc' : c < d.next := by
      rcases hn with hn | ⟨-, -, hn⟩
      · exact hn
      · exact absurd hp hn
    rw [register_none seq hp]
    exact ⟨h.kRange, h.clrIs, h.endIs, h.nextRange, h.wRange, h.nextFits, h.nextFull, h.wTight, h.literals, h.filled,
      h.alphabet,
      fun p hp' => by simp only [setPrev, Option.some.injEq] at hp'; subst hp'; exact ⟨hc', hc⟩,
      fun hp' => by simp [setPrev] at hp', h.sbremRange⟩
  | some p =>
    by_cases hfull : d.next = 4096
    · have hc' : c < d.next := by omega
      rw [register_full seq hfull]
      exact ⟨h.kRange, h.clrIs, h.endIs, h.nextRange, h.wRange, h.nextFits, h.nextFull, h.wTight, h.literals, h.filled,
        h.alphabet, fun p hp' => by simp only [setPrev, Option.some.injEq] at hp'; subst hp'; exact ⟨hc', hc⟩,
        fun hp' => by simp [setPrev] at hp', h.sbremRange⟩
    · have hlt : d.next < 4096 := by omega
      have hpk := h.prevKnown p hp
      have hpne : dictRead d.dict p ≠ [] := (h.filled p).2 (by omega)
      have hrd : ∀ j, dictRead (dictWrite d.dict d.next (dictRead d.dict p ++ seq.take 1)) j =
          if j = d.next then dictRead d.dict p ++ seq.take 1 else dictRead d.dict j := fun j => dictRead_dictWrite _ _ _ _
      have hw := h.wRange
      have hfit := h.nextFits
      have hpw := pow_mul_two d.w
      rw [register_some seq hp hlt]
      refine ⟨h.kRange, h.clrIs, h.endIs, ?_, ?_, ?_, ?_, ?_, ?_, ?_, ?_, ?_, ?_, h.sbremRange⟩
      · show d.clr + 2 ≤ d.next + 1 ∧ d.next + 1 ≤ 4096; omega
      · show d.k + 1 ≤ ite _ _ _ ∧ ite _ _ _ ≤ 12
        split <;> omega
      · show d.next + 1 ≤ 2 ^ (ite _ _ _)
        split
        · omega
        · rename_i hno
          by_cases hw12 : d.w = 12
          · rw [hw12]; omega
          · have : d.next ≠ 2 ^ d.w := fun e => hw12 (h.nextFull e)
            omega
      · show d.next + 1 = 2 ^ (ite _ _ _) → ite _ _ _ = 12
        split
        · omega
        · rename_i hno
          intro e
          by_contra hne
          exact hno ⟨e, by omega⟩
      · show ite _ _ _ = d.k + 1 ∨ 2 ^ (ite _ _ _ - 1) ≤ d.next + 1
        split
        · rename_i hyes
          right
          rw [Nat.add_sub_cancel]
          omega
        · rcases h.wTight with ht | ht
          · exact .inl ht
          · exact .inr (by omega)
      · intro i hi
        have hi' : i < d.clr := hi
        show dictRead (dictWrite d.dict d.next _) i = _
        rw [hrd, if_neg (by omega)]; exact h.literals i hi'
      · intro i
        show dictRead (dictWrite d.dict d.next _) i ≠ [] ↔ (i < d.clr ∨ (d.clr + 2 ≤ i ∧ i < d.next + 1))
        rw [hrd]
        split
        · simp [hpne]; omega
        · rw [h.filled i]; omega
      · intro i b hb'
        change b ∈ dictRead (dictWrite d.dict d.next _) i at hb'
        rw [hrd] at hb'
        split at hb'
        · rcases List.mem_append.1 hb' with hb' | hb'
          · exact h.alphabet p b hb'
          · exact hb b (List.mem_of_mem_take hb')
        · exact h.alphabet i b hb'
      · intro q hq
        simp only [setPrev, Option.some.injEq] at hq
        subst hq
        refine ⟨?_, hc⟩
        show c < d.next + 1
        omega
      · intro hq; simp [setPrev] at hq

/-- KNOWN. -/
theorem decoderInv_known {d : Decoder} (h : DecoderInv d) {c : Nat} (hc : c < d.next) (h1 : c ≠ d.clr) (h2 : c ≠ d.endc) :
    DecoderInv (setPrev c (register (dictRead d.dict c) d)) :=
  decoderInv_register h ((h.filled c).2 (by have := h.endIs; omega)) (fun b hb => h.alphabet c b hb) ⟨h1, h2⟩ (.inl hc)

/-- NEXTCODE. -/
theorem decoderInv_next {d : Decoder} (h : DecoderInv d) {p : Nat} (hp : d.prev = some p) (hlt : d.next < 4096) :
    DecoderInv (setPrev d.next (register (dictRead d.dict p ++ (dictRead d.dict p).take 1) d)) := by
  have hpk := h.prevKnown p hp
  have hne : dictRead d.dict p ≠ [] := (h.filled p).2 (by have := h.endIs; omega)
  have hn := h.nextRange
  have he := h.endIs
  refine decoderInv_register h (by simp [hne]) (fun b hb => ?_) ⟨by omega, by omega⟩ (.inr ⟨rfl, hlt, by simp [hp]⟩)
  rcases List.mem_append.1 hb with hb | hb
  · exact h.alphabet p b hb
  · exact h.alphabet p b (List.mem_of_mem_take hb)

/-- The classes of a code, one by one (30_encoding.md R121). -/
theorem classify_cases (x : CodeContext) (c : Nat) :
    (c = x.endc ∧ classify x c = .endCode) ∨
    (c ≠ x.endc ∧ c = x.clr ∧ classify x c = .clear) ∨
    (c ≠ x.endc ∧ c ≠ x.clr ∧ c < x.next ∧ classify x c = .known c) ∨
    (c ≠ x.endc ∧ c ≠ x.clr ∧ c = x.next ∧ x.prev ≠ none ∧ classify x c = .nextCode c) ∨
    (c ≠ x.endc ∧ c ≠ x.clr ∧ ¬ c < x.next ∧ ¬ (c = x.next ∧ x.prev ≠ none) ∧ classify x c = .invalid c) := by
  unfold classify
  by_cases h1 : c = x.endc
  · exact .inl ⟨h1, if_pos h1⟩
  · by_cases h2 : c = x.clr
    · exact .inr (.inl ⟨h1, h2, by rw [if_neg h1, if_pos h2]⟩)
    · by_cases h3 : c < x.next
      · exact .inr (.inr (.inl ⟨h1, h2, h3, by rw [if_neg h1, if_neg h2, if_pos h3]⟩))
      · by_cases h4 : c = x.next ∧ x.prev ≠ none
        · exact .inr (.inr (.inr (.inl ⟨h1, h2, h4.1, h4.2, by rw [if_neg h1, if_neg h2, if_neg h3, if_pos h4]⟩)))
        · exact .inr (.inr (.inr (.inr ⟨h1, h2, h3, h4, by rw [if_neg h1, if_neg h2, if_neg h3, if_neg h4]⟩)))

/-- An object that differs only in the bit buffer and the sub-block state. -/
theorem DecoderInv.fed {d d' : Decoder} (h : DecoderInv d)
    (e : d' = { d with acc := d'.acc, nb := d'.nb, sbrem := d'.sbrem, sbterm := d'.sbterm, sbeos := d'.sbeos })
    (hs : d'.sbrem ≤ 255) : DecoderInv d' := by
  rw [e]
  exact ⟨h.kRange, h.clrIs, h.endIs, h.nextRange, h.wRange, h.nextFits, h.nextFull, h.wTight, h.literals, h.filled, h.alphabet,
    h.prevKnown, h.prevNone, hs⟩

end Sys2Proof.Machine
end

