-- ==== Sys2Proof/Laws/Writes.lean ====
section
/-! SUPPORT. Writing to SNK: `Writes r bs` says all a writer can do: where SNK takes as many writes as `bs` has bytes,
  exactly `bs`
is appended; where it does not, the bytes before the failing write are appended and `IOError(WriteFailure)` is raised there. -/

namespace Sys2Proof.Machine

theorem room_none {s : State} (h : s.snk.okWrites = none) (n : Nat) : room s n = true := by simp [room, h]

theorem room_some {s : State} {m : Nat} (h : s.snk.okWrites = some m) (n : Nat) : room s n = true ↔ n ≤ m := by simp [room, h]

theorem room_zero (s : State) : room s 0 = true := by
  unfold room; split <;> simp

theorem room_mono {s : State} {m n : Nat} (hmn : m ≤ n) (h : room s n = true) : room s m = true := by
  unfold room at *
  split <;> simp_all
  omega

theorem not_room_iff {s : State} {n : Nat} : ¬ room s n = true ↔ ∃ m, s.snk.okWrites = some m ∧ m < n := by
  cases h : s.snk.okWrites with
  | none => simp [room_none h]
  | some m => simp [room_some h]

@[simp] theorem wrote_nil (s : State) : wrote [] s = s := by
  simp [wrote]

theorem wrote_wrote (bs cs : List Byte) (s : State) : wrote cs (wrote bs s) = wrote (bs ++ cs) s := by
  simp only [wrote, List.append_assoc, Option.map_map, List.length_append, Nat.add_assoc]
  congr 3
  funext m
  simp [Nat.sub_sub]

theorem room_wrote {s : State} {bs : List Byte} {n : Nat} (hb : room s bs.length = true) :
    room (wrote bs s) n = room s (bs.length + n) := by
  cases h : s.snk.okWrites with
  | none => simp [room, h]
  | some m =>
    rw [room_some h] at hb
    simp only [room, wrote, h, Option.map_some, decide_eq_decide]
    omega

/-- What a failed write of one byte leaves (U6). -/
def failedWrite (b : Byte) (s : State) : State := (snkPut b { s with snk := { s.snk with okWrites := some 0 } }).2

theorem mustPut_room (b : Byte) {s : State} (h : room s 1 = true) : mustPut b s = .ok () (wrote [b] s) := by
  cases hw : s.snk.okWrites with
  | none => simp [mustPut, snkPut, hw, wrote]
  | some m =>
    rw [room_some hw] at h
    obtain ⟨k, rfl⟩ : ∃ k, m = k + 1 := ⟨m - 1, by omega⟩
    simp [mustPut, snkPut, hw, wrote]

theorem mustPut_full (b : Byte) {s : State} (h : s.snk.okWrites = some 0) :
    mustPut b s = .raise (.ioError .writeFailure) s.spos (failedWrite b s) := by
  have : ({ s with snk := { s.snk with okWrites := some 0 } } : State) = s := by
    rw [← h]
  rw [failedWrite, this]
  simp [mustPut, snkPut, h]

/-- The writer writes the bytes, or as many of them as SNK takes; the write of the next one fails. -/
structure Writes (r : State → Res Unit) (bs : List Byte) : Prop where
  full : ∀ s, room s bs.length = true → r s = .ok () (wrote bs s)
  short : ∀ s m, s.snk.okWrites = some m → m < bs.length →
    ∃ b, bs[m]? = some b ∧ r s = .raise (.ioError .writeFailure) (s.spos + m) (failedWrite b (wrote (bs.take m) s))

theorem writes_nil : Writes (fun s => .ok () s) [] where
  full := by intro s _; simp
  short := by intro s m _ h; simp at h

theorem writes_mustPut (b : Byte) : Writes (mustPut b) [b] where
  full := fun _ h => mustPut_room b h
  short := by
    intro s m h hm
    simp only [List.length_singleton, Nat.lt_one_iff] at hm
    subst hm
    exact ⟨b, rfl, by simpa using mustPut_full b h⟩

theorem Writes.bind {r1 r2 : State → Res Unit} {b1 b2 : List Byte} (h1 : Writes r1 b1) (h2 : Writes r2 b2) :
    Writes (fun s => (r1 s).bind fun _ t => r2 t) (b1 ++ b2) where
  full := by
    intro s hs
    have hs1 : room s b1.length = true := room_mono (by simp) hs
    rw [h1.full s hs1, Res.bind_ok, h2.full, wrote_wrote]
    rw [room_wrote hs1]
    simpa using hs
  short := by
    intro s m hm hl
    by_cases h : m < b1.length
    · obtain ⟨b, hb', hb⟩ := h1.short s m hm h
      exact ⟨b, by rw [List.getElem?_append_left h, hb'], by rw [hb, Res.bind_raise, List.take_append_of_le_length (by omega)]⟩
    · have hs1 : room s b1.length = true := (room_some hm _).2 (by omega)
      have hw : (wrote b1 s).snk.okWrites = some (m - b1.length) := by simp [wrote, hm]
      obtain ⟨b, hb', hb⟩ := h2.short (wrote b1 s) (m - b1.length) hw (by simp at hl; omega)
      refine ⟨b, by rw [List.getElem?_append_right (by omega), hb'], ?_⟩
      rw [h1.full s hs1, Res.bind_ok, hb, wrote_wrote]
      have e1 : (wrote b1 s).spos + (m - b1.length) = s.spos + m := by simp [wrote]; omega
      have e2 : b1 ++ b2.take (m - b1.length) = (b1 ++ b2).take m := by
        rw [List.take_append]
        congr 1
        exact (List.take_of_length_le (by omega)).symm
      rw [e1, e2]

theorem writes_putBytes (bs : List Byte) : Writes (putBytes bs) bs := by
  induction bs with
  | nil => exact writes_nil
  | cons b t ih => exact (writes_mustPut b).bind ih

theorem writes_putU16 (v : Half) : Writes (putU16 v) (encodeU16 v) := (writes_mustPut (lo8 v)).bind (writes_mustPut (hi8 v))

theorem writes_putEach {α : Type} {f : α → State → Res Unit} {g : α → List Byte} (h : ∀ a, Writes (f a) (g a)) (l : List α) :
    Writes (putEach f l) (l.flatMap g) := by
  induction l with
  | nil => exact writes_nil
  | cons a t ih => exact (h a).bind ih

theorem writes_putTable (t : List Rgb) : Writes (putTable t) (t.flatMap Rgb.toList) :=
  writes_putEach (g := Rgb.toList) (fun e => writes_putBytes e.toList) t

theorem writes_putOptTable (t : Option (List Rgb)) : Writes (putOptTable t) ((t.getD []).flatMap Rgb.toList) := by
  cases t with
  | none => exact writes_nil
  | some t => exact writes_putTable t

theorem writes_putChunksLoop (fuel : Nat) (l : List Byte) : Writes (putChunksLoop fuel l) (frameChunks fuel l) := by
  induction fuel generalizing l with
  | zero => exact writes_nil
  | succ n ih =>
    have e : putChunksLoop (n + 1) l = fun s => if l.length = 0 then .ok () s else
        (mustPut (BitVec.ofNat 8 (min Config.sbMax l.length)) s).bind fun _ t =>
          (putBytes (l.take Config.sbMax) t).bind fun _ u => putChunksLoop n (l.drop Config.sbMax) u := rfl
    rw [e, frameChunks]
    by_cases h : l.length = 0
    · simp only [if_pos h]; exact writes_nil
    · simp only [if_neg h]
      exact (writes_mustPut _).bind ((writes_putBytes _).bind (ih _))

theorem writes_putChunks (l : List Byte) : Writes (putChunks l) (frameChunks l.length l) := writes_putChunksLoop _ l

theorem writes_putSubBlocks (l : List Byte) : Writes (putSubBlocks l) (frame l) :=
    (writes_putChunks l).bind (writes_mustPut 0x00)

theorem writes_putGce (g : GceRecord) :
    Writes (putGce g) [0x21, 0xF9, 0x04, g.packed, lo8 g.delay, hi8 g.delay, g.transparentIndex, 0x00] := writes_putBytes _

theorem writes_putComment (c : CommentRecord) : Writes (putComment c) ([0x21, 0xFE] ++ frame c.fragments.flatten) :=
  (writes_putBytes _).bind (writes_putSubBlocks _)

theorem writes_putApp (a : AppRecord) :
    Writes (putApp a) ([0x21, 0xFF, 0x0B] ++ (a.identifier.toList ++ (a.authCode.toList ++ frame a.data))) :=
  (writes_putBytes _).bind ((writes_putBytes _).bind ((writes_putBytes _).bind (writes_putSubBlocks _)))

theorem writes_putPte (p : PteRecord) : Writes (putPte p) ([0x0C] ++ (p.fields.toList ++ frameChunks p.text.length p.text)) :=
  (writes_mustPut _).bind ((writes_putBytes _).bind (writes_putChunks _))

theorem writes_putImageHead (m : ImageBlock) :
    Writes (putImageHead m)
      ([0x2C] ++ (encodeU16 m.left ++ (encodeU16 m.top ++ (encodeU16 m.width ++ (encodeU16 m.height ++ ([m.packed] ++
        ((m.lct.getD []).flatMap Rgb.toList ++ [m.minCodeSize]))))))) :=
  (writes_mustPut _).bind ((writes_putU16 _).bind ((writes_putU16 _).bind ((writes_putU16 _).bind ((writes_putU16 _).bind
    ((writes_mustPut _).bind ((writes_putOptTable _).bind (writes_mustPut _)))))))

theorem emitPart_some {here next : SState} {write : Document → State → Res Unit} {s : State} {d : Document}
    (hd : s.doc = some d) :
    emitPart here next write s = (write d { s with sst := here }).toOutcome fun _ t => .next { t with sst := next } := by
  unfold emitPart
  split
  · simp_all
  · rename_i d' h
    rw [hd] at h
    cases h
    rfl

/-- A part writes its bytes and hands over, or faults at the failing write; it is refused where there is no Document. -/
theorem emitPart_room {here next : SState} {write : Document → State → Res Unit} {bytes : Document → List Byte}
    (hw : ∀ d, Writes (write d) (bytes d)) {s : State} {d : Document} (hd : s.doc = some d)
    (hr : room s (bytes d).length = true) :
    emitPart here next write s = .next (wrote (bytes d) { s with sst := next }) := by
  rw [emitPart_some hd, (hw d).full { s with sst := here } hr]
  rfl

theorem emitPart_short {here next : SState} {write : Document → State → Res Unit} {bytes : Document → List Byte}
    (hw : ∀ d, Writes (write d) (bytes d)) {s : State} {d : Document} (hd : s.doc = some d) {m : Nat}
    (hm : s.snk.okWrites = some m) (hl : m < (bytes d).length) :
    ∃ b, (bytes d)[m]? = some b ∧ emitPart here next write s =
      .next (takeFault (.ioError .writeFailure) (s.spos + m) (failedWrite b (wrote ((bytes d).take m) { s with sst :=
        here }))) := by
  obtain ⟨b, hb', hb⟩ := (hw d).short { s with sst := here } m hm hl
  refine ⟨b, hb', ?_⟩
  rw [emitPart_some hd, hb]
  rfl

end Sys2Proof.Machine
end

