-- ==== Sys2Proof/Laws/Emit.lean ====
section
/-! SUPPORT. What the encoder's operations put out. `EWrites r e ws e'` says all an operation on an encoder object `e` can do: it
writes `ws` and leaves `e'`,
  or as much of `ws` as SNK takes and raises. `Pending` ties the object to the bits emitted so far. -/

namespace Sys2Proof.Machine

/-! ## Operations on the encoder's object -/

/-- See the head of the file. -/
structure EWrites (r : State → Res Unit) (e : Encoder) (ws : List Byte) (e' : Encoder) : Prop where
  full : ∀ s, s.enc = e → room s ws.length = true → r s = .ok () (wrote ws { s with enc := e' })
  short : ∀ s m, s.enc = e → s.snk.okWrites = some m → m < ws.length →
    ∃ b e1, ws[m]? = some b ∧ r s = .raise (.ioError .writeFailure) (s.spos + m) (failedWrite b (wrote (ws.take m) { s with enc := e1 }))

theorem ewrites_update (f : Encoder → Encoder) (e : Encoder) :
    EWrites (fun s => .ok () { s with enc := f s.enc }) e [] (f e) where
  full := by intro s h _; subst h; simp
  short := by intro s m _ _ h; simp at h

theorem Writes.toEWrites {r : State → Res Unit} {bs : List Byte} (h : Writes r bs) (e : Encoder) : EWrites r e bs e where
  full := by intro s he hr; subst he; exact h.full s hr
  short := by
    intro s m he hm hl
    subst he
    obtain ⟨b, hb', hb⟩ := h.short s m hm hl
    exact ⟨b, s.enc, hb', hb⟩

theorem EWrites.bind {r1 : State → Res Unit} {r2 : State → Res Unit} {e e1 e2 : Encoder} {w1 w2 : List Byte}
    (h1 : EWrites r1 e w1 e1) (h2 : EWrites r2 e1 w2 e2) :
    EWrites (fun s => (r1 s).bind fun _ t => r2 t) e (w1 ++ w2) e2 where
  full := by
    intro s he hr
    have hr1 : room s w1.length = true := room_mono (by simp) hr
    rw [h1.full s he hr1, Res.bind_ok, h2.full (wrote w1 { s with enc := e1 }) rfl]
    · exact congrArg (Res.ok ()) (wrote_wrote w1 w2 { s with enc := e2 })
    · rw [room_wrote (s := { s with enc := e1 }) hr1, ← List.length_append]
      exact hr
  short := by
    intro s m he hm hl
    by_cases h : m < w1.length
    · obtain ⟨b, e', hb', hb⟩ := h1.short s m he hm h
      exact ⟨b, e', by rw [List.getElem?_append_left h, hb'], by rw [hb, Res.bind_raise, List.take_append_of_le_length (by omega)]⟩
    · have hr1 : room s w1.length = true := (room_some hm _).2 (by omega)
      have hw : (wrote w1 { s with enc := e1 }).snk.okWrites = some (m - w1.length) := by simp [wrote, hm]
      obtain ⟨b, e', hb', hb⟩ := h2.short (wrote w1 { s with enc := e1 }) (m - w1.length) rfl hw (by simp at hl; omega)
      refine ⟨b, e', by rw [List.getElem?_append_right (by omega), hb'], ?_⟩
      rw [h1.full s he hr1, Res.bind_ok, hb]
      have x1 : (wrote w1 { s with enc := e1 }).spos + (m - w1.length) = s.spos + m := by simp [wrote]; omega
      have x2 : w1 ++ w2.take (m - w1.length) = (w1 ++ w2).take m := by
        rw [List.take_append]
        congr 1
        exact (List.take_of_length_le (by omega)).symm
      have x3 : wrote (w2.take (m - w1.length)) { wrote w1 { s with enc := e1 } with enc := e' } =
          wrote ((w1 ++ w2).take m) { s with enc := e' } := by
        rw [← x2]
        exact wrote_wrote w1 _ { s with enc := e' }
      rw [x1, x3]

theorem EWrites.congr {r r' : State → Res Unit} {e e' : Encoder} {ws : List Byte} (h : EWrites r e ws e')
    (hr : ∀ s : State, s.enc = e → r' s = r s) : EWrites r' e ws e' where
  full := fun s he hs => (hr s he).trans (h.full s he hs)
  short := fun s m he hm hl => by rw [hr s he]; exact h.short s m he hm hl

/-- An operation that starts with an update of the object. -/
theorem EWrites.comp {r : State → Res Unit} (f : Encoder → Encoder) {e e' : Encoder} {ws : List Byte}
    (h : EWrites r (f e) ws e') : EWrites (fun s => r { s with enc := f s.enc }) e ws e' where
  full := by intro s he hr; subst he; exact h.full { s with enc := f s.enc } rfl hr
  short := by intro s m he hm hl; subst he; exact h.short { s with enc := f s.enc } m rfl hm hl

/-- As a step: the operation's writes, then a last update; or the fault of the failing write. -/
theorem EWrites.toOutcome {r : State → Res Unit} {e e' : Encoder} {ws : List Byte} (h : EWrites r e ws e') {s : State}
    (he : s.enc = e) (hr : room s ws.length = true) (f : Unit → State → Host.Outcome State Fault Refusal) :
    (r s).toOutcome f = f () (wrote ws { s with enc := e' }) := by
  rw [h.full s he hr, Res.toOutcome_ok]

/-! ## Chunks -/

/-- The bytes of the packed output that wait in EBUF. -/
def waiting (packed : List Byte) : List Byte := packed.drop (255 * (packed.length / 255))

theorem fullChunks_eq (packed : List Byte) : fullChunks packed = chunks (packed.take (255 * (packed.length / 255))) :=
  frameChunks_eq_chunks (by simp)

theorem waiting_length (packed : List Byte) : (waiting packed).length = packed.length % 255 := by
  simp only [waiting, List.length_drop]
  have := Nat.div_add_mod packed.length 255
  omega

theorem waiting_of_lt {packed : List Byte} (h : packed.length < 255) : waiting packed = packed := by
  simp [waiting, Nat.div_eq_of_lt h]

theorem fullChunks_of_lt {packed : List Byte} (h : packed.length < 255) : fullChunks packed = [] := by
  simp [fullChunks_eq, Nat.div_eq_of_lt h]

theorem fullChunks_waiting (packed : List Byte) : packed.take (255 * (packed.length / 255)) ++ waiting packed = packed :=
  List.take_append_drop _ _

theorem chunks_packed (packed : List Byte) : chunks packed = fullChunks packed ++ chunks (waiting packed) := by
  rw [fullChunks_eq, ← chunks_append (packed.length / 255), fullChunks_waiting]
  simp only [List.length_take]
  have := Nat.div_mul_le_self packed.length 255
  omega

/-- One more byte, the chunk not full. -/
theorem packed_append_some {packed : List Byte} (b : Byte) (h : (waiting packed).length + 1 ≠ 255) :
    waiting (packed ++ [b]) = waiting packed ++ [b] ∧ fullChunks (packed ++ [b]) = fullChunks packed := by
  rw [waiting_length] at h
  have hd : (packed.length + 1) / 255 = packed.length / 255 := by omega
  have hle : 255 * (packed.length / 255) ≤ packed.length := by omega
  constructor
  · simp only [waiting, List.length_append, List.length_singleton, hd]
    rw [List.drop_append_of_le_length hle]
  · simp only [fullChunks_eq, List.length_append, List.length_singleton, hd]
    rw [List.take_append_of_le_length hle]

/-- One more byte fills the chunk. -/
theorem packed_append_full {packed : List Byte} (b : Byte) (h : (waiting packed).length + 1 = 255) :
    waiting (packed ++ [b]) = [] ∧
      fullChunks (packed ++ [b]) = fullChunks packed ++ (BitVec.ofNat 8 255 :: (waiting packed ++ [b])) := by
  have h' := h
  rw [waiting_length] at h'
  have hl : 255 * ((packed ++ [b]).length / 255) = (packed ++ [b]).length := by
    simp only [List.length_append, List.length_singleton]; omega
  constructor
  · simp only [waiting, hl]; exact List.drop_length
  · rw [fullChunks_eq, hl, List.take_length]
    have e : packed ++ [b] = packed.take (255 * (packed.length / 255)) ++ (waiting packed ++ [b]) := by
      rw [← List.append_assoc, fullChunks_waiting]
    have hq : (packed.take (255 * (packed.length / 255))).length = 255 * (packed.length / 255) := by
      rw [List.length_take]
      have := Nat.div_mul_le_self packed.length 255
      omega
    conv_lhs => rw [e]
    rw [chunks_append (packed.length / 255) _ _ hq, ← fullChunks_eq, chunks_single (by simp) (by simp; omega)]
    simp [h]

/-! ## The packed output -/

/-- The object has packed `packed` and holds the rest of the bits `bs`. -/
structure Pending (e : Encoder) (packed : List Byte) (bs : List Bool) : Prop where
  buf : e.buf = waiting packed
  bits : bs = bitsOfBytes packed ++ toBits e.nb e.acc
  acc : e.acc < 2 ^ e.nb

theorem emitted_iff (base : List Byte) (bs : List Bool) (s : State) :
    Emitted base bs s ↔ ∃ packed, s.snk.bytes = base ++ fullChunks packed ∧ Pending s.enc packed bs ∧ s.enc.nb ≤ 7 :=
  ⟨fun ⟨p, h1, h2, h3, h4, h5⟩ => ⟨p, h1, ⟨h2, h3, h5⟩, h4⟩, fun ⟨p, h1, ⟨h2, h3, h5⟩, h4⟩ => ⟨p, h1, h2, h3, h4, h5⟩⟩

theorem ewrites_putChunk (e : Encoder) :
    EWrites putChunk e (BitVec.ofNat 8 e.buf.length :: e.buf) { e with buf := [] } := by
  have h := ((writes_mustPut (BitVec.ofNat 8 e.buf.length)).toEWrites e).bind
    (((writes_putBytes e.buf).toEWrites e).bind (ewrites_update (fun e => { e with buf := [] }) e))
  simp only [List.append_nil, List.singleton_append] at h
  exact h.congr fun s hs => by subst hs; rfl

theorem ewrites_emitByte (b : Byte) {e : Encoder} {packed : List Byte} (hb : e.buf = waiting packed) :
    ∃ ws, EWrites (emitByte b) e ws { e with buf := waiting (packed ++ [b]) } ∧
      fullChunks (packed ++ [b]) = fullChunks packed ++ ws := by
  by_cases h : (waiting packed).length + 1 = 255
  · obtain ⟨h1, h2⟩ := packed_append_full b h
    refine ⟨_, ?_, h2⟩
    have hc := EWrites.comp (fun e : Encoder => { e with buf := e.buf ++ [b] }) (e := e)
      (ewrites_putChunk { e with buf := e.buf ++ [b] })
    have hl : (e.buf ++ [b]).length = 255 := by rw [hb]; simpa using h
    rw [h1, ← hb, ← hl]
    refine hc.congr fun s hs => ?_
    have hl' : (s.enc.buf ++ [b]).length = Config.sbMax := by rw [hs]; exact hl
    rw [emitByte, if_pos hl']
  · obtain ⟨h1, h2⟩ := packed_append_some b h
    refine ⟨[], ?_, by simp [h2]⟩
    rw [h1, ← hb]
    refine (ewrites_update (fun e => { e with buf := e.buf ++ [b] }) e).congr fun s hs => ?_
    have hl' : ¬ (s.enc.buf ++ [b]).length = Config.sbMax := by
      rw [hs, hb]; simpa [Config.sbMax] using h
    rw [emitByte, if_neg hl']

/-- `while ENB >= 8` of `PutCode`. -/
theorem ewrites_emitBits (fuel : Nat) : ∀ {e : Encoder} {packed : List Byte} {bs : List Bool},
    Pending e packed bs → e.nb ≤ fuel →
    ∃ ws packed' acc nb, EWrites (emitBits fuel) e ws { e with buf := waiting packed', acc := acc, nb := nb } ∧
      Pending { e with buf := waiting packed', acc := acc, nb := nb } packed' bs ∧ nb ≤ 7 ∧
      fullChunks packed' = fullChunks packed ++ ws := by
  induction fuel with
  | zero =>
    intro e packed bs h hn
    refine ⟨[], packed, e.acc, e.nb, ?_, ?_, by omega, by simp⟩
    · rw [← h.buf]; exact ewrites_update id e
    · rw [← h.buf]; exact h
  | succ fuel ih =>
    intro e packed bs h hn
    by_cases h8 : 8 ≤ e.nb
    · obtain ⟨ws1, hw1, hc1⟩ := ewrites_emitByte (BitVec.ofNat 8 (e.acc % 256)) h.buf
      have hp : Pending { e with buf := waiting (packed ++ [BitVec.ofNat 8 (e.acc % 256)]), acc := e.acc / 256, nb := e.nb - 8 }
          (packed ++ [BitVec.ofNat 8 (e.acc % 256)]) bs := by
        refine ⟨rfl, ?_, ?_⟩
        · rw [h.bits]
          simp only [bitsOfBytes_append, List.append_assoc, bitsOfBytes_cons, bitsOfBytes_nil, List.append_nil]
          congr 1
          have ht : (BitVec.ofNat 8 (e.acc % 256)).toNat = e.acc % 2 ^ 8 := by simp
          rw [ht, show (256 : Nat) = 2 ^ 8 from rfl, ← toBits_split 8 (e.nb - 8)]
          congr 1; omega
        · have := h.acc
          show e.acc / 256 < 2 ^ (e.nb - 8)
          rw [Nat.div_lt_iff_lt_mul (by norm_num), show (256 : Nat) = 2 ^ 8 from rfl, ← Nat.pow_add,
            Nat.sub_add_cancel h8]
          exact this
      obtain ⟨ws2, packed', acc, nb, hw2, hp2, hnb, hc2⟩ := ih hp (by show e.nb - 8 ≤ fuel; omega)
      refine ⟨ws1 ++ ws2, packed', acc, nb, ?_, hp2, hnb, by rw [hc2, hc1, List.append_assoc]⟩
      have hb := hw1.bind (EWrites.comp (fun e : Encoder => { e with acc := e.acc / 256, nb := e.nb - 8 })
        (e := { e with buf := waiting (packed ++ [BitVec.ofNat 8 (e.acc % 256)]) }) hw2)
      have e1 : ∀ s : State, s.enc = e → emitBits (fuel + 1) s =
          (emitByte (BitVec.ofNat 8 (e.acc % 256)) s).bind fun _ t =>
            emitBits fuel { t with enc := { t.enc with acc := t.enc.acc / 256, nb := t.enc.nb - 8 } } := by
        intro s hs
        have h8' : 8 ≤ s.enc.nb := by rw [hs]; exact h8
        rw [emitBits, if_pos h8', hs]
      exact hb.congr e1
    · refine ⟨[], packed, e.acc, e.nb, ?_, ?_, by omega, by simp⟩
      · rw [← h.buf]
        refine (ewrites_update id e).congr fun s hs => ?_
        have h8' : ¬ 8 ≤ s.enc.nb := by rw [hs]; exact h8
        rw [emitBits, if_neg h8']
        rfl
      · rw [← h.buf]; exact h

/-- `PutCode(c)` puts the `EW` bits of c behind the bits emitted so far (40_cursor.md R162). -/
theorem ewrites_putCode {e : Encoder} {packed : List Byte} {bs : List Bool} (h : Pending e packed bs) {c : Nat}
    (hc : c < 2 ^ e.w) :
    ∃ ws packed' acc nb, EWrites (putCode c) e ws { e with buf := waiting packed', acc := acc, nb := nb } ∧
      Pending { e with buf := waiting packed', acc := acc, nb := nb } packed' (bs ++ toBits e.w c) ∧ nb ≤ 7 ∧
      fullChunks packed' = fullChunks packed ++ ws := by
  have hp : Pending { e with acc := e.acc + c * 2 ^ e.nb, nb := e.nb + e.w } packed (bs ++ toBits e.w c) := by
    refine ⟨h.buf, ?_, ?_⟩
    · show _ = _ ++ toBits (e.nb + e.w) (e.acc + c * 2 ^ e.nb)
      rw [toBits_append _ _ _ _ h.acc, h.bits, List.append_assoc]
    · show e.acc + c * 2 ^ e.nb < 2 ^ (e.nb + e.w)
      rw [Nat.pow_add]
      have := h.acc
      calc e.acc + c * 2 ^ e.nb < 2 ^ e.nb + c * 2 ^ e.nb := by omega
        _ = (c + 1) * 2 ^ e.nb := by ring
        _ ≤ 2 ^ e.w * 2 ^ e.nb := Nat.mul_le_mul_right _ hc
        _ = 2 ^ e.nb * 2 ^ e.w := by ring
  obtain ⟨ws, packed', acc, nb, hw, hp2, hnb, hch⟩ := ewrites_emitBits (e.nb + e.w) hp le_rfl
  refine ⟨ws, packed', acc, nb, ?_, hp2, hnb, hch⟩
  have := EWrites.comp (fun e : Encoder => { e with acc := e.acc + c * 2 ^ e.nb, nb := e.nb + e.w }) (e := e) hw
  have e1 : ∀ s : State, s.enc = e → putCode c s =
      emitBits (e.nb + e.w) { s with enc := { s.enc with acc := s.enc.acc + c * 2 ^ s.enc.nb, nb := s.enc.nb + s.enc.w } } := by
    intro s hs; subst hs; rfl
  exact this.congr e1

/-- `FlushBits()` completes the last byte with zero bits (42_lzw_encoder.md R209). -/
theorem ewrites_flushBits {e : Encoder} {packed : List Byte} {bs : List Bool} (h : Pending e packed bs) (hn : e.nb ≤ 7) :
    ∃ ws packed' acc nb, EWrites flushBits e ws { e with buf := waiting packed', acc := acc, nb := nb } ∧
      (∃ z, z < 8 ∧ bitsOfBytes packed' = bs ++ List.replicate z false) ∧
      fullChunks packed' = fullChunks packed ++ ws := by
  by_cases h0 : 0 < e.nb
  · obtain ⟨ws, hw, hc⟩ := ewrites_emitByte (BitVec.ofNat 8 (e.acc % 256)) h.buf
    refine ⟨ws, packed ++ [BitVec.ofNat 8 (e.acc % 256)], 0, 0, ?_, ⟨8 - e.nb, by omega, ?_⟩, hc⟩
    · have hb := hw.bind (ewrites_update (fun e : Encoder => { e with acc := 0, nb := 0 }) _)
      have e1 : ∀ s : State, s.enc = e → flushBits s =
          (emitByte (BitVec.ofNat 8 (e.acc % 256)) s).bind fun _ t => .ok () { t with enc := { t.enc with acc := 0, nb :=
            0 } } := by
        intro s hs
        have h0' : 0 < s.enc.nb := by rw [hs]; exact h0
        rw [flushBits, if_pos h0', hs]
      simp only [List.append_nil] at hb
      exact hb.congr e1
    · have ha : e.acc % 256 = e.acc := by
        have : (2 : Nat) ^ e.nb ≤ 2 ^ 8 := Nat.pow_le_pow_right (by norm_num) (by omega)
        have := h.acc
        omega
      have ht : (BitVec.ofNat 8 e.acc).toNat = e.acc := by simp; omega
      have hz : ∀ n, toBits n 0 = List.replicate n false := by
        intro n; induction n with
        | zero => rfl
        | succ n ih => simp [toBits, ih, List.replicate_succ]
      have := toBits_append e.nb (8 - e.nb) e.acc 0 h.acc
      rw [Nat.zero_mul, Nat.add_zero, Nat.add_sub_cancel' (by omega), hz] at this
      simp only [bitsOfBytes_append, bitsOfBytes_cons, bitsOfBytes_nil, List.append_nil, ha, ht, this, h.bits,
        List.append_assoc]
  · have hn0 : e.nb = 0 := by omega
    refine ⟨[], packed, e.acc, e.nb, ?_, ⟨0, by omega, ?_⟩, by simp⟩
    · rw [← h.buf]
      refine (ewrites_update id e).congr fun s hs => ?_
      have h0' : ¬ 0 < s.enc.nb := by rw [hs]; exact h0
      rw [flushBits, if_neg h0']
      rfl
    · rw [h.bits, hn0]; simp [toBits]

/-- The end of the chunking: what stands on SNK is the whole packed output in sub-blocks with its terminator (R210). -/
theorem ewrites_flushChunks {e : Encoder} {packed : List Byte} (hb : e.buf = waiting packed) :
    ∃ ws, EWrites flushChunks e ws { e with buf := [] } ∧ fullChunks packed ++ ws = frame packed := by
  by_cases h0 : e.buf.length = 0
  · have hw0 : waiting packed = [] := by rw [← hb]; simpa using h0
    refine ⟨[0x00], ?_, by rw [frame_eq, chunks_packed, hw0]; simp⟩
    have he : ({ e with buf := [] } : Encoder) = e := by
      have : e.buf = [] := by simpa using h0
      rw [← this]
    rw [he]
    have hw := (writes_mustPut 0x00).toEWrites e
    have e1 : ∀ s : State, s.enc = e → flushChunks s = mustPut 0x00 s := by
      intro s hs
      have h0' : s.enc.buf.length = 0 := by rw [hs]; exact h0
      rw [flushChunks, if_pos h0']
    exact hw.congr e1
  · have hw0 : waiting packed ≠ [] := by rw [← hb]; simpa using h0
    have hl : (waiting packed).length ≤ 255 := by rw [waiting_length]; omega
    refine ⟨(BitVec.ofNat 8 e.buf.length :: e.buf) ++ [0x00], ?_, ?_⟩
    · have hw := (ewrites_putChunk e).bind ((writes_mustPut 0x00).toEWrites { e with buf := [] })
      have e1 : ∀ s : State, s.enc = e → flushChunks s = (putChunk s).bind fun _ t => mustPut 0x00 t := by
        intro s hs
        have h0' : ¬ s.enc.buf.length = 0 := by rw [hs]; exact h0
        rw [flushChunks, if_neg h0']
      exact hw.congr e1
    · rw [frame_eq, chunks_packed, chunks_single hw0 hl, hb, List.append_assoc]

theorem ewrites_putMatch {e : Encoder} {packed : List Byte} {bs : List Bool} (h : Pending e packed bs) {c : Nat}
    (hc : c < 2 ^ e.w) :
    ∃ ws packed' acc nb, EWrites (putMatch c) e ws (eWiden { e with buf := waiting packed', acc := acc, nb := nb }) ∧
      Pending { e with buf := waiting packed', acc := acc, nb := nb } packed' (bs ++ toBits e.w c) ∧ nb ≤ 7 ∧
      fullChunks packed' = fullChunks packed ++ ws := by
  obtain ⟨ws, packed', acc, nb, hw, hp, hnb, hch⟩ := ewrites_putCode h hc
  refine ⟨ws, packed', acc, nb, ?_, hp, hnb, hch⟩
  have := hw.bind (ewrites_update eWiden _)
  rw [List.append_nil] at this
  exact this

theorem eWiden_eq (e : Encoder) : eWiden e = { e with w := (eWiden e).w } := by
  unfold eWiden; split <;> rfl

theorem eWiden_w (e : Encoder) : (eWiden e).w = if e.next = 2 ^ e.w ∧ e.w < 12 then e.w + 1 else e.w := by
  unfold eWiden Config.maxW; split <;> rfl

end Sys2Proof.Machine
end

