-- ==== Sys2Proof/Laws/Encoder.lean ====
section
/-! SUPPORT. The encoder's object: what selects a step, and that every step keeps its invariant (10_state.md R36,
42_lzw_encoder.md R215). -/

namespace Sys2Proof.Machine

/-! ## The selection of a step -/

theorem selectStep_cases (e : Encoder) (p : Byte) :
    (e.cur = none ∧ selectStep e p = .eMatch p) ∨
    (∃ c v, e.cur = some c ∧ tabRead e.tab c p = some v ∧ selectStep e p = .eMatch p) ∨
    (∃ c, e.cur = some c ∧ tabRead e.tab c p = none ∧ e.next < 4096 ∧ selectStep e p = .eMiss p) ∨
    (∃ c, e.cur = some c ∧ tabRead e.tab c p = none ∧ 4096 ≤ e.next ∧ selectStep e p = .eOverflow p) := by
  unfold selectStep
  cases hc : e.cur with
  | none => exact .inl ⟨rfl, rfl⟩
  | some c =>
    cases ht : tabRead e.tab c p with
    | some v => exact .inr (.inl ⟨c, v, rfl, ht, by simp only [ht]⟩)
    | none =>
      by_cases hn : e.next < 4096
      · exact .inr (.inr (.inl ⟨c, rfl, ht, hn, by simp only [ht]; exact if_pos hn⟩))
      · exact .inr (.inr (.inr ⟨c, rfl, ht, by omega, by simp only [ht]; exact if_neg hn⟩))

/-! ## The invariant -/

/-- The part of the invariant that the bit buffer and EBUF do not touch. -/
theorem EncoderInv.withBuffer {e : Encoder} (h : EncoderInv e) {acc nb : Nat} {buf : List Byte} (hb : nb ≤ 7 ∧ acc < 2 ^ nb)
    (hl : buf.length ≤ 254) : EncoderInv { e with buf := buf, acc := acc, nb := nb } :=
  ⟨h.kRange, h.clrIs, h.endIs, h.nextRange, h.wRange, h.nextFits, h.table, h.curKnown, hb, hl, h.alphabet⟩

theorem waiting_le (packed : List Byte) : (waiting packed).length ≤ 254 := by rw [waiting_length]; omega

/-- A buffer of at most 254 bytes is itself a packed output that waits. -/
theorem pending_self (e : Encoder) (h : EncoderInv e) : Pending e e.buf (bitsOfBytes e.buf ++ toBits e.nb e.acc) :=
  ⟨(waiting_of_lt (by have := h.bufRange; omega)).symm, rfl, h.bitBuffer.2⟩

theorem pending_start (k : Nat) (pix : List Byte) : Pending (startEncoder k pix) [] [] :=
  ⟨by simp [startEncoder, waiting], by simp [startEncoder, toBits], by simp [startEncoder]⟩

theorem encoderInv_start {k : Nat} {pix : List Byte} (h2 : 2 ≤ k) (h8 : k ≤ 8) (ha : alphabetOk k pix = true) :
    EncoderInv (startEncoder k pix) := by
  obtain ⟨c1, c2⟩ := clr_bounds h2 h8
  have hp := pow_mul_two k
  refine ⟨⟨h2, h8⟩, rfl, rfl, ?_, ?_, ?_, ?_, ?_, ?_, ?_, ?_⟩ <;> simp only [startEncoder]
  · omega
  · omega
  · omega
  · simp
  · simp
  · simp
  · simp
  · intro p hp; simpa [alphabetOk] using List.all_eq_true.1 ha p hp

theorem EncoderInv.takeIndex {e : Encoder} (h : EncoderInv e) {p : Byte} {ps : List Byte} (hr : e.rest = p :: ps) :
    EncoderInv { e with rest := ps } ∧ p.toNat < e.clr :=
  ⟨⟨h.kRange, h.clrIs, h.endIs, h.nextRange, h.wRange, h.nextFits, h.table, h.curKnown, h.bitBuffer, h.bufRange,
    fun q hq => h.alphabet q (by rw [hr]; exact List.mem_cons_of_mem _ hq)⟩, h.alphabet p (by rw [hr]; simp)⟩

/-- E.MATCH at the first index. -/
theorem encoderInv_first {e : Encoder} (h : EncoderInv e) {p : Byte} (hp : p.toNat < e.clr) :
    EncoderInv { e with cur := some p.toNat } := by
  have hn := h.nextRange
  have he := h.endIs
  exact ⟨h.kRange, h.clrIs, h.endIs, h.nextRange, h.wRange, h.nextFits, h.table,
    fun c hc => by simp only [Option.some.injEq] at hc; subst hc; dsimp only; omega, h.bitBuffer, h.bufRange, h.alphabet⟩

/-- E.MATCH at a pair of the table. -/
theorem encoderInv_match {e : Encoder} (h : EncoderInv e) {c v : Nat} {p : Byte} (ht : tabRead e.tab c p = some v) :
    EncoderInv { e with cur := some v } := by
  have hv := h.table c p v ht
  have he := h.endIs
  exact ⟨h.kRange, h.clrIs, h.endIs, h.nextRange, h.wRange, h.nextFits, h.table,
    fun c hc => by simp only [Option.some.injEq] at hc; subst hc; dsimp only; omega, h.bitBuffer, h.bufRange, h.alphabet⟩

/-- The bounds that EWIDEN keeps; it leaves NEXT strictly inside the width where a registration follows. -/
theorem eWiden_bounds {e : Encoder} (h : EncoderInv e) :
    e.k + 1 ≤ (eWiden e).w ∧ (eWiden e).w ≤ 12 ∧ e.next ≤ 2 ^ (eWiden e).w ∧ (e.next < 4096 → e.next < 2 ^ (eWiden e).w) := by
  have hw := h.wRange
  have hf := h.nextFits
  have hp := pow_mul_two e.w
  have hk := h.wRange.1
  have hpos : 0 < 2 ^ e.w := by positivity
  rw [eWiden_w]
  split
  · refine ⟨?_, by omega, by omega, by omega⟩
    exact hk.trans (Nat.le_succ _)
  · rename_i hno
    refine ⟨by omega, by omega, hf, fun hlt => ?_⟩
    by_cases hw12 : e.w = 12
    · rw [hw12]; omega
    · have : e.next ≠ 2 ^ e.w := fun he => hno ⟨he, by omega⟩
      omega

/-- E.MISS. -/
theorem encoderInv_miss {e : Encoder} (h : EncoderInv e) {c : Nat} {p : Byte} (hp : p.toNat < e.clr) (hn : e.next < 4096) :
    EncoderInv (registerMiss c p (eWiden e)) := by
  obtain ⟨b1, b2, b3, b4⟩ := eWiden_bounds h
  have hnr := h.nextRange
  have he := h.endIs
  rw [eWiden_eq]
  refine ⟨h.kRange, h.clrIs, h.endIs, ?_, ⟨b1, b2⟩, ?_, ?_, ?_, h.bitBuffer, h.bufRange, h.alphabet⟩
  · show e.clr + 2 ≤ e.next + 1 ∧ e.next + 1 ≤ 4096; omega
  · show e.next + 1 ≤ 2 ^ (eWiden e).w; have := b4 hn; omega
  · intro c' p' v hv
    change tabRead (tabWrite e.tab c p e.next) c' p' = some v at hv
    show e.clr + 2 ≤ v ∧ v < e.next + 1
    rw [tabRead_tabWrite] at hv
    split at hv
    · simp only [Option.some.injEq] at hv; subst hv; omega
    · have := h.table c' p' v hv; omega
  · intro c' hc'
    simp only [registerMiss, Option.some.injEq] at hc'
    subst hc'
    show p.toNat < e.next + 1 ∧ p.toNat ≠ e.clr ∧ p.toNat ≠ e.endc
    omega

/-- E.OVERFLOW. -/
theorem encoderInv_reset {e : Encoder} (h : EncoderInv e) {p : Byte} (hp : p.toNat < e.clr) : EncoderInv (resetTable p e) := by
  obtain ⟨c1, c2⟩ := clr_bounds h.kRange.1 h.kRange.2
  have hk := h.kRange
  have hc := h.clrIs
  have he := h.endIs
  have hpw := pow_mul_two e.k
  refine ⟨h.kRange, h.clrIs, h.endIs, ?_, ?_, ?_, ?_, ?_, h.bitBuffer, h.bufRange, h.alphabet⟩
  · show e.clr + 2 ≤ e.clr + 2 ∧ e.clr + 2 ≤ 4096; omega
  · show e.k + 1 ≤ e.k + 1 ∧ e.k + 1 ≤ 12; omega
  · show e.clr + 2 ≤ 2 ^ (e.k + 1); omega
  · intro c' p' v hv; simp [resetTable] at hv
  · intro c' hc'
    simp only [resetTable, Option.some.injEq] at hc'
    subst hc'
    show p.toNat < e.clr + 2 ∧ p.toNat ≠ e.clr ∧ p.toNat ≠ e.endc
    omega

theorem EncoderInv.widened {e : Encoder} (h : EncoderInv e) : EncoderInv (eWiden e) := by
  obtain ⟨b1, b2, b3, -⟩ := eWiden_bounds h
  rw [eWiden_eq]
  exact ⟨h.kRange, h.clrIs, h.endIs, h.nextRange, ⟨b1, b2⟩, b3, h.table, h.curKnown, h.bitBuffer, h.bufRange, h.alphabet⟩

/-- The pending match fits the width it is emitted at. -/
theorem EncoderInv.cur_lt {e : Encoder} (h : EncoderInv e) {c : Nat} (hc : e.cur = some c) : c < 2 ^ e.w := by
  have := h.curKnown c hc
  have := h.nextFits
  omega

/-- The control codes fit every width. -/
theorem EncoderInv.control_lt {e : Encoder} (h : EncoderInv e) : e.clr < 2 ^ e.w ∧ e.endc < 2 ^ e.w := by
  have := h.nextRange
  have := h.nextFits
  have := h.endIs
  omega

end Sys2Proof.Machine
end

