-- ==== Sys2Proof/Laws/Encoding.lean ====
section
/-! SUPPORT. The parts an encoding is made of, written and read back: 16-bit fields and colour tables. -/

namespace Sys2Proof

theorem u16le_toNat (lo hi : Byte) : (u16le lo hi).toNat = lo.toNat + 256 * hi.toNat := by
  have hl := lo.isLt
  have hh := hi.isLt
  simp [u16le]
  omega

@[simp] theorem lo8_u16le (lo hi : Byte) : lo8 (u16le lo hi) = lo := by
  have hl := lo.isLt
  apply BitVec.eq_of_toNat_eq
  simp [lo8, u16le_toNat]
  omega

@[simp] theorem hi8_u16le (lo hi : Byte) : hi8 (u16le lo hi) = hi := by
  have hl := lo.isLt
  have hh := hi.isLt
  apply BitVec.eq_of_toNat_eq
  simp [hi8, u16le_toNat]
  omega

@[simp] theorem u16le_lo8_hi8 (v : Half) : u16le (lo8 v) (hi8 v) = v := by
  have := v.isLt
  apply BitVec.eq_of_toNat_eq
  simp [u16le, lo8, hi8]
  omega

@[simp] theorem encodeU16_u16le (lo hi : Byte) : encodeU16 (u16le lo hi) = [lo, hi] := by simp [encodeU16]

@[simp] theorem encodeU16_length (v : Half) : (encodeU16 v).length = 2 := rfl

theorem decodeEntries_encode (t : List Rgb) (rest : List Byte) :
    decodeEntries t.length (t.flatMap Rgb.toList ++ rest) = some (t, rest) := by
  induction t with
  | nil => simp [decodeEntries]
  | cons e t ih => simp [decodeEntries, Rgb.toList, ih]

theorem decodeEntries_some {n : Nat} {bs rest : List Byte} {t : List Rgb} (h : decodeEntries n bs = some (t, rest)) :
    bs = t.flatMap Rgb.toList ++ rest ∧ t.length = n := by
  induction n generalizing bs t rest with
  | zero =>
    simp only [decodeEntries, Option.some.injEq, Prod.mk.injEq] at h
    obtain ⟨rfl, rfl⟩ := h
    exact ⟨rfl, rfl⟩
  | succ n ih =>
    rcases bs with _ | ⟨r, _ | ⟨g, _ | ⟨b, bs⟩⟩⟩ <;> simp [decodeEntries] at h
    cases hd : decodeEntries n bs with
    | none => simp [hd] at h
    | some x =>
      obtain ⟨t', r'⟩ := x
      simp only [hd, Option.some.injEq, Prod.mk.injEq] at h
      obtain ⟨rfl, rfl⟩ := h
      obtain ⟨h1, h2⟩ := ih hd
      simp [h2, h1, Rgb.toList]

/-- As many entries as the bytes hold are read. -/
theorem decodeEntries_full (n : Nat) {bs : List Byte} (rest : List Byte) (h : bs.length = 3 * n) :
    ∃ t, decodeEntries n (bs ++ rest) = some (t, rest) := by
  induction n generalizing bs with
  | zero => exact ⟨[], by simp [List.length_eq_zero_iff.1 h, decodeEntries]⟩
  | succ n ih =>
    rcases bs with _ | ⟨r, _ | ⟨g, _ | ⟨b, bs⟩⟩⟩ <;> simp at h
    · omega
    · omega
    · obtain ⟨t, ht⟩ := ih (bs := bs) (by omega)
      exact ⟨⟨r, g, b⟩ :: t, by simp [decodeEntries, ht]⟩

end Sys2Proof
end

