-- ==== Sys2Proof/Laws/Fault.lean ====
section
/-! SUPPORT. Taking a fault, ending a decode and ending an encode, field by field (60_exceptions.md R309, R315; 41_lzw_decoder.md
R190). -/

namespace Sys2Proof.Machine

/-! ## What a fault leaves of a unit -/

@[simp] theorem abandonUnit_cmd (s : State) : (abandonUnit s).cmd = s.cmd := by
  unfold abandonUnit; cases s.lzwUnit <;> simp
@[simp] theorem abandonUnit_argK (s : State) : (abandonUnit s).argK = s.argK := by
  unfold abandonUnit; cases s.lzwUnit <;> simp
@[simp] theorem abandonUnit_argKWritten (s : State) : (abandonUnit s).argKWritten = s.argKWritten := by
  unfold abandonUnit; cases s.lzwUnit <;> simp
@[simp] theorem abandonUnit_status (s : State) : (abandonUnit s).status = s.status := by
  unfold abandonUnit; cases s.lzwUnit <;> simp
@[simp] theorem abandonUnit_errInfo (s : State) : (abandonUnit s).errInfo = s.errInfo := by
  unfold abandonUnit; cases s.lzwUnit <;> simp
@[simp] theorem abandonUnit_pos (s : State) : (abandonUnit s).pos = s.pos := by
  unfold abandonUnit; cases s.lzwUnit <;> simp
@[simp] theorem abandonUnit_pst (s : State) : (abandonUnit s).pst = s.pst := by
  unfold abandonUnit; cases s.lzwUnit <;> simp
@[simp] theorem abandonUnit_spos (s : State) : (abandonUnit s).spos = s.spos := by
  unfold abandonUnit; cases s.lzwUnit <;> simp
@[simp] theorem abandonUnit_sst (s : State) : (abandonUnit s).sst = s.sst := by
  unfold abandonUnit; cases s.lzwUnit <;> simp
@[simp] theorem abandonUnit_dec (s : State) : (abandonUnit s).dec = freeDecoder s.fresh := by
  unfold abandonUnit; cases s.lzwUnit <;> simp
@[simp] theorem abandonUnit_out (s : State) :
    (abandonUnit s).out = if s.lzwUnit = .lzwd then boundedBuffer s.params (Config.freeBytes s.fresh 0) else s.out := by
  unfold abandonUnit; cases s.lzwUnit <;> simp
@[simp] theorem abandonUnit_pixWritten (s : State) : (abandonUnit s).pixWritten = s.pixWritten := by
  unfold abandonUnit; cases s.lzwUnit <;> simp
@[simp] theorem abandonUnit_enc (s : State) : (abandonUnit s).enc = freeEncoder s.fresh := by
  unfold abandonUnit; cases s.lzwUnit <;> simp
@[simp] theorem abandonUnit_doc (s : State) : (abandonUnit s).doc = s.doc := by
  unfold abandonUnit; cases s.lzwUnit <;> simp
@[simp] theorem abandonUnit_src (s : State) : (abandonUnit s).src = s.src := by
  unfold abandonUnit; cases s.lzwUnit <;> simp
@[simp] theorem abandonUnit_snk (s : State) : (abandonUnit s).snk = s.snk := by
  unfold abandonUnit; cases s.lzwUnit <;> simp
@[simp] theorem abandonUnit_params (s : State) : (abandonUnit s).params = s.params := by
  unfold abandonUnit; cases s.lzwUnit <;> simp
@[simp] theorem abandonUnit_scratch (s : State) : (abandonUnit s).scratch = s.scratch := by
  unfold abandonUnit; cases s.lzwUnit <;> simp
@[simp] theorem abandonUnit_lzwUnit (s : State) : (abandonUnit s).lzwUnit = .off := by
  unfold abandonUnit; cases s.lzwUnit <;> simp
@[simp] theorem abandonUnit_imgIdx (s : State) : (abandonUnit s).imgIdx = s.imgIdx := by
  unfold abandonUnit; cases s.lzwUnit <;> simp
@[simp] theorem abandonUnit_host (s : State) : (abandonUnit s).host = s.host := by
  unfold abandonUnit; cases s.lzwUnit <;> simp
@[simp] theorem abandonUnit_fresh (s : State) : (abandonUnit s).fresh = s.fresh + 1 := by
  unfold abandonUnit; cases s.lzwUnit <;> simp

/-! ## Taking a fault -/

@[simp] theorem faultControl_cmd (s : State) : (faultControl s).cmd = s.cmd := by
  unfold faultControl; cases h : s.cmd <;> simp [h]
@[simp] theorem faultControl_argK (s : State) : (faultControl s).argK = s.argK := by
  unfold faultControl; cases s.cmd <;> simp
@[simp] theorem faultControl_argKWritten (s : State) : (faultControl s).argKWritten = s.argKWritten := by
  unfold faultControl; cases s.cmd <;> simp
@[simp] theorem faultControl_status (s : State) : (faultControl s).status = s.status := by
  unfold faultControl; cases s.cmd <;> simp
@[simp] theorem faultControl_errInfo (s : State) : (faultControl s).errInfo = s.errInfo := by
  unfold faultControl; cases s.cmd <;> simp
@[simp] theorem faultControl_pos (s : State) : (faultControl s).pos = s.pos := by
  unfold faultControl; cases s.cmd <;> simp
@[simp] theorem faultControl_pst (s : State) : (faultControl s).pst = if s.cmd = .parse then .fault else s.pst := by
  unfold faultControl; cases s.cmd <;> simp
@[simp] theorem faultControl_spos (s : State) : (faultControl s).spos = s.spos := by
  unfold faultControl; cases s.cmd <;> simp
@[simp] theorem faultControl_sst (s : State) : (faultControl s).sst = if s.cmd = .serialize then .fault else s.sst := by
  unfold faultControl; cases s.cmd <;> simp
@[simp] theorem faultControl_dec (s : State) : (faultControl s).dec = s.dec := by
  unfold faultControl; cases s.cmd <;> simp
@[simp] theorem faultControl_out (s : State) : (faultControl s).out = s.out := by
  unfold faultControl; cases s.cmd <;> simp
@[simp] theorem faultControl_pixWritten (s : State) : (faultControl s).pixWritten = s.pixWritten := by
  unfold faultControl; cases s.cmd <;> simp
@[simp] theorem faultControl_enc (s : State) : (faultControl s).enc = s.enc := by
  unfold faultControl; cases s.cmd <;> simp
@[simp] theorem faultControl_doc (s : State) : (faultControl s).doc = if s.cmd = .parse then none else s.doc := by
  unfold faultControl; cases s.cmd <;> simp
@[simp] theorem faultControl_src (s : State) : (faultControl s).src = s.src := by
  unfold faultControl; cases s.cmd <;> simp
@[simp] theorem faultControl_snk (s : State) : (faultControl s).snk = s.snk := by
  unfold faultControl; cases s.cmd <;> simp
@[simp] theorem faultControl_params (s : State) : (faultControl s).params = s.params := by
  unfold faultControl; cases s.cmd <;> simp
@[simp] theorem faultControl_scratch (s : State) : (faultControl s).scratch = s.scratch := by
  unfold faultControl; cases s.cmd <;> simp
@[simp] theorem faultControl_lzwUnit (s : State) : (faultControl s).lzwUnit = s.lzwUnit := by
  unfold faultControl; cases s.cmd <;> simp
@[simp] theorem faultControl_imgIdx (s : State) : (faultControl s).imgIdx = s.imgIdx := by
  unfold faultControl; cases s.cmd <;> simp
@[simp] theorem faultControl_host (s : State) : (faultControl s).host = s.host := by
  unfold faultControl; cases s.cmd <;> simp
@[simp] theorem faultControl_fresh (s : State) : (faultControl s).fresh = s.fresh := by
  unfold faultControl; cases s.cmd <;> simp
@[simp] theorem takeFault_cmd (c : Cause) (p : Nat) (s : State) : (takeFault c p s).cmd = s.cmd := by
  simp [takeFault, faultStatus]
@[simp] theorem takeFault_argK (c : Cause) (p : Nat) (s : State) : (takeFault c p s).argK = s.argK := by
  simp [takeFault, faultStatus]
@[simp] theorem takeFault_argKWritten (c : Cause) (p : Nat) (s : State) : (takeFault c p s).argKWritten = s.argKWritten := by
  simp [takeFault, faultStatus]
@[simp] theorem takeFault_status (c : Cause) (p : Nat) (s : State) :
    (takeFault c p s).status = ⟨.doneFault, causeCode c, s.status.pteSeen⟩ := by
  simp [takeFault, faultStatus]
@[simp] theorem takeFault_errInfo (c : Cause) (p : Nat) (s : State) : (takeFault c p s).errInfo = ⟨c, p⟩ := by
  simp [takeFault, faultStatus]
@[simp] theorem takeFault_pos (c : Cause) (p : Nat) (s : State) : (takeFault c p s).pos = s.pos := by
  simp [takeFault, faultStatus]
@[simp] theorem takeFault_pst (c : Cause) (p : Nat) (s : State) :
    (takeFault c p s).pst = if s.cmd = .parse then .fault else s.pst := by
  simp [takeFault, faultStatus]
@[simp] theorem takeFault_spos (c : Cause) (p : Nat) (s : State) : (takeFault c p s).spos = s.spos := by
  simp [takeFault, faultStatus]
@[simp] theorem takeFault_sst (c : Cause) (p : Nat) (s : State) :
    (takeFault c p s).sst = if s.cmd = .serialize then .fault else s.sst := by
  simp [takeFault, faultStatus]
@[simp] theorem takeFault_dec (c : Cause) (p : Nat) (s : State) : (takeFault c p s).dec = freeDecoder s.fresh := by
  simp [takeFault, faultStatus]
@[simp] theorem takeFault_out (c : Cause) (p : Nat) (s : State) :
    (takeFault c p s).out = if s.lzwUnit = .lzwd then boundedBuffer s.params (Config.freeBytes s.fresh 0) else s.out := by
  simp [takeFault, faultStatus]
@[simp] theorem takeFault_pixWritten (c : Cause) (p : Nat) (s : State) : (takeFault c p s).pixWritten = s.pixWritten := by
  simp [takeFault, faultStatus]
@[simp] theorem takeFault_enc (c : Cause) (p : Nat) (s : State) : (takeFault c p s).enc = freeEncoder s.fresh := by
  simp [takeFault, faultStatus]
@[simp] theorem takeFault_doc (c : Cause) (p : Nat) (s : State) :
    (takeFault c p s).doc = if s.cmd = .parse then none else s.doc := by
  simp [takeFault, faultStatus]
@[simp] theorem takeFault_src (c : Cause) (p : Nat) (s : State) : (takeFault c p s).src = s.src := by
  simp [takeFault, faultStatus]
@[simp] theorem takeFault_snk (c : Cause) (p : Nat) (s : State) : (takeFault c p s).snk = s.snk := by
  simp [takeFault, faultStatus]
@[simp] theorem takeFault_params (c : Cause) (p : Nat) (s : State) : (takeFault c p s).params = s.params := by
  simp [takeFault, faultStatus]
@[simp] theorem takeFault_scratch (c : Cause) (p : Nat) (s : State) : (takeFault c p s).scratch = Scratch.fresh := by
  simp [takeFault, faultStatus]
@[simp] theorem takeFault_lzwUnit (c : Cause) (p : Nat) (s : State) : (takeFault c p s).lzwUnit = .off := by
  simp [takeFault, faultStatus]
@[simp] theorem takeFault_imgIdx (c : Cause) (p : Nat) (s : State) : (takeFault c p s).imgIdx = 0 := by
  simp [takeFault, faultStatus]
@[simp] theorem takeFault_host (c : Cause) (p : Nat) (s : State) : (takeFault c p s).host = s.host := by
  simp [takeFault, faultStatus]
@[simp] theorem takeFault_fresh (c : Cause) (p : Nat) (s : State) : (takeFault c p s).fresh = s.fresh + 1 := by
  simp [takeFault, faultStatus]

/-- A fault leaves memories in canonical form, whatever they were: both objects are free values within it. -/
theorem memoryWf_takeFault (s : State) (c : Cause) (p : Nat) : Memory.wf (takeFault c p s) = true := by
  rw [memoryWf_iff, takeFault_dec, takeFault_enc]
  exact ⟨dictWf_freeDecoder _, mapWf_freeEncoder _⟩

/-- The end of a command likewise. -/
theorem memoryWf_finishCommand (s : State) : Memory.wf (finishCommand s) = true := by
  rw [memoryWf_iff, finishCommand_dec, finishCommand_enc]
  exact ⟨dictWf_freeDecoder _, mapWf_freeEncoder _⟩

/-! ## The end of a decode and of an encode -/

/-- The end of a decode inside a PARSE, and of a DECODE. -/
theorem finishDecode_parse {s : State} (h : s.cmd = .parse) :
    finishDecode s = { s with
      dec := freeDecoder s.fresh, lzwUnit := .off, fresh := s.fresh + 1, pst := .loop
      scratch := { s.scratch with doc :=
        { s.scratch.doc with images := s.scratch.doc.images ++ [{ s.scratch.img with pixels := s.out }] } } } := by
  simp [finishDecode, h, dropDecoder]

theorem finishDecode_other {s : State} (h : s.cmd ≠ .parse) : finishDecode s = finishCommand s := by
  unfold finishDecode
  cases hc : s.cmd <;> simp_all

theorem finishEncode_serialize {s : State} (h : s.cmd = .serialize) :
    finishEncode s = { s with
      enc := freeEncoder s.fresh, lzwUnit := .off, fresh := s.fresh + 1, imgIdx := s.imgIdx + 1 } := by
  simp [finishEncode, h, dropEncoder]

theorem finishEncode_other {s : State} (h : s.cmd ≠ .serialize) : finishEncode s = finishCommand s := by
  unfold finishEncode
  cases hc : s.cmd <;> simp_all

/-! ## What both ends of a unit keep -/

@[simp] theorem finishDecode_cmd (s : State) : (finishDecode s).cmd = s.cmd := by
  by_cases h : s.cmd = .parse
  · rw [finishDecode_parse h]
  · rw [finishDecode_other h, finishCommand_cmd]
@[simp] theorem finishDecode_argK (s : State) : (finishDecode s).argK = s.argK := by
  by_cases h : s.cmd = .parse
  · rw [finishDecode_parse h]
  · rw [finishDecode_other h, finishCommand_argK]
@[simp] theorem finishDecode_argKWritten (s : State) : (finishDecode s).argKWritten = s.argKWritten := by
  by_cases h : s.cmd = .parse
  · rw [finishDecode_parse h]
  · rw [finishDecode_other h, finishCommand_argKWritten]
@[simp] theorem finishDecode_errInfo (s : State) : (finishDecode s).errInfo = s.errInfo := by
  by_cases h : s.cmd = .parse
  · rw [finishDecode_parse h]
  · rw [finishDecode_other h, finishCommand_errInfo]
@[simp] theorem finishDecode_pos (s : State) : (finishDecode s).pos = s.pos := by
  by_cases h : s.cmd = .parse
  · rw [finishDecode_parse h]
  · rw [finishDecode_other h, finishCommand_pos]
@[simp] theorem finishDecode_spos (s : State) : (finishDecode s).spos = s.spos := by
  by_cases h : s.cmd = .parse
  · rw [finishDecode_parse h]
  · rw [finishDecode_other h, finishCommand_spos]
@[simp] theorem finishDecode_sst (s : State) : (finishDecode s).sst = s.sst := by
  by_cases h : s.cmd = .parse
  · rw [finishDecode_parse h]
  · rw [finishDecode_other h, finishCommand_sst]
@[simp] theorem finishDecode_out (s : State) : (finishDecode s).out = s.out := by
  by_cases h : s.cmd = .parse
  · rw [finishDecode_parse h]
  · rw [finishDecode_other h, finishCommand_out]
@[simp] theorem finishDecode_pixWritten (s : State) : (finishDecode s).pixWritten = s.pixWritten := by
  by_cases h : s.cmd = .parse
  · rw [finishDecode_parse h]
  · rw [finishDecode_other h, finishCommand_pixWritten]
@[simp] theorem finishDecode_doc (s : State) : (finishDecode s).doc = s.doc := by
  by_cases h : s.cmd = .parse
  · rw [finishDecode_parse h]
  · rw [finishDecode_other h, finishCommand_doc]
@[simp] theorem finishDecode_src (s : State) : (finishDecode s).src = s.src := by
  by_cases h : s.cmd = .parse
  · rw [finishDecode_parse h]
  · rw [finishDecode_other h, finishCommand_src]
@[simp] theorem finishDecode_snk (s : State) : (finishDecode s).snk = s.snk := by
  by_cases h : s.cmd = .parse
  · rw [finishDecode_parse h]
  · rw [finishDecode_other h, finishCommand_snk]
@[simp] theorem finishDecode_params (s : State) : (finishDecode s).params = s.params := by
  by_cases h : s.cmd = .parse
  · rw [finishDecode_parse h]
  · rw [finishDecode_other h, finishCommand_params]
@[simp] theorem finishDecode_lzwUnit (s : State) : (finishDecode s).lzwUnit = .off := by
  by_cases h : s.cmd = .parse
  · rw [finishDecode_parse h]
  · rw [finishDecode_other h, finishCommand_lzwUnit]
@[simp] theorem finishDecode_host (s : State) : (finishDecode s).host = s.host := by
  by_cases h : s.cmd = .parse
  · rw [finishDecode_parse h]
  · rw [finishDecode_other h, finishCommand_host]
@[simp] theorem finishEncode_cmd (s : State) : (finishEncode s).cmd = s.cmd := by
  by_cases h : s.cmd = .serialize
  · rw [finishEncode_serialize h]
  · rw [finishEncode_other h, finishCommand_cmd]
@[simp] theorem finishEncode_argK (s : State) : (finishEncode s).argK = s.argK := by
  by_cases h : s.cmd = .serialize
  · rw [finishEncode_serialize h]
  · rw [finishEncode_other h, finishCommand_argK]
@[simp] theorem finishEncode_argKWritten (s : State) : (finishEncode s).argKWritten = s.argKWritten := by
  by_cases h : s.cmd = .serialize
  · rw [finishEncode_serialize h]
  · rw [finishEncode_other h, finishCommand_argKWritten]
@[simp] theorem finishEncode_errInfo (s : State) : (finishEncode s).errInfo = s.errInfo := by
  by_cases h : s.cmd = .serialize
  · rw [finishEncode_serialize h]
  · rw [finishEncode_other h, finishCommand_errInfo]
@[simp] theorem finishEncode_pos (s : State) : (finishEncode s).pos = s.pos := by
  by_cases h : s.cmd = .serialize
  · rw [finishEncode_serialize h]
  · rw [finishEncode_other h, finishCommand_pos]
@[simp] theorem finishEncode_spos (s : State) : (finishEncode s).spos = s.spos := by
  by_cases h : s.cmd = .serialize
  · rw [finishEncode_serialize h]
  · rw [finishEncode_other h, finishCommand_spos]
@[simp] theorem finishEncode_sst (s : State) : (finishEncode s).sst = s.sst := by
  by_cases h : s.cmd = .serialize
  · rw [finishEncode_serialize h]
  · rw [finishEncode_other h, finishCommand_sst]
@[simp] theorem finishEncode_out (s : State) : (finishEncode s).out = s.out := by
  by_cases h : s.cmd = .serialize
  · rw [finishEncode_serialize h]
  · rw [finishEncode_other h, finishCommand_out]
@[simp] theorem finishEncode_pixWritten (s : State) : (finishEncode s).pixWritten = s.pixWritten := by
  by_cases h : s.cmd = .serialize
  · rw [finishEncode_serialize h]
  · rw [finishEncode_other h, finishCommand_pixWritten]
@[simp] theorem finishEncode_doc (s : State) : (finishEncode s).doc = s.doc := by
  by_cases h : s.cmd = .serialize
  · rw [finishEncode_serialize h]
  · rw [finishEncode_other h, finishCommand_doc]
@[simp] theorem finishEncode_src (s : State) : (finishEncode s).src = s.src := by
  by_cases h : s.cmd = .serialize
  · rw [finishEncode_serialize h]
  · rw [finishEncode_other h, finishCommand_src]
@[simp] theorem finishEncode_snk (s : State) : (finishEncode s).snk = s.snk := by
  by_cases h : s.cmd = .serialize
  · rw [finishEncode_serialize h]
  · rw [finishEncode_other h, finishCommand_snk]
@[simp] theorem finishEncode_params (s : State) : (finishEncode s).params = s.params := by
  by_cases h : s.cmd = .serialize
  · rw [finishEncode_serialize h]
  · rw [finishEncode_other h, finishCommand_params]
@[simp] theorem finishEncode_lzwUnit (s : State) : (finishEncode s).lzwUnit = .off := by
  by_cases h : s.cmd = .serialize
  · rw [finishEncode_serialize h]
  · rw [finishEncode_other h, finishCommand_lzwUnit]
@[simp] theorem finishEncode_host (s : State) : (finishEncode s).host = s.host := by
  by_cases h : s.cmd = .serialize
  · rw [finishEncode_serialize h]
  · rw [finishEncode_other h, finishCommand_host]
@[simp] theorem finishEncode_pst (s : State) : (finishEncode s).pst = s.pst := by
  by_cases h : s.cmd = .serialize
  · rw [finishEncode_serialize h]
  · rw [finishEncode_other h, finishCommand_pst]

theorem memoryWf_finishDecode {s : State} (h : Memory.wf s = true) : Memory.wf (finishDecode s) = true := by
  by_cases hc : s.cmd = .parse
  · rw [memoryWf_iff] at *
    rw [finishDecode_parse hc]; exact ⟨dictWf_freeDecoder _, h.2⟩
  · rw [finishDecode_other hc]; exact memoryWf_finishCommand s

theorem memoryWf_finishEncode {s : State} (h : Memory.wf s = true) : Memory.wf (finishEncode s) = true := by
  by_cases hc : s.cmd = .serialize
  · rw [memoryWf_iff] at *
    rw [finishEncode_serialize hc]; exact ⟨h.1, mapWf_freeEncoder _⟩
  · rw [finishEncode_other hc]; exact memoryWf_finishCommand s

theorem memoryWf_reset : Memory.wf State.reset = true := by decide

end Sys2Proof.Machine
end

