-- ==== Sys2Proof/Laws/Fetch.lean ====
section
/-! SUPPORT. The machine's reads and the decoder agree: `readInstr` takes from SRC the bytes `decode` takes from a list,
  gives the
same instruction, and raises where `decode` runs out of bytes. -/

namespace Sys2Proof.Machine

/-- A parser as a decoder of bytes that belong to one instruction. -/
def asDecoded (p : Parser Instr) (bs : List Byte) : Decoded :=
  match p bs with
  | some r => .ok r
  | none => .error (.truncated bs.length)

def pHeader : Parser Instr :=
  pBind (pBytes 3) fun sig => pBind (pBytes 3) fun ver bs => some (.hdr (Bytes3.ofList sig) (Bytes3.ofList ver), bs)

def pScreen : Parser Instr :=
  pBind pU16 fun w => pBind pU16 fun h => pBind pByte fun p => pBind pByte fun bg => pBind pByte fun a bs =>
    some (.lsd w h p bg a, bs)

def pImage : Parser Instr :=
  pBind pU16 fun l => pBind pU16 fun t => pBind pU16 fun w => pBind pU16 fun h => pBind pByte fun p bs =>
    some (imgAt l t w h p, bs)

def pGce : Parser Instr :=
  pBind pByte fun n =>
    if n = Config.gceLen then
      pBind pByte fun p => pBind pU16 fun d => pBind pByte fun ti => pBind pByte fun t bs =>
        some (.extGce (.body p d ti t), bs)
    else fun bs => some (.extGce (.badSize n), bs)

def pApp : Parser Instr :=
  pBind pByte fun n =>
    if n = Config.appLen then
      pBind (pBytes 8) fun i => pBind (pBytes 3) fun a bs => some (.extApp (.header (Bytes8.ofList i) (Bytes3.ofList a)), bs)
    else fun bs => some (.extApp (.badSize n), bs)

def pPte : Parser Instr :=
  pBind pByte fun n =>
    if n = Config.pteLen then pBind (pBytes 12) fun f bs => some (.extPte (.header (Bytes12.ofList f)), bs)
    else fun bs => some (.extPte (.badSize n), bs)

def pLabel : Parser Instr :=
  pBind pByte fun lab =>
    if lab = 0xF9 then fun bs => some (.extGce .label, bs)
    else if lab = 0xFE then fun bs => some (.extCom, bs)
    else if lab = 0xFF then fun bs => some (.extApp .label, bs)
    else if lab = 0x01 then fun bs => some (.extPte .label, bs)
    else fun bs => some (.extSkip lab, bs)

def pSub : Parser Instr :=
  pBind pSubBlock fun p bs =>
    match p with
    | none => some (.sbTerm, bs)
    | some f => some (.sbData f, bs)

def pMinCode : Parser Instr := pBind pByte fun k bs => some (.mcs k, bs)

/-- LOOP behind a first byte that is there. -/
def pLoop : Parser Instr :=
  pBind pByte fun b =>
    if b = 0x21 then fun bs => some (.ext, bs)
    else if b = 0x2C then fun bs => some (imgIndicator, bs)
    else if b = 0x3B then fun bs => some (.trl, bs)
    else fun bs => some (.unknown b, bs)

/-! ## The readers -/

theorem implements_readHeader : Implements readHeader pHeader :=
  (implements_mustBytes 3).bind fun _ => (implements_mustBytes 3).bind fun _ => implements_pure _

theorem implements_readScreen : Implements readScreen pScreen :=
  implements_mustU16.bind fun _ => implements_mustU16.bind fun _ => implements_mustByte.bind fun _ =>
    implements_mustByte.bind fun _ => implements_mustByte.bind fun _ => implements_pure _

theorem implements_readImage : Implements readImage pImage :=
  implements_mustU16.bind fun _ => implements_mustU16.bind fun _ => implements_mustU16.bind fun _ =>
    implements_mustU16.bind fun _ => implements_mustByte.bind fun _ => implements_pure _

theorem implements_readGce : Implements readGce pGce :=
  implements_mustByte.bind fun _ => Implements.ite
    (implements_mustByte.bind fun _ => implements_mustU16.bind fun _ => implements_mustByte.bind fun _ =>
      implements_mustByte.bind fun _ => implements_pure _)
    (implements_pure _)

theorem implements_readApp : Implements readApp pApp :=
  implements_mustByte.bind fun _ => Implements.ite
    ((implements_mustBytes 8).bind fun _ => (implements_mustBytes 3).bind fun _ => implements_pure _)
    (implements_pure _)

theorem implements_readPte : Implements readPte pPte :=
  implements_mustByte.bind fun _ => Implements.ite
    ((implements_mustBytes 12).bind fun _ => implements_pure _) (implements_pure _)

theorem implements_readAtLabel : Implements readAtLabel pLabel := by
  refine implements_mustByte.bind fun lab => ?_
  by_cases h1 : lab = 0xF9
  · simp only [if_pos h1]; exact implements_pure _
  simp only [if_neg h1]
  by_cases h2 : lab = 0xFE
  · simp only [if_pos h2]; exact implements_pure _
  simp only [if_neg h2]
  by_cases h3 : lab = 0xFF
  · simp only [if_pos h3]; exact implements_pure _
  simp only [if_neg h3]
  by_cases h4 : lab = 0x01
  · simp only [if_pos h4]; exact implements_pure _
  simp only [if_neg h4]
  exact implements_pure _

theorem implements_readSubBlock : Implements readSubBlock pSub := by
  refine implements_mustSubBlock.bind fun p => ?_
  cases p <;> exact implements_pure _

theorem implements_readMinCode : Implements readMinCode pMinCode := implements_mustByte.bind fun _ => implements_pure _

theorem readAtLoop_cons {s : State} {b : Byte} {rest : List (Option Byte)} (h : s.src.answers = some b :: rest) :
    readAtLoop s = (mustByte s).bind fun b t =>
      if b = 0x21 then .ok .ext t
      else if b = 0x2C then .ok imgIndicator t
      else if b = 0x3B then .ok .trl t
      else .ok (.unknown b) t := by
  simp [readAtLoop, readIndicator, mustByte, srcNext, h]

theorem implements_loop : Implements
    (fun s => (mustByte s).bind fun b t =>
      if b = 0x21 then .ok .ext t
      else if b = 0x2C then .ok imgIndicator t
      else if b = 0x3B then .ok .trl t
      else .ok (.unknown b) t) pLoop := by
  refine implements_mustByte.bind fun b => ?_
  by_cases h1 : b = 0x21
  · simp only [if_pos h1]; exact implements_pure _
  simp only [if_neg h1]
  by_cases h2 : b = 0x2C
  · simp only [if_pos h2]; exact implements_pure _
  simp only [if_neg h2]
  by_cases h3 : b = 0x3B
  · simp only [if_pos h3]; exact implements_pure _
  simp only [if_neg h3]
  exact implements_pure _

/-! ## The decoders are those parsers -/

theorem decodeHeader_eq (bs : List Byte) : decodeHeader bs = asDecoded pHeader bs := by
  rcases bs with _ | ⟨a0, _ | ⟨a1, _ | ⟨a2, _ | ⟨a3, _ | ⟨a4, _ | ⟨a5, t⟩⟩⟩⟩⟩⟩ <;> rfl

theorem decodeScreen_eq (bs : List Byte) : decodeScreen bs = asDecoded pScreen bs := by
  rcases bs with _ | ⟨a0, _ | ⟨a1, _ | ⟨a2, _ | ⟨a3, _ | ⟨a4, _ | ⟨a5, _ | ⟨a6, t⟩⟩⟩⟩⟩⟩⟩ <;> rfl

theorem decodeImage_eq (bs : List Byte) :
    decodeImage bs = asDecoded pImage bs := by
  rcases bs with _ | ⟨a0, _ | ⟨a1, _ | ⟨a2, _ | ⟨a3, _ | ⟨a4, _ | ⟨a5, _ | ⟨a6, _ | ⟨a7, _ | ⟨a8, t⟩⟩⟩⟩⟩⟩⟩⟩⟩ <;> rfl

theorem decodeMinCode_eq (bs : List Byte) : decodeMinCode bs = asDecoded pMinCode bs := by cases bs <;> rfl

theorem decodeGce_eq (bs : List Byte) :
    decodeGce bs = asDecoded pGce bs := by
  cases bs with
  | nil => rfl
  | cons n rest =>
    simp only [decodeGce, asDecoded, pGce, pBind, pByte]
    by_cases h : n = Config.gceLen
    · simp only [if_pos h]
      rcases rest with _ | ⟨a0, _ | ⟨a1, _ | ⟨a2, _ | ⟨a3, _ | ⟨a4, t⟩⟩⟩⟩⟩ <;> simp [pU16, pByte, pBind, Nat.add_comm]
    · simp only [if_neg h]

theorem decodeApp_eq (bs : List Byte) :
    decodeApp bs = asDecoded pApp bs := by
  cases bs with
  | nil => rfl
  | cons n rest =>
    simp only [decodeApp, asDecoded, pApp, pBind, pByte]
    by_cases h : n = Config.appLen
    · simp only [if_pos h]
      rcases rest with _ | ⟨a0, _ | ⟨a1, _ | ⟨a2, _ | ⟨a3, _ | ⟨a4, _ | ⟨a5, _ | ⟨a6, _ | ⟨a7, _ | ⟨a8, _ | ⟨a9, _ | ⟨a10,
        t⟩⟩⟩⟩⟩⟩⟩⟩⟩⟩⟩ <;> rfl
    · simp only [if_neg h]

theorem decodePte_eq (bs : List Byte) :
    decodePte bs = asDecoded pPte bs := by
  cases bs with
  | nil => rfl
  | cons n rest =>
    simp only [decodePte, asDecoded, pPte, pBind, pByte]
    by_cases h : n = Config.pteLen
    · simp only [if_pos h]
      rcases rest with _ | ⟨a0, _ | ⟨a1, _ | ⟨a2, _ | ⟨a3, _ | ⟨a4, _ | ⟨a5, _ | ⟨a6, _ | ⟨a7, _ | ⟨a8, _ | ⟨a9, _ | ⟨a10,
        _ | ⟨a11, t⟩⟩⟩⟩⟩⟩⟩⟩⟩⟩⟩⟩ <;> rfl
    · simp only [if_neg h]

theorem decodeLabel_eq (bs : List Byte) : decodeLabel bs = asDecoded pLabel bs := by
  cases bs with
  | nil => rfl
  | cons b rest =>
    simp only [decodeLabel, asDecoded, pLabel, pBind, pByte]
    by_cases h1 : b = 0xF9
    · simp only [if_pos h1]
    simp only [if_neg h1]
    by_cases h2 : b = 0xFE
    · simp only [if_pos h2]
    simp only [if_neg h2]
    by_cases h3 : b = 0xFF
    · simp only [if_pos h3]
    simp only [if_neg h3]
    by_cases h4 : b = 0x01
    · simp only [if_pos h4]
    simp only [if_neg h4]

theorem decodeSubBlock_eq (bs : List Byte) : decodeSubBlock bs = asDecoded pSub bs := by
  cases bs with
  | nil => rfl
  | cons n rest =>
    simp only [decodeSubBlock, asDecoded, pSub, pSubBlock, pBind, pByte]
    by_cases h : n = 0
    · simp only [if_pos h]
    · simp only [if_neg h]
      by_cases h' : n.toNat ≤ rest.length
      · simp [pBind, pBytes_eq, h']
      · simp [pBind, pBytes_eq, h', Nat.add_comm 1]

theorem decodeIndicator_eq (b : Byte) (t : List Byte) : decodeIndicator (b :: t) = asDecoded pLoop (b :: t) := by
  simp only [decodeIndicator, asDecoded, pLoop, pBind, pByte]
  by_cases h1 : b = 0x21
  · simp only [if_pos h1]
  simp only [if_neg h1]
  by_cases h2 : b = 0x2C
  · simp only [if_pos h2]
  simp only [if_neg h2]
  by_cases h3 : b = 0x3B
  · simp only [if_pos h3]
  simp only [if_neg h3]

theorem decodeTable_eq (mk : List Rgb → Instr) {n : Nat} (hn : tableLengths.contains n = true) (bs : List Byte) :
    decodeTable mk n bs = asDecoded (pBind (pTable n) fun t bs => some (mk t, bs)) bs := by
  unfold decodeTable
  rw [if_pos hn]
  simp only [asDecoded, pBind, pTable_eq]
  cases decodeEntries n bs <;> rfl

/-! ## Agreement -/

/-- The parser of a slot; at an indicator, for a stream that has a byte. -/
def pSlot : Slot → Parser Instr
  | .header => pHeader
  | .screen => pScreen
  | .globalTable n => pBind (pTable n) fun t bs => some (.gct t, bs)
  | .indicator => pLoop
  | .label => pLabel
  | .gceBody => pGce
  | .appHeader => pApp
  | .pteHeader => pPte
  | .subBlock => pSub
  | .descriptor => pImage
  | .localTable n => pBind (pTable n) fun t bs => some (.lct t, bs)
  | .minCode => pMinCode

theorem implements_readInstr (slot : Slot) (h : slot ≠ .indicator) : Implements (readInstr slot) (pSlot slot) := by
  cases slot with
  | header => exact implements_readHeader
  | screen => exact implements_readScreen
  | globalTable n => exact (implements_readTable n).bind fun t => implements_pure (Instr.gct t)
  | indicator => exact absurd rfl h
  | label => exact implements_readAtLabel
  | gceBody => exact implements_readGce
  | appHeader => exact implements_readApp
  | pteHeader => exact implements_readPte
  | subBlock => exact implements_readSubBlock
  | descriptor => exact implements_readImage
  | localTable n => exact (implements_readTable n).bind fun t => implements_pure (Instr.lct t)
  | minCode => exact implements_readMinCode

theorem decode_ok_pSlot {slot : Slot} {bs : List Byte} (hb : slot = .indicator → bs ≠ []) {i : Instr} {tail : List Byte}
    (h : decode slot bs = .ok (i, tail)) : pSlot slot bs = some (i, tail) := by
  have go : ∀ p : Parser Instr, asDecoded p bs = .ok (i, tail) → p bs = some (i, tail) := by
    intro p hp
    unfold asDecoded at hp
    split at hp
    · rename_i r hr
      rw [hr, Except.ok.inj hp]
    · simp at hp
  have tbl : ∀ (mk : List Rgb → Instr) (n : Nat), decodeTable mk n bs = .ok (i, tail) →
      (pBind (pTable n) fun t bs => some (mk t, bs)) bs = some (i, tail) := by
    intro mk n hm
    by_cases hn : tableLengths.contains n = true
    · exact go _ (decodeTable_eq mk hn bs ▸ hm)
    · simp only [decodeTable, if_neg hn] at hm; simp at hm
  cases slot with
  | header => exact go _ (decodeHeader_eq bs ▸ h)
  | screen => exact go _ (decodeScreen_eq bs ▸ h)
  | globalTable n => exact tbl .gct n h
  | indicator =>
    cases bs with
    | nil => exact absurd rfl (hb rfl)
    | cons b t => exact go _ (decodeIndicator_eq b t ▸ h)
  | label => exact go _ (decodeLabel_eq bs ▸ h)
  | gceBody => exact go _ (decodeGce_eq bs ▸ h)
  | appHeader => exact go _ (decodeApp_eq bs ▸ h)
  | pteHeader => exact go _ (decodePte_eq bs ▸ h)
  | subBlock => exact go _ (decodeSubBlock_eq bs ▸ h)
  | descriptor => exact go _ (decodeImage_eq bs ▸ h)
  | localTable n => exact tbl .lct n h
  | minCode => exact go _ (decodeMinCode_eq bs ▸ h)

theorem decode_truncated_pSlot {slot : Slot} {bs : List Byte} {n : Nat} (h : decode slot bs = .error (.truncated n)) :
    pSlot slot bs = none ∧ n = bs.length := by
  have go : ∀ p : Parser Instr, asDecoded p bs = .error (.truncated n) → p bs = none ∧ n = bs.length := by
    intro p hp
    unfold asDecoded at hp
    split at hp
    · simp at hp
    · simp only [Except.error.injEq, DecodeError.truncated.injEq] at hp
      exact ⟨by assumption, hp.symm⟩
  have tbl : ∀ (mk : List Rgb → Instr) (m : Nat), decodeTable mk m bs = .error (.truncated n) →
      (pBind (pTable m) fun t bs => some (mk t, bs)) bs = none ∧ n = bs.length := by
    intro mk m hm
    by_cases hn : tableLengths.contains m = true
    · exact go _ (decodeTable_eq mk hn bs ▸ hm)
    · simp only [decodeTable, if_neg hn] at hm; simp at hm
  cases slot with
  | header => exact go _ (decodeHeader_eq bs ▸ h)
  | screen => exact go _ (decodeScreen_eq bs ▸ h)
  | globalTable m => exact tbl .gct m h
  | indicator =>
    cases bs with
    | nil => simp [decode, decodeIndicator] at h
    | cons b t => exact go _ (decodeIndicator_eq b t ▸ h)
  | label => exact go _ (decodeLabel_eq bs ▸ h)
  | gceBody => exact go _ (decodeGce_eq bs ▸ h)
  | appHeader => exact go _ (decodeApp_eq bs ▸ h)
  | pteHeader => exact go _ (decodePte_eq bs ▸ h)
  | subBlock => exact go _ (decodeSubBlock_eq bs ▸ h)
  | descriptor => exact go _ (decodeImage_eq bs ▸ h)
  | localTable m => exact tbl .lct m h
  | minCode => exact go _ (decodeMinCode_eq bs ▸ h)

/-- The tables that a slot selected by PST can ask for (R105, R113): none, or one of the eight lengths. -/
def tableSlotOk : Slot → Prop
  | .globalTable n => n = 0 ∨ tableLengths.contains n = true
  | .localTable n => n = 0 ∨ tableLengths.contains n = true
  | _ => True

theorem tableLength_ok (f : Bool) (p : Byte) : ctLen f (gctExp p) = 0 ∨ tableLengths.contains (ctLen f (gctExp p)) = true := by
  have h : gctExp p < 8 := Nat.mod_lt _ (by decide)
  cases f with
  | false => exact .inl rfl
  | true =>
    right
    generalize gctExp p = e at h
    revert e
    decide

theorem parseSlot_tableOk {s : State} {slot : Slot} (h : parseSlot s = some slot) : tableSlotOk slot := by
  unfold parseSlot at h
  split at h <;> cases h <;> first | trivial | exact tableLength_ok _ _ | (split <;> trivial)

theorem instrRunsOut_iff {slot : Slot} {bs : List Byte} (ht : tableSlotOk slot) :
    InstrRunsOut slot bs ↔ pSlot slot bs = none := by
  have go : ∀ {p : Parser Instr} {d : Decoded}, d = asDecoded p bs → p bs = none → ∃ n, d = .error (.truncated n) :=
    fun h hp => ⟨bs.length, by rw [h, asDecoded, hp]⟩
  have tbl : ∀ (mk : List Rgb → Instr) (m : Nat), m = 0 ∨ tableLengths.contains m = true →
      (pBind (pTable m) fun t bs => some (mk t, bs)) bs = none → ∃ n, decodeTable mk m bs = .error (.truncated n) := by
    rintro mk m (rfl | hm) hp
    · simp [pBind, pTable] at hp
    · exact go (decodeTable_eq mk hm bs) hp
  constructor
  · rintro (⟨n, h⟩ | ⟨rfl, rfl⟩)
    · exact (decode_truncated_pSlot h).1
    · rfl
  · intro hp
    cases slot with
    | header => exact .inl (go (decodeHeader_eq bs) hp)
    | screen => exact .inl (go (decodeScreen_eq bs) hp)
    | globalTable m => exact .inl (tbl .gct m ht hp)
    | indicator =>
      cases bs with
      | nil => exact .inr ⟨rfl, rfl⟩
      | cons b t => exact .inl (go (decodeIndicator_eq b t) hp)
    | label => exact .inl (go (decodeLabel_eq bs) hp)
    | gceBody => exact .inl (go (decodeGce_eq bs) hp)
    | appHeader => exact .inl (go (decodeApp_eq bs) hp)
    | pteHeader => exact .inl (go (decodePte_eq bs) hp)
    | subBlock => exact .inl (go (decodeSubBlock_eq bs) hp)
    | descriptor => exact .inl (go (decodeImage_eq bs) hp)
    | localTable m => exact .inl (tbl .lct m ht hp)
    | minCode => exact .inl (go (decodeMinCode_eq bs) hp)

/-- Where the bytes at hand decode, the read takes the instruction's bytes and gives it. An end of stream at an indicator is the
instruction EOS only where SRC has ended and not failed. -/
theorem readInstr_of_decode {slot : Slot} {s : State} {bs tail : List Byte} {rest : List (Option Byte)} {i : Instr}
    (hs : s.src.answers = bs.map some ++ rest) (h : decode slot bs = .ok (i, tail))
    (he : slot = .indicator → bs = [] → rest = []) :
    ∃ used, bs = used ++ tail ∧ readInstr slot s = .ok i (took used (tail.map some ++ rest) s) := by
  by_cases hi : slot = .indicator
  · subst hi
    cases bs with
    | nil =>
      have hr := he rfl rfl
      subst hr
      simp only [decode, decodeIndicator, Except.ok.injEq, Prod.mk.injEq] at h
      obtain ⟨rfl, rfl⟩ := h
      have hs' : s.src.answers = [] := by simpa using hs
      refine ⟨[], rfl, ?_⟩
      have : readAtLoop s = .ok .eos s := by simp [readAtLoop, readIndicator, srcNext, hs']
      rw [readInstr, this]
      congr 1
      rw [← took_nil s, hs']; rfl
    | cons b t =>
      have hp := decode_ok_pSlot (by simp) h
      rw [readInstr, readAtLoop_cons (by simpa using hs)]
      exact implements_loop.full s (b :: t) rest i tail hs hp
  · exact (implements_readInstr slot hi).full s bs rest i tail hs (decode_ok_pSlot (fun e => absurd e hi) h)

/-- Where the bytes at hand run out inside an instruction, the read takes them all and raises. -/
theorem readInstr_of_truncated {slot : Slot} {s : State} {bs : List Byte} {rest : List (Option Byte)} {n : Nat}
    (hs : s.src.answers = bs.map some ++ rest) (h : decode slot bs = .error (.truncated n)) :
    RanOut (readInstr slot s) s bs rest := by
  obtain ⟨hp, -⟩ := decode_truncated_pSlot h
  by_cases hi : slot = .indicator
  · subst hi
    cases bs with
    | nil => simp [decode, decodeIndicator] at h
    | cons b t =>
      rw [readInstr, readAtLoop_cons (by simpa using hs)]
      exact implements_loop.short s (b :: t) rest hs hp
  · exact (implements_readInstr slot hi).short s bs rest hs hp

/-- A failing access at an indicator. -/
theorem readInstr_fail_indicator {s : State} {rest : List (Option Byte)} (h : s.src.answers = none :: rest) :
    readInstr .indicator s = .raise (.ioError .readFailure) s.pos (failedRead s) := by
  simp [readInstr, readAtLoop, readIndicator, srcNext, h, failedRead]

end Sys2Proof.Machine
end

