-- ==== Sys2Proof/Laws/Steps.lean ====
section
/-! SUPPORT. What a step of the CORE can do, said once for each unit that can hold the step: PARSE outside its decodes, the
decoder. SERIALIZE outside its encodes and the encoder are in Laws/WriteSteps.lean. Claims about every step are case analyses of
these. -/

namespace Sys2Proof.Machine

/-! ## The step and its fetch -/

theorem coreStep_idle {s : State} (h : s.busy = false) : coreStep s = .next s := by simp [coreStep, h]

theorem coreStep_some {s : State} {r : Res Instr} (h : s.busy = true) (hf : fetch s = some r) :
    coreStep s = r.toOutcome exec := by
  rw [coreStep, if_pos h, hf]

theorem fetch_lzwd {s : State} (h : s.lzwUnit = .lzwd) : fetch s = some (fetchCode s) := by simp only [fetch, h]
theorem fetch_lzweStart {s : State} (h : s.lzwUnit = .lzweStart) : fetch s = some (.ok .eClear0 s) := by simp only [fetch, h]
theorem fetch_lzwe {s : State} (h : s.lzwUnit = .lzwe) : fetch s = some (fetchStep s) := by simp only [fetch, h]
theorem fetch_parse {s : State} (h : s.lzwUnit = .off) (hc : s.cmd = .parse) : fetch s = fetchParse s := by
  simp only [fetch, h, hc]
theorem fetch_serialize {s : State} (h : s.lzwUnit = .off) (hc : s.cmd = .serialize) : fetch s = fetchPart s := by
  simp only [fetch, h, hc]

theorem fetchParse_slot {s : State} {slot : Slot} (h : parseSlot s = some slot) : fetchParse s = some (readInstr slot s) := by
  unfold fetchParse
  split
  · rename_i hp
    simp [parseSlot, hp] at h
  · rw [h]

theorem fetchParse_lzw {s : State} (h : s.pst = .lzw) : fetchParse s = some (.ok .lzw s) := by simp only [fetchParse, h]

/-- SRC as its bytes and what stands behind them. -/
theorem source_split (s : State) : ∃ rest, s.src.answers = (available s.src.answers).map some ++ rest ∧ EndsOrFails rest :=
  answers_available _

/-! ## Reading -/

/-- The fault of a read: SRC ends or fails behind all of its bytes, and the position behind the last of them is recorded. -/
structure ReadFault (s u : State) (k : IoKind) (p : Nat) (bs : List Byte) (rest : List (Option Byte)) : Prop where
  position : p = s.pos + bs.length
  cause : (k = .unexpectedEof ∧ rest = [] ∧ Fed s u bs rest) ∨
    (k = .readFailure ∧ (∃ r, rest = none :: r) ∧ ∃ v, Fed s v bs rest ∧ u = failedRead v)

theorem FailedAt.readFault {s u : State} {p : Nat} {bs : List Byte} {rest : List (Option Byte)} (h : FailedAt s u p bs rest) :
    ReadFault s u .readFailure p bs rest := ⟨h.1, .inr ⟨rfl, h.2.1, h.2.2⟩⟩

/-- The rows that each slot can give. -/
def rowsAt : Slot → Instr → Prop
  | .header, i => ∃ a b, i = .hdr a b
  | .screen, i => ∃ w h p bg a, i = .lsd w h p bg a
  | .globalTable n, i => ∃ t : List Rgb, i = .gct t ∧ t.length = n
  | .indicator, i => i = .ext ∨ i = imgIndicator ∨ i = .trl ∨
      (∃ b, i = .unknown b ∧ b ≠ 0x21 ∧ b ≠ 0x2C ∧ b ≠ 0x3B) ∨ i = .eos
  | .label, i => i = .extGce .label ∨ i = .extCom ∨ i = .extApp .label ∨ i = .extPte .label ∨ ∃ l, i = .extSkip l
  | .gceBody, i => (∃ n, i = .extGce (.badSize n)) ∨ ∃ p d ti t, i = .extGce (.body p d ti t)
  | .appHeader, i => (∃ n, i = .extApp (.badSize n)) ∨ ∃ a b, i = .extApp (.header a b)
  | .pteHeader, i => (∃ n, i = .extPte (.badSize n)) ∨ ∃ f, i = .extPte (.header f)
  | .descriptor, i => ∃ l t w h p, i = imgAt l t w h p
  | .subBlock, i => i = .sbTerm ∨ ∃ f, i = .sbData f
  | .localTable n, i => ∃ t : List Rgb, i = .lct t ∧ t.length = n
  | .minCode, i => ∃ k, i = .mcs k

theorem pBind_some {α β : Type} {p : Parser α} {q : α → Parser β} {bs : List Byte} {r : β × List Byte} :
    pBind p q bs = some r ↔ ∃ a t, p bs = some (a, t) ∧ q a t = some r := by
  unfold pBind
  cases h : p bs with
  | none => simp
  | some x => cases x; simp

theorem pTable_length {n : Nat} {bs tail : List Byte} {t : List Rgb} (h : pTable n bs = some (t, tail)) : t.length = n := by
  induction n generalizing bs t tail with
  | zero => simp [pTable] at h; simp [← h.1]
  | succ n ih =>
    simp only [pTable, pBind_some, Option.some.injEq, Prod.mk.injEq] at h
    obtain ⟨r, t1, -, g, t2, -, b, t3, -, l, t4, hl, rfl, -⟩ := h
    simp [ih hl]

theorem rowsAt_pSlot {slot : Slot} {bs tail : List Byte} {i : Instr} (h : pSlot slot bs = some (i, tail)) : rowsAt slot i := by
  cases slot with
  | header =>
    simp only [pSlot, pHeader, pBind_some, Option.some.injEq, Prod.mk.injEq] at h
    obtain ⟨_, _, -, _, _, -, rfl, -⟩ := h
    exact ⟨_, _, rfl⟩
  | screen =>
    simp only [pSlot, pScreen, pBind_some, Option.some.injEq, Prod.mk.injEq] at h
    obtain ⟨_, _, -, _, _, -, _, _, -, _, _, -, _, _, -, rfl, -⟩ := h
    exact ⟨_, _, _, _, _, rfl⟩
  | globalTable n =>
    simp only [pSlot, pBind_some, Option.some.injEq, Prod.mk.injEq] at h
    obtain ⟨t, _, ht, rfl, -⟩ := h
    exact ⟨t, rfl, pTable_length ht⟩
  | localTable n =>
    simp only [pSlot, pBind_some, Option.some.injEq, Prod.mk.injEq] at h
    obtain ⟨t, _, ht, rfl, -⟩ := h
    exact ⟨t, rfl, pTable_length ht⟩
  | minCode =>
    simp only [pSlot, pMinCode, pBind_some, Option.some.injEq, Prod.mk.injEq] at h
    obtain ⟨_, _, -, rfl, -⟩ := h
    exact ⟨_, rfl⟩
  | indicator =>
    simp only [pSlot, pLoop, pBind_some] at h
    obtain ⟨b, t, -, h⟩ := h
    simp only [rowsAt]
    split at h
    · simp only [Option.some.injEq, Prod.mk.injEq] at h; exact .inl h.1.symm
    · split at h
      · simp only [Option.some.injEq, Prod.mk.injEq] at h; exact .inr (.inl h.1.symm)
      · split at h
        · simp only [Option.some.injEq, Prod.mk.injEq] at h; exact .inr (.inr (.inl h.1.symm))
        · simp only [Option.some.injEq, Prod.mk.injEq] at h
          exact .inr (.inr (.inr (.inl ⟨b, h.1.symm, by assumption, by assumption, by assumption⟩)))
  | label =>
    simp only [pSlot, pLabel, pBind_some] at h
    obtain ⟨b, t, -, h⟩ := h
    simp only [rowsAt]
    split at h
    · simp only [Option.some.injEq, Prod.mk.injEq] at h; exact .inl h.1.symm
    · split at h
      · simp only [Option.some.injEq, Prod.mk.injEq] at h; exact .inr (.inl h.1.symm)
      · split at h
        · simp only [Option.some.injEq, Prod.mk.injEq] at h; exact .inr (.inr (.inl h.1.symm))
        · split at h
          · simp only [Option.some.injEq, Prod.mk.injEq] at h; exact .inr (.inr (.inr (.inl h.1.symm)))
          · simp only [Option.some.injEq, Prod.mk.injEq] at h; exact .inr (.inr (.inr (.inr ⟨_, h.1.symm⟩)))
  | gceBody =>
    simp only [pSlot, pGce, pBind_some] at h
    obtain ⟨n, t1, -, h⟩ := h
    split at h
    · simp only [pBind_some, Option.some.injEq, Prod.mk.injEq] at h
      obtain ⟨_, _, -, _, _, -, _, _, -, _, _, -, rfl, -⟩ := h
      exact .inr ⟨_, _, _, _, rfl⟩
    · simp only [Option.some.injEq, Prod.mk.injEq] at h; exact .inl ⟨_, h.1.symm⟩
  | appHeader =>
    simp only [pSlot, pApp, pBind_some] at h
    obtain ⟨n, t1, -, h⟩ := h
    split at h
    · simp only [pBind_some, Option.some.injEq, Prod.mk.injEq] at h
      obtain ⟨_, _, -, _, _, -, rfl, -⟩ := h
      exact .inr ⟨_, _, rfl⟩
    · simp only [Option.some.injEq, Prod.mk.injEq] at h; exact .inl ⟨_, h.1.symm⟩
  | pteHeader =>
    simp only [pSlot, pPte, pBind_some] at h
    obtain ⟨n, t1, -, h⟩ := h
    split at h
    · simp only [pBind_some, Option.some.injEq, Prod.mk.injEq] at h
      obtain ⟨_, _, -, rfl, -⟩ := h
      exact .inr ⟨_, rfl⟩
    · simp only [Option.some.injEq, Prod.mk.injEq] at h; exact .inl ⟨_, h.1.symm⟩
  | descriptor =>
    simp only [pSlot, pImage, pBind_some, Option.some.injEq, Prod.mk.injEq] at h
    obtain ⟨_, _, -, _, _, -, _, _, -, _, _, -, _, _, -, rfl, -⟩ := h
    exact ⟨_, _, _, _, _, rfl⟩
  | subBlock =>
    simp only [pSlot, pSub, pBind_some] at h
    obtain ⟨p, t, -, h⟩ := h
    cases p with
    | none => simp only [Option.some.injEq, Prod.mk.injEq] at h; exact .inl h.1.symm
    | some f => simp only [Option.some.injEq, Prod.mk.injEq] at h; exact .inr ⟨f, h.1.symm⟩

/-! ## Every read consumes -/

/-- The parser leaves no more than it was given. -/
def Keeps {α : Type} (p : Parser α) : Prop := ∀ bs a t, p bs = some (a, t) → t.length ≤ bs.length

/-- The parser takes at least one byte. -/
def Eats {α : Type} (p : Parser α) : Prop := ∀ bs a t, p bs = some (a, t) → t.length < bs.length

theorem Eats.keeps {α : Type} {p : Parser α} (h : Eats p) : Keeps p := fun bs a t e => (h bs a t e).le

theorem keeps_pure {α : Type} (a : α) : Keeps fun bs => some (a, bs) := by
  intro bs b t h
  simp only [Option.some.injEq, Prod.mk.injEq] at h
  rw [h.2]

theorem eats_pByte : Eats pByte := by
  intro bs a t h
  cases bs with
  | nil => simp [pByte] at h
  | cons b l => simp only [pByte, Option.some.injEq, Prod.mk.injEq] at h; simp [← h.2]

theorem Eats.bind {α β : Type} {p : Parser α} {q : α → Parser β} (hp : Eats p) (hq : ∀ a, Keeps (q a)) : Eats (pBind p q) := by
  intro bs b t h
  obtain ⟨a, u, h1, h2⟩ := pBind_some.1 h
  have := hp bs a u h1
  have := hq a u b t h2
  omega

theorem Keeps.bind {α β : Type} {p : Parser α} {q : α → Parser β} (hp : Keeps p) (hq : ∀ a, Keeps (q a)) :
    Keeps (pBind p q) := by
  intro bs b t h
  obtain ⟨a, u, h1, h2⟩ := pBind_some.1 h
  exact (hq a u b t h2).trans (hp bs a u h1)

theorem Keeps.ite {α : Type} {p q : Parser α} {c : Prop} [Decidable c] (h1 : Keeps p) (h2 : Keeps q) :
    Keeps (if c then p else q) := by
  split
  · exact h1
  · exact h2

theorem eats_pU16 : Eats pU16 := eats_pByte.bind fun _ => (eats_pByte.bind fun _ => keeps_pure _).keeps

theorem keeps_pBytes (n : Nat) : Keeps (pBytes n) := by
  induction n with
  | zero => exact keeps_pure _
  | succ n ih => exact (eats_pByte.bind fun _ => ih.bind fun _ => keeps_pure _).keeps

theorem eats_pBytes (n : Nat) : Eats (pBytes (n + 1)) := eats_pByte.bind fun _ => (keeps_pBytes n).bind fun _ => keeps_pure _

theorem keeps_pTable (n : Nat) : Keeps (pTable n) := by
  induction n with
  | zero => exact keeps_pure _
  | succ n ih =>
    exact (eats_pByte.bind fun _ => (eats_pByte.bind fun _ => (eats_pByte.bind fun _ => ih.bind fun _ => keeps_pure _).keeps).keeps).keeps

theorem eats_pTable (n : Nat) : Eats (pTable (n + 1)) :=
  eats_pByte.bind fun _ => (eats_pByte.bind fun _ =>
    (eats_pByte.bind fun _ => (keeps_pTable n).bind fun _ => keeps_pure _).keeps).keeps

theorem eats_pImage : Eats pImage :=
  eats_pU16.bind fun _ => (eats_pU16.bind fun _ => (eats_pU16.bind fun _ => (eats_pU16.bind fun _ =>
    (eats_pByte.bind fun _ => keeps_pure _).keeps).keeps).keeps).keeps

theorem eats_pLoop : Eats pLoop :=
  eats_pByte.bind fun _ => .ite (keeps_pure _) (.ite (keeps_pure _) (.ite (keeps_pure _) (keeps_pure _)))

theorem eats_pLabel : Eats pLabel :=
  eats_pByte.bind fun _ => .ite (keeps_pure _) (.ite (keeps_pure _) (.ite (keeps_pure _) (.ite (keeps_pure _) (keeps_pure _))))

theorem eats_pGce : Eats pGce :=
  eats_pByte.bind fun _ => .ite
    (eats_pByte.bind fun _ => (eats_pU16.bind fun _ => (eats_pByte.bind fun _ => (eats_pByte.bind fun _ =>
      keeps_pure _).keeps).keeps).keeps).keeps (keeps_pure _)

theorem eats_pApp : Eats pApp :=
  eats_pByte.bind fun _ => .ite ((keeps_pBytes 8).bind fun _ => (keeps_pBytes 3).bind fun _ => keeps_pure _) (keeps_pure _)

theorem eats_pPte : Eats pPte :=
  eats_pByte.bind fun _ => .ite ((keeps_pBytes 12).bind fun _ => keeps_pure _) (keeps_pure _)

theorem eats_pSub : Eats pSub :=
  (eats_pByte.bind fun _ => .ite (keeps_pure _) ((keeps_pBytes _).bind fun _ => keeps_pure _)).bind fun p => by
    cases p <;> exact keeps_pure _

/-- Every slot's read takes a byte, but for a colour table of no entries. -/
theorem eats_pSlot {slot : Slot} (h1 : slot ≠ .globalTable 0) (h2 : slot ≠ .localTable 0) : Eats (pSlot slot) := by
  cases slot with
  | header => exact (eats_pBytes 2).bind fun _ => (keeps_pBytes 3).bind fun _ => keeps_pure _
  | screen =>
    exact eats_pU16.bind fun _ => (eats_pU16.bind fun _ => (eats_pByte.bind fun _ => (eats_pByte.bind fun _ =>
      (eats_pByte.bind fun _ => keeps_pure _).keeps).keeps).keeps).keeps
  | globalTable n =>
    cases n with
    | zero => exact absurd rfl h1
    | succ n => exact (eats_pTable n).bind fun _ => keeps_pure _
  | localTable n =>
    cases n with
    | zero => exact absurd rfl h2
    | succ n => exact (eats_pTable n).bind fun _ => keeps_pure _
  | indicator => exact eats_pLoop
  | label => exact eats_pLabel
  | gceBody => exact eats_pGce
  | appHeader => exact eats_pApp
  | pteHeader => exact eats_pPte
  | descriptor => exact eats_pImage
  | subBlock => exact eats_pSub
  | minCode => exact eats_pByte.bind fun _ => keeps_pure _

theorem RanOut.readFault {r : Res Instr} {s : State} {bs : List Byte} {rest : List (Option Byte)} (h : RanOut r s bs rest)
    (hr : EndsOrFails rest) : ∃ k p u, r = .raise (.ioError k) p u ∧ ReadFault s u k p bs rest := by
  rcases hr with rfl | ⟨t, rfl⟩
  · obtain ⟨v, hv, he⟩ := h.1 rfl
    exact ⟨_, _, _, he, rfl, .inl ⟨rfl, rfl, hv⟩⟩
  · obtain ⟨v, hv, he⟩ := h.2 t rfl
    exact ⟨_, _, _, he, rfl, .inr ⟨rfl, ⟨t, rfl⟩, v, hv, rfl⟩⟩

/-- All the read of an instruction can do, whatever the bytes. -/
theorem readInstr_cases (slot : Slot) {s : State} {bs : List Byte} {rest : List (Option Byte)}
    (hs : s.src.answers = bs.map some ++ rest) (hr : EndsOrFails rest) :
    (∃ i used tail, readInstr slot s = .ok i (took used (tail.map some ++ rest) s) ∧ bs = used ++ tail ∧ rowsAt slot i ∧
      (i ≠ .eos → slot ≠ .globalTable 0 → slot ≠ .localTable 0 → used ≠ []) ∧ (rest ≠ [] → pSlot slot bs ≠ none)) ∨
    (∃ k p u, readInstr slot s = .raise (.ioError k) p u ∧ ReadFault s u k p bs rest ∧ pSlot slot bs = none) := by
  have eat : ∀ i used tail, pSlot slot bs = some (i, tail) → bs = used ++ tail →
      slot ≠ .globalTable 0 → slot ≠ .localTable 0 → used ≠ [] := by
    intro i used tail hp hu h1 h2 hn
    have := eats_pSlot h1 h2 bs i tail hp
    rw [hu, hn] at this
    simp at this
  by_cases hi : slot = .indicator
  · subst hi
    cases bs with
    | nil =>
      rcases hr with rfl | ⟨r, rfl⟩
      · left
        have hs' : s.src.answers = [] := by simpa using hs
        refine ⟨.eos, [], [], ?_, rfl, .inr (.inr (.inr (.inr rfl))), fun h => absurd rfl h,
          fun h => absurd rfl h⟩
        have : readAtLoop s = .ok .eos s := by simp [readAtLoop, readIndicator, srcNext, hs']
        rw [readInstr, this]
        congr 1
        rw [← took_nil s, hs']; rfl
      · right
        have hs' : s.src.answers = none :: r := by simpa using hs
        refine ⟨_, _, _, readInstr_fail_indicator hs', ⟨by simp, .inr ⟨rfl, ⟨r, rfl⟩, s, ?_, rfl⟩⟩, rfl⟩
        rw [← hs']; exact Fed.refl
    | cons b t =>
      have hcons : readInstr .indicator s = _ := readAtLoop_cons (s := s) (b := b) (rest := t.map some ++ rest)
        (by simpa using hs)
      cases hp : pLoop (b :: t) with
      | none =>
        right; rw [hcons]
        obtain ⟨k, p, u, h, hf⟩ := (implements_loop.short s _ rest hs hp).readFault hr
        exact ⟨k, p, u, h, hf, hp⟩
      | some x =>
        obtain ⟨i, tail⟩ := x
        left
        obtain ⟨used, hu, hok⟩ := implements_loop.full s _ rest i tail hs hp
        exact ⟨i, used, tail, hcons.trans hok, hu, rowsAt_pSlot (slot := .indicator) hp, fun _ => eat i used tail hp hu,
          fun _ => by rw [show pSlot .indicator (b :: t) = _ from hp]; simp⟩
  · cases hp : pSlot slot bs with
    | none =>
      right
      obtain ⟨k, p, u, h, hf⟩ := ((implements_readInstr slot hi).short s bs rest hs hp).readFault hr
      exact ⟨k, p, u, h, hf, rfl⟩
    | some x =>
      obtain ⟨i, tail⟩ := x
      left
      obtain ⟨used, hu, hok⟩ := (implements_readInstr slot hi).full s bs rest i tail hs hp
      exact ⟨i, used, tail, hok, hu, rowsAt_pSlot hp, fun _ => eat i used tail hp hu, by simp⟩

/-! ## A step of the decoder -/

/-- What a step of a decode does with the code `c` it has taken, from the state `u` behind that code. -/
inductive CodeRun (u : State) : Nat → State → Prop where
  | clear : CodeRun u u.dec.clr { u with dec := clearDecoder u.dec }
  | known (c : Nat) (h : c < u.dec.next) (h1 : c ≠ u.dec.clr) (h2 : c ≠ u.dec.endc) :
      CodeRun u c (resolve c (dictRead u.dec.dict c) u)
  | next (p : Nat) (h : u.dec.prev = some p) :
      CodeRun u u.dec.next (resolve u.dec.next (dictRead u.dec.dict p ++ (dictRead u.dec.dict p).take 1) u)
  | invalid (c : Nat) : CodeRun u c (takeFault (.invalidCode c u.dec.w) u.pos u)

/-- All a step of a decode can do. -/
inductive DecodeStep (s : State) (bs : List Byte) (rest : List (Option Byte)) : State → Prop where
  | failed (p : Nat) (u : State) (h : FailedAt s u p bs rest) (ho : bitBufferOk s.dec → CodesRunOut s) :
      DecodeStep s bs rest (takeFault (.ioError .readFailure) p u)
  | finished (u v : State) (c : Option Nat) (n : Nat) (h : nextCode s = .ok c u) (hc : c = none ∨ c = some u.dec.endc)
      (hm : Moved s v bs rest n) (hd : drain u = .ok () v) (ho : rest ≠ [] → ¬ CodesRunOut s) : DecodeStep s bs rest (finishDecode v)
  | ran (u t : State) (c n : Nat) (h : nextCode s = .ok (some c) u) (hm : Moved s u bs rest n) (hc : c < 2 ^ s.dec.w)
      (hb : bitBufferOk s.dec → bitBufferOk u.dec) (ho : bitBufferOk s.dec → ¬ CodesRunOut s) (hr : CodeRun u c t) :
      DecodeStep s bs rest t

theorem exec_endCode (s : State) : exec .endCode s = finishCode s := rfl
theorem exec_noCode (s : State) : exec .noCode s = finishCode s := rfl

/-- The code taken, in the words of the bit stream. -/
theorem nextCode_bits {s u : State} {c : Option Nat} (hb : bitBufferOk s.dec) (h : nextCode s = .ok c u) :
    (c = none → (bitsLeft s).length < s.dec.w) ∧
    ∀ v, c = some v → s.dec.w ≤ (bitsLeft s).length ∧ v = ofBits ((bitsLeft s).take s.dec.w) := by
  obtain ⟨rest, hs, hr⟩ := source_split s
  rcases nextCode_spec hs hr hb.2 with ⟨hw, t, n, ht, -⟩ | ⟨hw, t, n, ht, -⟩ | ⟨-, -, p, t, ht, -⟩ <;> rw [ht] at h <;> cases h
  · exact ⟨by simp, fun v hv => ⟨hw, by simpa using hv.symm⟩⟩
  · exact ⟨fun _ => hw, by simp⟩

theorem Moved.context {s t : State} {bs : List Byte} {rest : List (Option Byte)} {n : Nat} (h : Moved s t bs rest n) :
    codeContext t.dec = codeContext s.dec := by
  obtain ⟨used, bs', -, hf⟩ := h.used
  rw [hf]; rfl

/-- What the class of the code taken says of `decodeCode`. -/
theorem decodeCode_taken {s u : State} {bs : List Byte} {rest : List (Option Byte)} {n v : Nat} (hb : bitBufferOk s.dec)
    (h : nextCode s = .ok (some v) u) (hm : Moved s u bs rest n) :
    s.dec.w ≤ (bitsLeft s).length ∧ (decodeCode (codeContext s.dec) (bitsLeft s)).1 = classify (codeContext u.dec) v := by
  obtain ⟨hw, hv⟩ := (nextCode_bits hb h).2 v rfl
  rw [decodeCode, if_neg (show ¬ (bitsLeft s).length < (codeContext s.dec).w from Nat.not_lt.2 hw), hm.context, hv]
  exact ⟨hw, rfl⟩

theorem sequenceOpen_done {s : State} (h : subBlocksDone s.dec = true) : sequenceOpen s = false := by
  rw [sequenceOpen, h]; rfl

theorem finishCode_cases {s u : State} {bs : List Byte} {rest : List (Option Byte)} {n : Nat} {c : Option Nat}
    (hr : EndsOrFails rest) (h : nextCode s = .ok c u) (hc : c = none ∨ c = some u.dec.endc) (hm : Moved s u bs rest n) :
    ∃ t, finishCode u = .next t ∧ DecodeStep s bs rest t := by
  obtain ⟨used, bs', hb, hf⟩ := hm.used
  rcases drain_spec hf.answers hr with ⟨v, m, hd, hm2, -, -, hdone⟩ | ⟨p, v, hd, hfail, hopen⟩
  · have hmv := hm.trans hb hf hm2
    refine ⟨finishDecode v, by rw [finishCode, hd]; rfl, .finished u v c (n + m) h hc hmv hd fun e ho => ?_⟩
    have := ho.1
    rw [← hmv.seqOpen e, sequenceOpen_done hdone] at this
    cases this
  · refine ⟨_, by rw [finishCode, hd]; rfl, .failed p v (hb ▸ FailedAt.trans hf hfail) fun hbit => ?_⟩
    refine ⟨(hm.seqOpen hfail.rest_ne).symm.trans hopen, ?_⟩
    rcases hc with rfl | rfl
    · exact .inl ((nextCode_bits hbit h).1 rfl)
    · exact .inr ((decodeCode_taken hbit h hm).2.trans (if_pos rfl))

theorem decodeStep_cases {s : State} {bs : List Byte} {rest : List (Option Byte)} (hb : s.busy = true) (hu : s.lzwUnit = .lzwd)
    (hs : s.src.answers = bs.map some ++ rest) (hr : EndsOrFails rest) : ∃ t,
      coreStep s = .next t ∧ DecodeStep s bs rest t := by
  rw [coreStep_some hb (fetch_lzwd hu), fetchCode]
  rcases nextCode_frame hs hr with ⟨c, u, n, h, hm, hc⟩ | ⟨p, u, h, hfail⟩
  · rw [h, Res.bind_ok]
    cases c with
    | none => exact finishCode_cases hr h (.inl rfl) hm
    | some c =>
      obtain ⟨h1, h2⟩ := hc c rfl
      have run : ∀ t, classify (codeContext u.dec) c ≠ .endCode → CodeRun u c t → DecodeStep s bs rest t := fun t hn ht =>
        .ran u t c n h hm h1 h2 (fun hbit ho => by
          obtain ⟨hw, he⟩ := decodeCode_taken hbit h hm
          exact ho.2.elim (Nat.not_lt.2 hw) fun e => hn (he.symm.trans e)) ht
      have hcl : (codeContext u.dec).clr = u.dec.clr := rfl
      have hen : (codeContext u.dec).endc = u.dec.endc := rfl
      have hne : (codeContext u.dec).next = u.dec.next := rfl
      have hpr : (codeContext u.dec).prev = u.dec.prev := rfl
      dsimp only [Res.toOutcome_ok]
      rcases classify_cases (codeContext u.dec) c with ⟨a, e⟩ | ⟨_, a, e⟩ | ⟨a1, a2, a, e⟩ | ⟨_, _, a, a2, e⟩ | ⟨_, _, _,
        _, e⟩ <;>
        rw [e]
      · exact finishCode_cases hr h (.inr (by rw [a, hen])) hm
      · rw [hcl] at a; subst a; exact ⟨_, rfl, run _ (by rw [e]; simp) .clear⟩
      · exact ⟨_, rfl, run _ (by rw [e]; simp) (.known c a a2 a1)⟩
      · rw [hne] at a; subst a
        rw [hpr] at a2
        obtain ⟨p, hp⟩ := Option.ne_none_iff_exists'.1 a2
        refine ⟨_, ?_, run _ (by rw [e]; simp) (.next p hp)⟩
        show execNextCode _ u = _
        simp only [execNextCode, hp]
      · exact ⟨_, rfl, run _ (by rw [e]; simp) (.invalid c)⟩
  · refine ⟨_, by rw [h]; rfl, .failed p u hfail fun hbit => ?_⟩
    rcases nextCode_spec hs hr hbit.2 with ⟨-, t, n, ht, -⟩ | ⟨-, t, n, ht, -⟩ | ⟨hw, ho, -⟩
    · rw [ht] at h; cases h
    · rw [ht] at h; cases h
    · exact ⟨ho, .inl hw⟩

/-! ## A step of PARSE outside its decodes -/

/-- What a row of PARSE does, from the state `u` behind its bytes. -/
inductive ParseRun (u : State) : Slot → Instr → State → Prop where
  | hdr (a b : Bytes3) (h : a = gifSignature) : ParseRun u .header (.hdr a b)
      { u with scratch := { u.scratch with doc := { u.scratch.doc with header := ⟨a, b⟩ } }, pst := .lsd }
  | badSignature (a b : Bytes3) (h : a ≠ gifSignature) :
      ParseRun u .header (.hdr a b) (takeFault (.invalidSignature a) u.pos u)
  | lsd (w h : Half) (p bg a : Byte) : ParseRun u .screen (.lsd w h p bg a)
      { u with
        scratch := { u.scratch with doc := { u.scratch.doc with screen := ⟨w, h, p, bg, a⟩ } }
        pst := if ctLen (gctFlag p) (gctExp p) = 0 then .loop else .gct }
  | gct (n : Nat) (t : List Rgb) : ParseRun u (.globalTable n) (.gct t)
      { u with scratch := { u.scratch with doc := { u.scratch.doc with gct := some t } }, pst := .loop }
  | lct (n : Nat) (t : List Rgb) : ParseRun u (.localTable n) (.lct t)
      { u with scratch := { u.scratch with img := { u.scratch.img with lct := some t } }, pst := .minCode }
  | mcs (k : Byte) : ParseRun u .minCode (.mcs k)
      { u with scratch := { u.scratch with img := { u.scratch.img with minCodeSize := k } }, pst := .lzw }
  | ext : ParseRun u .indicator .ext { u with pst := .label }
  | imgOpen : ParseRun u .indicator imgIndicator { u with pst := .imgDesc }
  | img (l t w h : Half) (p : Byte) : ParseRun u .descriptor (imgAt l t w h p)
      { u with
        scratch := { u.scratch with img := ⟨l, t, w, h, p, none, 0, []⟩ }
        pst := if ctLen (lctFlag p) (lctExp p) = 0 then .minCode else .lct }
  | done (i : Instr) (h : i = .trl ∨ i = .eos) : ParseRun u .indicator i (parseDone u)
  | unknown (b : Byte) (h : b ≠ 0x21 ∧ b ≠ 0x2C ∧ b ≠ 0x3B) :
      ParseRun u .indicator (.unknown b) (takeFault (.unknownBlock b) u.pos u)
  | gceOpen : ParseRun u .label (.extGce .label) { u with pst := .gce }
  | appOpen : ParseRun u .label (.extApp .label) (awaitHeader .app u)
  | pteOpen : ParseRun u .label (.extPte .label) (awaitHeader .pte u)
  | gce (p : Byte) (d : Half) (ti : Byte) : ParseRun u .gceBody (.extGce (.body p d ti 0))
      { u with
        scratch := { u.scratch with doc := { u.scratch.doc with gces := u.scratch.doc.gces ++ [⟨p, d, ti⟩] } }, pst := .loop }
  | badSize (slot : Slot) (i : Instr) (l n : Byte) (h : slot = .gceBody ∨ slot = .appHeader ∨ slot = .pteHeader) :
      ParseRun u slot i (takeFault (.badBlockSize l n) u.pos u)
  | com : ParseRun u .label .extCom (startSubBlocks .comment u)
  | app (a : Bytes8) (b : Bytes3) : ParseRun u .appHeader (.extApp (.header a b))
      (startSubBlocks .app { u with scratch := { u.scratch with appId := a, appAuth := b } })
  | pte (f : Bytes12) : ParseRun u .pteHeader (.extPte (.header f))
      (startSubBlocks .pte { u with scratch := { u.scratch with pteFields := f } })
  | skip (l : Byte) : ParseRun u .label (.extSkip l) (startSubBlocks .skip u)
  | term (t : State) (h : execSbTerm u = .next t) : ParseRun u .subBlock .sbTerm t
  | data (f : List Byte) (t : State) (h : execSbData f u = .next t) : ParseRun u .subBlock (.sbData f) t

theorem sbTerm_next (u : State) : ∃ t, execSbTerm u = .next t := by
  unfold execSbTerm
  split <;> exact ⟨_, rfl⟩

theorem sbData_next (f : List Byte) (u : State) : ∃ t, execSbData f u = .next t := by
  unfold execSbData
  split <;> exact ⟨_, rfl⟩

theorem parseRun_cases {slot : Slot} {i : Instr} (u : State) (h : rowsAt slot i) : ∃ t,
    exec i u = .next t ∧ ParseRun u slot i t := by
  cases slot with
  | header =>
    obtain ⟨a, b, rfl⟩ := h
    by_cases hs : a = gifSignature
    · exact ⟨_, by rw [exec, execHdr, if_pos hs], .hdr a b hs⟩
    · exact ⟨_, by rw [exec, execHdr, if_neg hs]; rfl, .badSignature a b hs⟩
  | screen => obtain ⟨_, _, _, _, _, rfl⟩ := h; exact ⟨_, rfl, .lsd _ _ _ _ _⟩
  | globalTable n => obtain ⟨t, rfl, -⟩ := h; exact ⟨_, rfl, .gct n t⟩
  | localTable n => obtain ⟨t, rfl, -⟩ := h; exact ⟨_, rfl, .lct n t⟩
  | minCode => obtain ⟨k, rfl⟩ := h; exact ⟨_, rfl, .mcs k⟩
  | indicator =>
    rcases h with rfl | rfl | rfl | ⟨b, rfl, hb⟩ | rfl
    · exact ⟨_, rfl, .ext⟩
    · exact ⟨_, rfl, .imgOpen⟩
    · exact ⟨_, rfl, .done _ (.inl rfl)⟩
    · exact ⟨_, rfl, .unknown b hb⟩
    · exact ⟨_, rfl, .done _ (.inr rfl)⟩
  | label =>
    rcases h with rfl | rfl | rfl | rfl | ⟨l, rfl⟩
    · exact ⟨_, rfl, .gceOpen⟩
    · exact ⟨_, rfl, .com⟩
    · exact ⟨_, rfl, .appOpen⟩
    · exact ⟨_, rfl, .pteOpen⟩
    · exact ⟨_, rfl, .skip l⟩
  | gceBody =>
    rcases h with ⟨n, rfl⟩ | ⟨p, d, ti, t, rfl⟩
    · exact ⟨_, rfl, .badSize _ _ _ _ (.inl rfl)⟩
    · by_cases ht : t = 0
      · subst ht; exact ⟨_, rfl, .gce p d ti⟩
      · exact ⟨_, by rw [exec, execExtGce]; exact if_neg ht, .badSize _ _ _ _ (.inl rfl)⟩
  | appHeader =>
    rcases h with ⟨n, rfl⟩ | ⟨a, b, rfl⟩
    · exact ⟨_, rfl, .badSize _ _ _ _ (.inr (.inl rfl))⟩
    · exact ⟨_, rfl, .app a b⟩
  | pteHeader =>
    rcases h with ⟨n, rfl⟩ | ⟨f, rfl⟩
    · exact ⟨_, rfl, .badSize _ _ _ _ (.inr (.inr rfl))⟩
    · exact ⟨_, rfl, .pte f⟩
  | descriptor => obtain ⟨_, _, _, _, _, rfl⟩ := h; exact ⟨_, rfl, .img _ _ _ _ _⟩
  | subBlock =>
    rcases h with rfl | ⟨f, rfl⟩
    · obtain ⟨t, ht⟩ := sbTerm_next u; exact ⟨t, ht, .term t ht⟩
    · obtain ⟨t, ht⟩ := sbData_next f u; exact ⟨t, ht, .data f t ht⟩

/-- All a step of a PARSE outside its decodes can do where PST selects bytes. -/
inductive ParseStep (s : State) (slot : Slot) (bs : List Byte) (rest : List (Option Byte)) : State → Prop where
  | failed (k : IoKind) (p : Nat) (u : State) (h : ReadFault s u k p bs rest) (ho : InstrRunsOut slot bs) :
    ParseStep s slot bs rest (takeFault (.ioError k) p u)
  | ran (i : Instr) (used tail : List Byte) (t : State) (hb : bs = used ++ tail)
      (he : i ≠ .eos → slot ≠ .globalTable 0 → slot ≠ .localTable 0 → used ≠ []) (ho : rest ≠ [] → ¬ InstrRunsOut slot bs)
      (h : ParseRun (took used (tail.map some ++ rest) s) slot i t) : ParseStep s slot bs rest t

theorem parseStep_cases {s : State} {slot : Slot} {bs : List Byte} {rest : List (Option Byte)} (hb : s.busy = true)
    (hu : s.lzwUnit = .off) (hc : s.cmd = .parse) (hp : parseSlot s = some slot)
    (hs : s.src.answers = bs.map some ++ rest) (hr : EndsOrFails rest) :
    ∃ t, coreStep s = .next t ∧ ParseStep s slot bs rest t := by
  rw [coreStep_some hb (by rw [fetch_parse hu hc, fetchParse_slot hp])]
  rcases readInstr_cases slot hs hr with ⟨i, used, tail, h, hbs, hrow, he, hn⟩ | ⟨k, p, u, h, hf, hn⟩
  · obtain ⟨t, ht, hrun⟩ := parseRun_cases (took used (tail.map some ++ rest) s) hrow
    exact ⟨t, by rw [h]; exact ht, .ran i used tail t hbs he
      (fun e ho => hn e ((instrRunsOut_iff (parseSlot_tableOk hp)).1 ho)) hrun⟩
  · exact ⟨_, by rw [h]; rfl, .failed k p u hf ((instrRunsOut_iff (parseSlot_tableOk hp)).2 hn)⟩

end Sys2Proof.Machine
end

