-- ==== Sys2Proof/Laws/WriteSteps.lean ====
section
/-! SUPPORT. What a step of SERIALIZE and of the encoder can do, said once for each: what it writes, where a write fails, and
what becomes of the encoder's object. -/

namespace Sys2Proof.Machine

/-! ## A step of SERIALIZE outside its encodes -/

/-- The part behind a part (44_container_serializer.md R285); none behind the last, and S.IMG hands over when no image is left. -/
def partNext : SState → Option SState
  | .header => some .lsd
  | .lsd => some .gct
  | .gct => some .gce
  | .gce => some .comment
  | .comment => some .app
  | .app => some .pte
  | .pte => some .image
  | .image => some .trailer
  | .trailer => none
  | .idle => none
  | .done => none
  | .fault => none

theorem WouldWrite.unique {s : State} {a b : List Byte} (ha : WouldWrite s a) (hb : WouldWrite s b) : a = b := by
  cases h : imageAtHand s with
  | some m => rw [ha.image m h, hb.image m h]
  | none =>
    obtain ⟨v, hv⟩ := ha.goesOn h
    exact List.append_cancel_left ((ha.bytes v hv).symm.trans (hb.bytes v hv))

theorem wouldWrite_of {s v : State} {ws : List Byte} (hi : imageAtHand s = none) (h : coreStep (roomy s) = .next v)
    (hv : v.snk.bytes = s.snk.bytes ++ ws) : WouldWrite s ws :=
  { image := fun m hm => absurd (hi.symm.trans hm) (by simp)
    bytes := fun u hu => by rw [h] at hu; cases hu; exact hv
    goesOn := fun _ => ⟨v, h⟩ }

theorem imageAtHand_unit {s : State} (h : s.lzwUnit ≠ .off) : imageAtHand s = none := if_neg fun e => h e.1

theorem imageAtHand_part {s : State} (h : s.sst ≠ .image) : imageAtHand s = none := if_neg fun e => h e.2.2

theorem imageAtHand_image {s : State} (hu : s.lzwUnit = .off) (hc : s.cmd = .serialize) (hs : s.sst = .image) {d : Document}
    (hd : s.doc = some d) : imageAtHand s = d.images[s.imgIdx]? := by
  rw [imageAtHand, if_pos ⟨hu, hc, hs⟩, hd]; rfl

/-- All a step of a SERIALIZE outside its encodes can do. -/
inductive PartStep (s : State) : Host.Outcome State Fault Refusal → Prop where
  | refused (r : Refusal) (h : coreStep (roomy s) = .refused r)
      (hi : s.doc = none ∨ ∃ m, imageAtHand s = some m ∧ room s (imageHead m).length = true) : PartStep s (.refused r)
  | failed (b : Byte) (ws all : List Byte) (h : s.snk.okWrites = some ws.length) (ha : ws ++ [b] <+: all) (hw : WouldWrite s all) :
      PartStep s (.next (takeFault (.ioError .writeFailure) (s.spos + ws.length) (failedWrite b (wrote ws s))))
  | handed (ws : List Byte) (next : SState) (h : partNext s.sst = some next) (hr : room s ws.length = true) (hw : WouldWrite s ws)
      (hi : s.sst = .image → ∃ d, s.doc = some d ∧ d.images[s.imgIdx]? = none) :
      PartStep s (.next (wrote ws { s with sst := next }))
  | image (ws : List Byte) (d : Document) (m : ImageBlock) (hs : s.sst = .image) (hd : s.doc = some d)
      (hm : d.images[s.imgIdx]? = some m) (hr : room s ws.length = true) (hw : WouldWrite s ws)
      (hk : 2 ≤ m.minCodeSize.toNat ∧ m.minCodeSize.toNat ≤ 8) (ha : alphabetOk m.minCodeSize.toNat m.pixels = true) :
      PartStep s (.next (startEncode m.minCodeSize.toNat m.pixels (wrote ws { s with pixWritten := false })))
  | done (hs : s.sst = .trailer) (hr : room s 1 = true) (hw : WouldWrite s [0x3B]) :
      PartStep s (.next (finishCommand { wrote [0x3B] s with sst := .done }))

theorem minCodeSizeOk_iff (k : Nat) : minCodeSizeOk k = true ↔ 2 ≤ k ∧ k ≤ 8 := by
  unfold minCodeSizeOk Config.kMin Config.kMax
  rw [Bool.and_eq_true, decide_eq_true_iff, decide_eq_true_iff]

theorem writes_pte (d : Document) : Writes
    (fun t => if d.ptes = [] then .ok () t
      else (putBytes [0x21, 0x01] t).bind fun _ u => (putEach putPte d.ptes u).bind fun _ v => mustPut 0x00 v)
    (if d.ptes = [] then [] else
      [0x21, 0x01] ++ ((d.ptes.flatMap fun p => [0x0C] ++ (p.fields.toList ++ frameChunks p.text.length p.text)) ++ [0x00])) := by
  by_cases h : d.ptes = []
  · simp only [if_pos h]; exact writes_nil
  · simp only [if_neg h]
    exact (writes_putBytes _).bind ((writes_putEach writes_putPte _).bind (writes_mustPut _))

theorem writes_hdr (d : Document) : Writes
    (fun t => (putBytes d.header.signature.toList t).bind fun _ u => putBytes d.header.version.toList u)
    (d.header.signature.toList ++ d.header.version.toList) := (writes_putBytes _).bind (writes_putBytes _)

theorem writes_lsd (d : Document) : Writes
    (fun t => (putU16 d.screen.width t).bind fun _ u => (putU16 d.screen.height u).bind fun _ v =>
      putBytes [d.screen.packed, d.screen.bgIndex, d.screen.aspect] v)
    (encodeU16 d.screen.width ++ (encodeU16 d.screen.height ++ [d.screen.packed, d.screen.bgIndex, d.screen.aspect])) :=
  (writes_putU16 _).bind ((writes_putU16 _).bind (writes_putBytes _))

theorem take_prefix_of_getElem? {α : Type} {l : List α} {m : Nat} {b : α} (h : l[m]? = some b) : l.take m ++ [b] <+: l := by
  obtain ⟨hm, rfl⟩ := List.getElem?_eq_some_iff.1 h
  rw [← List.take_succ_eq_append_getElem hm]
  exact List.take_prefix _ _

/-- A writer's short case with the written bytes named. -/
theorem Writes.cases {r : State → Res Unit} {bs : List Byte} (h : Writes r bs) (s : State) :
    (room s bs.length = true ∧ r s = .ok () (wrote bs s)) ∨
    ∃ b ws, s.snk.okWrites = some ws.length ∧ ws ++ [b] <+: bs ∧
      r s = .raise (.ioError .writeFailure) (s.spos + ws.length) (failedWrite b (wrote ws s)) := by
  by_cases hr : room s bs.length = true
  · exact .inl ⟨hr, h.full s hr⟩
  · obtain ⟨m, hm, hl⟩ := not_room_iff.1 hr
    obtain ⟨b, hb', hb⟩ := h.short s m hm hl
    have hlen : (bs.take m).length = m := by rw [List.length_take]; omega
    exact .inr ⟨b, bs.take m, by rw [hlen]; exact hm, take_prefix_of_getElem? hb', by rw [hlen]; exact hb⟩

theorem partStep_emit {here next : SState} {write : Document → State → Res Unit} {bytes : Document → List Byte} {s : State}
    (hw : ∀ d, Writes (write d) (bytes d)) (hs : s.sst = here) (hn : partNext here = some next) (hi : here ≠ .image)
    (hc : coreStep (roomy s) = emitPart here next write (roomy s)) : PartStep s (emitPart here next write s) := by
  have e : ({ s with sst := here } : State) = s := by rw [← hs]
  have hh : imageAtHand s = none := imageAtHand_part (hs ▸ hi)
  cases hd : s.doc with
  | none =>
    rw [emitPart, hd]
    refine .refused _ ?_ (.inl hd)
    rw [hc, emitPart, show (roomy s).doc = none from hd]
  | some d =>
    have would : WouldWrite s (bytes d) :=
      wouldWrite_of hh (hc.trans (emitPart_room hw (s := roomy s) hd (room_none rfl _))) rfl
    rw [emitPart_some hd, e]
    rcases (hw d).cases s with ⟨hr, h⟩ | ⟨b, ws, hm, hp, h⟩
    · rw [h]; exact .handed (bytes d) next (hs ▸ hn) hr would fun h => absurd (hs ▸ h) hi
    · rw [h]; exact .failed b ws (bytes d) hm hp would

theorem startImageEncode_k {m : ImageBlock} {s : State} (h : ¬ minCodeSizeOk m.minCodeSize.toNat = true) :
    startImageEncode m s = .refused .badMinCodeSize := by simp [startImageEncode, h]

theorem startImageEncode_alphabet {m : ImageBlock} {s : State} (hk : minCodeSizeOk m.minCodeSize.toNat = true)
    (h : ¬ alphabetOk m.minCodeSize.toNat m.pixels = true) : startImageEncode m s = .refused .symbolOutOfAlphabet := by
  simp [startImageEncode, hk, h]

theorem startImageEncode_ok {m : ImageBlock} {s : State} (hk : minCodeSizeOk m.minCodeSize.toNat = true)
    (h : alphabetOk m.minCodeSize.toNat m.pixels = true) :
    startImageEncode m s = .next (startEncode m.minCodeSize.toNat m.pixels { s with pixWritten := false }) := by
  simp [startImageEncode, hk, h]

/-- The start of an image's encode writes nothing. -/
theorem startImageEncode_snk {m : ImageBlock} {s v : State} (h : startImageEncode m s = .next v) : v.snk.bytes = s.snk.bytes := by
  unfold startImageEncode at h
  split at h
  · cases h
  · split at h <;> cases h
    rfl

theorem execSImg_none {s : State} (hd : s.doc = none) : execSImg s = .refused .noDocument := by rw [execSImg, hd]

theorem execSImg_last {s : State} {d : Document} (hd : s.doc = some d) (hm : d.images[s.imgIdx]? = none) :
    execSImg s = .next { s with sst := .trailer } := by
  unfold execSImg
  split <;> simp_all

theorem execSImg_image {s : State} {d : Document} {m : ImageBlock} (hd : s.doc = some d) (hm : d.images[s.imgIdx]? = some m)
    (hs : s.sst = .image) : execSImg s = (putImageHead m s).toOutcome fun _ t => startImageEncode m t := by
  have e : ({ s with sst := .image } : State) = s := by rw [← hs]
  unfold execSImg
  split
  · simp_all
  · rename_i d' hd'
    rw [hd] at hd'; cases hd'
    split
    · simp_all
    · rename_i m' hm'
      rw [hm] at hm'; cases hm'
      rw [e]

theorem partStep_cases {s : State} (hb : s.busy = true) (hu : s.lzwUnit = .off) (hc : s.cmd = .serialize)
    (hp : partWaits s.sst = true) : PartStep s (coreStep s) := by
  have step : ∀ (i : Instr) (s' : State), s'.busy = true → s'.lzwUnit = .off → s'.cmd = .serialize →
      fetchPart s' = some (.ok i s') → coreStep s' = exec i s' := fun i s' hb hu hc h => by
    rw [coreStep_some hb (by rw [fetch_serialize hu hc, h])]; rfl
  have go : ∀ i, fetchPart s = some (.ok i s) → coreStep s = exec i s := fun i h => step i s hb hu hc h
  have roomyGo : ∀ i, fetchPart (roomy s) = some (.ok i (roomy s)) → coreStep (roomy s) = exec i (roomy s) :=
    fun i h => step i (roomy s) hb hu hc h
  have hsr : (roomy s).sst = s.sst := rfl
  cases hs : s.sst with
  | header =>
    rw [go .sHdr (by rw [fetchPart, hs])]
    exact partStep_emit writes_hdr hs rfl (by simp)
      (roomyGo .sHdr (by rw [fetchPart, hsr, hs]))
  | lsd =>
    rw [go .sLsd (by rw [fetchPart, hs])]
    exact partStep_emit writes_lsd hs rfl (by simp)
      (roomyGo .sLsd (by rw [fetchPart, hsr, hs]))
  | gct =>
    rw [go .sGct (by rw [fetchPart, hs])]
    exact partStep_emit (bytes := fun d => (d.gct.getD []).flatMap Rgb.toList)
      (fun d => writes_putOptTable d.gct) hs rfl (by simp)
      (roomyGo .sGct (by rw [fetchPart, hsr, hs]))
  | gce =>
    rw [go .sGce (by rw [fetchPart, hs])]
    exact partStep_emit (bytes := fun d => d.gces.flatMap _) (fun d => writes_putEach writes_putGce d.gces) hs rfl (by simp)
      (roomyGo .sGce (by rw [fetchPart, hsr, hs]))
  | comment =>
    rw [go .sCom (by rw [fetchPart, hs])]
    exact partStep_emit (bytes := fun d => d.comments.flatMap _)
      (fun d => writes_putEach writes_putComment d.comments) hs rfl (by simp)
      (roomyGo .sCom (by rw [fetchPart, hsr, hs]))
  | app =>
    rw [go .sApp (by rw [fetchPart, hs])]
    exact partStep_emit (bytes := fun d => d.apps.flatMap _) (fun d => writes_putEach writes_putApp d.apps) hs rfl (by simp)
      (roomyGo .sApp (by rw [fetchPart, hsr, hs]))
  | pte =>
    rw [go .sPte (by rw [fetchPart, hs])]
    exact partStep_emit writes_pte hs rfl (by simp)
      (roomyGo .sPte (by rw [fetchPart, hsr, hs]))
  | image =>
    rw [go .sImg (by rw [fetchPart, hs])]
    have hre : coreStep (roomy s) = execSImg (roomy s) := roomyGo .sImg (by rw [fetchPart, hsr, hs])
    show PartStep s (execSImg s)
    cases hd : s.doc with
    | none =>
      rw [execSImg_none hd]
      exact .refused _ (hre.trans (execSImg_none (s := roomy s) hd)) (.inl hd)
    | some d =>
      cases hm : d.images[s.imgIdx]? with
      | none =>
        have hh : imageAtHand s = none := by rw [imageAtHand_image hu hc hs hd, hm]
        rw [execSImg_last hd hm]
        have := PartStep.handed (s := s) [] .trailer (by rw [hs]; rfl) (room_zero s)
          (wouldWrite_of hh (hre.trans (execSImg_last (s := roomy s) hd hm)) (by simp [roomy])) fun _ => ⟨d, hd, hm⟩
        rwa [wrote_nil] at this
      | some m =>
        have hh : imageAtHand s = some m := by rw [imageAtHand_image hu hc hs hd, hm]
        have hroom : coreStep (roomy s) = startImageEncode m (wrote (imageHead m) (roomy s)) := by
          rw [hre, execSImg_image (s := roomy s) hd hm hs, (writes_putImageHead m).full (roomy s) (room_none rfl _)]; rfl
        have would : WouldWrite s (imageHead m) :=
          ⟨fun m' hm' => by rw [hh] at hm'; cases hm'; rfl,
            fun v hv => startImageEncode_snk (hroom.symm.trans hv), fun h => by rw [hh] at h; cases h⟩
        rw [execSImg_image hd hm hs]
        rcases (writes_putImageHead m).cases s with ⟨hr, h⟩ | ⟨b, ws, hm', hp', h⟩
        · have full : s.doc = none ∨ ∃ m, imageAtHand s = some m ∧ room s (imageHead m).length = true := .inr ⟨m, hh, hr⟩
          rw [h, Res.toOutcome_ok]
          by_cases hk : minCodeSizeOk m.minCodeSize.toNat = true
          · by_cases ha : alphabetOk m.minCodeSize.toNat m.pixels = true
            · rw [startImageEncode_ok hk ha]
              exact .image _ d m hs hd hm hr would ((minCodeSizeOk_iff _).1 hk) ha
            · rw [startImageEncode_alphabet hk ha] at hroom ⊢
              exact .refused _ hroom full
          · rw [startImageEncode_k hk] at hroom ⊢
            exact .refused _ hroom full
        · rw [h]; exact .failed b ws (imageHead m) hm' hp' would
  | trailer =>
    rw [go .sTrl (by rw [fetchPart, hs])]
    have would : WouldWrite s [0x3B] := by
      refine wouldWrite_of (imageAtHand_part (by rw [hs]; simp)) (v := finishCommand { wrote [0x3B] (roomy s) with sst := .done }) ?_ rfl
      have e' : ({ roomy s with sst := .trailer } : State) = roomy s := by rw [← hs]; rfl
      rw [roomyGo .sTrl (by rw [fetchPart, hsr, hs])]
      show execSTrl (roomy s) = _
      rw [execSTrl, e', (writes_mustPut 0x3B).full (roomy s) (room_none rfl _)]
      rfl
    have e : ({ s with sst := .trailer } : State) = s := by rw [← hs]
    show PartStep s (execSTrl s)
    rw [execSTrl, e]
    rcases (writes_mustPut 0x3B).cases s with ⟨hr, h⟩ | ⟨b, ws, hm', hp', h⟩
    · rw [h]; exact .done hs hr would
    · rw [h]; exact .failed b ws [0x3B] hm' hp' would
  | idle => rw [hs] at hp; simp [partWaits] at hp
  | done => rw [hs] at hp; simp [partWaits] at hp
  | fault => rw [hs] at hp; simp [partWaits] at hp

/-! ## The encoder's operations from any object -/

/-- Nothing of the object but its bit buffer and EBUF differs. -/
def SameTable (e e' : Encoder) : Prop := e' = { e with acc := e'.acc, nb := e'.nb, buf := e'.buf }

/-- The operation writes something and changes only the bit buffer and EBUF. -/
def Puts (r : State → Res Unit) : Prop := ∀ e, ∃ ws e', EWrites r e ws e' ∧ SameTable e e'

theorem SameTable.trans {a b c : Encoder} (h1 : SameTable a b) (h2 : SameTable b c) : SameTable a c := by
  unfold SameTable at *
  rw [h2, h1]

theorem Puts.bind {r1 r2 : State → Res Unit} (h1 : Puts r1) (h2 : Puts r2) : Puts fun s => (r1 s).bind fun _ t => r2 t := by
  intro e
  obtain ⟨w1, e1, a1, s1⟩ := h1 e
  obtain ⟨w2, e2, a2, s2⟩ := h2 e1
  exact ⟨w1 ++ w2, e2, a1.bind a2, s1.trans s2⟩

theorem puts_emitByte (b : Byte) : Puts (emitByte b) := by
  intro e
  by_cases h : (e.buf ++ [b]).length = 255
  · refine ⟨_, _, (EWrites.comp (fun e : Encoder => { e with buf := e.buf ++ [b] })
      (ewrites_putChunk { e with buf := e.buf ++ [b] })).congr fun s hs => ?_, rfl⟩
    have h' : (s.enc.buf ++ [b]).length = Config.sbMax := by rw [hs]; exact h
    rw [emitByte, if_pos h']
  · refine ⟨_, _, (ewrites_update (fun e => { e with buf := e.buf ++ [b] }) e).congr fun s hs => ?_, rfl⟩
    have h' : ¬ (s.enc.buf ++ [b]).length = Config.sbMax := by rw [hs]; exact h
    rw [emitByte, if_neg h']

theorem puts_emitBits (fuel : Nat) : Puts (emitBits fuel) := by
  induction fuel with
  | zero => intro e; exact ⟨[], e, ewrites_update id e, rfl⟩
  | succ fuel ih =>
    intro e
    by_cases h8 : 8 ≤ e.nb
    · obtain ⟨w1, e1, h1, s1⟩ := puts_emitByte (BitVec.ofNat 8 (e.acc % 256)) e
      obtain ⟨w2, e2, h2, s2⟩ := ih { e1 with acc := e1.acc / 256, nb := e1.nb - 8 }
      refine ⟨w1 ++ w2, e2,
        (h1.bind (EWrites.comp (fun e : Encoder => { e with acc := e.acc / 256, nb := e.nb - 8 }) h2)).congr fun s hs => ?_, ?_⟩
      · have h8' : 8 ≤ s.enc.nb := by rw [hs]; exact h8
        rw [emitBits, if_pos h8', hs]
      · refine s1.trans (SameTable.trans (b := { e1 with acc := e1.acc / 256, nb := e1.nb - 8 }) rfl s2)
    · refine ⟨[], e, (ewrites_update id e).congr fun s hs => ?_, rfl⟩
      have h8' : ¬ 8 ≤ s.enc.nb := by rw [hs]; exact h8
      rw [emitBits, if_neg h8']
      rfl

theorem puts_putCode (c : Nat) : Puts (putCode c) := by
  intro e
  obtain ⟨ws, e', h, hs⟩ := puts_emitBits (e.nb + e.w) { e with acc := e.acc + c * 2 ^ e.nb, nb := e.nb + e.w }
  refine ⟨ws, e', (EWrites.comp (fun e : Encoder => { e with acc := e.acc + c * 2 ^ e.nb, nb := e.nb + e.w }) h).congr
    fun s hs => ?_, SameTable.trans (b := { e with acc := e.acc + c * 2 ^ e.nb, nb := e.nb + e.w }) rfl hs⟩
  subst hs; rfl

theorem puts_flushBits : Puts flushBits := by
  intro e
  by_cases h0 : 0 < e.nb
  · obtain ⟨w1, e1, h1, s1⟩ := puts_emitByte (BitVec.ofNat 8 (e.acc % 256)) e
    refine ⟨_, _, (h1.bind (ewrites_update (fun e : Encoder => { e with acc := 0, nb := 0 }) _)).congr fun s hs => ?_,
      s1.trans rfl⟩
    have h0' : 0 < s.enc.nb := by rw [hs]; exact h0
    rw [flushBits, if_pos h0', hs]
  · refine ⟨[], e, (ewrites_update id e).congr fun s hs => ?_, rfl⟩
    have h0' : ¬ 0 < s.enc.nb := by rw [hs]; exact h0
    rw [flushBits, if_neg h0']
    rfl

theorem puts_flushChunks : Puts flushChunks := by
  intro e
  by_cases h0 : e.buf.length = 0
  · refine ⟨_, e, ((writes_mustPut 0x00).toEWrites e).congr fun s hs => ?_, rfl⟩
    have h0' : s.enc.buf.length = 0 := by rw [hs]; exact h0
    rw [flushChunks, if_pos h0']
  · refine ⟨_, _, ((ewrites_putChunk e).bind ((writes_mustPut 0x00).toEWrites { e with buf := [] })).congr fun s hs => ?_, rfl⟩
    have h0' : ¬ s.enc.buf.length = 0 := by rw [hs]; exact h0
    rw [flushChunks, if_neg h0']

/-- `PutCode(ECUR)` and `EWIDEN()` from any object. -/
theorem puts_putMatch (c : Nat) (e : Encoder) :
    ∃ ws e', EWrites (putMatch c) e ws (eWiden e') ∧ SameTable e e' := by
  obtain ⟨ws, e', h, hs⟩ := puts_putCode c e
  have hb := h.bind (ewrites_update eWiden e')
  rw [List.append_nil] at hb
  exact ⟨ws, e', hb, hs⟩

theorem EWrites.cases {r : State → Res Unit} {e' : Encoder} {s : State} {ws : List Byte} (h : EWrites r s.enc ws e') :
    (room s ws.length = true ∧ r s = .ok () (wrote ws { s with enc := e' })) ∨
    ∃ b w1 e1, s.snk.okWrites = some w1.length ∧ w1 ++ [b] <+: ws ∧
      r s = .raise (.ioError .writeFailure) (s.spos + w1.length) (failedWrite b (wrote w1 { s with enc := e1 })) := by
  by_cases hr : room s ws.length = true
  · exact .inl ⟨hr, h.full s rfl hr⟩
  · obtain ⟨m, hm, hl⟩ := not_room_iff.1 hr
    obtain ⟨b, e1, hb', hb⟩ := h.short s m rfl hm hl
    have hlen : (ws.take m).length = m := by rw [List.length_take]; omega
    exact .inr ⟨b, ws.take m, e1, by rw [hlen]; exact hm, take_prefix_of_getElem? hb', by rw [hlen]; exact hb⟩

/-! ## A step of an encode -/

/-- All a step of an encode can do. `rest` is taken from PIX before the row runs. -/
inductive EncodeStep (s : State) : State → Prop where
  | failed (b : Byte) (ws all : List Byte) (e : Encoder) (h : s.snk.okWrites = some ws.length) (ha : ws ++ [b] <+: all)
      (hw : WouldWrite s all) :
      EncodeStep s (takeFault (.ioError .writeFailure) (s.spos + ws.length) (failedWrite b (wrote ws { s with enc := e })))
  | clear0 (ws : List Byte) (e : Encoder) (hs : s.lzwUnit = .lzweStart) (hr : room s ws.length = true) (hw : WouldWrite s ws) (ht : e.tab = s.enc.tab)
      (hrest : e.rest = s.enc.rest) (hi : EncoderInv s.enc → EncoderInv e) :
      EncodeStep s (wrote ws { s with enc := e, lzwUnit := .lzwe })
  | ran (ws : List Byte) (e : Encoder) (p : Byte) (hs : s.lzwUnit = .lzwe) (hr : room s ws.length = true) (hw : WouldWrite s ws)
      (ht : mapWf s.enc.tab = true → mapWf e.tab = true) (hrest : s.enc.rest = p :: e.rest)
      (hi : EncoderInv s.enc → EncoderInv e) : EncodeStep s (wrote ws { s with enc := e })
  | finished (ws : List Byte) (e : Encoder) (hs : s.lzwUnit = .lzwe) (hr : room s ws.length = true) (hw : WouldWrite s ws)
      (hrest : s.enc.rest = []) :
      EncodeStep s (finishEncode (wrote ws { s with enc := e }))

theorem SameTable.tab {e e' : Encoder} (h : SameTable e e') : e'.tab = e.tab := by rw [h]
theorem SameTable.rest {e e' : Encoder} (h : SameTable e e') : e'.rest = e.rest := by rw [h]
theorem SameTable.clr {e e' : Encoder} (h : SameTable e e') : e'.clr = e.clr := by rw [h]
theorem eWiden_tab (e : Encoder) : (eWiden e).tab = e.tab := by rw [eWiden_eq]
theorem eWiden_rest (e : Encoder) : (eWiden e).rest = e.rest := by rw [eWiden_eq]
theorem eWiden_clr (e : Encoder) : (eWiden e).clr = e.clr := by rw [eWiden_eq]

/-- A code that fits, put from an object that keeps the invariant. -/
theorem putCode_inv (c : Nat) (e : Encoder) :
    ∃ ws e', EWrites (putCode c) e ws e' ∧ SameTable e e' ∧ (EncoderInv e → c < 2 ^ e.w → EncoderInv e') := by
  by_cases h : EncoderInv e ∧ c < 2 ^ e.w
  · obtain ⟨ws, packed, acc, nb, hw, hp, hnb, -⟩ := ewrites_putCode (pending_self e h.1) h.2
    exact ⟨ws, _, hw, rfl, fun _ _ => h.1.withBuffer ⟨hnb, hp.acc⟩ (waiting_le packed)⟩
  · obtain ⟨ws, e', hw, hs⟩ := puts_putCode c e
    exact ⟨ws, e', hw, hs, fun h1 h2 => absurd ⟨h1, h2⟩ h⟩

theorem putMatch_inv (c : Nat) (e : Encoder) :
    ∃ ws e', EWrites (putMatch c) e ws (eWiden e') ∧ SameTable e e' ∧ (EncoderInv e → c < 2 ^ e.w → EncoderInv e') := by
  obtain ⟨ws, e', h, hs, hi⟩ := putCode_inv c e
  have hb := h.bind (ewrites_update eWiden e')
  rw [List.append_nil] at hb
  exact ⟨ws, e', hb, hs, hi⟩

/-- EFINISH from any object. -/
theorem ewrites_finish (e : Encoder) : ∃ ws e', EWrites
    (fun s => (putPending s).bind fun _ t => (putCode t.enc.endc t).bind fun _ u => (flushBits u).bind fun _ v => flushChunks v)
    e ws e' := by
  have h1 : ∃ ws e1, EWrites putPending e ws e1 := by
    cases hc : e.cur with
    | none =>
      refine ⟨[], e, (ewrites_update id e).congr fun s hs => ?_⟩
      have : s.enc.cur = none := by rw [hs, hc]
      simp only [putPending, this]
      rfl
    | some c =>
      obtain ⟨ws, e', hw, -⟩ := puts_putMatch c e
      refine ⟨ws, _, hw.congr fun s hs => ?_⟩
      have : s.enc.cur = some c := by rw [hs, hc]
      simp only [putPending, this]
  obtain ⟨w1, e1, h1⟩ := h1
  obtain ⟨w2, e2, h2, -⟩ := puts_putCode e1.endc e1
  obtain ⟨w3, e3, h3, -⟩ := puts_flushBits e2
  obtain ⟨w4, e4, h4, -⟩ := puts_flushChunks e3
  have h2' : EWrites (fun t => putCode t.enc.endc t) e1 w2 e2 := h2.congr fun t ht => by rw [ht]
  exact ⟨_, e4, h1.bind (h2'.bind (h3.bind h4))⟩

theorem fetchStep_nil {s : State} (h : s.enc.rest = []) : fetchStep s = .ok .eFinish s := by simp only [fetchStep, h]

theorem fetchStep_cons {s : State} {p : Byte} {ps : List Byte} (h : s.enc.rest = p :: ps) :
    fetchStep s = .ok (selectStep s.enc p) { s with enc := { s.enc with rest := ps } } := by simp only [fetchStep, h]

theorem encodeStep_cases {s : State} (hb : s.busy = true) (hu : encoding s.lzwUnit = true) :
    ∃ t, coreStep s = .next t ∧ EncodeStep s t := by
  rcases (show s.lzwUnit = .lzweStart ∨ s.lzwUnit = .lzwe by simpa [encoding] using hu) with hu | hu
  · obtain ⟨ws, e', hw, hs, hi⟩ := putCode_inv s.enc.clr s.enc
    have would : WouldWrite s ws := by
      refine wouldWrite_of (imageAtHand_unit (by rw [hu]; simp))
        (v := wrote ws { roomy s with enc := e', lzwUnit := .lzwe }) ?_ rfl
      rw [coreStep_some (show (roomy s).busy = true from hb) (fetch_lzweStart hu)]
      show execEClear0 (roomy s) = _
      rw [execEClear0, show (roomy s).enc.clr = s.enc.clr from rfl, hw.toOutcome (s := roomy s) rfl (room_none rfl _)]
      rfl
    rw [coreStep_some hb (fetch_lzweStart hu)]
    show ∃ t, execEClear0 s = _ ∧ _
    rw [execEClear0]
    rcases hw.cases with ⟨hr, h⟩ | ⟨b, w1, e1, hm, hp, h⟩
    · exact ⟨_, by rw [h]; rfl, .clear0 ws e' hu hr would hs.tab hs.rest fun h => hi h h.control_lt.1⟩
    · exact ⟨_, by rw [h]; rfl, .failed b w1 ws e1 hm hp would⟩
  · have roomyStep : coreStep (roomy s) = (fetchStep (roomy s)).toOutcome exec :=
      coreStep_some (show (roomy s).busy = true from hb) (fetch_lzwe hu)
    have noImage : imageAtHand s = none := imageAtHand_unit (by rw [hu]; simp)
    rw [coreStep_some hb (fetch_lzwe hu), fetchStep]
    split
    · rename_i hrest
      show ∃ t, execEFinish s = _ ∧ _
      obtain ⟨ws, e', hw⟩ := ewrites_finish s.enc
      have would : WouldWrite s ws := by
        refine wouldWrite_of noImage (v := finishEncode (wrote ws { roomy s with enc := e' })) ?_ (by rw [finishEncode_snk]; rfl)
        rw [roomyStep, fetchStep_nil (s := roomy s) hrest]
        show execEFinish (roomy s) = _
        rw [execEFinish, hw.toOutcome (s := roomy s) rfl (room_none rfl _)]
      rw [execEFinish]
      rcases hw.cases with ⟨hr, h⟩ | ⟨b, w1, e1, hm, hp, h⟩
      · exact ⟨_, by rw [h]; rfl, .finished ws e' hu hr would hrest⟩
      · exact ⟨_, by rw [h]; rfl, .failed b w1 ws e1 hm hp would⟩
    · rename_i p ps hrest
      rw [Res.toOutcome_ok]
      set u : State := { s with enc := { s.enc with rest := ps } } with hud
      have hui : EncoderInv s.enc → EncoderInv u.enc ∧ p.toNat < u.enc.clr := fun h => h.takeIndex hrest
      have hsel : selectStep s.enc p = selectStep u.enc p := rfl
      rw [hsel]
      have fail : ∀ b ws all e, s.snk.okWrites = some ws.length → ws ++ [b] <+: all → WouldWrite s all → EncodeStep s
          (takeFault (.ioError .writeFailure) (u.spos + ws.length) (failedWrite b (wrote ws { u with enc := e }))) :=
        fun b ws all e h hp hw => .failed b ws all e h hp hw
      have hru : coreStep (roomy s) = exec (selectStep u.enc p) (roomy u) := by
        rw [roomyStep, fetchStep_cons (s := roomy s) hrest]; rfl
      have roomyRan : ∀ {ws e}, exec (selectStep u.enc p) (roomy u) = .next (wrote ws { roomy u with enc := e }) → WouldWrite s ws :=
        fun h => wouldWrite_of noImage (hru.trans h) rfl
      have ran : ∀ ws e, room u ws.length = true → WouldWrite s ws → (mapWf s.enc.tab = true → mapWf e.tab = true) → e.rest = ps →
          (EncoderInv u.enc → p.toNat < u.enc.clr → EncoderInv e) → EncodeStep s (wrote ws { u with enc := e }) :=
        fun ws e hr hw ht he hi => .ran ws e p hu hr hw ht (by rw [hrest, he]) fun h => hi (hui h).1 (hui h).2
      have wrote0 : ∀ e, wrote [] { u with enc := e } = { u with enc := e } := fun e => wrote_nil _
      have rwrote0 : ∀ e, wrote [] { roomy u with enc := e } = { roomy u with enc := e } := fun e => wrote_nil _
      have rcur : (roomy u).enc.cur = u.enc.cur := rfl
      rcases selectStep_cases u.enc p with ⟨hc, e⟩ | ⟨c, v, hc, hv, e⟩ | ⟨c, hc, hv, hn, e⟩ | ⟨c, hc, hv, hn, e⟩ <;>
        rw [e] at roomyRan ⊢
      · have would : WouldWrite s [] := roomyRan (e := { u.enc with cur := some p.toNat }) <| by
          rw [rwrote0]
          show execEMatch p (roomy u) = _
          simp only [execEMatch, rcur, hc]; rfl
        refine ⟨{ u with enc := { u.enc with cur := some p.toNat } }, ?_, ?_⟩
        · show execEMatch p u = _
          simp only [execEMatch, hc]
        · rw [← wrote0]
          exact ran [] _ (room_zero _) would id rfl fun h hp => encoderInv_first h hp
      · have would : WouldWrite s [] := roomyRan (e := { u.enc with cur := some v }) <| by
          rw [rwrote0]
          show execEMatch p (roomy u) = _
          simp only [execEMatch, rcur, hc, show (roomy u).enc.tab = u.enc.tab from rfl, hv]; rfl
        refine ⟨{ u with enc := { u.enc with cur := some v } }, ?_, ?_⟩
        · show execEMatch p u = _
          simp only [execEMatch, hc, hv]
        · rw [← wrote0]
          exact ran [] _ (room_zero _) would id rfl fun h _ => encoderInv_match h hv
      · obtain ⟨ws, e', hw, hs, hi⟩ := putMatch_inv c u.enc
        have would : WouldWrite s ws := roomyRan (e := registerMiss c p (eWiden e')) <| by
          show execEMiss p (roomy u) = _
          simp only [execEMiss, rcur, hc]
          rw [hw.toOutcome (s := roomy u) rfl (room_none rfl _)]; rfl
        show ∃ t, execEMiss p u = _ ∧ _
        simp only [execEMiss, hc]
        rcases hw.cases with ⟨hr, h⟩ | ⟨b, w1, e1, hm, hp, h⟩
        · refine ⟨_, by rw [h]; rfl, ?_⟩
          refine ran ws (registerMiss c p (eWiden e')) hr would (fun h => ?_) ?_ fun h hp => ?_
          · show mapWf (tabWrite (eWiden e').tab c p (eWiden e').next) = true
            rw [eWiden_tab, hs.tab]; exact mapWf_mapSet h _ _
          · show (eWiden e').rest = ps
            rw [eWiden_rest, hs.rest]
          · have hi' := hi h (h.cur_lt hc)
            exact encoderInv_miss hi' (by rw [hs.clr]; exact hp) (by rw [hs]; exact hn)
        · exact ⟨_, by rw [h]; rfl, fail b w1 ws e1 hm hp would⟩
      · obtain ⟨ws, e', hw, hs, hi⟩ := putMatch_inv c u.enc
        obtain ⟨ws2, e2, hw2, hs2, hi2⟩ := putCode_inv (eWiden e').clr (eWiden e')
        have hw3 : EWrites (fun s => (putMatch c s).bind fun _ t => putCode t.enc.clr t) u.enc (ws ++ ws2) e2 := by
          refine hw.bind (hw2.congr fun t ht => ?_)
          rw [ht]
        have would : WouldWrite s (ws ++ ws2) := roomyRan (e := resetTable p e2) <| by
          show execEOverflow p (roomy u) = _
          simp only [execEOverflow, rcur, hc]
          rw [hw3.toOutcome (s := roomy u) rfl (room_none rfl _)]; rfl
        show ∃ t, execEOverflow p u = _ ∧ _
        simp only [execEOverflow, hc]
        rcases hw3.cases with ⟨hr, h⟩ | ⟨b, w1, e1, hm, hp, h⟩
        · refine ⟨_, by rw [h]; rfl, ?_⟩
          refine ran (ws ++ ws2) (resetTable p e2) hr would (fun _ => rfl) ?_ fun h hp => ?_
          · show e2.rest = ps
            rw [hs2.rest, eWiden_rest, hs.rest]
          · have hi' := (hi h (h.cur_lt hc)).widened
            refine encoderInv_reset (hi2 hi' hi'.control_lt.1) ?_
            rw [hs2.clr, eWiden_clr, hs.clr]; exact hp
        · exact ⟨_, by rw [h]; rfl, fail b w1 _ e1 hm hp would⟩

/-! ## What the rows leave alone of the streams -/

theorem codeRun_src {u t : State} {c : Nat} (h : CodeRun u c t) :
    t.src = u.src ∧ t.pos = u.pos ∧ t.snk = u.snk ∧ t.spos = u.spos := by
  cases h <;> simp [resolve]

/-- What SB.TERM leaves before PTE_POLICY is asked: the Document `d` holds the record, and a plain text extension has been seen. -/
def termStored (u : State) (d : Document) : State :=
  { u with
    dec := { u.dec with sbrem := 0, sbterm := true }, scratch := { u.scratch with doc := d }
    status := if u.pst = .pte then { u.status with pteSeen := true } else u.status }

/-- All SB.TERM can do: the record is stored and the loop goes on, or, by the other PTE_POLICY, the parse ends. -/
theorem sbTerm_cases {u t : State} (h : execSbTerm u = .next t) : ∃ d,
    (t = { termStored u d with pst := .loop } ∧ (u.pst = .pte → u.params.ptePolicy = .continueLoop)) ∨
    (t = parseDone (termStored u d) ∧ u.pst = .pte ∧ u.params.ptePolicy = .earlyReturn) := by
  unfold execSbTerm at h
  split at h
  · rename_i hp; cases h; exact ⟨(storeComment u).scratch.doc, .inl ⟨by simp [termStored, hp, storeComment], by simp [hp]⟩⟩
  · rename_i hp; cases h; exact ⟨(storeApp u).scratch.doc, .inl ⟨by simp [termStored, hp, storeApp], by simp [hp]⟩⟩
  · rename_i hp
    cases hpol : u.params.ptePolicy <;> rw [hpol] at h <;> cases h
    · exact ⟨(storePte u).scratch.doc, .inl ⟨by simp [termStored, hp, storePte, afterPte, setPteSeen], fun _ => rfl⟩⟩
    · exact ⟨(storePte u).scratch.doc, .inr ⟨by simp [termStored, hp, storePte, afterPte, setPteSeen], hp, rfl⟩⟩
  · rename_i h1 h2 h3
    cases h
    exact ⟨u.scratch.doc, .inl ⟨by simp [termStored, show u.pst ≠ .pte from h3], fun hp => absurd hp h3⟩⟩

theorem sbTerm_frame {u t : State} (h : execSbTerm u = .next t) :
    t.src = u.src ∧ t.pos = u.pos ∧ t.snk = u.snk ∧ t.spos = u.spos := by
  obtain ⟨d, ⟨rfl, -⟩ | ⟨rfl, -⟩⟩ := sbTerm_cases h <;> simp [termStored]

theorem sbData_frame {u t : State} {f : List Byte} (h : execSbData f u = .next t) :
    t.src = u.src ∧ t.pos = u.pos ∧ t.snk = u.snk ∧ t.spos = u.spos := by
  unfold execSbData at h
  split at h <;> cases h <;> simp

theorem parseRun_src {u t : State} {sl : Slot} {i : Instr} (h : ParseRun u sl i t) :
    t.src = u.src ∧ t.pos = u.pos ∧ t.snk = u.snk ∧ t.spos = u.spos := by
  cases h <;> first | exact sbTerm_frame ‹_› | exact sbData_frame ‹_› | simp [startSubBlocks]

theorem encodeStep_src {s t : State} (h : EncodeStep s t) : t.src = s.src ∧ t.pos = s.pos := by
  cases h <;> simp [wrote, failedWrite, snkPut]

theorem partStep_src {s t : State} (h : PartStep s (.next t)) : t.src = s.src ∧ t.pos = s.pos := by
  cases h <;> simp [wrote, failedWrite, snkPut, startEncode]

/-! ## A step of the CORE -/

/-- All a step of a busy CORE can do, whichever unit holds it. -/
inductive CoreStep (s : State) (bs : List Byte) (rest : List (Option Byte)) : Host.Outcome State Fault Refusal → Prop where
  | lost (hu : s.lzwUnit = .off) (h : fetch s = none) : CoreStep s bs rest (.fault .controlLost)
  | parse (slot : Slot) (t : State) (hu : s.lzwUnit = .off) (hc : s.cmd = .parse) (hp : parseSlot s = some slot)
      (h : ParseStep s slot bs rest t) : CoreStep s bs rest (.next t)
  | lzwRefused (hu : s.lzwUnit = .off) (hc : s.cmd = .parse) (hp : s.pst = .lzw) (r : Refusal) : CoreStep s bs rest (.refused r)
  | lzwStart (hu : s.lzwUnit = .off) (hc : s.cmd = .parse) (hp : s.pst = .lzw)
      (hk : 2 ≤ s.scratch.img.minCodeSize.toNat ∧ s.scratch.img.minCodeSize.toNat ≤ 8) :
      CoreStep s bs rest (.next (startDecode s.scratch.img.minCodeSize.toNat s))
  | decode (t : State) (hu : s.lzwUnit = .lzwd) (h : DecodeStep s bs rest t) : CoreStep s bs rest (.next t)
  | part (o : Host.Outcome State Fault Refusal) (hu : s.lzwUnit = .off) (hc : s.cmd = .serialize) (hp : partWaits s.sst = true)
      (h : PartStep s o) : CoreStep s bs rest o
  | encode (t : State) (hu : encoding s.lzwUnit = true) (h : EncodeStep s t) : CoreStep s bs rest (.next t)

theorem coreStep_lost {s : State} (hb : s.busy = true) (h : fetch s = none) : coreStep s = .fault .controlLost := by
  rw [coreStep, if_pos hb, h]

theorem coreStep_cases {s : State} {bs : List Byte} {rest : List (Option Byte)} (hb : s.busy = true)
    (hs : s.src.answers = bs.map some ++ rest) (hr : EndsOrFails rest) : CoreStep s bs rest (coreStep s) := by
  cases hu : s.lzwUnit with
  | lzwd => obtain ⟨t, h1, h2⟩ := decodeStep_cases hb hu hs hr; rw [h1]; exact .decode t hu h2
  | lzweStart =>
    have he : encoding s.lzwUnit = true := by rw [hu]; rfl
    obtain ⟨t, h1, h2⟩ := encodeStep_cases hb he; rw [h1]; exact .encode t he h2
  | lzwe =>
    have he : encoding s.lzwUnit = true := by rw [hu]; rfl
    obtain ⟨t, h1, h2⟩ := encodeStep_cases hb he; rw [h1]; exact .encode t he h2
  | off =>
    have lost : fetch s = none → CoreStep s bs rest (coreStep s) := fun h => by rw [coreStep_lost hb h]; exact .lost hu h
    cases hc : s.cmd with
    | none => exact lost (by simp only [fetch, hu, hc])
    | decode => exact lost (by simp only [fetch, hu, hc])
    | encode => exact lost (by simp only [fetch, hu, hc])
    | serialize =>
      by_cases hp : partWaits s.sst = true
      · exact .part _ hu hc hp (partStep_cases hb hu hc hp)
      · refine lost ?_
        rw [fetch_serialize hu hc]
        unfold fetchPart
        split <;> simp_all [partWaits]
    | parse =>
      by_cases hp : s.pst = .lzw
      · rw [coreStep_some hb (by rw [fetch_parse hu hc, fetchParse_lzw hp])]
        show CoreStep s bs rest (execLzw s)
        rw [execLzw]
        split
        · rename_i hk; exact .lzwStart hu hc hp ((minCodeSizeOk_iff _).1 hk)
        · exact .lzwRefused hu hc hp _
      · cases hsl : parseSlot s with
        | some slot => obtain ⟨t, h1, h2⟩ := parseStep_cases hb hu hc hsl hs hr; rw [h1]; exact .parse slot t hu hc hsl h2
        | none =>
          refine lost ?_
          rw [fetch_parse hu hc]
          unfold fetchParse
          split
          · contradiction
          · rw [hsl]

end Sys2Proof.Machine
end

