-- ==== Sys2Proof/Laws/Invariant.lean ====
section
/-! SUPPORT. The invariant of the machine: what it says in each kind of state, and which rows keep it. -/

namespace Sys2Proof.Machine

/-! ## The host -/

/-- The host acts or is quiet; either way nothing but its events differs. -/
theorem hostDue_cases (s : State) : ∃ es, (∃ a, hostDue s = .act a { s with host := es }) ∨
    hostDue s = .quiet { s with host := es } := by
  unfold hostDue
  split
  · exact ⟨s.host, .inr rfl⟩
  · split
    · rename_i h _; exact ⟨s.host, .inr rfl⟩
    · exact ⟨_, .inl ⟨_, rfl⟩⟩
  · exact ⟨_, .inl ⟨_, rfl⟩⟩
  · exact ⟨_, .inr rfl⟩

/-- No act of the host is accepted while the CORE is BUSY. -/
theorem hostStep_busyEnd {s t : State} {a : HostAction} (hb : s.busy = true) (ht : hostStep a s = .next t) : False := by
  cases a with
  | writeCmd c => cases c <;> simp [hostStep, decodeCommand, exec, execParse, execSerialize, execDecode, execEncode, hb] at ht
  | _ => simp [hostStep, hostWrite, hb] at ht

/-- No act of the host faults the machine. -/
theorem hostStep_noFault {s : State} {a : HostAction} {f : Fault} : hostStep a s ≠ .fault f := by
  cases a with
  | writeCmd c => cases c <;> simp only [hostStep, decodeCommand, exec, execParse, execSerialize, execDecode,
    execEncode] <;> (repeat' split) <;> simp
  | _ => simp only [hostStep, hostWrite]; split <;> simp

/-! ## The memories -/

/-- A read of data leaves the memories alone. -/
theorem fed_dict {s t : State} {a : List Byte} {r : List (Option Byte)} (h : Fed s t a r) :
    t.dec.dict = s.dec.dict ∧ t.enc = s.enc := by rw [h]; exact ⟨rfl, rfl⟩

theorem wf_fed {s t : State} {a : List Byte} {r : List (Option Byte)} (h : Fed s t a r) (hw : Memory.wf s = true) :
    Memory.wf t = true := by
  rw [memoryWf_iff] at *; obtain ⟨a, b⟩ := fed_dict h; rw [a, b]; exact hw

/-- A code keeps the canonical form of the memories. -/
theorem codeRun_wf {u t : State} {c : Nat} (h : CodeRun u c t) (hw : Memory.wf u = true) : Memory.wf t = true := by
  cases h with
  | clear => rw [memoryWf_iff] at *; exact ⟨dictWf_dictClearFrom hw.1 _, hw.2⟩
  | known c => rw [memoryWf_iff] at *; exact ⟨register_wf _ hw.1, hw.2⟩
  | next p => rw [memoryWf_iff] at *; exact ⟨register_wf _ hw.1, hw.2⟩
  | invalid => exact memoryWf_takeFault _ _ _

theorem sbTerm_wf {u t : State} (h : execSbTerm u = .next t) (hw : Memory.wf u = true) : Memory.wf t = true := by
  obtain ⟨d, ⟨rfl, -⟩ | ⟨rfl, -⟩⟩ := sbTerm_cases h
  · exact hw
  · exact memoryWf_finishCommand _

theorem sbData_mem {u t : State} {f : List Byte} (h : execSbData f u = .next t) : t.dec.dict = u.dec.dict ∧ t.enc = u.enc := by
  unfold execSbData at h
  split at h <;> cases h <;> simp

/-- A row of PARSE keeps the canonical form of the memories. -/
theorem parseRun_wf {u t : State} {sl : Slot} {i : Instr} (h : ParseRun u sl i t) (hw : Memory.wf u = true) :
    Memory.wf t = true := by
  cases h with
  | term _ h => exact sbTerm_wf h hw
  | data _ _ h => rw [memoryWf_iff] at *; obtain ⟨a, b⟩ := sbData_mem h; rw [a, b]; exact hw
  | badSignature => exact memoryWf_takeFault _ _ _
  | unknown => exact memoryWf_takeFault _ _ _
  | badSize => exact memoryWf_takeFault _ _ _
  | done => exact memoryWf_finishCommand _
  | _ => exact hw

/-! ## Control -/

theorem controlOk_parse {s : State} (h : s.cmd = .parse) : controlOk s ↔
    (s.lzwUnit = .off ∧ parseWaits s.pst = true) ∨ (s.lzwUnit = .lzwd ∧ s.pst = .lzw) := by unfold controlOk; rw [h]

theorem controlOk_serialize {s : State} (h : s.cmd = .serialize) : controlOk s ↔ s.doc ≠ none ∧
    ((s.lzwUnit = .off ∧ partWaits s.sst = true) ∨ (encoding s.lzwUnit = true ∧ s.sst = .image)) := by unfold controlOk; rw [h]

theorem controlOk_decode {s : State} (h : s.cmd = .decode) : controlOk s ↔ s.lzwUnit = .lzwd := by unfold controlOk; rw [h]

theorem controlOk_encode {s : State} (h : s.cmd = .encode) : controlOk s ↔ encoding s.lzwUnit = true :=
    by unfold controlOk; rw [h]

theorem busy_state {s : State} : s.busy = true ↔ s.status.state = .busy := by simp [State.busy]

theorem ctLen_flag {f : Bool} {e : Nat} : ctLen f e ≠ 0 → f = true := by
  unfold ctLen; cases f <;> simp

theorem causeCode_range (c : Cause) : 1 ≤ causeCode c ∧ causeCode c ≤ 5 := by cases c <;> simp [causeCode]

theorem parseSlot_sub {s : State} :
    parseSlot s = some .subBlock → s.pst = .comment ∨ s.pst = .app ∨ s.pst = .pte ∨ s.pst = .skip := by
  unfold parseSlot
  cases s.pst <;> cases s.scratch.headerDue <;> simp

theorem parseWaits_slot {s : State} (h : parseWaits s.pst = true) : s.pst = .lzw ∨ ∃ sl, parseSlot s = some sl := by
  unfold parseSlot
  cases hp : s.pst <;> simp_all [parseWaits]

/-! ## The invariant, state by state -/

/-- The host's events are no part of the invariant. -/
theorem inv_host {s : State} (h : Inv s) (es : List HostEvent) : Inv { s with host := es } :=
  ⟨h.memory, h.control, h.unitOff, h.tables, h.decoder, h.encoder, h.encoderStart, h.errZero, h.errRange⟩

/-- The invariant of a CORE that is not BUSY. -/
theorem inv_idle {t : State} (hw : Memory.wf t = true) (hb : t.busy = false) (hu : t.lzwUnit = .off)
    (he : t.status.state ≠ .doneFault → t.status.err = 0) (hr : t.status.err ≤ 5) : Inv t :=
  ⟨hw, by simp [hb], fun _ => hu, by simp [hb], by simp [hu], by simp [hu], by simp [hu], he, hr⟩

/-- A fault leads to a state that meets the invariant. -/
theorem inv_takeFault (s : State) (c : Cause) (p : Nat) : Inv (takeFault c p s) :=
  inv_idle (memoryWf_takeFault s c p) (by simp [State.busy]) (by simp) (by simp) (by simpa using (causeCode_range c).2)

/-- The invariant of a PARSE that waits for bytes. -/
theorem inv_parse {t : State} (hw : Memory.wf t = true) (_hb : t.busy = true) (hc : t.cmd = .parse) (hu : t.lzwUnit = .off)
    (hp : parseWaits t.pst = true)
    (ht : (t.pst = .gct → gctFlag t.scratch.doc.screen.packed = true) ∧ (t.pst = .lct → lctFlag t.scratch.img.packed = true))
    (he : t.status.err = 0) : Inv t :=
  ⟨hw, fun _ => by rw [controlOk, hc]; exact .inl ⟨hu, hp⟩, fun _ => hu, fun _ _ => ht, by simp [hu], by simp [hu],
    by simp [hu],
    fun _ => he, by omega⟩

theorem Inv.err {s : State} (h : Inv s) (hb : s.busy = true) : s.status.err = 0 := h.errZero (by rw [busy_state] at hb; simp [hb])

/-- The invariant of a running decode. -/
theorem inv_decode {t : State} (hw : Memory.wf t = true) (hb : t.busy = true) (hu : t.lzwUnit = .lzwd) (hc : controlOk t)
    (hp : t.pst = .lzw ∨ t.cmd ≠ .parse)
    (hd : DecoderInv t.dec ∧ bitBufferOk t.dec ∧ ∀ b, b ∈ t.out → b.toNat < t.dec.clr) (he : t.status.err = 0) : Inv t :=
  ⟨hw, fun _ => hc, by simp [hb], fun _ h => hp.elim (fun hp => by simp [hp]) (fun hp => absurd h hp), fun _ => hd,
    by simp [hu], by simp [hu], fun _ => he, by omega⟩

/-- Under the invariant a busy CORE always has a next operation. -/
theorem not_lost {s : State} (hI : Inv s) (hb : s.busy = true) : fetch s ≠ none := by
  have hco := hI.control hb
  cases hu : s.lzwUnit with
  | lzwd => rw [fetch_lzwd hu]; simp
  | lzweStart => rw [fetch_lzweStart hu]; simp
  | lzwe => rw [fetch_lzwe hu]; simp
  | off =>
    cases hc : s.cmd with
    | none => unfold controlOk at hco; rw [hc] at hco; exact hco.elim
    | parse =>
      rcases (controlOk_parse hc).1 hco with ⟨-, h⟩ | ⟨h, -⟩
      · rw [fetch_parse hu hc]
        rcases parseWaits_slot h with h | ⟨sl, h⟩
        · rw [fetchParse_lzw h]; simp
        · rw [fetchParse_slot h]; simp
      · rw [hu] at h; simp at h
    | serialize =>
      rcases (controlOk_serialize hc).1 hco with ⟨-, ⟨-, h⟩ | ⟨h, -⟩⟩
      · rw [fetch_serialize hu hc]
        unfold fetchPart
        cases hs : s.sst <;> simp_all [partWaits]
      · rw [hu] at h; simp [encoding] at h
    | decode => rw [controlOk_decode hc, hu] at hco; simp at hco
    | encode => rw [controlOk_encode hc, hu] at hco; simp [encoding] at hco

/-! ## The invariant, row by row -/

/-- The end of a command leads to a state that meets the invariant. -/
theorem inv_finishCommand {s : State} (he : s.status.err = 0) : Inv (finishCommand s) :=
  inv_idle (memoryWf_finishCommand s) (by simp [State.busy, okStatus]) rfl (by simp [okStatus, he]) (by simp [okStatus, he])

/-- What SB.DATA leaves of the control state. -/
theorem sbData_inv {u t : State} {f : List Byte} (h : execSbData f u = .next t) :
    t.pst = u.pst ∧ t.lzwUnit = u.lzwUnit ∧ t.cmd = u.cmd ∧
    t.status = u.status ∧ t.doc = u.doc := by
  unfold execSbData at h
  split at h <;> cases h <;> simp_all

/-- A row of PARSE keeps the invariant. -/
theorem parseRun_inv {u t : State} {slot : Slot} {i : Instr} (h : ParseRun u slot i t) (hw : Memory.wf u = true)
    (hb : u.busy = true) (hc : u.cmd = .parse) (hu : u.lzwUnit = .off) (he : u.status.err = 0) 
    (hps : slot = .subBlock → u.pst = .comment ∨ u.pst = .app ∨ u.pst = .pte ∨ u.pst = .skip) : Inv t := by
  have hwt := parseRun_wf h hw
  cases h with
  | hdr => exact inv_parse hwt hb hc hu rfl (by simp) he
  | badSignature => exact inv_takeFault _ _ _
  | lsd w h p bg a =>
    refine inv_parse hwt hb hc hu ?_ ⟨?_, ?_⟩ he
    · dsimp only; split <;> rfl
    · dsimp only; split
      · simp
      · intro _; exact ctLen_flag (by assumption)
    · dsimp only; split <;> simp
  | gct => exact inv_parse hwt hb hc hu rfl (by simp) he
  | lct => exact inv_parse hwt hb hc hu rfl (by simp) he
  | mcs => exact inv_parse hwt hb hc hu rfl (by simp) he
  | ext => exact inv_parse hwt hb hc hu rfl (by simp) he
  | img l t w h p =>
    refine inv_parse hwt hb hc hu ?_ ⟨?_, ?_⟩ he
    · dsimp only; split <;> rfl
    · dsimp only; split <;> simp
    · dsimp only; split
      · simp
      · intro _; exact ctLen_flag (by assumption)
  | done =>
    exact inv_finishCommand he
  | unknown => exact inv_takeFault _ _ _
  | gce => exact inv_parse hwt hb hc hu rfl (by simp) he
  | badSize => exact inv_takeFault _ _ _
  | imgOpen => exact inv_parse hwt hb hc hu rfl (by simp) he
  | gceOpen => exact inv_parse hwt hb hc hu rfl (by simp) he
  | appOpen => exact inv_parse hwt hb hc hu rfl (by simp [awaitHeader]) he
  | pteOpen => exact inv_parse hwt hb hc hu rfl (by simp [awaitHeader]) he
  | com => exact inv_parse hwt hb hc hu rfl (by simp [startSubBlocks]) he
  | app => exact inv_parse hwt hb hc hu rfl (by simp [startSubBlocks]) he
  | pte => exact inv_parse hwt hb hc hu rfl (by simp [startSubBlocks]) he
  | skip => exact inv_parse hwt hb hc hu rfl (by simp [startSubBlocks]) he
  | term _ h =>
    have hst : ∀ d, (termStored u d).status.err = 0 := fun d => by unfold termStored; dsimp only; split <;> exact he
    obtain ⟨d, ⟨rfl, -⟩ | ⟨rfl, -⟩⟩ := sbTerm_cases h
    · refine inv_parse hwt ?_ hc hu rfl (by simp) (hst d)
      rw [busy_state] at *
      unfold termStored; dsimp only; split <;> exact hb
    · exact inv_finishCommand (hst d)
  | data f _ h =>
    obtain ⟨h1, h2, h3, h4, -⟩ := sbData_inv h
    have hbt : t.busy = true := by rw [busy_state] at *; rw [h4]; simpa
    have hps' := hps rfl
    refine inv_parse hwt hbt (by rw [h3, hc]) (by rw [h2, hu]) ?_ ?_ (by rw [h4]; simpa)
    · rw [h1]; rcases hps' with h | h | h | h <;> rw [h] <;> rfl
    · rw [h1]; rcases hps' with h | h | h | h <;> simp [h]

theorem fed_inv {s u : State} {used : List Byte} {r : List (Option Byte)} (hf : Fed s u used r) (h : DecoderInv s.dec)
    (hs : u.dec.sbrem ≤ 255) : DecoderInv u.dec :=
  h.fed (by rw [hf]) hs

/-- A code keeps the invariant. -/
theorem codeRun_inv {s u t : State} {c : Nat} {used : List Byte} {r : List (Option Byte)} (hI : Inv s) (hb :
    s.busy = true) (hu : s.lzwUnit = .lzwd) (hf : Fed s u used r)
    (hsb : u.dec.sbrem ≤ 255) (hcw : c < 2 ^ s.dec.w) (hbit : bitBufferOk u.dec) (h : CodeRun u c t) : Inv t := by
  have hwu := wf_fed hf hI.memory
  have hwt := codeRun_wf h hwu
  obtain ⟨hd, -, ho⟩ := hI.decoder hu
  have hdu := fed_inv hf hd hsb
  have hcl : u.dec.clr = s.dec.clr := by rw [hf]
  have hwe : u.dec.w = s.dec.w := by rw [hf]
  have hout : u.out = s.out := by rw [hf]; rfl
  have hbu : u.busy = true := by rw [hf]; exact hb
  have huu : u.lzwUnit = .lzwd := by rw [hf]; exact hu
  have hst : u.status = s.status := by rw [hf]; rfl
  have hcm : u.cmd = s.cmd := by rw [hf]; rfl
  have hps : u.pst = s.pst := by rw [hf]; rfl
  have he : u.status.err = 0 := by rw [hst]; exact hI.err hb
  have hco := hI.control hb
  have hctl : controlOk u := by
    unfold controlOk at *
    rw [hcm, huu, hps]
    rw [hu] at hco
    have hdoc : u.doc = s.doc := by rw [hf]; rfl
    have hss : u.sst = s.sst := by rw [hf]; rfl
    rw [hdoc, hss]
    exact hco
  have hpst : u.pst = .lzw ∨ u.cmd ≠ .parse := by
    rw [hps, hcm]
    by_cases hc : s.cmd = .parse
    · unfold controlOk at hco
      rw [hc] at hco
      left
      rcases hco with ⟨h, -⟩ | ⟨-, h⟩
      · rw [hu] at h; simp at h
      · exact h
    · exact .inr hc
  cases h with
  | clear =>
    refine inv_decode hwt hbu huu hctl hpst ⟨decoderInv_clear hdu, hbit, ?_⟩ he
    intro b hb'; show b.toNat < u.dec.clr; rw [hcl]; exact ho b (hout ▸ hb')
  | known c hc h1 h2 =>
    have hr := register_fields (dictRead u.dec.dict c) u.dec
    refine inv_decode hwt hbu huu hctl hpst ⟨decoderInv_known hdu hc h1 h2, ?_, ?_⟩ he
    · show bitBufferOk (setPrev c (register (dictRead u.dec.dict c) u.dec))
      unfold bitBufferOk
      simp only [setPrev, hr]
      exact hbit
    · intro b hb'
      show b.toNat < (register (dictRead u.dec.dict c) u.dec).clr
      rw [hr.2.1]
      rcases List.mem_append.1 hb' with hb' | hb'
      · rw [hcl]; exact ho b (hout ▸ hb')
      · exact hdu.alphabet c b hb'
  | next p hp =>
    have hn : u.dec.next < 4096 := by
      have hw12 := hd.wRange.2
      have : 2 ^ s.dec.w ≤ 2 ^ 12 := Nat.pow_le_pow_right (by norm_num) hw12
      omega
    have hr := register_fields (dictRead u.dec.dict p ++ (dictRead u.dec.dict p).take 1) u.dec
    refine inv_decode hwt hbu huu hctl hpst ⟨decoderInv_next hdu hp hn, ?_, ?_⟩ he
    · show bitBufferOk (setPrev _ (register _ u.dec))
      unfold bitBufferOk
      simp only [setPrev, hr]
      exact hbit
    · intro b hb'
      show b.toNat < (register _ u.dec).clr
      rw [hr.2.1]
      rcases List.mem_append.1 hb' with hb' | hb'
      · rw [hcl]; exact ho b (hout ▸ hb')
      · rcases List.mem_append.1 hb' with hb' | hb'
        · exact hdu.alphabet p b hb'
        · exact hdu.alphabet p b (List.mem_of_mem_take hb')
  | invalid => exact inv_takeFault _ _ _

/-- The end of a decode keeps the invariant. -/
theorem inv_finishDecode {v : State} (hw : Memory.wf v = true) (hb : v.busy = true) (he : v.status.err = 0) :
    Inv (finishDecode v) := by
  have hwt := memoryWf_finishDecode hw
  by_cases hc : v.cmd = .parse
  · rw [finishDecode_parse hc] at *
    exact inv_parse hwt hb hc rfl rfl (by simp) he
  · rw [finishDecode_other hc]
    exact inv_finishCommand he

/-! ## What a step of the CORE can do, for claims about every state -/

/-- A step of a busy CORE in `t`, no host event being due, is one of `CoreStep`. -/
theorem core_of {s t u : State} (hb : t.busy = true) (hq : hostDue s = .quiet t) (h : step s = .next u) :
    ∃ rest, t.src.answers = (available t.src.answers).map some ++ rest ∧ EndsOrFails rest ∧
      CoreStep t (available t.src.answers) rest (.next u) := by
  obtain ⟨rest, h1, h2⟩ := source_split t
  refine ⟨rest, h1, h2, ?_⟩
  have := coreStep_cases hb h1 h2
  rwa [step_next_quiet hq h] at this

/-- The state in which the CORE takes a step differs in the host's events alone, so it meets the invariant too. -/
theorem inv_quiet {s t : State} (hI : Inv s) (hq : hostDue s = .quiet t) : Inv t := by
  obtain ⟨es, ⟨a, h⟩ | h⟩ := hostDue_cases s
  · rw [h] at hq; simp at hq
  · rw [h] at hq; cases hq; exact inv_host hI es

/-- Nothing but SRC, POS, the counter of free values, the bit buffer and the sub-block state differs: all a read, failed or not, can
change. -/
def OnlyRead (s u : State) : Prop :=
  u = { s with
    src := { s.src with answers := u.src.answers }
    pos := u.pos
    fresh := u.fresh
    dec := { s.dec with acc := u.dec.acc, nb := u.dec.nb, sbrem := u.dec.sbrem, sbterm := u.dec.sbterm, sbeos := u.dec.sbeos } }

theorem Fed.onlyRead {s u : State} {a : List Byte} {r : List (Option Byte)} (h : Fed s u a r) : OnlyRead s u := by
  unfold Fed at h; unfold OnlyRead; rw [h]; simp [took]

theorem Fed.onlyRead_failed {s u : State} {a : List Byte} {r : List (Option Byte)} (h : Fed s u a r) :
    OnlyRead s (failedRead u) := by
  unfold Fed at h; unfold OnlyRead; rw [h]; simp [took, failedRead]

theorem ReadFault.onlyRead {s u : State} {k : IoKind} {p : Nat} {bs : List Byte} {rest : List (Option Byte)}
    (h : ReadFault s u k p bs rest) : OnlyRead s u := by
  rcases h.cause with ⟨_, _, h⟩ | ⟨_, _, v, hv, rfl⟩
  · exact h.onlyRead
  · exact hv.onlyRead_failed

theorem FailedAt.onlyRead {s u : State} {p : Nat} {bs : List Byte} {rest : List (Option Byte)} (h : FailedAt s u p bs rest) :
    OnlyRead s u := by
  obtain ⟨_, _, v, h, rfl⟩ := h
  exact h.onlyRead_failed

theorem Moved.onlyRead {s u : State} {bs : List Byte} {rest : List (Option Byte)} {n : Nat} (h : Moved s u bs rest n) :
    OnlyRead s u := by
  obtain ⟨_, _, _, h⟩ := h.used
  exact h.onlyRead

/-- The commands that can run the decoder. -/
theorem cmd_decode {s : State} (h : controlOk s) (hu : s.lzwUnit = .lzwd) : s.cmd = .parse ∨ s.cmd = .decode := by
  unfold controlOk at h
  cases hc : s.cmd <;> rw [hc] at h <;> simp [hu, encoding] at h ⊢

/-- The commands that can run the encoder. -/
theorem cmd_encode {s : State} (h : controlOk s) (hu : encoding s.lzwUnit = true) :
    (s.cmd = .serialize ∧ s.sst = .image) ∨ s.cmd = .encode := by
  unfold controlOk at h
  cases hc : s.cmd <;> rw [hc] at h <;> simp at h ⊢
  · rcases h with ⟨h, -⟩ | ⟨h, -⟩ <;> simp [h, encoding] at hu
  · rcases h with ⟨_, ⟨h, -⟩ | ⟨h, h'⟩⟩
    · simp [h, encoding] at hu
    · exact h'
  · simp [h, encoding] at hu

end Sys2Proof.Machine
end

