-- ==== Sys2Proof/Tests/Slice0.lean ====
section
/-! SUPPORT. The model's own tests: terms that WellFormed refuses, words written out from the spec's encodings, one step a row with the
spec's own example (95_test_vectors.md and the Example lines of the rules), and a witness for the hypotheses of every statement. -/

namespace Sys2Proof.Tests
open Sys2Proof.Machine

/-! ## WellFormed refuses -/

theorem test_wf_gct_of_three : (Instr.gct [⟨0, 0, 0⟩, ⟨0, 0, 0⟩, ⟨0, 0, 0⟩]).wellFormed = false := by decide
theorem test_wf_lct_of_none : (Instr.lct []).wellFormed = false := by decide
theorem test_wf_unknown : ([0x21, 0x2C, 0x3B] : List Byte).all (fun b => !(Instr.unknown b).wellFormed) = true := by decide
theorem test_wf_img : (Instr.img (some 0) none none none none).wellFormed = false := by decide
theorem test_wf_gce_size : (Instr.extGce (.badSize 4)).wellFormed = false := by decide
theorem test_wf_app_size : (Instr.extApp (.badSize 11)).wellFormed = false := by decide
theorem test_wf_pte_size : (Instr.extPte (.badSize 12)).wellFormed = false := by decide
theorem test_wf_skip : ([0xF9, 0xFE, 0xFF, 0x01] : List Byte).all (fun l => !(Instr.extSkip l).wellFormed) = true := by decide
theorem test_wf_empty_payload : (Instr.sbData []).wellFormed = false := by decide
theorem test_wf_long_payload : (Instr.sbData (List.replicate 256 0)).wellFormed = false := by
  rw [Instr.wellFormed, List.length_replicate]
  decide
theorem test_wf_known : (Instr.known 4096).wellFormed = false := by decide
theorem test_wf_next : (Instr.nextCode 4096).wellFormed = false := by decide
theorem test_wf_invalid : (Instr.invalid 4096).wellFormed = false := by decide
theorem test_wf_accepts : (Instr.sbData (List.replicate 255 0)).wellFormed = true ∧ (Instr.invalid 4095).wellFormed = true := by
  rw [Instr.wellFormed, List.length_replicate]
  decide

/-! ## Words -/

/-- The bytes decode to the instruction, and nothing is left over. -/
def reads (slot : Slot) (bs : List Byte) (i : Instr) : Bool :=
  match decode slot bs with
  | .ok r => r == (i, [])
  | .error _ => false

/-- The bytes are refused as truncated behind so many of them. -/
def truncates (slot : Slot) (bs : List Byte) : Bool :=
  match decode slot bs with
  | .error (.truncated n) => n == bs.length
  | _ => false

theorem test_word_hdr : reads .header [0x47, 0x49, 0x46, 0x38, 0x39, 0x61] (.hdr ⟨0x47, 0x49, 0x46⟩ ⟨0x38, 0x39, 0x61⟩) = true := by
  decide
theorem test_word_lsd : reads .screen [0x2C, 0x01, 0x01, 0x00, 0x80, 0x07, 0x09] (.lsd 300 1 0x80 7 9) = true := by decide
theorem test_word_gct : reads (.globalTable 2) [0, 0, 0, 0xFF, 0xFE, 0xFD] (.gct [⟨0, 0, 0⟩, ⟨0xFF, 0xFE, 0xFD⟩]) = true := by decide
theorem test_word_lct : reads (.localTable 2) [1, 2, 3, 4, 5, 6] (.lct [⟨1, 2, 3⟩, ⟨4, 5, 6⟩]) = true := by decide
theorem test_word_mcs : reads .minCode [0x02] (.mcs 2) = true := by decide
theorem test_word_ext : reads .indicator [0x21] .ext = true := by decide
theorem test_word_img : reads .indicator [0x2C] imgIndicator = true := by decide
theorem test_word_descriptor : reads .descriptor [1, 0, 0, 2, 3, 0, 0, 4, 0xC0] (imgAt 1 512 3 1024 0xC0) = true := by decide
theorem test_word_trl : reads .indicator [0x3B] .trl = true := by decide
theorem test_word_unknown : reads .indicator [0x00] (.unknown 0) = true := by decide
theorem test_word_eos : reads .indicator [] .eos = true := by decide
theorem test_word_labels : reads .label [0xF9] (.extGce .label) = true ∧ reads .label [0xFF] (.extApp .label) = true ∧
    reads .label [0x01] (.extPte .label) = true := by decide
theorem test_word_gce : reads .gceBody [0x04, 0x01, 0x0A, 0x00, 0x02, 0x00] (.extGce (.body 1 10 2 0)) = true := by decide
theorem test_word_gce_size : reads .gceBody [0x05] (.extGce (.badSize 5)) = true := by decide
theorem test_word_com : reads .label [0xFE] .extCom = true := by decide
theorem test_word_app : reads .appHeader [0x0B, 0x4E, 0x45, 0x54, 0x53, 0x43, 0x41, 0x50, 0x45, 0x32, 0x2E, 0x30]
    (.extApp (.header ⟨0x4E, 0x45, 0x54, 0x53, 0x43, 0x41, 0x50, 0x45⟩ ⟨0x32, 0x2E, 0x30⟩)) = true := by decide
theorem test_word_pte : reads .pteHeader [0x0C, 1, 2, 3, 4, 5, 6, 7, 8, 9, 10, 11, 12]
    (.extPte (.header ⟨1, 2, 3, 4, 5, 6, 7, 8, 9, 10, 11, 12⟩)) = true := by decide
theorem test_word_skip : reads .label [0xAB] (.extSkip 0xAB) = true := by decide
theorem test_word_term : reads .subBlock [0x00] .sbTerm = true := by decide
theorem test_word_data : reads .subBlock [0x03, 0x61, 0x62, 0x63] (.sbData [0x61, 0x62, 0x63]) = true := by decide
theorem test_word_truncated : truncates .header [0x47, 0x49] = true ∧ truncates .screen [1] = true ∧
    truncates .descriptor [0, 0] = true ∧ truncates .gceBody [4, 1] = true ∧ truncates .label [] = true ∧ truncates .subBlock [5, 0x68, 0x69] = true ∧
    truncates (.globalTable 2) [0] = true ∧ truncates .minCode [] = true := by decide
theorem test_word_bad_table : decode (.localTable 3) [] = .error (.badTableLength 3) := by rfl

/-- k = 2 at the start of a decode: CLR 4, END 5, NEXT 6, W 3 (F3). -/
def kTwo (prev : Option Nat) : CodeContext := ⟨4, 5, 6, 3, prev⟩

theorem test_code_clear : decodeCode (kTwo none) [false, false, true] = (.clear, []) := by decide
theorem test_code_end : decodeCode (kTwo none) [true, false, true, false] = (.endCode, [false]) := by decide
theorem test_code_known : decodeCode (kTwo none) [true, true, false] = (.known 3, []) := by decide
theorem test_code_next : decodeCode (kTwo (some 1)) [false, true, true] = (.nextCode 6, []) := by decide
theorem test_code_invalid : decodeCode (kTwo none) [false, true, true] = (.invalid 6, []) := by decide
theorem test_code_above : decodeCode (kTwo (some 1)) [true, true, true] = (.invalid 7, []) := by decide
theorem test_code_none : decodeCode (kTwo none) [true, true] = (.noCode, [true, true]) := by decide
/-- CU11: the data bytes 44 01 hold the codes 4, 0, 5 at width 3. -/
theorem test_bits_of_codes : bitsOfBytes [0x44, 0x01] = toBits 3 4 ++ toBits 3 0 ++ toBits 3 5 ++ toBits 7 0 := by decide

theorem test_commands : [StartCommand.parse, .serialize, .decode, .encode].map decodeCommand = [.parse, .serialize, .decode, .encode] := by
  decide

/-- 42_lzw_encoder.md R204, R205, R207: the row the next index 1 selects. -/
theorem test_select_first : selectStep (startEncoder 2 []) 1 = .eMatch 1 := by decide
theorem test_select_match : selectStep { startEncoder 2 [] with cur := some 1, tab := tabWrite [] 1 1 6 } 1 = .eMatch 1 := by decide
theorem test_select_miss : selectStep { startEncoder 2 [] with cur := some 0 } 1 = .eMiss 1 := by decide
theorem test_select_overflow : selectStep { startEncoder 2 [] with cur := some 0, next := 4096 } 1 = .eOverflow 1 := by decide

/-- The mnemonics of the parts, by SST (R285). -/
theorem test_parts : ∀ p : SState, partWaits p = true ↔
    p ∈ [.header, .lsd, .gct, .gce, .comment, .app, .pte, .image, .trailer] := by
  intro p; cases p <;> decide

theorem test_fields : gctFlag 0x91 = true ∧ colorRes 0x91 = 1 ∧ gctSort 0x91 = false ∧ gctExp 0x91 = 1 ∧ lctFlag 0xC0 = true ∧
    interlace 0xC0 = true ∧ lctSort 0xC0 = false ∧ lctExp 0x87 = 7 := by decide
theorem test_table_lengths : (List.range 8).map (ctLen true) = [2, 4, 8, 16, 32, 64, 128, 256] ∧ ctLen false 7 = 0 := by decide

/-! ## One step a row, on the spec's examples -/

/-- What is read of the next state, where there is one. -/
def got {α : Type} (o : Host.Outcome State Fault Refusal) (f : State → α) : Option α :=
  match o with
  | .next t => some (f t)
  | .fault _ => none
  | .refused _ => none

/-- A state in the middle of a command, with free room on SNK. -/
def running (c : Command) : State := { State.reset with cmd := c, status := ⟨.busy, 0, false⟩, snk := ⟨true, [], none⟩ }

/-- A PARSE at a place of the stream, with these bytes to come and five taken. -/
def parsing (p : PState) (bs : List Byte) : State := { running .parse with pst := p, pos := 5, src := ⟨true, bs.map some⟩ }

/-- A DECODE with k = 2 that has just started, with these bytes to come. -/
def decoding (bs : List Byte) : State := startDecode 2 { running .decode with src := ⟨true, bs.map some⟩ }

/-- An ENCODE with k = 2 of these indices, its clear code out: 4 in three bits. -/
def encoding2 (pix : List Byte) : State :=
  { running .encode with
    lzwUnit := .lzwe, enc := { startEncoder 2 pix with acc := 4, nb := 3 } }

/-- A SERIALIZE at a part, of this Document. -/
def writing (p : SState) (d : Document) : State := { running .serialize with sst := p, doc := some d }

def written (o : Host.Outcome State Fault Refusal) : Option (List Byte) := got o fun t => t.snk.bytes

theorem test_parse : got (exec .parse { State.reset with src := ⟨true, []⟩ }) (fun t => (t.pst, t.status.state)) =
    some (.header, .busy) := by decide
theorem test_serialize_refused : exec .serialize State.reset = .refused .noDocument := by rfl
/-- D1 of the bit order: k = 2 gives CLR 4, NEXT 6, W 3. -/
theorem test_decode : got (exec .decode { State.reset with src := ⟨true, []⟩, argK := 2, argKWritten := true })
    (fun t => (t.dec.clr, t.dec.next, t.dec.w, dictRead t.dec.dict 3)) = some (4, 6, 3, [3]) := by decide
/-- k = 8 gives ECLR 256, ENEXT 258, EW 9 (42_lzw_encoder.md R201). -/
theorem test_encode : got (exec .encode { State.reset with
      snk := ⟨true, [1], none⟩, argK := 8, argKWritten := true, out := [7], pixWritten := true })
    (fun t => (t.enc.clr, t.enc.next, t.enc.w, t.snk.bytes, t.enc.rest)) = some (256, 258, 9, [], [7]) := by decide
theorem test_hdr : got (step (parsing .header [0x47, 0x49, 0x46, 0x38, 0x39, 0x61])) (fun t => (t.pst, t.pos)) = some (.lsd, 11) := by
  decide
/-- R233: GIX89a raises InvalidSignature behind its six bytes. -/
theorem test_hdr_bad : got (step (parsing .header [0x47, 0x49, 0x58, 0x38, 0x39, 0x61])) (fun t => (t.status.err, t.errInfo)) =
    some (2, ⟨.invalidSignature ⟨0x47, 0x49, 0x58⟩, 11⟩) := by decide
theorem test_lsd : got (step (parsing .lsd [0x01, 0x00, 0x01, 0x00, 0x80, 0x00, 0x00]))
    (fun t => (t.pst, t.scratch.doc.screen)) = some (.gct, ⟨1, 1, 0x80, 0, 0⟩) := by decide
theorem test_lsd_no_table : got (step (parsing .lsd [0x01, 0x00, 0x01, 0x00, 0x07, 0x00, 0x00])) (fun t => t.pst) = some .loop := by
  decide
theorem test_gct : got (exec (.gct [⟨0, 0, 0⟩, ⟨0xFF, 0xFF, 0xFF⟩]) (parsing .gct []))
    (fun t => (t.pst, t.scratch.doc.gct)) = some (.loop, some [⟨0, 0, 0⟩, ⟨0xFF, 0xFF, 0xFF⟩]) := by decide
theorem test_lct : got (exec (.lct [⟨0, 0, 0⟩, ⟨1, 1, 1⟩]) (parsing .lct [])) (fun t => (t.pst, t.scratch.img.lct)) =
    some (.minCode, some [⟨0, 0, 0⟩, ⟨1, 1, 1⟩]) := by decide
theorem test_mcs : got (step (parsing .minCode [0x02])) (fun t => (t.pst, t.scratch.img.minCodeSize)) = some (.lzw, 2) := by decide
theorem test_lzw_refused : exec .lzw (parsing .lzw []) = .refused .badMinCodeSize := by rfl
theorem test_ext : got (step (parsing .loop [0x21, 0xFE])) (fun t => (t.pst, t.pos)) = some (.label, 6) := by decide
/-- P1: the byte 2C leads to P_IMGDESC. -/
theorem test_img : got (step (parsing .loop [0x2C, 0])) (fun t => (t.pst, t.pos)) = some (.imgDesc, 6) := by decide
theorem test_descriptor : got (step (parsing .imgDesc [0, 0, 0, 0, 1, 0, 1, 0, 0])) (fun t => (t.pst, t.pos, t.scratch.img.height)) =
    some (.minCode, 14, 1) := by decide
theorem test_trl : got (step (parsing .loop [0x3B, 0x00])) (fun t => (t.status.state, t.pos, t.doc)) =
    some (.doneOk, 6, some Document.fresh) := by decide
theorem test_unknown : got (step (parsing .loop [0x00])) (fun t => (t.errInfo, t.doc)) = some (⟨.unknownBlock 0, 6⟩, none) := by decide
theorem test_eos : got (step (parsing .loop [])) (fun t => (t.status.state, t.pst)) = some (.doneOk, .done) := by decide
/-- P6: the byte F9 leads to P_GCE; likewise FF to P_APP and 01 to P_PTE, where the fixed part is read next (R257). -/
theorem test_labels : ([0xF9, 0xFF, 0x01] : List Byte).map (fun b => got (step (parsing .label [b])) fun t => (t.pst, parseSlot t)) =
    [some (.gce, some .gceBody), some (.app, some .appHeader), some (.pte, some .pteHeader)] := by decide
theorem test_gce : got (step (parsing .gce [0x04, 0x01, 0x0A, 0x00, 0x02, 0x00]))
    (fun t => (t.pst, t.scratch.doc.gces)) = some (.loop, [⟨1, 10, 2⟩]) := by decide
/-- X5: a size other than 4 faults before the body is read. -/
theorem test_gce_size : got (step (parsing .gce [0x05, 0x01])) (fun t => (t.errInfo, t.src.answers)) =
    some (⟨.badBlockSize 0xF9 5, 6⟩, [some 1]) := by decide
theorem test_com : got (step (parsing .label [0xFE, 0x00])) (fun t => (t.pst, t.scratch.frags)) = some (.comment, []) := by decide
theorem test_app_size : got (step (awaitHeader .app (parsing .label [0x0C]))) (fun t => t.errInfo) = some ⟨.badBlockSize 0xFF 0x0C, 6⟩ := by
  decide
theorem test_pte : got (step (awaitHeader .pte (parsing .label [0x0C, 1, 2, 3, 4, 5, 6, 7, 8, 9, 10, 11, 12])))
    (fun t => (t.pst, t.scratch.pteFields.b11, t.status.pteSeen)) = some (.pte, 12, false) := by decide
theorem test_skip : got (step (parsing .label [0xAB])) (fun t => (t.pst, t.scratch.doc)) = some (.skip, Document.fresh) := by decide
/-- "hi" in one fragment (R239). -/
theorem test_term : got (exec .sbTerm { parsing .comment [] with scratch := { Scratch.fresh with frags := [[0x68, 0x69]] } })
    (fun t => (t.pst, t.scratch.doc.comments)) = some (.loop, [⟨[[0x68, 0x69]]⟩]) := by decide
theorem test_data : got (step (parsing .app [0x03, 0x61, 0x62, 0x63, 0x01])) (fun t => (t.pst, t.pos, t.scratch.frags)) =
    some (.app, 9, [[0x61, 0x62, 0x63]]) := by decide
/-- R173: the data byte 2C is the codes 4 and 5; here the second of them. -/
theorem test_end : got (exec .endCode (decoding [0x00, 0x3B])) (fun t => (t.status.state, t.pos, t.src.answers, t.out)) =
    some (.doneOk, 1, [some 0x3B], []) := by decide
/-- R174: NEXT 8, W 4, PREV 7 go back to 6, 3 and none. -/
theorem test_clear : got (exec .clear { decoding [] with dec := { startDecoder 2 with next := 8, w := 4, prev := some 7 }, out := [1] })
    (fun t => (t.dec.next, t.dec.w, t.dec.prev, t.out)) = some (6, 3, none, [1]) := by decide
/-- R179: PREV 0, NEXT 6, seq [1] makes entry 6 [0, 1]. -/
theorem test_known : got (exec (.known 1) { decoding [] with dec := setPrev 0 (startDecoder 2), out := [0] })
    (fun t => (t.out, dictRead t.dec.dict 6, t.dec.next, t.dec.prev)) = some ([0, 1], [0, 1], 7, some 1) := by decide
/-- R180: the registration that makes NEXT 8 makes W 4. -/
theorem test_widen : got (exec (.known 1) { decoding [] with dec := { setPrev 0 (startDecoder 2) with next := 7 } })
    (fun t => (t.dec.next, t.dec.w)) = some (8, 4) := by decide
/-- R176: PREV 1, NEXT 6, code 6 gives [1, 1]. -/
theorem test_next : got (exec (.nextCode 6) { decoding [] with dec := setPrev 1 (startDecoder 2) })
    (fun t => (t.out, dictRead t.dec.dict 6, t.dec.next)) = some ([1, 1], [1, 1], 7) := by decide
theorem test_next_unselected : exec (.nextCode 6) (decoding []) = .fault .notSelected := by rfl
/-- R177: 6 directly behind the clear code. -/
theorem test_invalid : got (exec (.invalid 6) (decoding [])) (fun t => (t.errInfo, t.status.err)) = some (⟨.invalidCode 6 3, 0⟩, 5) := by
  decide
/-- R183: two bits left are no code. -/
theorem test_nocode : got (step { decoding [] with dec := { startDecoder 2 with acc := 1, nb := 2 }, out := [0] })
    (fun t => (t.status.state, t.out)) = some (.doneOk, [0]) := by decide
/-- R161: 44 01 begins with the code 4, and five bits stay. -/
theorem test_next_code : got (step (decoding [0x02, 0x44, 0x01, 0x00])) (fun t => (t.dec.nb, t.dec.acc, t.dec.sbrem, t.pos)) =
    some (5, 8, 1, 2) := by decide
theorem test_shdr : written (step (writing .header { Document.fresh with header := ⟨⟨0x47, 0x49, 0x46⟩, ⟨0x38, 0x39, 0x61⟩⟩ })) =
    some [0x47, 0x49, 0x46, 0x38, 0x39, 0x61] := by decide
theorem test_slsd : written (step (writing .lsd { Document.fresh with screen := ⟨1, 1, 0x80, 0, 0⟩ })) =
    some [0x01, 0x00, 0x01, 0x00, 0x80, 0x00, 0x00] := by decide
theorem test_sgct : written (step (writing .gct { Document.fresh with gct := some [⟨0, 0, 0⟩, ⟨0xFF, 0xFF, 0xFF⟩] })) =
    some [0x00, 0x00, 0x00, 0xFF, 0xFF, 0xFF] := by decide
theorem test_sgce : written (step (writing .gce { Document.fresh with gces := [⟨1, 10, 2⟩] })) =
    some [0x21, 0xF9, 0x04, 0x01, 0x0A, 0x00, 0x02, 0x00] := by decide
theorem test_scom : written (step (writing .comment { Document.fresh with comments := [⟨[[0x68], [0x69]]⟩] })) =
    some [0x21, 0xFE, 0x02, 0x68, 0x69, 0x00] := by decide
theorem test_sapp : written (step (writing .app { Document.fresh with
      apps := [⟨⟨0x4E, 0x45, 0x54, 0x53, 0x43, 0x41, 0x50, 0x45⟩, ⟨0x32, 0x2E, 0x30⟩, [1, 0, 0]⟩] })) =
    some [0x21, 0xFF, 0x0B, 0x4E, 0x45, 0x54, 0x53, 0x43, 0x41, 0x50, 0x45, 0x32, 0x2E, 0x30, 0x03, 0x01, 0x00, 0x00, 0x00] := by
  decide
/-- R278: two records in one extension. -/
theorem test_spte : written (step (writing .pte { Document.fresh with
      ptes := [⟨⟨0, 0, 0, 0, 0, 0, 0, 0, 0, 0, 0, 1⟩, [0x61]⟩, ⟨⟨0, 0, 0, 0, 0, 0, 0, 0, 0, 0, 0, 2⟩, [0x62, 0x63]⟩] })) =
    some [0x21, 0x01, 0x0C, 0, 0, 0, 0, 0, 0, 0, 0, 0, 0, 0, 1, 0x01, 0x61, 0x0C, 0, 0, 0, 0, 0, 0, 0, 0, 0, 0, 0, 2, 0x02, 0x62,
      0x63, 0x00] := by decide
theorem test_simg : got (step (writing .image { Document.fresh with images := [⟨0, 0, 1, 1, 0, none, 2, [0]⟩] }))
    (fun t => (t.snk.bytes, t.enc.rest, t.lzwUnit)) =
    some ([0x2C, 0x00, 0x00, 0x00, 0x00, 0x01, 0x00, 0x01, 0x00, 0x00, 0x02], [0], .lzweStart) := by decide
theorem test_simg_last : got (step (writing .image Document.fresh)) (fun t => (t.snk.bytes, t.sst)) = some ([], .trailer) := by decide
theorem test_strl : got (step (writing .trailer Document.fresh)) (fun t => (t.snk.bytes, t.status.state, t.spos)) =
    some ([0x3B], .doneOk, 1) := by decide
theorem test_strl_fails : got (step { writing .trailer Document.fresh with snk := ⟨true, [], some 0⟩ })
    (fun t => (t.errInfo, t.sst, t.doc)) = some (⟨.ioError .writeFailure, 0⟩, .fault, some Document.fresh) := by decide
theorem test_clear0 : got (exec .eClear0 { running .encode with enc := startEncoder 2 [0], lzwUnit := .lzweStart })
    (fun t => (t.enc.acc, t.enc.nb, t.lzwUnit)) = some (4, 3, .lzwe) := by decide
/-- R204: (1, 1) is 6. -/
theorem test_match : got (exec (.eMatch 1) { encoding2 [] with
      enc := { startEncoder 2 [] with cur := some 1, tab := tabWrite [] 1 1 6, next := 7 } })
    (fun t => (t.enc.cur, t.enc.next, t.snk.bytes)) = some (some 6, 7, []) := by decide
/-- R205: ECUR 0, p 1 emits 0 in three bits and registers (0, 1) as 6. -/
theorem test_miss : got (exec (.eMiss 1) { encoding2 [] with enc := { (encoding2 []).enc with cur := some 0 } })
    (fun t => (t.enc.acc, t.enc.nb, tabRead t.enc.tab 0 1, t.enc.next, t.enc.cur)) = some (4, 6, some 6, 7, some 1) := by decide
theorem test_overflow : got (exec (.eOverflow 1) { encoding2 [] with
      enc := { startEncoder 2 [] with cur := some 0, tab := tabWrite [] 0 2 6, next := 4096, w := 12 } })
    (fun t => (t.enc.tab, t.enc.next, t.enc.w, t.enc.buf)) = some ([], 6, 3, [0x00, 0x40, 0x00]) := by decide
/-- R208, R210: [0] ends as 02 44 01 00. -/
theorem test_finish : written (exec .eFinish { encoding2 [] with enc := { (encoding2 []).enc with cur := some 0 } }) =
    some [0x02, 0x44, 0x01, 0x00] := by decide
/-- R203: the empty input ends as 01 2C 00. -/
theorem test_finish_empty : written (exec .eFinish (encoding2 [])) = some [0x01, 0x2C, 0x00] := by decide
/-- R253: by the other value of PTE_POLICY the parse ends behind a plain text extension. -/
theorem test_early_return : got (step { parsing .pte [0x00] with params := { Params.spec with ptePolicy := .earlyReturn } })
    (fun t => (t.pst, t.status, t.doc.map fun d => d.ptes.length)) = some (.done, ⟨.doneOk, 0, true⟩, some 1) := by decide
/-- U10: behind five bytes POS_BITS = 3 leaves room for two, not for three. -/
theorem test_capacity : (([[1, 7], [2, 7, 7]] : List (List Byte)).map fun bs =>
    got (step { parsing .comment bs with params := { Params.spec with posBits := some 3 } }) fun t => t.pos) = [some 7, none] := by decide
/-- R48: behind a DECODE the buffer is not PIX. -/
theorem test_pix : got (exec .decode { State.reset with src := ⟨true, []⟩, argK := 2, argKWritten := true, out := [1], pixWritten := true })
    (fun t => t.pixWritten) = some false := by decide
theorem test_host_busy : step { running .parse with host := [⟨some 0, .writeArgK 3⟩] } = .refused .busy := by rfl
theorem test_host_waits : got (step { parsing .loop [0x3B] with host := [⟨none, .writeCmd .parse⟩] }) (fun t => t.host.length) = some 1 := by
  decide
theorem test_canonical : dictWrite [(1, [5])] 1 [] = [] ∧ dictWrite [(3, [5])] 1 [6] = [(1, [6]), (3, [5])] := by decide

/-- An instruction placed for the host's question is the one the next step runs. -/
theorem test_withFetchWord : got (step (State.reset.withFetchWord 8 0x3B)) (fun t => t.status.state) = some .doneOk := by decide

/-! ## Witnesses

One theorem a statement (or a clause of it): a state and operands that meet its hypotheses together. -/

theorem wit_DecodeEncodeBlocks : ∃ (i : Instr) (slot : Slot) (rest : List Byte),
    i.wellFormed = true ∧ slotOf i = some slot ∧ (i = .eos → rest = []) := ⟨.sbData [1], .subBlock, [2], by decide, rfl, by simp⟩

theorem wit_DecodeEncodeBlocks_eos : Instr.wellFormed .eos = true ∧ slotOf .eos = some .indicator ∧
    (Instr.eos = .eos → ([] : List Byte) = []) := ⟨rfl, rfl, fun _ => rfl⟩

theorem wit_DecodedBytesAreTheEncoding : ∃ slot bs i rest, decode slot bs = .ok (i, rest) :=
  ⟨.label, [0xFE, 7], .extCom, [7], rfl⟩

theorem wit_CodeClassConditions : ∃ x : CodeContext, x.endc = x.clr + 1 ∧ x.endc < x.next := ⟨kTwo (some 1), by decide⟩

/-- The largest code of the width. -/
theorem wit_CodesReadBackAsWritten : ∃ (x : CodeContext) (c : Nat), c < 2 ^ x.w ∧ ¬ c + 1 < 2 ^ x.w := ⟨kTwo none, 7, by decide⟩

theorem wit_MustU16ReadsLowByteFirst :
    (∃ (s : State) (lo hi : Byte) (rest : List (Option Byte)), s.src.answers = some lo :: some hi :: rest) ∧
    (∃ (s : State) (lo : Byte), s.src.answers = [some lo]) ∧ ∃ s : State, s.src.answers = [] :=
  ⟨⟨parsing .loop [0xFF, 0x01, 5], 0xFF, 0x01, [some 5], rfl⟩, ⟨parsing .loop [0xFF], 0xFF, rfl⟩, ⟨parsing .loop [], rfl⟩⟩

/-- SNK takes exactly the bytes. -/
theorem wit_SubBlockFraming : ∃ (l : List Byte) (s : State), room s (frame l).length = true ∧ room s ((frame l).length + 1) = false :=
  ⟨[0x44, 0x01], { running .encode with snk := ⟨true, [], some 4⟩ }, by decide⟩

theorem wit_StepRunsDecodedInstruction : ∃ (s t : State) (slot : Slot) (i : Instr) (rest : List Byte),
    hostDue s = .quiet t ∧ t.busy = true ∧ t.cmd = .parse ∧ t.lzwUnit = .off ∧ parseSlot t = some slot ∧
    decode slot (available t.src.answers) = .ok (i, rest) ∧ (i = .eos → t.src.answers = []) :=
  ⟨parsing .label [0xAB, 1], _, .label, .extSkip 0xAB, [1], rfl, rfl, rfl, rfl, rfl, rfl, by simp⟩

theorem wit_StepRunsDecodedInstruction_eos : ∃ s t : State,
    hostDue s = .quiet t ∧ t.busy = true ∧ t.cmd = .parse ∧ t.lzwUnit = .off ∧ parseSlot t = some .indicator ∧
    decode .indicator (available t.src.answers) = .ok (.eos, []) ∧ (Instr.eos = .eos → t.src.answers = []) :=
  ⟨parsing .loop [], _, rfl, rfl, rfl, rfl, rfl, rfl, fun _ => rfl⟩

/-- Behind a minimum code size inside the decoder's domain and one outside it. -/
theorem wit_StepRunsDecodedInstruction_lzw : ∀ k ∈ ([2, 9] : List Byte), ∃ s t : State,
    hostDue s = .quiet t ∧ t.busy = true ∧ t.cmd = .parse ∧ t.lzwUnit = .off ∧ t.pst = .lzw ∧ t.scratch.img.minCodeSize = k :=
  fun k _ => ⟨{ parsing .lzw [] with scratch := { Scratch.fresh with img := { ImageBlock.fresh with minCodeSize := k } } }, _,
    rfl, rfl, rfl, rfl, rfl, rfl⟩

theorem wit_StepFaultsAtTruncation : ∃ (s t : State) (slot : Slot) (bs : List Byte) (n : Nat),
    hostDue s = .quiet t ∧ t.busy = true ∧ t.cmd = .parse ∧ t.lzwUnit = .off ∧ parseSlot t = some slot ∧ sourceHolds t bs ∧
    decode slot bs = .error (.truncated n) := ⟨parsing .header [1, 2], _, .header, [1, 2], 2, rfl, rfl, rfl, rfl, rfl, rfl, rfl⟩

/-- A whole code at hand, and exactly one. -/
theorem wit_StepRunsCodeOffTheBitStream : ∃ (s t : State) (bs : List Byte),
    hostDue s = .quiet t ∧ t.busy = true ∧ t.lzwUnit = .lzwd ∧ sourceHolds t bs ∧ bitBufferOk t.dec ∧ t.dec.w = (bitsLeft t).length :=
  ⟨{ decoding [0x00] with dec := { startDecoder 2 with acc := 4, nb := 3 } }, _, [0x00], rfl, rfl, rfl, rfl,
    ⟨by decide, by decide⟩, rfl⟩

/-- Two bits left: no code. -/
theorem wit_StepRunsCodeOffTheBitStream_short : ∃ (s t : State) (bs : List Byte),
    hostDue s = .quiet t ∧ t.busy = true ∧ t.lzwUnit = .lzwd ∧ sourceHolds t bs ∧ bitBufferOk t.dec ∧ (bitsLeft t).length < t.dec.w :=
  ⟨{ decoding [0x00] with dec := { startDecoder 2 with acc := 1, nb := 2 } }, _, [0x00], rfl, rfl, rfl, rfl,
    ⟨by decide, by decide⟩, by decide⟩

theorem wit_StepRunsPartOfSst (p : SState) : ∃ s t : State,
    hostDue s = .quiet t ∧ t.busy = true ∧ t.cmd = .serialize ∧ t.lzwUnit = .off ∧ t.sst = p :=
  ⟨writing p Document.fresh, _, rfl, rfl, rfl, rfl, rfl⟩

theorem wit_StepRunsEncoderRow_start : ∃ s t : State, hostDue s = .quiet t ∧ t.busy = true ∧ t.lzwUnit = .lzweStart :=
  ⟨{ encoding2 [1] with lzwUnit := .lzweStart }, _, rfl, rfl, rfl⟩

theorem wit_StepRunsEncoderRow_finish : ∃ s t : State,
    hostDue s = .quiet t ∧ t.busy = true ∧ t.lzwUnit = .lzwe ∧ t.enc.rest = [] := ⟨encoding2 [], _, rfl, rfl, rfl, rfl⟩

theorem wit_StepRunsEncoderRow_first : ∃ s t : State,
    hostDue s = .quiet t ∧ t.busy = true ∧ t.lzwUnit = .lzwe ∧ t.enc.rest = [1] ∧ t.enc.cur = none :=
  ⟨encoding2 [1], _, rfl, rfl, rfl, rfl, rfl⟩

theorem wit_StepRunsEncoderRow_match : ∃ s t : State,
    hostDue s = .quiet t ∧ t.busy = true ∧ t.lzwUnit = .lzwe ∧ t.enc.rest = [1] ∧ t.enc.cur = some 1 ∧
    tabRead t.enc.tab 1 1 ≠ none :=
  ⟨{ encoding2 [1] with enc := { (encoding2 [1]).enc with cur := some 1, tab := tabWrite [] 1 1 6, next := 7 } }, _, rfl, rfl, rfl,
    rfl, rfl, by decide⟩

/-- The last code that can be registered. -/
theorem wit_StepRunsEncoderRow_miss : ∃ s t : State,
    hostDue s = .quiet t ∧ t.busy = true ∧ t.lzwUnit = .lzwe ∧ t.enc.rest = [1] ∧ t.enc.cur = some 1 ∧
    tabRead t.enc.tab 1 1 = none ∧ t.enc.next + 1 = 4096 :=
  ⟨{ encoding2 [1] with enc := { (encoding2 [1]).enc with cur := some 1, next := 4095, w := 12 } }, _, rfl, rfl, rfl, rfl, rfl, rfl, rfl⟩

theorem wit_StepRunsEncoderRow_overflow : ∃ s t : State,
    hostDue s = .quiet t ∧ t.busy = true ∧ t.lzwUnit = .lzwe ∧ t.enc.rest = [1] ∧ t.enc.cur = some 1 ∧
    tabRead t.enc.tab 1 1 = none ∧ 4096 ≤ t.enc.next :=
  ⟨{ encoding2 [1] with enc := { (encoding2 [1]).enc with cur := some 1, next := 4096, w := 12 } }, _, rfl, rfl, rfl, rfl, rfl, rfl,
    le_rfl⟩

theorem wit_HostActsBetweenCommands (a : HostAction) : ∃ s t : State, hostDue s = .act a t ∧ t.busy = false :=
  ⟨{ State.reset with host := [⟨none, a⟩] }, _, rfl, rfl⟩

theorem wit_HostActsBetweenCommands_busy (a : HostAction) : ∃ s t : State, hostDue s = .act a t ∧ t.busy = true :=
  ⟨{ running .parse with host := [⟨some 0, a⟩] }, _, rfl, rfl⟩

theorem wit_HostActsBetweenCommands_idle : ∃ s t : State, hostDue s = .quiet t ∧ t.busy = false := ⟨State.reset, _, rfl, rfl⟩

/-! ### Group host -/

/-- A CORE between two commands: both streams attached, ARG_K and PIX written, a Document held. -/
def between (k : Byte) (pix : List Byte) : State :=
  { State.reset with
    src := ⟨true, []⟩, snk := ⟨true, [1], none⟩, argK := k, argKWritten := true, out := pix, pixWritten := true
    doc := some Document.fresh }

theorem wit_ParseStarts : ∃ s : State, s.busy = false ∧ s.src.attached = true := ⟨between 2 [], rfl, rfl⟩
theorem wit_SerializeStarts : ∃ s : State, s.busy = false ∧ s.doc ≠ none ∧ s.snk.attached = true :=
  ⟨between 2 [], rfl, by decide, rfl⟩
theorem wit_DecodeStarts : ∀ k ∈ ([2, 8] : List Byte), ∃ s : State, s.argK = k ∧
    s.busy = false ∧ s.src.attached = true ∧ s.argKWritten = true ∧ 2 ≤ s.argK.toNat ∧ s.argK.toNat ≤ 8 := by
  intro k hk
  refine ⟨between k [], rfl, rfl, rfl, rfl, ?_⟩
  revert k
  decide
theorem wit_EncodeStarts : ∃ s : State, s.busy = false ∧ s.snk.attached = true ∧ s.argKWritten = true ∧ s.pixWritten = true ∧
    2 ≤ s.argK.toNat ∧ s.argK.toNat ≤ 8 ∧ (∀ p, p ∈ s.out → p.toNat < 2 ^ s.argK.toNat) ∧ 3 ∈ s.out :=
  ⟨between 2 [0, 3], rfl, rfl, rfl, rfl, by decide, by decide, by decide, by decide⟩
theorem wit_EncodeStarts_eight : ∃ s : State, s.busy = false ∧ s.snk.attached = true ∧ s.argKWritten = true ∧ s.pixWritten = true ∧
    s.argK.toNat = 8 ∧ (∀ p, p ∈ s.out → p.toNat < 2 ^ s.argK.toNat) ∧ 255 ∈ s.out :=
  ⟨between 8 [255], rfl, rfl, rfl, rfl, by decide, by decide, by decide⟩

theorem wit_UndefinedCommandsRefused_busy : ∃ s : State, s.busy = true := ⟨running .parse, rfl⟩
theorem wit_UndefinedCommandsRefused_doc : ∃ s : State, s.busy = false ∧ s.doc = none := ⟨State.reset, rfl, rfl⟩
theorem wit_UndefinedCommandsRefused_argK : ∃ s : State,
    s.busy = false ∧ s.src.attached = true ∧ s.snk.attached = true ∧ s.argKWritten = false :=
  ⟨{ between 2 [] with argKWritten := false }, rfl, rfl, rfl, rfl⟩
theorem wit_UndefinedCommandsRefused_pix : ∃ s : State,
    s.busy = false ∧ s.snk.attached = true ∧ s.argKWritten = true ∧ s.pixWritten = false :=
  ⟨{ between 2 [] with pixWritten := false }, rfl, rfl, rfl, rfl⟩
theorem wit_UndefinedCommandsRefused_overwritten : (∃ t, exec .decode (between 2 []) = .next t ∧ t.lzwUnit ≠ .off) ∧
    (between 2 []).lzwUnit = .off := ⟨⟨_, rfl, by decide⟩, rfl⟩
theorem wit_UndefinedCommandsRefused_k : ∀ k ∈ ([1, 9] : List Byte), ∃ s : State, s.argK = k ∧
    s.busy = false ∧ s.src.attached = true ∧ s.snk.attached = true ∧ s.argKWritten = true ∧ s.pixWritten = true ∧
    (s.argK.toNat < 2 ∨ 8 < s.argK.toNat) := by
  intro k hk
  refine ⟨between k [], rfl, rfl, rfl, rfl, rfl, rfl, ?_⟩
  revert k
  decide
theorem wit_UndefinedCommandsRefused_symbol : ∃ s : State,
    s.busy = false ∧ s.snk.attached = true ∧ s.argKWritten = true ∧ s.pixWritten = true ∧ 2 ≤ s.argK.toNat ∧ s.argK.toNat ≤ 8 ∧
    ∃ p, p ∈ s.out ∧ 2 ^ s.argK.toNat ≤ p.toNat := ⟨between 2 [4], rfl, rfl, rfl, rfl, by decide, by decide, 4, by decide, by decide⟩
theorem wit_UndefinedCommandsRefused_image : ∃ s : State,
    s.scratch.img.minCodeSize.toNat < 2 ∨ 8 < s.scratch.img.minCodeSize.toNat := ⟨parsing .lzw [], by decide⟩

/-! ### Groups fixed to code -/

/-- The two sides of bit 7. -/
theorem wit_PositionalRowsStoreWhatWasRead : (128 : Nat) ≤ (0x80 : Byte).toNat ∧ (0x7F : Byte).toNat < 128 := by decide
theorem wit_ExtensionAndImageOpen : (128 : Nat) ≤ (0x80 : Byte).toNat ∧ (0x7F : Byte).toNat < 128 := by decide

theorem wit_ImageDecodeStartsFresh : ∀ k ∈ ([2, 8] : List Nat), ∃ s : State,
    s.scratch.img.minCodeSize.toNat = k ∧ 2 ≤ k ∧ k ≤ 8 := by
  intro k hk
  refine ⟨{ parsing .lzw [] with
    scratch := { Scratch.fresh with img := { ImageBlock.fresh with minCodeSize := BitVec.ofNat 8 k } } }, ?_⟩
  revert k
  decide

/-- The host's side of the last clause. -/
theorem wit_ImageDecodeStartsFresh_decode : ∀ k ∈ ([2, 8] : List Nat), ∃ u : State,
    u.busy = false ∧ u.src.attached = true ∧ u.argKWritten = true ∧ u.argK.toNat = k := by
  intro k hk
  refine ⟨{ State.reset with src := ⟨true, []⟩, argK := BitVec.ofNat 8 k, argKWritten := true }, ?_⟩
  revert k
  decide

theorem wit_TrailerOrEndOfStreamEndsParse : (Instr.trl = .trl ∨ Instr.trl = .eos) ∧ (Instr.eos = .trl ∨ Instr.eos = .eos) := by decide

/-- Each clause's own condition, at its nearest values. -/
theorem wit_FormatFaultsRecordTheirValues :
    (∃ (i : Instr) (sig v : Bytes3) (c : Cause), i = .hdr sig v ∧ sig ≠ ⟨0x47, 0x49, 0x46⟩ ∧ c = .invalidSignature sig) ∧
    (∃ (i : Instr) (p : Byte) (d : Half) (ti t : Byte) (c : Cause), i = .extGce (.body p d ti t) ∧ t ≠ 0 ∧ c = .badBlockSize 0xF9 t) ∧
    (∃ (i : Instr) (n : Byte) (c : Cause), i = .extApp (.badSize n) ∧ c = .badBlockSize 0xFF n) ∧
    (∃ s : State, s.cmd = .parse) ∧ ∃ s : State, s.cmd = .decode :=
  ⟨⟨_, ⟨0x47, 0x49, 0x58⟩, ⟨0, 0, 0⟩, _, rfl, by decide, rfl⟩, ⟨_, 0, 0, 0, 1, _, rfl, by decide, rfl⟩, ⟨_, 12, _, rfl, rfl⟩,
    ⟨running .parse, rfl⟩, ⟨running .decode, rfl⟩⟩

theorem wit_SubBlockLoopsOpen : ∃ (i : Instr) (p : PState),
    (i = .extCom ∧ p = .comment) ∨ (∃ a b, i = .extApp (.header a b) ∧ p = .app) ∨
    (∃ f, i = .extPte (.header f) ∧ p = .pte) ∨ (∃ l, i = .extSkip l ∧ p = .skip) := ⟨.extCom, .comment, .inl ⟨rfl, rfl⟩⟩

theorem wit_SubBlockRowsStore_return : ∃ s : State, s.pst = .pte ∧ s.params.ptePolicy = .earlyReturn :=
  ⟨{ parsing .pte [] with params := { Params.spec with ptePolicy := .earlyReturn } }, rfl, rfl⟩
theorem wit_SubBlockRowsStore (p : PState) (h : p = .comment ∨ p = .app ∨ p = .pte ∨ p = .skip) : ∃ s : State,
    s.pst = p ∧ (p = .comment ∨ p = .app ∨ p = .pte ∨ p = .skip) ∧ (p = .pte → s.params.ptePolicy = .continueLoop) :=
  ⟨parsing p [], rfl, h, fun _ => rfl⟩

theorem wit_EndOfDataFinishesDecode : ∃ (s : State) (bs : List Byte) (i : Instr), (i = .endCode ∨ i = .noCode) ∧ sourceHolds s bs ∧
    (s.cmd = .parse ∨ s.cmd = .decode) ∧ s.cmd = .decode := ⟨decoding [0x00], [0x00], .endCode, .inl rfl, rfl, .inr rfl, rfl⟩
theorem wit_EndOfDataFinishesDecode_parse : ∃ (s : State) (bs : List Byte) (i : Instr), (i = .endCode ∨ i = .noCode) ∧
    sourceHolds s bs ∧ (s.cmd = .parse ∨ s.cmd = .decode) ∧ s.cmd = .parse :=
  ⟨{ decoding [0x01] with cmd := .parse }, [0x01], .noCode, .inr rfl, rfl, .inl rfl, rfl⟩

/-- A decoder's object with any number of entries. -/
theorem decoder_filled (n : Nat) (h6 : 6 ≤ n) (h : n ≤ 4096) : ∃ d : Decoder,
    DecoderInv d ∧ d.next = n ∧ d.clr = 4 ∧ d.endc = 5 ∧ d.prev = some 0 := by
  have first : DecoderInv (setPrev 0 (register (dictRead (startDecoder 2).dict 0) (startDecoder 2))) :=
    decoderInv_known (decoderInv_start (by decide) (by decide)) (by decide) (by decide) (by decide)
  induction n with
  | zero => omega
  | succ n ih =>
    by_cases h5 : n = 5
    · subst h5; exact ⟨_, first, rfl, rfl, rfl, rfl⟩
    · obtain ⟨d, hd, hn, hc, he, hp⟩ := ih (by omega) (by omega)
      refine ⟨_, decoderInv_known hd (c := 0) (by omega) (by omega) (by omega), ?_⟩
      rw [register_some _ hp (by omega)]
      exact ⟨congrArg (· + 1) hn, hc, he, rfl⟩

theorem wit_KnownCodeOutputsAndRegisters_first : ∃ (s : State) (c : Nat),
    DecoderInv s.dec ∧ c < s.dec.next ∧ c ≠ s.dec.clr ∧ c ≠ s.dec.endc ∧ s.dec.prev = none :=
  ⟨decoding [], 3, decoderInv_start (by decide) (by decide), by decide, by decide, by decide, rfl⟩

/-- The last registration, and the full dictionary. -/
theorem wit_KnownCodeOutputsAndRegisters : ∀ n ∈ ([4095, 4096] : List Nat), ∃ (s : State) (c : Nat),
    DecoderInv s.dec ∧ c < s.dec.next ∧ c ≠ s.dec.clr ∧ c ≠ s.dec.endc ∧ s.dec.prev = some 0 ∧ s.dec.next = n := by
  intro n hn
  have hr : 6 ≤ n ∧ n ≤ 4096 := by revert n; decide
  obtain ⟨d, hd, h1, h2, h3, h4⟩ := decoder_filled n hr.1 hr.2
  exact ⟨{ decoding [] with dec := d }, 3, hd, show 3 < d.next by omega, show 3 ≠ d.clr by omega, show 3 ≠ d.endc by omega, h4, h1⟩

theorem wit_NextCodeOutputsAndRegistersItself : ∃ (s : State) (c p : Nat),
    DecoderInv s.dec ∧ s.dec.prev = some p ∧ c = s.dec.next ∧ c < 4096 ∧ ¬ c + 1 < 4096 := by
  obtain ⟨d, hd, h1, -, -, h4⟩ := decoder_filled 4095 (by decide) (by decide)
  exact ⟨{ decoding [] with dec := d }, 4095, 0, hd, h4, h1.symm, by decide, by decide⟩

/-! ### Group emit -/

/-- A Document with something in every part. -/
def someDocument : Document :=
  { Document.fresh with
    header := ⟨⟨0x47, 0x49, 0x46⟩, ⟨0x38, 0x39, 0x61⟩⟩, gct := some [⟨0, 0, 0⟩, ⟨1, 1, 1⟩], gces := [⟨1, 10, 2⟩]
    comments := [⟨[[0x68], [0x69]]⟩], apps := [⟨⟨0, 0, 0, 0, 0, 0, 0, 0⟩, ⟨0, 0, 0⟩, [1]⟩]
    ptes := [⟨⟨0, 0, 0, 0, 0, 0, 0, 0, 0, 0, 0, 0⟩, [0x61]⟩], images := [⟨0, 0, 1, 1, 0x80, some [⟨0, 0, 0⟩, ⟨1, 1, 1⟩], 2, [3]⟩] }

/-- A SERIALIZE whose SNK takes exactly so many bytes. -/
def writingWith (n : Nat) (d : Document) : State := { writing .header d with snk := ⟨true, [], some n⟩ }

theorem wit_HeaderAndScreenWritten : ∃ (s : State) (d : Document), s.doc = some d ∧ room s 7 = true ∧ room s 6 = true ∧
    room s 8 = false := ⟨writingWith 7 someDocument, someDocument, rfl, rfl, rfl, rfl⟩

theorem wit_TableAndExtensionsWritten_gct : ∃ (s : State) (d : Document) (bs : List Byte),
    s.doc = some d ∧ room s bs.length = true ∧ bs = (match d.gct with
      | none => []
      | some t => t.flatMap fun e => [e.r, e.g, e.b]) :=
  ⟨writingWith 6 someDocument, someDocument, [0, 0, 0, 1, 1, 1], rfl, by decide, by decide⟩
theorem wit_TableAndExtensionsWritten_gce : ∃ (s : State) (d : Document) (bs : List Byte),
    s.doc = some d ∧ room s bs.length = true ∧
    bs = (d.gces.flatMap fun g => [0x21, 0xF9, 0x04, g.packed, lo8 g.delay, hi8 g.delay, g.transparentIndex, 0x00]) :=
  ⟨writingWith 8 someDocument, someDocument, _, rfl, by decide, rfl⟩
theorem wit_TableAndExtensionsWritten_com : ∃ (s : State) (d : Document) (bs : List Byte),
    s.doc = some d ∧ room s bs.length = true ∧ bs = (d.comments.flatMap fun c => [0x21, 0xFE] ++ frame c.fragments.flatten) :=
  ⟨writingWith 6 someDocument, someDocument, _, rfl, by decide, rfl⟩
theorem wit_TableAndExtensionsWritten_app : ∃ (s : State) (d : Document) (bs : List Byte),
    s.doc = some d ∧ room s bs.length = true ∧
    bs = (d.apps.flatMap fun a => [0x21, 0xFF, 0x0B] ++ a.identifier.toList ++ a.authCode.toList ++ frame a.data) :=
  ⟨writingWith 17 someDocument, someDocument, _, rfl, by decide, rfl⟩

theorem wit_PlainTextsWritten_none : ∃ (s : State) (d : Document) (bs : List Byte),
    s.doc = some d ∧ room s bs.length = true ∧ d.ptes = [] := ⟨writingWith 0 Document.fresh, Document.fresh, [], rfl, by decide, rfl⟩
theorem wit_PlainTextsWritten : ∃ (s : State) (d : Document) (bs : List Byte),
    s.doc = some d ∧ room s bs.length = true ∧ d.ptes ≠ [] ∧
    bs = [0x21, 0x01] ++ (d.ptes.flatMap fun p => [0x0C] ++ p.fields.toList ++ frameChunks p.text.length p.text) ++ [0x00] :=
  ⟨writingWith 18 someDocument, someDocument, _, rfl, by decide, by decide, rfl⟩

theorem wit_ImageHeadWrittenAndEncodeStarted_last : ∃ (s : State) (d : Document), s.doc = some d ∧ d.images[s.imgIdx]? = none :=
  ⟨{ writing .image someDocument with imgIdx := 1 }, someDocument, rfl, rfl⟩

/-- An image of minimum code size k and one index, and its head. -/
def oneImage (k p : Byte) : Document := { Document.fresh with images := [⟨0, 0, 1, 1, 0, none, k, [p]⟩] }

theorem oneImage_head (k p : Byte) : ∃ (s : State) (m : ImageBlock) (bs : List Byte), s.doc = some (oneImage k p) ∧
    (oneImage k p).images[s.imgIdx]? = some m ∧
    bs = [0x2C] ++ encodeU16 m.left ++ encodeU16 m.top ++ encodeU16 m.width ++ encodeU16 m.height ++ [m.packed] ++
      (match m.lct with
        | none => []
        | some t => t.flatMap fun e => [e.r, e.g, e.b]) ++ [m.minCodeSize] ∧
    room s bs.length = true ∧ m.minCodeSize = k ∧ m.pixels = [p] :=
  ⟨writingWith 11 (oneImage k p), _, _, rfl, rfl, rfl, rfl, rfl, rfl⟩

/-- The values of k and the index at which the three outcomes of S.IMG meet. -/
theorem wit_ImageHeadWrittenAndEncodeStarted :
    (2 ≤ (2 : Byte).toNat ∧ (2 : Byte).toNat ≤ 8 ∧ ∀ p ∈ ([3] : List Byte), p.toNat < 2 ^ (2 : Byte).toNat) ∧
    (2 ≤ (8 : Byte).toNat ∧ (8 : Byte).toNat ≤ 8 ∧ ∀ p ∈ ([255] : List Byte), p.toNat < 2 ^ (8 : Byte).toNat) ∧
    ((1 : Byte).toNat < 2 ∨ 8 < (1 : Byte).toNat) ∧ ((9 : Byte).toNat < 2 ∨ 8 < (9 : Byte).toNat) ∧
    (2 ≤ (2 : Byte).toNat ∧ (2 : Byte).toNat ≤ 8 ∧ ∃ p ∈ ([4] : List Byte), 2 ^ (2 : Byte).toNat ≤ p.toNat) := by decide

theorem wit_TrailerWrittenEndsSerialize : ∃ s : State, room s 1 = true ∧ room s 2 = false :=
  ⟨writingWith 1 someDocument, rfl, rfl⟩

/-! ### Group encstep -/

/-- Nothing emitted, a pending match. -/
def pending (k : Nat) (cur next w : Nat) : State :=
  { encoding2 [] with enc := { startEncoder k [] with cur := some cur, next := next, w := w } }

theorem emitted_pending (k cur next w : Nat) : Emitted [] [] (pending k cur next w) :=
  ⟨[], rfl, rfl, rfl, show 0 ≤ 7 by decide, show 0 < 2 ^ 0 by decide⟩

theorem wit_InitialClearEmitted : ∃ (s : State) (base : List Byte) (bits : List Bool),
    Emitted base bits s ∧ s.enc.clr < 2 ^ s.enc.w := ⟨pending 2 0 6 3, [], [], emitted_pending _ _ _ _, by decide⟩
theorem wit_MatchExtendsPendingString_first : ∃ s : State, s.enc.cur = none := ⟨encoding2 [], rfl⟩
theorem wit_MatchExtendsPendingString : ∃ (s : State) (p : Byte) (c v : Nat), s.enc.cur = some c ∧ tabRead s.enc.tab c p = some v :=
  ⟨{ encoding2 [] with enc := { startEncoder 2 [] with cur := some 1, tab := tabWrite [] 1 1 6 } }, 1, 1, 6, rfl, by decide⟩
/-- The largest code of the width, where EWIDEN widens. -/
theorem wit_MissEmitsAndRegisters : ∃ (s : State) (c : Nat) (base : List Byte) (bits : List Bool),
    Emitted base bits s ∧ s.enc.cur = some c ∧ c < 2 ^ s.enc.w ∧ s.enc.next = 2 ^ s.enc.w ∧ s.enc.w < 12 :=
  ⟨pending 2 7 8 3, 7, [], [], emitted_pending _ _ _ _, rfl, by decide, rfl, by decide⟩
theorem wit_OverflowEmitsClearAndResets : ∃ (s : State) (c : Nat) (base : List Byte) (bits : List Bool),
    Emitted base bits s ∧ s.enc.cur = some c ∧ c < 4096 ∧ s.enc.clr < 4096 ∧ s.enc.next = 4096 ∧ s.enc.w = 12 :=
  ⟨pending 2 4095 4096 12, 4095, [], [], emitted_pending _ _ _ _, rfl, by decide, by decide, rfl, rfl⟩

theorem encoderInv_encoding2 {pix : List Byte} (h : alphabetOk 2 pix = true) : EncoderInv (encoding2 pix).enc :=
  (encoderInv_start (by decide) (by decide) h).withBuffer (by decide) (show 0 ≤ 254 by decide)

/-- The clear code of `encoding2` is out and waits in EACC. -/
theorem emitted_encoding2 (pix : List Byte) : Emitted [] (toBits 3 4) (encoding2 pix) :=
  ⟨[], rfl, rfl, rfl, show 3 ≤ 7 by decide, show 4 < 2 ^ 3 by decide⟩

theorem wit_FinishEmitsEndCodeAndFrames : ∃ (s : State) (base : List Byte) (bits : List Bool),
    Emitted base bits s ∧ EncoderInv s.enc ∧ (s.cmd = .encode ∨ s.cmd = .serialize) ∧ s.cmd = .encode :=
  ⟨encoding2 [], [], _, emitted_encoding2 _, encoderInv_encoding2 rfl, .inl rfl, rfl⟩
theorem wit_FinishEmitsEndCodeAndFrames_serialize : ∃ (s : State) (base : List Byte) (bits : List Bool),
    Emitted base bits s ∧ EncoderInv s.enc ∧ (s.cmd = .encode ∨ s.cmd = .serialize) ∧ s.cmd = .serialize :=
  ⟨{ encoding2 [] with cmd := .serialize }, [], _, emitted_encoding2 [], encoderInv_encoding2 (pix := []) rfl, .inr rfl, rfl⟩

/-! ### Several steps -/

theorem parsing_at (p : PState) (bs : List Byte) : Parsing p (parsing p bs) := ⟨rfl, rfl, rfl, rfl, rfl, rfl⟩
theorem available_parsing (p : PState) (bs : List Byte) : available (parsing p bs).src.answers = bs := available_map bs

/-- Without a table at 0x7F, with the smallest at 0x80 and the largest at 0xFF. -/
theorem wit_ScreenDescriptorThenGlobalTable (p : Byte) (n : Nat) (h : (p, n) ∈ ([(0x7F, 0), (0x80, 2), (0xFF, 256)] : List (Byte × Nat))) :
    ∃ (s : State) (w h : Half) (bg a : Byte) (table rest : List Byte), Parsing .lsd s ∧
      available s.src.answers = encodeU16 w ++ encodeU16 h ++ [p, bg, a] ++ table ++ rest ∧
      ((p.toNat < 128 ∧ table = []) ∨ (128 ≤ p.toNat ∧ table.length = 3 * 2 ^ (p.toNat % 8 + 1))) := by
  refine ⟨_, 300, 1, 7, 9, List.replicate (3 * n) 5, [0x3B], parsing_at .lsd _, available_parsing _ _, ?_⟩
  simp only [List.mem_cons, Prod.mk.injEq, List.not_mem_nil, or_false] at h
  rcases h with ⟨rfl, rfl⟩ | ⟨rfl, rfl⟩ | ⟨rfl, rfl⟩
  · exact .inl ⟨by decide, rfl⟩
  · exact .inr ⟨by decide, by rw [List.length_replicate]; decide⟩
  · exact .inr ⟨by decide, by rw [List.length_replicate]; decide⟩

theorem wit_ImageDescriptorThenLocalTable (p : Byte) (n : Nat) (h : (p, n) ∈ ([(0x7F, 0), (0x80, 2), (0xFF, 256)] : List (Byte × Nat))) :
    ∃ (s : State) (l t w h : Half) (k : Byte) (table rest : List Byte), Parsing .loop s ∧
      available s.src.answers =
        [0x2C] ++ encodeU16 l ++ encodeU16 t ++ encodeU16 w ++ encodeU16 h ++ [p] ++ table ++ [k] ++ rest ∧
      ((p.toNat < 128 ∧ table = []) ∨ (128 ≤ p.toNat ∧ table.length = 3 * 2 ^ (p.toNat % 8 + 1))) := by
  refine ⟨_, 300, 1, 2, 3, 2, List.replicate (3 * n) 5, [0x00], parsing_at .loop _, available_parsing _ _, ?_⟩
  simp only [List.mem_cons, Prod.mk.injEq, List.not_mem_nil, or_false] at h
  rcases h with ⟨rfl, rfl⟩ | ⟨rfl, rfl⟩ | ⟨rfl, rfl⟩
  · exact .inl ⟨by decide, rfl⟩
  · exact .inr ⟨by decide, by rw [List.length_replicate]; decide⟩
  · exact .inr ⟨by decide, by rw [List.length_replicate]; decide⟩

/-- Payloads of the smallest and the largest size. -/
def twoPayloads : List (List Byte) := [[0x61], List.replicate 255 0x62]

theorem twoPayloads_ok : payloadsOk twoPayloads := by
  intro f hf
  simp only [twoPayloads, List.mem_cons, List.not_mem_nil, or_false] at hf
  rcases hf with rfl | rfl
  · decide
  · rw [List.length_replicate]; decide

theorem wit_CommentAndUnknownExtensionsRead (lab : Byte) : ∃ (s : State) (frags : List (List Byte)) (rest : List Byte),
    Parsing .label s ∧ payloadsOk frags ∧ available s.src.answers = [lab] ++ subBlocks frags ++ rest :=
  ⟨_, twoPayloads, [0x3B], parsing_at .label _, twoPayloads_ok, available_parsing _ _⟩
theorem wit_CommentAndUnknownExtensionsRead_labels : (0xFE : Byte) = 0xFE ∧
    ∀ l ∈ ([0x00, 0xFD] : List Byte), l ≠ 0xF9 ∧ l ≠ 0xFE ∧ l ≠ 0xFF ∧ l ≠ 0x01 := by decide
theorem wit_ApplicationAndPlainTextRead : ∃ (s : State) (frags : List (List Byte)) (rest : List Byte) (a : Bytes8) (b : Bytes3),
    Parsing .label s ∧ payloadsOk frags ∧
    available s.src.answers = [0xFF, 0x0B] ++ a.toList ++ b.toList ++ subBlocks frags ++ rest :=
  ⟨_, twoPayloads, [0x3B], ⟨1, 2, 3, 4, 5, 6, 7, 8⟩, ⟨9, 10, 11⟩, parsing_at .label _, twoPayloads_ok, available_parsing _ _⟩
theorem wit_ApplicationAndPlainTextRead_pte : ∃ (s : State) (frags : List (List Byte)) (rest : List Byte) (f : Bytes12),
    Parsing .label s ∧ payloadsOk frags ∧ available s.src.answers = [0x01, 0x0C] ++ f.toList ++ subBlocks frags ++ rest :=
  ⟨_, twoPayloads, [0x3B], ⟨1, 2, 3, 4, 5, 6, 7, 8, 9, 10, 11, 12⟩, parsing_at .label _, twoPayloads_ok, available_parsing _ _⟩

/-- The smallest k with the empty sequence, and the largest k with the largest index. -/
theorem wit_EncodeThenDecodeReturnsPixels (k : Byte) (pix : List Byte)
    (h : (k, pix) ∈ ([(2, []), (2, [3]), (8, [255])] : List (Byte × List Byte))) : ∃ a : State,
    2 ≤ k.toNat ∧ k.toNat ≤ 8 ∧ (∀ p, p ∈ pix → p.toNat < 2 ^ k.toNat) ∧
    a.busy = false ∧ a.host = [⟨none, .writeCmd .encode⟩] ∧ a.params = Params.spec ∧ a.snk.attached = true ∧ a.snk.okWrites = none ∧
    a.argK = k ∧ a.argKWritten = true ∧ a.out = pix ∧ a.pixWritten = true := by
  refine ⟨{ between k pix with host := [⟨none, .writeCmd .encode⟩] }, ?_, ?_, ?_, rfl, rfl, rfl, rfl, rfl, rfl, rfl, rfl, rfl⟩ <;>
  · simp only [List.mem_cons, Prod.mk.injEq, List.not_mem_nil, or_false] at h
    rcases h with ⟨rfl, rfl⟩ | ⟨rfl, rfl⟩ | ⟨rfl, rfl⟩ <;> decide

/-- What a DECODE may find on SRC behind that: any bytes. -/
theorem wit_EncodeThenDecodeReturnsPixels_source (k : Byte) (bs rest : List Byte) : ∃ b : State, b.busy = false ∧
    b.host = [⟨none, .writeCmd .decode⟩] ∧ b.params = Params.spec ∧ b.src.attached = true ∧ b.argK = k ∧ b.argKWritten = true ∧
    sourceHolds b (bs ++ rest) :=
  ⟨{ between k [] with host := [⟨none, .writeCmd .decode⟩], src := ⟨true, (bs ++ rest).map some⟩ }, rfl, rfl, rfl, rfl, rfl, rfl, rfl⟩

/-! ### The whole machine -/

/-- A PARSE that waits meets the invariant, whatever is to come. -/
theorem inv_parsing (bs : List Byte) (p : PState) (h : p = .loop ∨ p = .header ∨ p = .lzw) : Inv (parsing p bs) := by
  rcases h with rfl | rfl | rfl <;> exact inv_parse rfl rfl rfl rfl rfl (by simp [parsing]) rfl

theorem inv_decoding (answers : List (Option Byte)) : Inv { decoding [] with src := ⟨true, answers⟩ } :=
  inv_decode rfl rfl rfl ((controlOk_decode rfl).2 rfl) (.inr (show Command.decode ≠ .parse by decide))
    ⟨decoderInv_start (by decide) (by decide), ⟨show 0 ≤ 7 by decide, show 0 < 2 ^ 0 by decide⟩,
      by simp [decoding, startDecode]⟩ rfl

theorem inv_writing (p : SState) (d : Document) (n : Option Nat) (h : partWaits p = true) :
    Inv { writing p d with snk := ⟨true, [], n⟩ } :=
  ⟨rfl, fun _ => (controlOk_serialize rfl).2 ⟨by simp [writing], .inl ⟨rfl, h⟩⟩, fun _ => rfl, fun _ h => by simp [writing, running] at h,
    fun h => by simp [writing, running, State.reset] at h, fun h => by simp [writing, running, State.reset] at h,
    fun h => by simp [writing, running, State.reset] at h, fun _ => rfl, Nat.zero_le _⟩

theorem inv_encoding2 {pix : List Byte} (n : Option Nat) (h : alphabetOk 2 pix = true) :
    Inv { encoding2 pix with snk := ⟨true, [], n⟩ } :=
  ⟨rfl, fun _ => (controlOk_encode rfl).2 rfl, fun h => by simp [encoding2, running, State.busy] at h,
    fun _ h => by simp [encoding2, running] at h, fun h => by simp [encoding2] at h, fun _ => encoderInv_encoding2 h,
    fun h => by simp [encoding2] at h, fun _ => rfl, Nat.zero_le _⟩

theorem wit_StepKeepsInvariant : ∃ s t : State, Inv s ∧ step s = .next t := ⟨parsing .loop [0x3B], _, inv_parsing _ _ (.inl rfl), rfl⟩
theorem wit_StepKeepsMemoryForm : ∃ s t : State, Memory.wf s = true ∧ step s = .next t := ⟨parsing .loop [0x3B], _, rfl, rfl⟩
theorem wit_CommandEndsOkOrByOneOfFiveFaults : ∃ s t : State, Inv s ∧ step s = .next t ∧ s.busy = true ∧ t.busy = false :=
  ⟨parsing .loop [0x00], _, inv_parsing _ _ (.inl rfl), rfl, rfl, rfl⟩
theorem wit_EveryCommandEnds : ∃ s : State, Inv s ∧ s.busy = true ∧ s.host = [] :=
  ⟨parsing .header [0x47], inv_parsing _ _ (.inr (.inl rfl)), rfl, rfl⟩

/-- A step of each command from a state that meets the invariant. -/
theorem wit_parse_step (bs : List Byte) : ∃ s t u : State, Inv s ∧ t.busy = true ∧ hostDue s = .quiet t ∧ step s = .next u ∧
    t.cmd = .parse := ⟨parsing .loop (0x3B :: bs), _, _, inv_parsing _ _ (.inl rfl), rfl, rfl, rfl, rfl⟩
theorem wit_decode_step : ∃ s t u : State, Inv s ∧ t.busy = true ∧ hostDue s = .quiet t ∧ step s = .next u ∧ t.cmd = .decode :=
  ⟨_, _, _, inv_decoding [some 1, some 4], rfl, rfl, rfl, rfl⟩
theorem wit_serialize_step : ∃ s t u : State, Inv s ∧ t.busy = true ∧ hostDue s = .quiet t ∧ step s = .next u ∧ t.cmd = .serialize :=
  ⟨_, _, _, inv_writing .trailer someDocument none rfl, rfl, rfl, rfl, rfl⟩
theorem wit_encode_step : ∃ s t u : State, Inv s ∧ t.busy = true ∧ hostDue s = .quiet t ∧ step s = .next u ∧ t.cmd = .encode :=
  ⟨_, _, _, inv_encoding2 (pix := [1]) none rfl, rfl, rfl, rfl, rfl⟩
/-- A step during which a delayed event of the host counts down. -/
theorem wit_countdown_step : ∃ s t u : State, Inv s ∧ t.busy = true ∧ hostDue s = .quiet t ∧ step s = .next u ∧ t.host ≠ s.host :=
  ⟨{ parsing .loop [0x21] with host := [⟨some 7, .writeArgK 3⟩] }, _, _, inv_host (inv_parsing _ _ (.inl rfl)) _, rfl, rfl, rfl,
    by decide⟩

/-- For `HostVisibleStateOnlyAsStated`: a PARSE that ends well, one that faults, one that goes on. -/
theorem wit_HostVisibleStateOnlyAsStated : ∀ b ∈ ([0x3B, 0x00, 0x21] : List Byte), ∃ s t u : State, Inv s ∧ t.busy = true ∧
    hostDue s = .quiet t ∧ step s = .next u ∧ t.cmd = .parse ∧ t.src.answers = [some b] := by
  intro b hb
  obtain ⟨u, hu⟩ : ∃ u, step (parsing .loop [b]) = .next u := by
    simp only [List.mem_cons, List.not_mem_nil, or_false] at hb
    rcases hb with rfl | rfl | rfl <;> exact ⟨_, rfl⟩
  exact ⟨_, _, u, inv_parsing [b] .loop (.inl rfl), rfl, rfl, hu, rfl, rfl⟩
theorem wit_StreamsNeverActiveTogether : (∃ s t u : State, Inv s ∧ t.busy = true ∧ hostDue s = .quiet t ∧ step s = .next u ∧
    (t.cmd = .parse ∨ t.cmd = .decode)) ∧ ∃ s t u : State, Inv s ∧ t.busy = true ∧ hostDue s = .quiet t ∧ step s = .next u ∧
    (t.cmd = .serialize ∨ t.cmd = .encode) :=
  ⟨⟨_, _, _, inv_decoding [some 1, some 4], rfl, rfl, rfl, .inr rfl⟩,
    ⟨_, _, _, inv_writing .trailer someDocument none rfl, rfl, rfl, rfl, .inl rfl⟩⟩
theorem wit_SourceConsumedInOrder : ∃ (s t u : State) (bs : List Byte), t.busy = true ∧ hostDue s = .quiet t ∧ sourceHolds t bs ∧
    step s = .next u := ⟨parsing .loop [0x21, 0xFE], _, _, [0x21, 0xFE], rfl, rfl, rfl, rfl⟩
/-- The failing access is the step's own, or one that the step does not reach. -/
theorem wit_ReadFailureRaisedAtTheAccess : ∀ bs ∈ ([[], [0x21]] : List (List Byte)), ∃ (s t u : State) (more : List (Option Byte)),
    t.busy = true ∧ hostDue s = .quiet t ∧ t.src.answers = bs.map some ++ none :: more ∧ step s = .next u := by
  intro bs hbs
  refine ⟨{ parsing .loop [] with src := ⟨true, bs.map some ++ [none]⟩ }, ?_⟩
  simp only [List.mem_cons, List.not_mem_nil, or_false] at hbs
  rcases hbs with rfl | rfl <;> exact ⟨_, _, [], rfl, rfl, rfl, rfl⟩

/-- A PARSE reads beyond no byte at an indicator and beyond part of a header; not beyond an indicator. -/
theorem wit_ReadFailureRaisedAtTheAccess_parse (p : PState) (bs : List Byte)
    (h : (p, bs) ∈ ([(.loop, []), (.header, [0x47])] : List (PState × List Byte))) : ∃ s t : State, t.busy = true ∧
    hostDue s = .quiet t ∧ t.src.answers = bs.map some ++ none :: [] ∧ (t.lzwUnit = .lzwd → bitBufferOk t.dec) ∧ ReadsBeyond t := by
  refine ⟨{ parsing p [] with src := ⟨true, bs.map some ++ [none]⟩ }, _, rfl, rfl, rfl, fun h => (by cases h), .inl ⟨rfl, rfl, ?_⟩⟩
  simp only [List.mem_cons, Prod.mk.injEq, List.not_mem_nil, or_false] at h
  rcases h with ⟨rfl, rfl⟩ | ⟨rfl, rfl⟩
  · exact ⟨.indicator, rfl, .inr ⟨rfl, rfl⟩⟩
  · exact ⟨.header, rfl, .inl ⟨1, rfl⟩⟩
theorem wit_ReadFailureRaisedAtTheAccess_stays : ∃ s t u : State, t.busy = true ∧ hostDue s = .quiet t ∧
    t.src.answers = [0x21].map some ++ none :: [] ∧ (t.lzwUnit = .lzwd → bitBufferOk t.dec) ∧ ¬ ReadsBeyond t ∧ step s = .next u := by
  refine ⟨{ parsing .loop [] with src := ⟨true, [some 0x21, none]⟩ }, _, _, rfl, rfl, rfl, fun h => (by cases h), ?_, rfl⟩
  rintro (⟨-, -, slot, h, ⟨n, hn⟩ | ⟨-, hn⟩⟩ | ⟨h, -⟩) <;> cases h
  · cases hn
  · cases hn

theorem bitBufferOk_decoding : bitBufferOk (decoding []).dec := ⟨by decide, by decide⟩

/-- A decode at width 3 reads beyond a length byte, beyond a sub-block of no whole code and beyond the end code 5 without its
terminator; not beyond the clear code 4, nor beyond the end code with its terminator. -/
theorem wit_ReadFailureRaisedAtTheAccess_decode : (∀ bs ∈ ([[1], [], [1, 5]] : List (List Byte)), ∃ s t : State, t.busy = true ∧
      hostDue s = .quiet t ∧ t.src.answers = bs.map some ++ none :: [] ∧ (t.lzwUnit = .lzwd → bitBufferOk t.dec) ∧ ReadsBeyond t) ∧
    ∀ bs ∈ ([[1, 4], [1, 5, 0]] : List (List Byte)), ∃ s t u : State, t.busy = true ∧ hostDue s = .quiet t ∧
      t.src.answers = bs.map some ++ none :: [] ∧ (t.lzwUnit = .lzwd → bitBufferOk t.dec) ∧ ¬ ReadsBeyond t ∧ step s = .next u := by
  constructor <;> intro bs hbs
  · refine ⟨{ decoding [] with src := ⟨true, bs.map some ++ [none]⟩ }, _, rfl, rfl, rfl, fun _ => bitBufferOk_decoding, .inr ⟨rfl, ?_⟩⟩
    simp only [List.mem_cons, List.not_mem_nil, or_false] at hbs
    rcases hbs with rfl | rfl | rfl
    · exact ⟨rfl, .inl (by decide)⟩
    · exact ⟨rfl, .inl (by decide)⟩
    · exact ⟨rfl, .inr rfl⟩
  · refine ⟨{ decoding [] with src := ⟨true, bs.map some ++ [none]⟩ }, { decoding [] with src := ⟨true, bs.map some ++ [none]⟩ }, ?_⟩
    simp only [List.mem_cons, List.not_mem_nil, or_false] at hbs
    rcases hbs with rfl | rfl
    · refine ⟨_, rfl, rfl, rfl, fun _ => bitBufferOk_decoding, ?_, rfl⟩
      rintro (⟨h, -⟩ | ⟨-, -, h⟩)
      · cases h
      · revert h; decide
    · refine ⟨_, rfl, rfl, rfl, fun _ => bitBufferOk_decoding, ?_, rfl⟩
      rintro (⟨h, -⟩ | ⟨-, h, -⟩) <;> cases h

/-- A refused write of each command: a step that faults, and what the same step writes to a SNK that takes everything. -/
theorem wit_WriteFailureKeepsWhatWasWritten : ∃ s t u : State, Inv s ∧ t.busy = true ∧ hostDue s = .quiet t ∧
    (t.cmd = .serialize ∨ t.cmd = .encode) ∧ step s = .next u ∧ u.status.state = .doneFault ∧ t.cmd = .serialize ∧
    t.snk.okWrites = some 0 ∧ WouldWrite t [0x3B] :=
  ⟨_, _, _, inv_writing .trailer someDocument (some 0) rfl, rfl, rfl, .inl rfl, rfl, rfl, rfl, rfl, by simp [imageAtHand, writing],
    by intro v hv; cases hv; rfl, fun _ => ⟨_, rfl⟩⟩
theorem wit_WriteFailureKeepsWhatWasWritten_encode : ∃ s t u : State, Inv s ∧ t.busy = true ∧ hostDue s = .quiet t ∧
    (t.cmd = .serialize ∨ t.cmd = .encode) ∧ step s = .next u ∧ u.status.state = .doneFault ∧ t.cmd = .encode ∧
    t.snk.okWrites = some 2 ∧ WouldWrite t [0x01, 0x2C, 0x00] :=
  ⟨_, _, _, inv_encoding2 (pix := []) (some 2) rfl, rfl, rfl, .inr rfl, rfl, rfl, rfl, rfl, by simp [imageAtHand, encoding2],
    by intro v hv; cases hv; rfl, fun _ => ⟨_, rfl⟩⟩
/-- An image whose head SNK does not take whole. -/
theorem wit_WriteFailureKeepsWhatWasWritten_image : ∃ (s t : State) (im : ImageBlock), Inv s ∧ t.busy = true ∧ hostDue s = .quiet t ∧
    (t.cmd = .serialize ∨ t.cmd = .encode) ∧ imageAtHand t = some im ∧ WouldWrite t (imageHead im) ∧ t.snk.okWrites = some 3 ∧
    3 < (imageHead im).length :=
  ⟨_, _, _, inv_writing .image someDocument (some 3) rfl, rfl, rfl, .inl rfl, rfl,
    ⟨by intro m hm; cases hm; rfl, by intro v hv; cases hv; rfl, fun h => by cases h⟩, rfl, by decide⟩
theorem wit_SinkOnlyGrows : ∃ s t u : State, t.busy = true ∧ hostDue s = .quiet t ∧ step s = .next u :=
  ⟨writing .header someDocument, _, _, rfl, rfl, rfl⟩
theorem wit_FaultEntryOfEachCommand_parse : ∃ s t u : State, Inv s ∧ t.busy = true ∧ hostDue s = .quiet t ∧ step s = .next u ∧
    u.status.state = .doneFault ∧ t.cmd = .parse ∧ u.errInfo.cause = .unknownBlock 0 :=
  ⟨parsing .loop [0x00], _, _, inv_parsing _ _ (.inl rfl), rfl, rfl, rfl, rfl, rfl, rfl⟩
theorem wit_FaultEntryOfEachCommand_decode : ∃ s t u : State, Inv s ∧ t.busy = true ∧ hostDue s = .quiet t ∧ step s = .next u ∧
    u.status.state = .doneFault ∧ t.cmd = .decode := ⟨_, _, _, inv_decoding [none], rfl, rfl, rfl, rfl, rfl⟩
theorem wit_FaultEntryOfEachCommand_serialize : ∃ s t u : State, Inv s ∧ t.busy = true ∧ hostDue s = .quiet t ∧ step s = .next u ∧
    u.status.state = .doneFault ∧ t.cmd = .serialize :=
  ⟨_, _, _, inv_writing .trailer someDocument (some 0) rfl, rfl, rfl, rfl, rfl, rfl⟩
theorem wit_FaultEntryOfEachCommand_encode : ∃ s t u : State, Inv s ∧ t.busy = true ∧ hostDue s = .quiet t ∧ step s = .next u ∧
    u.status.state = .doneFault ∧ t.cmd = .encode := ⟨_, _, _, inv_encoding2 (pix := []) (some 0) rfl, rfl, rfl, rfl, rfl, rfl⟩
theorem wit_ParserControlTransfers : ∃ s t u : State, Inv s ∧ t.busy = true ∧ hostDue s = .quiet t ∧ t.cmd = .parse ∧ step s = .next u :=
  ⟨parsing .header [0x47, 0x49, 0x46, 0x38, 0x39, 0x61], _, _, inv_parsing _ _ (.inr (.inl rfl)), rfl, rfl, rfl, rfl⟩
/-- A step under finite capacities that goes on, and one that is refused. -/
theorem wit_CapacitiesRefuseParametersStay : ∃ s : State, s.params = ⟨.continueLoop, some 3, some 100, some 3⟩ ∧
    (∃ t, step s = .next t) ∧ ∃ s' : State, s'.params = s.params ∧ step s' = .refused .capacityExceeded ∧ step s' ≠ uncappedStep s' :=
  ⟨{ parsing .loop [0x21] with params := ⟨.continueLoop, some 3, some 100, some 3⟩ }, rfl, ⟨_, rfl⟩,
    { parsing .gct [1, 2, 3, 4, 5, 6] with
      scratch := { Scratch.fresh with doc := { Document.fresh with screen := ⟨0, 0, 0x80, 0, 0⟩ } }
      params := ⟨.continueLoop, some 3, some 100, some 3⟩ }, rfl, rfl, by intro h; cases h⟩

end Sys2Proof.Tests
end

section
/-! PROOFS. The capacities and the parameters (00_scope.md R12): what an accepted act of the host does, that no step changes a
parameter, and what a capacity that is not exceeded says of the state. -/

namespace Sys2Proof.Machine

/-! ## What an accepted act of the host does -/

theorem refuse_ite_next {c : Prop} [Decidable c] {r : Refusal} {o : Host.Outcome State Fault Refusal} {t : State} :
    (if c then .refused r else o) = .next t ↔ ¬ c ∧ o = .next t := by
  by_cases h : c <;> simp [h]

theorem hostWrite_next_iff {f : State → State} {s t : State} : hostWrite f s = .next t ↔ s.busy = false ∧ f s = t := by
  simp [hostWrite, refuse_ite_next]

theorem execParse_next_iff {s t : State} : execParse s = .next t ↔
    s.busy = false ∧ s.src.attached = true ∧
      setPteSeen false { startCommand .parse s with doc := none, pst := .header } = t := by
  simp [execParse, refuse_ite_next]

theorem execSerialize_next_iff {s t : State} : execSerialize s = .next t ↔
    s.busy = false ∧ s.doc ≠ none ∧ s.snk.attached = true ∧
      { startCommand .serialize s with sst := .header, snk := { s.snk with bytes := [] } } = t := by
  simp [execSerialize, refuse_ite_next]

theorem execDecode_next_iff {s t : State} : execDecode s = .next t ↔
    s.busy = false ∧ s.src.attached = true ∧ s.argKWritten = true ∧ minCodeSizeOk s.argK.toNat = true ∧
      startDecode s.argK.toNat (startCommand .decode s) = t := by
  simp [execDecode, refuse_ite_next]

theorem execEncode_next_iff {s t : State} : execEncode s = .next t ↔
    s.busy = false ∧ s.snk.attached = true ∧ s.argKWritten = true ∧ s.pixWritten = true ∧
      minCodeSizeOk s.argK.toNat = true ∧ alphabetOk s.argK.toNat s.out = true ∧
      startEncode s.argK.toNat s.out { startCommand .encode s with snk := { s.snk with bytes := [] } } = t := by
  simp [execEncode, refuse_ite_next]

/-! ## No step changes a parameter -/

@[simp] theorem failedWrite_params (b : Byte) (s : State) : (failedWrite b s).params = s.params := rfl

theorem OnlyRead.params {s u : State} (h : OnlyRead s u) : u.params = s.params := by rw [h]

/-- The write of CMD keeps the parameters. -/
theorem command_params {c : StartCommand} {s t : State} (h : exec (decodeCommand c) s = .next t) : t.params = s.params := by
  cases c with
  | parse => obtain ⟨-, -, rfl⟩ := execParse_next_iff.1 h; rfl
  | serialize => obtain ⟨-, -, -, rfl⟩ := execSerialize_next_iff.1 h; rfl
  | decode => obtain ⟨-, -, -, -, rfl⟩ := execDecode_next_iff.1 h; rfl
  | encode => obtain ⟨-, -, -, -, -, -, rfl⟩ := execEncode_next_iff.1 h; rfl

theorem hostStep_params {a : HostAction} {s t : State} (h : hostStep a s = .next t) : t.params = s.params := by
  cases a with
  | writeCmd c => exact command_params h
  | _ => obtain ⟨-, rfl⟩ := hostWrite_next_iff.1 h; rfl

theorem codeRun_params {u t : State} {c : Nat} (h : CodeRun u c t) : t.params = u.params := by
  cases h with
  | clear => rfl
  | known => exact resolve_params ..
  | next => exact resolve_params ..
  | invalid => exact takeFault_params ..

theorem decodeStep_params {s t : State} {bs : List Byte} {rest : List (Option Byte)} (h : DecodeStep s bs rest t) :
    t.params = s.params := by
  cases h with
  | failed p u h => rw [takeFault_params, h.onlyRead.params]
  | finished u v c n h hc hm => rw [finishDecode_params, hm.onlyRead.params]
  | ran u t c n h hm hc hb ho hr => rw [codeRun_params hr, hm.onlyRead.params]

theorem sbTerm_params {u t : State} (h : execSbTerm u = .next t) : t.params = u.params := by
  obtain ⟨d, ⟨rfl, -⟩ | ⟨rfl, -⟩⟩ := sbTerm_cases h <;> rfl

theorem sbData_params {u t : State} {f : List Byte} (h : execSbData f u = .next t) : t.params = u.params := by
  unfold execSbData at h
  split at h <;> cases h <;> rfl

theorem parseRun_params {u t : State} {slot : Slot} {i : Instr} (h : ParseRun u slot i t) : t.params = u.params := by
  cases h with
  | term _ h => exact sbTerm_params h
  | data _ _ h => exact sbData_params h
  | badSignature => exact takeFault_params ..
  | unknown => exact takeFault_params ..
  | badSize => exact takeFault_params ..
  | done => exact parseDone_params _
  | _ => rfl

theorem parseStep_params {s t : State} {slot : Slot} {bs : List Byte} {rest : List (Option Byte)}
    (h : ParseStep s slot bs rest t) : t.params = s.params := by
  cases h with
  | failed k p u h => rw [takeFault_params, h.onlyRead.params]
  | ran i used tail t hb he ho h => rw [parseRun_params h, took_params]

theorem partStep_params {s t : State} (h : PartStep s (.next t)) : t.params = s.params := by
  cases h with
  | failed => rw [takeFault_params, failedWrite_params, wrote_params]
  | handed => rfl
  | image => rfl
  | done => rfl

theorem encodeStep_params {s t : State} (h : EncodeStep s t) : t.params = s.params := by
  cases h with
  | failed => rw [takeFault_params, failedWrite_params, wrote_params]
  | clear0 => rfl
  | ran => rfl
  | finished => rw [finishEncode_params, wrote_params]

theorem coreStep_params {s t : State} (h : coreStep s = .next t) : t.params = s.params := by
  cases hb : s.busy with
  | false => rw [coreStep_idle hb] at h; cases h; rfl
  | true =>
    obtain ⟨rest, hs, hr⟩ := source_split s
    have hc := coreStep_cases hb hs hr
    rw [h] at hc
    cases hc with
    | parse _ _ _ _ _ h => exact parseStep_params h
    | lzwStart => rfl
    | decode _ _ h => exact decodeStep_params h
    | part _ _ _ _ h => exact partStep_params h
    | encode _ _ h => exact encodeStep_params h

theorem uncappedStep_params {s t : State} (h : uncappedStep s = .next t) : t.params = s.params := by
  obtain ⟨es, ⟨a, hd⟩ | hd⟩ := hostDue_cases s <;> rw [uncappedStep, hd] at h
  · exact hostStep_params (s := { s with host := es }) h
  · exact coreStep_params (s := { s with host := es }) h

/-! ## What a capacity that is not exceeded says -/

theorem outFits_iff {s : State} : outFits s = true ↔ ∀ n, s.params.outMax = some n → s.out.length ≤ n := by
  unfold outFits
  cases s.params.outMax <;> simp

theorem mem_documents {s : State} {d : Document} :
    d ∈ documents s ↔ s.doc = some d ∨ (s.busy = true ∧ s.cmd = .parse ∧ d = s.scratch.doc) := by
  rw [documents, List.mem_append, Option.mem_toList, busy_state]
  by_cases h : s.status.state = .busy ∧ s.cmd = .parse
  · simp [h]
  · rw [if_neg h, ← and_assoc]
    simp [h]

theorem docFits_iff {s : State} : docFits s = true ↔ ∀ n, s.params.docMax = some n → ∀ d ∈ documents s, documentSize d ≤ n := by
  unfold docFits
  cases s.params.docMax <;> simp

theorem mem_faultPositions {s : State} {n : Nat} :
    n ∈ faultPositions s ↔ s.status.state = .doneFault ∧ n = s.errInfo.position := by
  unfold faultPositions
  by_cases h : s.status.state = .doneFault <;> simp [h]

theorem posFits_iff {s : State} : posFits s = true ↔ ∀ n, s.params.posBits = some n →
    s.pos < 2 ^ n ∧ s.spos < 2 ^ n ∧ (s.status.state = .doneFault → s.errInfo.position < 2 ^ n) := by
  unfold posFits
  cases s.params.posBits <;> simp [mem_faultPositions]

theorem capacityOk_iff {s : State} : capacityOk s = true ↔ outFits s = true ∧ docFits s = true ∧ posFits s = true := by
  simp [capacityOk, and_assoc]

/-! ## The step -/

/-- The capacities leave a step alone or refuse it. -/
theorem capped_cases (o : Host.Outcome State Fault Refusal) : capped o = o ∨ capped o = .refused .capacityExceeded := by
  cases o with
  | next t =>
    rw [capped]
    split
    · exact .inl rfl
    · exact .inr rfl
  | fault f => exact .inl rfl
  | refused r => exact .inl rfl

theorem step_params {s t : State} (h : step s = .next t) : t.params = s.params := uncappedStep_params (step_next h)

theorem step_spec {s : State} (hp : s.params = Params.spec) : step s = uncappedStep s := by
  rw [step]
  cases h : uncappedStep s with
  | next t => exact capped_spec ((uncappedStep_params h).trans hp)
  | fault f => rfl
  | refused r => rfl

/-- Settles O60: no unit that can hold the step writes a parameter, so the capacities of the state behind the step are those of the
state before it, and `capped` has tested them there. -/
theorem capacitiesRefuseParametersStay : Obligations.CapacitiesRefuseParametersStay := by
  refine ⟨rfl, fun s => ⟨fun t h => ?_, step_spec, (capped_cases (uncappedStep s)).resolve_left⟩⟩
  have hp := step_params h
  obtain ⟨hstep, hcap⟩ := capped_next_iff.1 h
  obtain ⟨hout, hdoc, hpos⟩ := capacityOk_iff.1 hcap
  rw [outFits_iff, hp] at hout
  rw [docFits_iff, hp] at hdoc
  rw [posFits_iff, hp] at hpos
  exact ⟨hp, hstep, hout,
    fun n hn => ⟨fun d hd => hdoc n hn d (mem_documents.2 (.inl hd)),
      fun hb hc => hdoc n hn _ (mem_documents.2 (.inr ⟨hb, hc, rfl⟩))⟩, hpos⟩

end Sys2Proof.Machine
end

section
/-! PROOFS. The state as a whole (10_state.md): every step keeps the canonical form of DICT and ETAB (R32, R36), and a step of the
CORE changes what the host sees only as stated (R21 to R23, R37, R48). -/

namespace Sys2Proof.Machine

/-- All a step that is not refused can do: an act of the host, nothing on a CORE that is not BUSY, or a step of the running
command. -/
theorem step_cases {s t : State} (h : step s = .next t) : ∃ u es, u = { s with host := es } ∧
    ((∃ a, hostStep a u = .next t) ∨ (u.busy = false ∧ t = u) ∨
      ∃ rest, u.busy = true ∧ CoreStep u (available u.src.answers) rest (.next t)) := by
  obtain ⟨es, ⟨a, hd⟩ | hd⟩ := hostDue_cases s
  · exact ⟨_, es, rfl, .inl ⟨a, step_next_act hd h⟩⟩
  · refine ⟨_, es, rfl, .inr ?_⟩
    cases hb : State.busy { s with host := es } with
    | false =>
      have hc := step_next_quiet hd h
      rw [coreStep_idle hb] at hc
      cases hc
      exact .inl ⟨rfl, rfl⟩
    | true =>
      obtain ⟨rest, -, -, hc⟩ := core_of hb hd h
      exact .inr ⟨rest, rfl, hc⟩

/-! ## The canonical form of the memories -/

theorem OnlyRead.memoryWf {s u : State} (h : OnlyRead s u) : Memory.wf u = Memory.wf s := by rw [h]; rfl

/-- A fresh decoder's object is in canonical form, and the encoder's is not touched. -/
theorem memoryWf_startDecode {s : State} (k : Nat) (h : Memory.wf s = true) : Memory.wf (startDecode k s) = true := by
  rw [memoryWf_iff] at *
  exact ⟨dictWf_dictInit _, h.2⟩

/-- A fresh encoder's object has an empty table, and the decoder's is not touched. -/
theorem memoryWf_startEncode {s : State} (k : Nat) (pix : List Byte) (h : Memory.wf s = true) :
    Memory.wf (startEncode k pix s) = true := by
  rw [memoryWf_iff] at *
  exact ⟨h.1, rfl⟩

/-- The end of an encode discards ETAB, so DICT alone must have been in canonical form. -/
theorem memoryWf_finishEncode_of_dict {s : State} (h : dictWf s.dec.dict = true) : Memory.wf (finishEncode s) = true := by
  by_cases hc : s.cmd = .serialize
  · rw [finishEncode_serialize hc, memoryWf_iff]
    exact ⟨h, mapWf_freeEncoder _⟩
  · rw [finishEncode_other hc]
    exact memoryWf_finishCommand s

theorem command_wf {c : StartCommand} {s t : State} (h : exec (decodeCommand c) s = .next t) (hw : Memory.wf s = true) :
    Memory.wf t = true := by
  cases c with
  | parse => obtain ⟨-, -, rfl⟩ := execParse_next_iff.1 h; exact hw
  | serialize => obtain ⟨-, -, -, rfl⟩ := execSerialize_next_iff.1 h; exact hw
  | decode => obtain ⟨-, -, -, -, rfl⟩ := execDecode_next_iff.1 h; exact memoryWf_startDecode _ hw
  | encode => obtain ⟨-, -, -, -, -, -, rfl⟩ := execEncode_next_iff.1 h; exact memoryWf_startEncode _ _ hw

theorem hostStep_wf {a : HostAction} {s t : State} (h : hostStep a s = .next t) (hw : Memory.wf s = true) :
    Memory.wf t = true := by
  cases a with
  | writeCmd c => exact command_wf h hw
  | _ => obtain ⟨-, rfl⟩ := hostWrite_next_iff.1 h; exact hw

theorem parseStep_wf {s t : State} {slot : Slot} {bs : List Byte} {rest : List (Option Byte)}
    (h : ParseStep s slot bs rest t) (hw : Memory.wf s = true) : Memory.wf t = true := by
  cases h with
  | failed => exact memoryWf_takeFault _ _ _
  | ran i used tail t hb he ho h => exact parseRun_wf h hw

theorem decodeStep_wf {s t : State} {bs : List Byte} {rest : List (Option Byte)} (h : DecodeStep s bs rest t)
    (hw : Memory.wf s = true) : Memory.wf t = true := by
  cases h with
  | failed => exact memoryWf_takeFault _ _ _
  | finished u v c n h hc hm => exact memoryWf_finishDecode (hm.onlyRead.memoryWf.trans hw)
  | ran u t c n h hm hc hb ho hr => exact codeRun_wf hr (hm.onlyRead.memoryWf.trans hw)

theorem partStep_wf {s t : State} (h : PartStep s (.next t)) (hw : Memory.wf s = true) : Memory.wf t = true := by
  cases h with
  | failed => exact memoryWf_takeFault _ _ _
  | handed => exact hw
  | image => exact memoryWf_startEncode _ _ hw
  | done => exact memoryWf_finishCommand _

theorem encodeStep_wf {s t : State} (h : EncodeStep s t) (hw : Memory.wf s = true) : Memory.wf t = true := by
  obtain ⟨hdict, htab⟩ := (memoryWf_iff s).1 hw
  cases h with
  | failed => exact memoryWf_takeFault _ _ _
  | clear0 ws e hs hr hww ht => exact (memoryWf_iff _).2 ⟨hdict, (congrArg mapWf ht).trans htab⟩
  | ran ws e p hs hr hww ht => exact (memoryWf_iff _).2 ⟨hdict, ht htab⟩
  | finished => exact memoryWf_finishEncode_of_dict hdict

theorem runningStep_wf {s t : State} {bs : List Byte} {rest : List (Option Byte)} (h : CoreStep s bs rest (.next t))
    (hw : Memory.wf s = true) : Memory.wf t = true := by
  cases h with
  | parse _ _ _ _ _ h => exact parseStep_wf h hw
  | lzwStart => exact memoryWf_startDecode _ hw
  | decode _ _ h => exact decodeStep_wf h hw
  | part _ _ _ _ h => exact partStep_wf h hw
  | encode _ _ h => exact encodeStep_wf h hw

/-- Settles O49: a row writes DICT and ETAB by the operations that keep the form alone, and every start and end of a unit puts an
object in canonical form in the old one's place. -/
theorem stepKeepsMemoryForm : Obligations.StepKeepsMemoryForm := by
  intro s t hw h
  obtain ⟨u, es, rfl, ⟨a, h⟩ | ⟨-, rfl⟩ | ⟨rest, -, h⟩⟩ := step_cases h
  · exact hostStep_wf h hw
  · exact hw
  · exact runningStep_wf h hw

/-! ## What the host sees -/

/-- What the claim about the host's view speaks of, and nothing else of the state. -/
structure HostView where
  cmd : Command
  argK : Byte
  argKWritten : Bool
  srcAttached : Bool
  snkAttached : Bool
  doc : Option Document
  status : Status
  pst : PState
  working : Document
  ptePolicy : PtePolicy

/-- The view of a state. -/
def hostView (s : State) : HostView :=
  { cmd := s.cmd, argK := s.argK, argKWritten := s.argKWritten, srcAttached := s.src.attached, snkAttached := s.snk.attached,
    doc := s.doc, status := s.status, pst := s.pst, working := s.scratch.doc, ptePolicy := s.params.ptePolicy }

/-- All a step of a running command can do to the view. -/
inductive ViewStep (a : HostView) : HostView → Prop where
  /-- The command goes on. -/
  | stays (p : PState) (d : Document) : ViewStep a { a with pst := p, working := d }
  /-- The command goes on behind a plain text extension (R253). -/
  | sawPlainText (d : Document) (hc : a.cmd = .parse) :
      ViewStep a { a with pst := .loop, working := d, status := { a.status with pteSeen := true } }
  /-- A command other than PARSE ends (R315). -/
  | ended (hc : a.cmd ≠ .parse) : ViewStep a { a with status := okStatus a.status, working := Document.fresh }
  /-- PDONE (R250). -/
  | parsed (hc : a.cmd = .parse) :
      ViewStep a { a with doc := some a.working, pst := .done, status := okStatus a.status, working := Document.fresh }
  /-- The end behind a plain text extension by the other PTE_POLICY (R12, R253). -/
  | returnedEarly (d : Document) (hc : a.cmd = .parse) (hp : a.ptePolicy = .earlyReturn) :
      ViewStep a { a with
        doc := some d, pst := .done, status := { okStatus a.status with pteSeen := true }, working := Document.fresh }
  /-- A fault (R309). -/
  | faulted (code : Nat) : ViewStep a { a with
      doc := if a.cmd = .parse then none else a.doc, pst := if a.cmd = .parse then .fault else a.pst,
      status := faultStatus code a.status, working := Document.fresh }

/-- The claim, read off the six cases. -/
theorem ViewStep.visible {a b : HostView} (h : ViewStep a b) (hb : a.status.state = .busy) :
    b.cmd = a.cmd ∧ b.argK = a.argK ∧ b.argKWritten = a.argKWritten ∧ b.srcAttached = a.srcAttached ∧
    b.snkAttached = a.snkAttached ∧
    (a.cmd ≠ .parse → b.doc = a.doc ∧ b.status.pteSeen = a.status.pteSeen) ∧
    (a.cmd = .parse → (a.status.pteSeen = true → b.status.pteSeen = true) ∧
      (b.status.state = .doneOk → b.doc ≠ none ∧ b.pst = .done ∧ (a.ptePolicy = .continueLoop → b.doc = some a.working)) ∧
      (b.status.state = .doneFault → b.doc = none ∧ b.pst = .fault) ∧
      (b.status.state = .busy → b.doc = a.doc)) := by
  cases h with
  | stays => simp [hb]
  | sawPlainText d hc => simp [hb, hc]
  | ended hc => simp [hc, okStatus]
  | parsed hc => simp [hc, okStatus]
  | returnedEarly d hc hp => simp [hc, hp, okStatus]
  | faulted => simp +contextual [faultStatus]

/-- A read, failed or not, changes nothing of the view. -/
theorem OnlyRead.view_eq {s u : State} (h : OnlyRead s u) : hostView u = hostView s := by rw [h]; rfl

theorem viewStep_takeFault (c : Cause) (p : Nat) (s : State) : ViewStep (hostView s) (hostView (takeFault c p s)) := by
  have h : hostView (takeFault c p s) = { hostView s with
      doc := if s.cmd = .parse then none else s.doc, pst := if s.cmd = .parse then .fault else s.pst,
      status := faultStatus (causeCode c) s.status, working := Document.fresh } := by
    simp [hostView, faultStatus, Scratch.fresh]
  rw [h]
  exact .faulted _

theorem viewStep_finishCommand {s : State} (hc : s.cmd ≠ .parse) : ViewStep (hostView s) (hostView (finishCommand s)) :=
  .ended hc

theorem viewStep_finishDecode (s : State) : ViewStep (hostView s) (hostView (finishDecode s)) := by
  by_cases hc : s.cmd = .parse
  · rw [finishDecode_parse hc]
    exact .stays _ _
  · rw [finishDecode_other hc]
    exact viewStep_finishCommand hc

theorem viewStep_finishEncode {s : State} (hc : s.cmd ≠ .parse) : ViewStep (hostView s) (hostView (finishEncode s)) := by
  by_cases hs : s.cmd = .serialize
  · rw [finishEncode_serialize hs]
    exact .stays _ _
  · rw [finishEncode_other hs]
    exact viewStep_finishCommand hc

theorem codeRun_view {u t : State} {c : Nat} (h : CodeRun u c t) : ViewStep (hostView u) (hostView t) := by
  cases h with
  | invalid => exact viewStep_takeFault _ _ _
  | _ => exact .stays _ _

theorem decodeStep_view {s t : State} {bs : List Byte} {rest : List (Option Byte)} (h : DecodeStep s bs rest t) :
    ViewStep (hostView s) (hostView t) := by
  cases h with
  | failed p u h => rw [← h.onlyRead.view_eq]; exact viewStep_takeFault _ _ _
  | finished u v c n h hc hm => rw [← hm.onlyRead.view_eq]; exact viewStep_finishDecode _
  | ran u t c n h hm hc hb ho hr => rw [← hm.onlyRead.view_eq]; exact codeRun_view hr

theorem sbTerm_view {u t : State} (h : execSbTerm u = .next t) (hc : u.cmd = .parse) : ViewStep (hostView u) (hostView t) := by
  obtain ⟨d, ⟨rfl, -⟩ | ⟨rfl, hp, hpol⟩⟩ := sbTerm_cases h
  · by_cases hp : u.pst = .pte
    · simp only [termStored, if_pos hp]
      exact .sawPlainText d hc
    · simp only [termStored, if_neg hp]
      exact .stays _ _
  · simp only [termStored, if_pos hp]
    exact .returnedEarly d hc hpol

theorem sbData_view {u t : State} {f : List Byte} (h : execSbData f u = .next t) : ViewStep (hostView u) (hostView t) := by
  unfold execSbData at h
  split at h <;> cases h <;> exact .stays _ _

theorem parseRun_view {u t : State} {slot : Slot} {i : Instr} (h : ParseRun u slot i t) (hc : u.cmd = .parse) :
    ViewStep (hostView u) (hostView t) := by
  cases h with
  | term _ h => exact sbTerm_view h hc
  | data _ _ h => exact sbData_view h
  | badSignature => exact viewStep_takeFault _ _ _
  | unknown => exact viewStep_takeFault _ _ _
  | badSize => exact viewStep_takeFault _ _ _
  | done => exact .parsed hc
  | _ => exact .stays _ _

theorem parseStep_view {s t : State} {slot : Slot} {bs : List Byte} {rest : List (Option Byte)}
    (h : ParseStep s slot bs rest t) (hc : s.cmd = .parse) : ViewStep (hostView s) (hostView t) := by
  cases h with
  | failed k p u h => rw [← h.onlyRead.view_eq]; exact viewStep_takeFault _ _ _
  | ran i used tail t hb he ho h => exact parseRun_view (u := took used (tail.map some ++ rest) s) h hc

theorem partStep_view {s t : State} (h : PartStep s (.next t)) (hc : s.cmd ≠ .parse) : ViewStep (hostView s) (hostView t) := by
  cases h with
  | failed b ws => exact viewStep_takeFault _ _ (failedWrite b (wrote ws s))
  | handed => exact .stays _ _
  | image => exact .stays _ _
  | done => exact .ended hc

theorem encodeStep_view {s t : State} (h : EncodeStep s t) (hc : s.cmd ≠ .parse) : ViewStep (hostView s) (hostView t) := by
  cases h with
  | failed b ws all e => exact viewStep_takeFault _ _ (failedWrite b (wrote ws { s with enc := e }))
  | clear0 => exact .stays _ _
  | ran => exact .stays _ _
  | finished ws e => exact viewStep_finishEncode (s := wrote ws { s with enc := e }) hc

/-- The encoder never runs in a PARSE, which is all of the invariant that is needed. -/
theorem runningStep_view {s t : State} {bs : List Byte} {rest : List (Option Byte)} (h : CoreStep s bs rest (.next t))
    (hctl : controlOk s) : ViewStep (hostView s) (hostView t) := by
  cases h with
  | parse _ _ _ hc _ h => exact parseStep_view h hc
  | lzwStart => exact .stays _ _
  | decode _ _ h => exact decodeStep_view h
  | part _ _ hc _ h => exact partStep_view h (by simp [hc])
  | encode _ hu h => exact encodeStep_view h (by rcases cmd_encode hctl hu with ⟨hc, -⟩ | hc <;> simp [hc])

/-- Settles O52: a step of the running command is one of the six changes of the host's view, and the claim holds of each. -/
theorem hostVisibleStateOnlyAsStated : Obligations.HostVisibleStateOnlyAsStated := by
  intro s t u hI hb hq h
  obtain ⟨rest, -, -, hstep⟩ := core_of hb hq h
  have hview := runningStep_view hstep ((inv_quiet hI hq).control hb)
  rw [busy_state (s := u)]
  exact hview.visible (busy_state.1 hb)

end Sys2Proof.Machine
end

section
/-! PROOFS. The two streams (20_memory.md): a decode takes its codes off the payload bits alone (R67, R68), the bytes of SRC are
taken in order (R71, R75), SNK only grows (R62, R71), and no step touches both (R78). -/

namespace Sys2Proof.Machine

/-! ## The next code of a decode -/

theorem decodeCode_of_lt {x : CodeContext} {bits : List Bool} (h : bits.length < x.w) : decodeCode x bits = (.noCode, bits) :=
  if_pos h

theorem decodeCode_of_le {x : CodeContext} {bits : List Bool} (h : x.w ≤ bits.length) :
    decodeCode x bits = (classify x (ofBits (bits.take x.w)), bits.drop x.w) := if_neg (Nat.not_lt.2 h)

/-- DISPATCH on a SRC that does not fail: the row of the first W bits of the bit stream, the rest of which is left. -/
theorem fetchCode_holds {s : State} {bs : List Byte} (hs : s.src.answers = bs.map some ++ []) (hb : bitBufferOk s.dec) :
    ∃ u n, fetchCode s = .ok (decodeCode (codeContext s.dec) (bitsLeft s)).1 u ∧ Moved s u bs [] n ∧
      bitsLeft u = (decodeCode (codeContext s.dec) (bitsLeft s)).2 ∧ (s.dec.w ≤ (bitsLeft s).length → bitBufferOk u.dec) := by
  rcases nextCode_spec hs (.inl rfl) hb.2 with
    ⟨hw, u, n, hu, hm, hbits, hacc, hnb⟩ | ⟨hw, u, n, hu, hm, hbits, -⟩ | ⟨-, -, p, u, -, hfail⟩
  · rw [decodeCode_of_le (x := codeContext s.dec) hw, fetchCode, hu, Res.bind_ok]
    exact ⟨u, n, by rw [hm.context]; rfl, hm, hbits, fun _ => ⟨hnb (hb.1.trans (Nat.le_add_left _ _)), hacc⟩⟩
  · rw [decodeCode_of_lt (x := codeContext s.dec) hw, fetchCode, hu, Res.bind_ok]
    exact ⟨u, n, rfl, hm, hbits, fun h => absurd hw (Nat.not_lt.2 h)⟩
  · exact absurd rfl hfail.rest_ne

/-- Settles O10: the step runs what DISPATCH has fetched, and the state it runs it in is the one the reads have moved on to. -/
theorem stepRunsCodeOffTheBitStream : Obligations.StepRunsCodeOffTheBitStream := by
  intro s t bs hq hb hu hs hbit
  obtain ⟨u, n, hfetch, hm, hbits, hok⟩ := fetchCode_holds (by rw [List.append_nil]; exact hs) hbit
  obtain ⟨used, bs', hbs, hfed⟩ := hm.used
  rw [List.append_nil] at hfed
  refine ⟨u, used, bs', ?_, hbits, hbs, hfed, hm.behind, hok⟩
  rw [step_quiet hq, coreStep_some hb (fetch_lzwd hu), hfetch, Res.toOutcome_ok]

/-! ## A step that reads takes bytes off SRC in order -/

/-- Between `s` and `t` some first bytes of `bs` have been taken from SRC and POS has counted them; the others, and `rest` behind
them, are still to come. -/
def TookFirst (s t : State) (bs : List Byte) (rest : List (Option Byte)) : Prop :=
  ∃ used bs', bs = used ++ bs' ∧ t.src.answers = bs'.map some ++ rest ∧ t.pos = s.pos + used.length

/-- An access failed, and the step took the fault of a read behind all of `bs`. -/
def ReadFailed (s t : State) (bs : List Byte) (rest : List (Option Byte)) : Prop :=
  ∃ p u, FailedAt s u p bs rest ∧ t = takeFault (.ioError .readFailure) p u

theorem TookFirst.congr {s t t' : State} {bs : List Byte} {rest : List (Option Byte)} (h : TookFirst s t bs rest)
    (hsrc : t'.src = t.src) (hpos : t'.pos = t.pos) : TookFirst s t' bs rest := by
  unfold TookFirst
  rw [hsrc, hpos]
  exact h

theorem tookFirst_none {s t : State} {bs : List Byte} {rest : List (Option Byte)} (hs : s.src.answers = bs.map some ++ rest)
    (h : t.src = s.src ∧ t.pos = s.pos) : TookFirst s t bs rest := ⟨[], bs, rfl, by rw [h.1, hs], h.2⟩

theorem Moved.tookFirst {s t : State} {bs : List Byte} {rest : List (Option Byte)} {n : Nat} (h : Moved s t bs rest n) :
    TookFirst s t bs rest := by
  obtain ⟨used, bs', hb, hf⟩ := h.used
  exact ⟨used, bs', hb, hf.answers, hf.pos⟩

/-- A fetch whose bytes run out has taken them all. -/
theorem Fed.tookFirst_all {s t : State} {bs : List Byte} {rest : List (Option Byte)} (h : Fed s t bs rest) :
    TookFirst s t bs rest := ⟨bs, [], (List.append_nil bs).symm, h.answers, h.pos⟩

theorem parseStep_took {s t : State} {slot : Slot} {bs : List Byte} {rest : List (Option Byte)}
    (h : ParseStep s slot bs rest t) : TookFirst s t bs rest ∨ ReadFailed s t bs rest := by
  cases h with
  | failed k p u h =>
    rcases h.cause with ⟨-, -, hf⟩ | ⟨rfl, hr, hv⟩
    · exact .inl (hf.tookFirst_all.congr (takeFault_src ..) (takeFault_pos ..))
    · exact .inr ⟨p, u, ⟨h.position, hr, hv⟩, rfl⟩
  | ran i used tail t hb he ho h =>
    obtain ⟨hsrc, hpos, -⟩ := parseRun_src h
    exact .inl ⟨used, tail, hb, by rw [hsrc]; rfl, hpos⟩

theorem decodeStep_took {s t : State} {bs : List Byte} {rest : List (Option Byte)} (h : DecodeStep s bs rest t) :
    TookFirst s t bs rest ∨ ReadFailed s t bs rest := by
  cases h with
  | failed p u h => exact .inr ⟨p, u, h, rfl⟩
  | finished u v c n h hc hm => exact .inl (hm.tookFirst.congr (finishDecode_src v) (finishDecode_pos v))
  | ran u t c n h hm hc hb ho hr =>
    obtain ⟨hsrc, hpos, -⟩ := codeRun_src hr
    exact .inl (hm.tookFirst.congr hsrc hpos)

/-- A unit that reads takes first bytes of those at hand or fails behind the last of them; one that writes takes none. -/
theorem runningStep_took {s t : State} {bs : List Byte} {rest : List (Option Byte)} (h : CoreStep s bs rest (.next t))
    (hs : s.src.answers = bs.map some ++ rest) : TookFirst s t bs rest ∨ ReadFailed s t bs rest := by
  cases h with
  | parse _ _ _ _ _ h => exact parseStep_took h
  | lzwStart => exact .inl (tookFirst_none hs ⟨rfl, rfl⟩)
  | decode _ _ h => exact decodeStep_took h
  | part _ _ _ _ h => exact .inl (tookFirst_none hs (partStep_src h))
  | encode _ _ h => exact .inl (tookFirst_none hs (encodeStep_src h))

/-- Settles O54: a SRC that does not fail leaves a step only the taking of first bytes. -/
theorem sourceConsumedInOrder : Obligations.SourceConsumedInOrder := by
  intro s t u bs hb hq hs h
  have hs' : t.src.answers = bs.map some ++ [] := by rw [List.append_nil]; exact hs
  have hstep := coreStep_cases hb hs' (.inl rfl)
  rw [step_next_quiet hq h] at hstep
  rcases runningStep_took hstep hs' with ⟨used, bs', hbs, hsrc, hpos⟩ | ⟨p, v, hfail, -⟩
  · exact ⟨used, bs', hbs, by rw [sourceHolds, hsrc, List.append_nil], hpos⟩
  · exact absurd rfl hfail.rest_ne

/-! ## A step that reads leaves SNK alone -/

theorem OnlyRead.sink {s u : State} (h : OnlyRead s u) : u.snk = s.snk ∧ u.spos = s.spos := by rw [h]; exact ⟨rfl, rfl⟩

theorem parseStep_sink {s t : State} {slot : Slot} {bs : List Byte} {rest : List (Option Byte)}
    (h : ParseStep s slot bs rest t) : t.snk = s.snk ∧ t.spos = s.spos := by
  cases h with
  | failed k p u h => rw [takeFault_snk, takeFault_spos]; exact h.onlyRead.sink
  | ran i used tail t hb he ho h =>
    obtain ⟨-, -, hsnk, hspos⟩ := parseRun_src h
    exact ⟨hsnk, hspos⟩

theorem decodeStep_sink {s t : State} {bs : List Byte} {rest : List (Option Byte)} (h : DecodeStep s bs rest t) :
    t.snk = s.snk ∧ t.spos = s.spos := by
  cases h with
  | failed p u h => rw [takeFault_snk, takeFault_spos]; exact h.onlyRead.sink
  | finished u v c n h hc hm => rw [finishDecode_snk, finishDecode_spos]; exact hm.onlyRead.sink
  | ran u t c n h hm hc hb ho hr =>
    obtain ⟨-, -, hsnk, hspos⟩ := codeRun_src hr
    rw [hsnk, hspos]
    exact hm.onlyRead.sink

/-- Under the invariant a unit that reads runs in a PARSE or DECODE, and one that writes in a SERIALIZE or ENCODE. -/
theorem runningStep_oneStream {s t : State} {bs : List Byte} {rest : List (Option Byte)} (h : CoreStep s bs rest (.next t))
    (hctl : controlOk s) :
    ((s.cmd = .parse ∨ s.cmd = .decode) ∧ t.snk = s.snk ∧ t.spos = s.spos) ∨
    ((s.cmd = .serialize ∨ s.cmd = .encode) ∧ t.src = s.src ∧ t.pos = s.pos) := by
  cases h with
  | parse _ _ _ hc _ h => exact .inl ⟨.inl hc, parseStep_sink h⟩
  | lzwStart _ hc => exact .inl ⟨.inl hc, rfl, rfl⟩
  | decode _ hu h => exact .inl ⟨cmd_decode hctl hu, decodeStep_sink h⟩
  | part _ _ hc _ h => exact .inr ⟨.inl hc, partStep_src h⟩
  | encode _ hu h => exact .inr ⟨(cmd_encode hctl hu).imp_left And.left, encodeStep_src h⟩

/-- Settles O53: the running command names the one stream its unit can touch. -/
theorem streamsNeverActiveTogether : Obligations.StreamsNeverActiveTogether := by
  intro s t u hI hb hq h
  obtain ⟨rest, -, -, hstep⟩ := core_of hb hq h
  rcases runningStep_oneStream hstep ((inv_quiet hI hq).control hb) with ⟨hc, hsnk⟩ | ⟨hc, hsrc⟩
  · exact ⟨fun _ => hsnk, fun hw => by rcases hc with hc | hc <;> simp [hc] at hw⟩
  · exact ⟨fun hr => by rcases hc with hc | hc <;> simp [hc] at hr, fun _ => hsrc⟩

/-! ## A step that writes only adds to SNK -/

/-- What SNK held in `s` stands at the front of what it holds in `t`, and SPOS has not fallen. -/
def SinkGrown (s t : State) : Prop := s.snk.bytes <+: t.snk.bytes ∧ s.spos ≤ t.spos

theorem SinkGrown.congr {s t t' : State} (h : SinkGrown s t) (hk : t'.snk = t.snk ∧ t'.spos = t.spos) : SinkGrown s t' := by
  rw [SinkGrown, hk.1, hk.2]
  exact h

theorem SinkGrown.refl (s : State) : SinkGrown s s := ⟨List.prefix_rfl, le_rfl⟩

theorem SinkGrown.trans {s t u : State} (h1 : SinkGrown s t) (h2 : SinkGrown t u) : SinkGrown s u :=
  ⟨h1.1.trans h2.1, h1.2.trans h2.2⟩

theorem sinkGrown_wrote (ws : List Byte) (s : State) : SinkGrown s (wrote ws s) :=
  ⟨List.prefix_append _ _, Nat.le_add_right _ _⟩

/-- Whether or not the byte of a failed write reached SNK (U6). -/
theorem sinkGrown_failedWrite (b : Byte) (s : State) : SinkGrown s (failedWrite b s) := by
  refine ⟨?_, le_rfl⟩
  show s.snk.bytes <+: if Config.freeBool s.fresh 0 then s.snk.bytes ++ [b] else s.snk.bytes
  split
  · exact List.prefix_append _ _
  · exact List.prefix_rfl

theorem sinkGrown_writeFault (c : Cause) (p : Nat) (b : Byte) (ws : List Byte) (s : State) :
    SinkGrown s (takeFault c p (failedWrite b (wrote ws s))) :=
  ((sinkGrown_wrote ws s).trans (sinkGrown_failedWrite b _)).congr ⟨takeFault_snk .., takeFault_spos ..⟩

theorem partStep_grows {s t : State} (h : PartStep s (.next t)) : SinkGrown s t := by
  cases h with
  | failed b ws => exact sinkGrown_writeFault _ _ b ws s
  | handed ws next => exact sinkGrown_wrote ws { s with sst := next }
  | image ws => exact sinkGrown_wrote ws { s with pixWritten := false }
  | done => exact sinkGrown_wrote [0x3B] s

theorem encodeStep_grows {s t : State} (h : EncodeStep s t) : SinkGrown s t := by
  cases h with
  | failed b ws all e => exact sinkGrown_writeFault _ _ b ws { s with enc := e }
  | clear0 ws e => exact sinkGrown_wrote ws { s with enc := e, lzwUnit := .lzwe }
  | ran ws e => exact sinkGrown_wrote ws { s with enc := e }
  | finished ws e =>
    exact (sinkGrown_wrote ws { s with enc := e }).congr ⟨finishEncode_snk _, finishEncode_spos _⟩

/-- Settles O57: a unit that reads leaves SNK as it is, and one that writes appends to it. -/
theorem sinkOnlyGrows : Obligations.SinkOnlyGrows := by
  intro s t u hb hq h
  obtain ⟨rest, -, -, hstep⟩ := core_of hb hq h
  cases hstep with
  | parse _ _ _ _ _ h => exact (SinkGrown.refl t).congr (parseStep_sink h)
  | lzwStart => exact SinkGrown.refl t
  | decode _ _ h => exact (SinkGrown.refl t).congr (decodeStep_sink h)
  | part _ _ _ _ h => exact partStep_grows h
  | encode _ _ h => exact encodeStep_grows h

end Sys2Proof.Machine
end

section
/-! PROOFS. The encodings (30_encoding.md): decoding undoes encoding and encoding undoes decoding for every container row (R101 to
R118), and a code of the bit stream is read back as the class its value has (R119 to R121). -/

namespace Sys2Proof.Machine

/-! ## Decoding an encoding -/

/-- IMG is well formed at its indicator, without operands, and at its descriptor, with all five (R113). -/
theorem wellFormed_img_cases {left top width height : Option Half} {packed : Option Byte}
    (h : (Instr.img left top width height packed).wellFormed = true) :
    Instr.img left top width height packed = imgIndicator ∨
      ∃ l t w v p, Instr.img left top width height packed = imgAt l t w v p :=
  match left, top, width, height, packed, h with
  | none, none, none, none, none, _ => .inl rfl
  | some l, some t, some w, some v, some p, _ => .inr ⟨l, t, w, v, p, rfl⟩

theorem wellFormed_unknown_iff (b : Byte) : (Instr.unknown b).wellFormed = true ↔ b ≠ 0x21 ∧ b ≠ 0x2C ∧ b ≠ 0x3B := by
  simp only [Instr.wellFormed, Bool.and_eq_true, bne_iff_ne, and_assoc]

theorem wellFormed_extSkip_iff (b : Byte) :
    (Instr.extSkip b).wellFormed = true ↔ b ≠ 0xF9 ∧ b ≠ 0xFE ∧ b ≠ 0xFF ∧ b ≠ 0x01 := by
  simp only [Instr.wellFormed, Bool.and_eq_true, bne_iff_ne, and_assoc]

theorem wellFormed_sbData_iff (p : List Byte) : (Instr.sbData p).wellFormed = true ↔ 1 ≤ p.length ∧ p.length ≤ 255 := by
  rw [Instr.wellFormed, Bool.and_eq_true, decide_eq_true_iff, decide_eq_true_iff, Config.sbMax]

theorem decodeTable_encode (mk : List Rgb → Instr) {t : List Rgb} (h : tableLengths.contains t.length = true) (rest : List Byte) :
    decodeTable mk t.length (t.flatMap Rgb.toList ++ rest) = .ok (mk t, rest) := by
  rw [decodeTable, if_pos h, decodeEntries_encode]

theorem decodeImage_encode (l t w h : Half) (p : Byte) (rest : List Byte) :
    decodeImage (encode (imgAt l t w h p) ++ rest) = .ok (imgAt l t w h p, rest) := by
  simp [encode, imgAt, encodeU16, decodeImage]

theorem decodeIndicator_unknown {b : Byte} (h : (Instr.unknown b).wellFormed = true) (rest : List Byte) :
    decodeIndicator (b :: rest) = .ok (.unknown b, rest) := by
  obtain ⟨hExt, hImg, hTrl⟩ := (wellFormed_unknown_iff b).1 h
  rw [decodeIndicator, if_neg hExt, if_neg hImg, if_neg hTrl]

theorem decodeLabel_skip {b : Byte} (h : (Instr.extSkip b).wellFormed = true) (rest : List Byte) :
    decodeLabel (b :: rest) = .ok (.extSkip b, rest) := by
  obtain ⟨hGce, hCom, hApp, hPte⟩ := (wellFormed_extSkip_iff b).1 h
  rw [decodeLabel, if_neg hGce, if_neg hCom, if_neg hApp, if_neg hPte]

theorem decode_encode_extGce {o : GceOperands} {slot : Slot} (hw : (Instr.extGce o).wellFormed = true)
    (hs : slotOf (.extGce o) = some slot) (rest : List Byte) :
    decode slot (encode (.extGce o) ++ rest) = .ok (.extGce o, rest) := by
  cases o <;> cases hs
  case label => rfl
  case badSize n => exact if_neg (bne_iff_ne.1 hw)
  case body p d ti t => simp [encode, encodeU16, decode, decodeGce]

theorem decode_encode_extApp {o : AppOperands} {slot : Slot} (hw : (Instr.extApp o).wellFormed = true)
    (hs : slotOf (.extApp o) = some slot) (rest : List Byte) :
    decode slot (encode (.extApp o) ++ rest) = .ok (.extApp o, rest) := by
  cases o <;> cases hs
  case label => rfl
  case badSize n => exact if_neg (bne_iff_ne.1 hw)
  case header i a => rfl

theorem decode_encode_extPte {o : PteOperands} {slot : Slot} (hw : (Instr.extPte o).wellFormed = true)
    (hs : slotOf (.extPte o) = some slot) (rest : List Byte) :
    decode slot (encode (.extPte o) ++ rest) = .ok (.extPte o, rest) := by
  cases o <;> cases hs
  case label => rfl
  case badSize n => exact if_neg (bne_iff_ne.1 hw)
  case header f => rfl

theorem decodeSubBlock_data {p : List Byte} (h : (Instr.sbData p).wellFormed = true) (rest : List Byte) :
    decodeSubBlock (encode (.sbData p) ++ rest) = .ok (.sbData p, rest) := by
  obtain ⟨hPos, hMax⟩ := (wellFormed_sbData_iff p).1 h
  have hLen : (BitVec.ofNat 8 p.length).toNat = p.length := by
    rw [BitVec.toNat_ofNat]
    omega
  have hNot : BitVec.ofNat 8 p.length ≠ 0 := fun e => by
    have hZero : p.length = 0 := by rw [← hLen, e]; rfl
    omega
  rw [encode, List.cons_append, decodeSubBlock, if_neg hNot, hLen, if_pos (by simp), List.take_left, List.drop_left]

/-- Settles O1, row by row. -/
theorem decodeEncodeBlocks : Obligations.DecodeEncodeBlocks := by
  intro i slot rest hw hs he
  cases i with
  | hdr sig ver => cases hs; rfl
  | lsd w h p bg a => cases hs; simp [encode, encodeU16, decode, decodeScreen]
  | gct t => cases hs; exact decodeTable_encode .gct hw rest
  | lct t => cases hs; exact decodeTable_encode .lct hw rest
  | mcs k => cases hs; rfl
  | ext => cases hs; rfl
  | img left top width height packed =>
    obtain e | ⟨l, t, w, h, p, e⟩ := wellFormed_img_cases hw <;> rw [e] at hs ⊢ <;> cases hs
    · rfl
    · exact decodeImage_encode l t w h p rest
  | trl => cases hs; rfl
  | unknown b => cases hs; exact decodeIndicator_unknown hw rest
  | eos => cases hs; rw [he rfl]; rfl
  | extGce o => exact decode_encode_extGce hw hs rest
  | extCom => cases hs; rfl
  | extApp o => exact decode_encode_extApp hw hs rest
  | extPte o => exact decode_encode_extPte hw hs rest
  | extSkip b => cases hs; exact decodeLabel_skip hw rest
  | sbTerm => cases hs; rfl
  | sbData p => cases hs; exact decodeSubBlock_data hw rest
  | parse | serialize | decode | encode | lzw => cases hs
  | endCode | clear | known | nextCode | invalid | noCode => cases hs
  | sHdr | sLsd | sGct | sGce | sCom | sApp | sPte | sImg | sTrl => cases hs
  | eClear0 | eMatch | eMiss | eOverflow | eFinish => cases hs

/-! ## Encoding what was decoded -/

/-- The bytes `bs` are the encoding of the well-formed instruction `i` of the slot, with `rest` behind it. -/
def EncodingIn (slot : Slot) (bs : List Byte) (i : Instr) (rest : List Byte) : Prop :=
  bs = encode i ++ rest ∧ slotOf i = some slot ∧ i.wellFormed = true

section Decoded

variable {bs rest : List Byte} {i : Instr}

theorem decodeHeader_ok (h : decodeHeader bs = .ok (i, rest)) : EncodingIn .header bs i rest := by
  unfold decodeHeader at h
  split at h <;> cases h
  exact ⟨rfl, rfl, rfl⟩

theorem decodeScreen_ok (h : decodeScreen bs = .ok (i, rest)) : EncodingIn .screen bs i rest := by
  unfold decodeScreen at h
  split at h <;> cases h
  exact ⟨by simp [encode], rfl, rfl⟩

theorem decodeImage_ok (h : decodeImage bs = .ok (i, rest)) : EncodingIn .descriptor bs i rest := by
  unfold decodeImage at h
  split at h <;> cases h
  exact ⟨by simp [encode, imgAt], rfl, rfl⟩

theorem decodeMinCode_ok (h : decodeMinCode bs = .ok (i, rest)) : EncodingIn .minCode bs i rest := by
  unfold decodeMinCode at h
  split at h <;> cases h
  exact ⟨rfl, rfl, rfl⟩

theorem decodeTable_ok {mk : List Rgb → Instr} {n : Nat} (h : decodeTable mk n bs = .ok (i, rest)) :
    ∃ t, i = mk t ∧ bs = t.flatMap Rgb.toList ++ rest ∧ t.length = n ∧ tableLengths.contains n = true := by
  unfold decodeTable at h
  split at h
  next hn =>
    split at h <;> cases h
    next t hd =>
      obtain ⟨hbs, hlen⟩ := decodeEntries_some hd
      exact ⟨t, rfl, hbs, hlen, hn⟩
  next => cases h

theorem decodeIndicator_ok (h : decodeIndicator bs = .ok (i, rest)) : EncodingIn .indicator bs i rest := by
  unfold decodeIndicator at h
  split at h
  · cases h
    exact ⟨rfl, rfl, rfl⟩
  next b tail =>
    split_ifs at h with hExt hImg hTrl <;> cases h
    · exact ⟨by rw [hExt]; rfl, rfl, rfl⟩
    · exact ⟨by rw [hImg]; rfl, rfl, rfl⟩
    · exact ⟨by rw [hTrl]; rfl, rfl, rfl⟩
    · exact ⟨rfl, rfl, (wellFormed_unknown_iff b).2 ⟨hExt, hImg, hTrl⟩⟩

theorem decodeLabel_ok (h : decodeLabel bs = .ok (i, rest)) : EncodingIn .label bs i rest := by
  unfold decodeLabel at h
  split at h
  · cases h
  next b tail =>
    split_ifs at h with hGce hCom hApp hPte <;> cases h
    · exact ⟨by rw [hGce]; rfl, rfl, rfl⟩
    · exact ⟨by rw [hCom]; rfl, rfl, rfl⟩
    · exact ⟨by rw [hApp]; rfl, rfl, rfl⟩
    · exact ⟨by rw [hPte]; rfl, rfl, rfl⟩
    · exact ⟨rfl, rfl, (wellFormed_extSkip_iff b).2 ⟨hGce, hCom, hApp, hPte⟩⟩

theorem decodeGce_ok (h : decodeGce bs = .ok (i, rest)) : EncodingIn .gceBody bs i rest := by
  unfold decodeGce at h
  split at h
  · cases h
  next n tail =>
    split_ifs at h with hn
    · split at h <;> cases h
      exact ⟨by simp [encode, hn], rfl, rfl⟩
    · cases h
      exact ⟨rfl, rfl, bne_iff_ne.2 hn⟩

theorem decodeApp_ok (h : decodeApp bs = .ok (i, rest)) : EncodingIn .appHeader bs i rest := by
  unfold decodeApp at h
  split at h
  · cases h
  next n tail =>
    split_ifs at h with hn
    · split at h <;> cases h
      exact ⟨by rw [hn]; rfl, rfl, rfl⟩
    · cases h
      exact ⟨rfl, rfl, bne_iff_ne.2 hn⟩

theorem decodePte_ok (h : decodePte bs = .ok (i, rest)) : EncodingIn .pteHeader bs i rest := by
  unfold decodePte at h
  split at h
  · cases h
  next n tail =>
    split_ifs at h with hn
    · split at h <;> cases h
      exact ⟨by rw [hn]; rfl, rfl, rfl⟩
    · cases h
      exact ⟨rfl, rfl, bne_iff_ne.2 hn⟩

theorem decodeSubBlock_ok (h : decodeSubBlock bs = .ok (i, rest)) : EncodingIn .subBlock bs i rest := by
  unfold decodeSubBlock at h
  split at h
  · cases h
  next n tail =>
    split_ifs at h with hTerm hFull <;> cases h
    · exact ⟨by rw [hTerm]; rfl, rfl, rfl⟩
    · have hLen : (tail.take n.toNat).length = n.toNat := List.length_take_of_le hFull
      have hPos : n.toNat ≠ 0 := fun e => hTerm (BitVec.eq_of_toNat_eq e)
      have hMax : n.toNat < 256 := n.isLt
      exact ⟨by simp [encode, hLen], rfl, (wellFormed_sbData_iff _).2 (by omega)⟩

end Decoded

/-- Settles O2, slot by slot. -/
theorem decodedBytesAreTheEncoding : Obligations.DecodedBytesAreTheEncoding := by
  intro slot bs i rest h
  cases slot with
  | header => exact decodeHeader_ok h
  | screen => exact decodeScreen_ok h
  | globalTable n =>
    obtain ⟨t, rfl, hbs, rfl, hn⟩ := decodeTable_ok h
    exact ⟨hbs, rfl, hn⟩
  | indicator => exact decodeIndicator_ok h
  | label => exact decodeLabel_ok h
  | gceBody => exact decodeGce_ok h
  | appHeader => exact decodeApp_ok h
  | pteHeader => exact decodePte_ok h
  | subBlock => exact decodeSubBlock_ok h
  | descriptor => exact decodeImage_ok h
  | localTable n =>
    obtain ⟨t, rfl, hbs, rfl, hn⟩ := decodeTable_ok h
    exact ⟨hbs, rfl, hn⟩
  | minCode => exact decodeMinCode_ok h

/-! ## Codes -/

theorem codeValue_classify (x : CodeContext) (c : Nat) : codeValue x (classify x c) = some c := by
  rcases classify_cases x c with ⟨rfl, e⟩ | ⟨_, rfl, e⟩ | ⟨_, _, _, e⟩ | ⟨_, _, _, _, e⟩ | ⟨_, _, _, _, e⟩ <;> rw [e] <;> rfl

/-- A value that fits the width comes back from its bits (R67, R120). -/
theorem decodeCode_toBits {x : CodeContext} {c : Nat} (h : c < 2 ^ x.w) (rest : List Bool) :
    decodeCode x (toBits x.w c ++ rest) = (classify x c, rest) := by
  have hw := toBits_length x.w c
  rw [decodeCode_of_le (by simp), List.take_left' hw, List.drop_left' hw, ofBits_toBits, Nat.mod_eq_of_lt h]

/-- Settles O4: the bits written for a class are the bits of its value. -/
theorem codesReadBackAsWritten : Obligations.CodesReadBackAsWritten := by
  intro x c rest h
  rw [encodeCode, codeValue_classify]
  exact decodeCode_toBits h rest

/-- Settles O3: the five conditions of the selection exclude each other where END is CLR + 1 and below NEXT. -/
theorem codeClassConditions : Obligations.CodeClassConditions := by
  intro x c hend hnext
  rcases classify_cases x c with ⟨h, e⟩ | ⟨hne, h, e⟩ | ⟨hne, hnc, h, e⟩ | ⟨hne, hnc, h, hp, e⟩ | ⟨hne, hnc, hlt, h, e⟩
  · simp [e, show c ≠ x.next by omega]
    omega
  · simp [e, show c ≠ x.next by omega]
    omega
  · simp [e, show c ≠ x.next by omega]
    omega
  · simp [e, hp]
    omega
  · have hp : c = x.next → x.prev = none := fun hc => not_not.1 fun hp => h ⟨hc, hp⟩
    have hi : (c = x.next ∧ x.prev = none) ∨ x.next < c :=
      (Nat.eq_or_lt_of_le (Nat.not_lt.1 hlt)).imp_left fun hc => ⟨hc.symm, hp hc.symm⟩
    simpa [e, hi, hne, hnc, hlt] using hp

/-! ## Words of the opcode table -/

/-- A table word whose bytes are the encoding of a row of its slot decodes to the row; what the zeros behind it are does not matter. -/
theorem decodeTableWord_of_encode {nbits w : Nat} {slot : Slot} {i : Instr} (ht : tableSlot nbits w = some slot)
    (hb : wordBytes (nbits / 8) w = encode i) (hw : i.wellFormed = true) (hs : slotOf i = some slot) (he : i ≠ .eos) :
    decodeTableWord nbits w = some i := by
  have hd := decodeEncodeBlocks i slot zeroTail hw hs fun e => absurd e he
  simp [decodeTableWord, ht, tableBytes, hb, hd]

/-- Bytes in a slot that are the encoding of a row of the slot. -/
theorem decode_of_encode {slot : Slot} {bs : List Byte} {i : Instr} (hb : bs = encode i) (hw : i.wellFormed = true)
    (hs : slotOf i = some slot) : decode slot bs = .ok (i, []) := by
  rw [hb, ← List.append_nil (encode i)]
  exact decodeEncodeBlocks i slot [] hw hs fun _ => rfl

/-- Settles O5: each word is the encoding of its row, and encodings decode (`decodeEncodeBlocks`). -/
theorem tableWordsDecode : Obligations.TableWordsDecode :=
  ⟨decodeTableWord_of_encode rfl rfl rfl rfl nofun, decodeTableWord_of_encode rfl rfl rfl rfl nofun,
    decodeTableWord_of_encode rfl rfl rfl rfl nofun, decodeTableWord_of_encode rfl rfl rfl rfl nofun,
    decodeTableWord_of_encode rfl rfl rfl rfl nofun, decodeTableWord_of_encode rfl rfl rfl rfl nofun,
    decodeTableWord_of_encode rfl rfl rfl rfl nofun, decodeTableWord_of_encode rfl rfl rfl rfl nofun,
    decodeTableWord_of_encode rfl rfl rfl rfl nofun, decodeTableWord_of_encode rfl rfl rfl rfl nofun,
    decode_of_encode rfl rfl rfl, decode_of_encode rfl rfl rfl, decode_of_encode rfl rfl rfl, decode_of_encode rfl rfl rfl,
    decode_of_encode rfl rfl rfl⟩

end Sys2Proof.Machine
end

section
/-! PROOFS. The byte cursors (40_cursor.md): the two-byte read of the source (R153), and the sub-block framing that the sink is given
(R160) against a reader of it (R155). -/

namespace Sys2Proof.Machine

/-! ## The sub-block framing -/

theorem frame_length (l : List Byte) : (frame l).length = l.length + (l.length + 254) / 255 + 1 := by
  rw [frame_eq, List.length_append, chunks_length, List.length_singleton]

/-- A reader of the framing gets the sequence: its chunks, and nothing from the terminator on. -/
theorem payloadFrom_frame (l rest : List Byte) : payloadFrom 0 (frame l ++ rest) = l := by
  rw [frame_eq, List.append_assoc, payloadFrom_chunks]
  simp [payloadFrom]

theorem behindFrom_frame (l rest : List Byte) : behindFrom 0 (frame l ++ rest) = rest := by
  rw [frame_eq, List.append_assoc, behind_chunks]
  simp [behindFrom]

/-- Settles O7: the writer is the framing (`writes_putSubBlocks`), and the framing is chunks, which a reader undoes one by one, and a
terminator, at which it stops. -/
theorem subBlockFraming : Obligations.SubBlockFraming := fun l rest s =>
  ⟨(writes_putSubBlocks l).full s, frame_length l, payloadFrom_frame l rest, behindFrom_frame l rest⟩

/-! ## The two-byte read -/

theorem mustU16_bytes {s : State} {lo hi : Byte} {rest : List (Option Byte)} (h : s.src.answers = some lo :: some hi :: rest) :
    mustU16 s = .ok (u16le lo hi) (took [lo, hi] rest s) := by
  have hhi : mustByte (took [lo] (some hi :: rest) s) = .ok hi (took [hi] rest (took [lo] (some hi :: rest) s)) := mustByte_byte rfl
  rw [mustU16, mustByte_byte h, Res.bind_ok, hhi, Res.bind_ok, took_took, List.singleton_append]

theorem mustU16_eos_second {s : State} {lo : Byte} (h : s.src.answers = [some lo]) :
    mustU16 s = .raise (.ioError .unexpectedEof) (s.pos + 1) (took [lo] [] s) := by
  have hhi : mustByte (took [lo] [] s) = .raise (.ioError .unexpectedEof) (s.pos + 1) (took [lo] [] s) := mustByte_eos rfl
  rw [mustU16, mustByte_byte h, Res.bind_ok, hhi, Res.bind_raise]

theorem mustU16_eos_first {s : State} (h : s.src.answers = []) : mustU16 s = .raise (.ioError .unexpectedEof) s.pos s := by
  rw [mustU16, mustByte_eos h, Res.bind_raise]

/-- Settles O6: one case for each number of bytes that SRC still has for the read. -/
theorem mustU16ReadsLowByteFirst : Obligations.MustU16ReadsLowByteFirst :=
  ⟨fun _ lo hi _ h => ⟨u16le lo hi, mustU16_bytes h, u16le_toNat lo hi, encodeU16_u16le lo hi⟩,
    fun _ _ h => mustU16_eos_second h, fun _ h => mustU16_eos_first h⟩

end Sys2Proof.Machine
end

section
/-! PROOFS. The decoder (41_lzw_decoder.md): START (R171), CLEAR (R174), the codes that resolve (R175, R176, R178 to R181) and the end
of the data (R173, R183, R184). -/

namespace Sys2Proof.Machine

/-! ## START and CLEAR -/

theorem dictRead_clearDecoder (d : Decoder) (i : Nat) :
    dictRead (clearDecoder d).dict i = if d.clr + 2 ≤ i ∧ i < 4096 then [] else dictRead d.dict i :=
  dictRead_dictClearFrom _ _ _

/-- Settles O30: an entry is cleared exactly from CLR + 2 on, and the rest of the object is `clearDecoder`'s. -/
theorem clearResetsDictionaryAndWidth : Obligations.ClearResetsDictionaryAndWidth := by
  intro s
  refine ⟨{ s with dec := clearDecoder s.dec }, rfl, rfl, rfl, fun i => ?_⟩
  simpa only [Nat.lt_succ_iff] using dictRead_clearDecoder s.dec i

/-- Settles O22: what START puts in the old object's place depends on k alone. -/
theorem imageDecodeStartsFresh : Obligations.ImageDecodeStartsFresh := by
  intro s k hk h2 h8
  have hok : minCodeSizeOk k = true := (minCodeSizeOk_iff k).2 ⟨h2, h8⟩
  have hlzw : ∀ (d : Decoder) (o : List Byte), exec .lzw { s with dec := d, out := o } = .next (startDecode k s) := fun d o => by
    simp [exec, execLzw, hk, hok, startDecode]
  have hdecode : ∀ u : State, u.busy = false → u.src.attached = true → u.argKWritten = true → u.argK.toNat = k →
      exec .decode u = .next (startDecode k (startCommand .decode u)) := fun u hb hs ha hu =>
    execDecode_next_iff.2 ⟨hb, hs, ha, hu ▸ hok, by rw [hu]⟩
  exact ⟨startDecode k s, hlzw s.dec s.out, rfl, rfl, rfl, rfl, rfl, rfl, rfl, rfl, rfl, rfl, rfl, rfl,
    fun i hi => (dictRead_dictInit _ i).trans (if_pos hi), fun i hi => (dictRead_dictInit _ i).trans (if_neg (Nat.not_lt.2 hi)), hlzw,
    fun u hb hs ha hu => ⟨_, hdecode u hb hs ha hu, rfl, rfl⟩⟩

/-! ## A resolved code -/

theorem register_unchanged {d : Decoder} (seq : List Byte) (h : d.prev = none ∨ d.next = 4096) : register seq d = d :=
  h.elim (register_none seq) (register_full seq)

/-- A resolved code writes DICT, NEXT, W and PREV alone. -/
theorem setPrev_register_frame (c : Nat) (seq : List Byte) (d : Decoder) : setPrev c (register seq d) =
    { d with dict := (register seq d).dict, next := (register seq d).next, w := (register seq d).w, prev := some c } := by
  unfold register
  split
  · rfl
  · split
    · rw [widen_eq]; rfl
    · rfl

/-- Every entry of a registered dictionary. -/
theorem dictRead_register {d : Decoder} (seq : List Byte) {p : Nat} (hp : d.prev = some p) (hn : d.next < 4096) (j : Nat) :
    dictRead (register seq d).dict j = if j = d.next then dictRead d.dict p ++ seq.take 1 else dictRead d.dict j := by
  rw [register_some seq hp hn]
  exact dictRead_dictWrite _ _ _ _

theorem DecoderInv.dictRead_ne_nil {d : Decoder} (h : DecoderInv d) {c : Nat} (hc : c < d.next) (h1 : c ≠ d.clr)
    (h2 : c ≠ d.endc) : dictRead d.dict c ≠ [] :=
  (h.filled c).2 (by have := h.endIs; omega)

/-- Settles O31: the row resolves its entry, and REGISTER either leaves the object alone or writes entry NEXT. -/
theorem knownCodeOutputsAndRegisters : Obligations.KnownCodeOutputsAndRegisters := by
  intro s c hI hc h1 h2
  refine ⟨resolve c (dictRead s.dec.dict c) s, rfl, hI.dictRead_ne_nil hc h1 h2, rfl, rfl, setPrev_register_frame _ _ _,
    fun h => ?_, fun p hp hn => ?_⟩
  · have hreg : register (dictRead s.dec.dict c) s.dec = s.dec := register_unchanged _ h
    exact ⟨(congrArg Decoder.next hreg :), (congrArg Decoder.w hreg :), fun j => (congrArg (dictRead ·.dict j) hreg :)⟩
  · have hreg := register_some (dictRead s.dec.dict c) hp hn
    exact ⟨congrArg Decoder.next hreg, congrArg Decoder.w hreg, dictRead_register _ hp hn⟩

theorem take_one_append_take_one {α : Type} (l : List α) : (l ++ l.take 1).take 1 = l.take 1 := by
  cases l <;> rfl

/-- The sequence of NEXTCODE begins with the first byte of the previous one, so what is registered is that sequence itself. -/
theorem register_self {d : Decoder} {p : Nat} (hp : d.prev = some p) (hn : d.next < 4096) :
    register (dictRead d.dict p ++ (dictRead d.dict p).take 1) d = { d with
      dict := dictWrite d.dict d.next (dictRead d.dict p ++ (dictRead d.dict p).take 1)
      next := d.next + 1
      w := if d.next + 1 = 2 ^ d.w ∧ d.w < 12 then d.w + 1 else d.w } := by
  rw [register_some _ hp hn, take_one_append_take_one]

theorem exec_nextCode {s : State} (c : Nat) {p : Nat} (hp : s.dec.prev = some p) :
    exec (.nextCode c) s = .next (resolve c (dictRead s.dec.dict p ++ (dictRead s.dec.dict p).take 1) s) := by
  simp only [exec, execNextCode, hp]

/-- Settles O32: the row resolves the previous sequence and its first byte, which REGISTER writes under the code (`register_self`). -/
theorem nextCodeOutputsAndRegistersItself : Obligations.NextCodeOutputsAndRegistersItself := by
  rintro s _ p - hp rfl hn
  have hexec := exec_nextCode s.dec.next hp
  rw [resolve, register_self hp hn] at hexec
  exact ⟨_, hexec, rfl, (dictRead_dictWrite _ _ _ _).trans (if_pos rfl),
    fun j hj => (dictRead_dictWrite _ _ _ _).trans (if_neg hj), rfl, rfl, rfl⟩

/-! ## The end of the data -/

/-- Behind a drain of a SRC that does not fail: the sub-block sequence has been taken, and what stood behind it is left. -/
theorem drain_holds {s : State} {bs : List Byte} (h : sourceHolds s bs) :
    ∃ t used, drain s = .ok () t ∧ bs = used ++ behind s ∧ Fed s t used ((behind s).map some) := by
  have hs : s.src.answers = bs.map some ++ [] := by rw [List.append_nil]; exact h
  rcases drain_spec hs (.inl rfl) with ⟨t, n, hd, hm, -, -, hdone⟩ | ⟨p, u, -, hfail, -⟩
  · obtain ⟨used, left, hbs, hfed⟩ := hm.used
    have hleft : behind s = left := by
      rw [← hm.behind, behind, if_pos hdone, hfed.answers, List.append_nil, available_map]
    rw [hleft]
    exact ⟨t, used, hd, hbs, by rwa [List.append_nil] at hfed⟩
  · exact absurd rfl hfail.rest_ne

theorem finishCode_holds {s : State} {bs : List Byte} (h : sourceHolds s bs) :
    ∃ t used, finishCode s = .next (finishDecode t) ∧ bs = used ++ behind s ∧ Fed s t used ((behind s).map some) := by
  obtain ⟨t, used, hd, hbs, hfed⟩ := drain_holds h
  exact ⟨t, used, by rw [finishCode, hd]; rfl, hbs, hfed⟩

/-- Settles O29: both rows drain the sub-blocks, and `finishDecode` ends the DECODE or appends the image. -/
theorem endOfDataFinishesDecode : Obligations.EndOfDataFinishesDecode := by
  intro s bs i hi hsrc hcmd
  obtain ⟨u, used, hfin, hbs, hfed⟩ := finishCode_holds hsrc
  have hexec : exec i s = .next (finishDecode u) := by rcases hi with rfl | rfl <;> exact hfin
  rw [Fed] at hfed
  rcases hcmd with hc | hc
  · have hcu : u.cmd = .parse := by rw [hfed]; exact hc
    rw [finishDecode_parse hcu] at hexec
    refine ⟨_, used, hexec, hbs, ?_⟩
    rw [hfed]
    exact ⟨rfl, rfl, rfl, rfl, fun h => by simp [hc] at h, fun _ => ⟨rfl, rfl, rfl, rfl⟩, rfl⟩
  · have hcu : u.cmd = .decode := by rw [hfed]; exact hc
    rw [finishDecode_other (by simp [hcu])] at hexec
    refine ⟨_, used, hexec, hbs, ?_⟩
    rw [hfed]
    exact ⟨rfl, rfl, rfl, rfl, fun _ => ⟨rfl, rfl⟩, fun h => by simp [hc] at h, rfl⟩

end Sys2Proof.Machine
end

section
/-! PROOFS. The invariant of the whole machine (41_lzw_decoder.md R188, R192, 42_lzw_encoder.md R215, 43_container_parser.md R257,
44_container_serializer.md R285): an act of the host and each unit that can hold a step keep it. -/

namespace Sys2Proof.Machine

/-! ## The invariant in each kind of state -/

/-- The invariant of a CORE that is not BUSY speaks of the memories, the running unit and STATUS alone. -/
theorem Inv.congr_idle {s t : State} (h : Inv s) (hb : s.busy = false) (hw : Memory.wf t = true) (hs : t.status = s.status)
    (hu : t.lzwUnit = s.lzwUnit) : Inv t :=
  inv_idle hw (by rw [State.busy, hs]; exact hb) (hu.trans (h.unitOff hb)) (by rw [hs]; exact h.errZero)
    (by rw [hs]; exact h.errRange)

/-- The invariant of a SERIALIZE that has a part to write. -/
theorem inv_part {t : State} (hw : Memory.wf t = true) (hc : t.cmd = .serialize) (hd : t.doc ≠ none) (hu : t.lzwUnit = .off)
    (hp : partWaits t.sst = true) (he : t.status.err = 0) : Inv t :=
  ⟨hw, fun _ => (controlOk_serialize hc).2 ⟨hd, .inl ⟨hu, hp⟩⟩, fun _ => hu, by simp [hc], by simp [hu], by simp [hu], by simp [hu],
    fun _ => he, by omega⟩

/-- Where the control state fits an encode: a SERIALIZE with its Document stands at an image, or the command is ENCODE. -/
theorem controlOk_encoding {s : State} (hu : encoding s.lzwUnit = true) :
    controlOk s ↔ (s.cmd = .serialize ∧ s.doc ≠ none ∧ s.sst = .image) ∨ s.cmd = .encode := by
  cases hc : s.cmd with
  | none => simp [controlOk, hc]
  | parse => cases h : s.lzwUnit <;> simp [controlOk_parse hc, h, encoding] at hu ⊢
  | serialize => cases h : s.lzwUnit <;> simp [controlOk_serialize hc, h, encoding] at hu ⊢
  | decode => cases h : s.lzwUnit <;> simp [controlOk_decode hc, h, encoding] at hu ⊢
  | encode => simp [controlOk_encode hc, hu]

/-- The invariant of a running encode. -/
theorem inv_encode {t : State} (hw : Memory.wf t = true) (hb : t.busy = true) (hu : t.lzwUnit = .lzwe) (hc : controlOk t)
    (he : EncoderInv t.enc) (hz : t.status.err = 0) : Inv t :=
  ⟨hw, fun _ => hc, by simp [hb], fun _ hp => by simp [controlOk, hp, hu] at hc, by simp [hu], fun _ => he, by simp [hu], fun _ => hz,
    by omega⟩

/-- The invariant of an encode whose initial clear code is still to come. -/
theorem inv_startEncode {s : State} {k : Nat} {pix : List Byte} (hw : Memory.wf s = true) (hb : s.busy = true)
    (hc : (s.cmd = .serialize ∧ s.doc ≠ none ∧ s.sst = .image) ∨ s.cmd = .encode) (hk : 2 ≤ k ∧ k ≤ 8)
    (ha : alphabetOk k pix = true) (he : s.status.err = 0) : Inv (startEncode k pix s) :=
  ⟨memoryWf_startEncode k pix hw, fun _ => (controlOk_encoding (s := startEncode k pix s) rfl).2 hc,
    fun h => by simp [show s.busy = false from h] at hb,
    fun _ hp => by simp [show s.cmd = .parse from hp] at hc, nofun, nofun, fun _ => ⟨k, pix, hk, ha, rfl⟩, fun _ => he,
    (Nat.le_of_eq he).trans (Nat.zero_le 5)⟩

/-- The invariant of a decode that has just started. -/
theorem inv_startDecode {s : State} {k : Nat} (hw : Memory.wf s = true) (hb : s.busy = true)
    (hc : (s.cmd = .parse ∧ s.pst = .lzw) ∨ s.cmd = .decode) (hk : 2 ≤ k ∧ k ≤ 8) (he : s.status.err = 0) :
    Inv (startDecode k s) := by
  refine inv_decode (memoryWf_startDecode k hw) hb rfl ?_ ?_ ⟨decoderInv_start hk.1 hk.2, ⟨Nat.zero_le 7, Nat.one_pos⟩, nofun⟩ he
  · rcases hc with ⟨hc, hp⟩ | hc
    · exact (controlOk_parse (s := startDecode k s) hc).2 (.inr ⟨rfl, hp⟩)
    · exact (controlOk_decode (s := startDecode k s) hc).2 rfl
  · exact hc.imp And.right fun h => by simp [h]

/-! ## The host -/

/-- A command that is accepted starts in a state that meets the invariant, whatever the last one left. -/
theorem command_inv {c : StartCommand} {s t : State} (h : exec (decodeCommand c) s = .next t) (hw : Memory.wf s = true) :
    Inv t := by
  cases c with
  | parse =>
    obtain ⟨-, -, rfl⟩ := execParse_next_iff.1 h
    exact inv_parse hw rfl rfl rfl rfl ⟨nofun, nofun⟩ rfl
  | serialize =>
    obtain ⟨-, hd, -, rfl⟩ := execSerialize_next_iff.1 h
    exact inv_part hw rfl hd rfl rfl rfl
  | decode =>
    obtain ⟨-, -, -, hk, rfl⟩ := execDecode_next_iff.1 h
    exact inv_startDecode hw rfl (.inr rfl) ((minCodeSizeOk_iff _).1 hk) rfl
  | encode =>
    obtain ⟨-, -, -, -, hk, ha, rfl⟩ := execEncode_next_iff.1 h
    exact inv_startEncode hw rfl (.inr rfl) ((minCodeSizeOk_iff _).1 hk) ha rfl

theorem hostStep_inv {a : HostAction} {s t : State} (h : hostStep a s = .next t) (hI : Inv s) : Inv t := by
  have hw := hostStep_wf h hI.memory
  cases a with
  | writeCmd c => exact command_inv h hI.memory
  | _ => obtain ⟨hb, rfl⟩ := hostWrite_next_iff.1 h; exact hI.congr_idle hb hw rfl rfl

/-! ## The units of the CORE -/

theorem parseStep_inv {s t : State} {slot : Slot} {bs : List Byte} {rest : List (Option Byte)} (h : ParseStep s slot bs rest t)
    (hI : Inv s) (hb : s.busy = true) (hc : s.cmd = .parse) (hu : s.lzwUnit = .off) (hp : parseSlot s = some slot) : Inv t := by
  cases h with
  | failed => exact inv_takeFault _ _ _
  | ran i used tail t _ _ _ h =>
    exact parseRun_inv (u := took used (tail.map some ++ rest) s) h hI.memory hb hc hu (hI.err hb) fun e => parseSlot_sub (e ▸ hp)

theorem decodeStep_inv {s t : State} {bs : List Byte} {rest : List (Option Byte)} (h : DecodeStep s bs rest t) (hI : Inv s)
    (hb : s.busy = true) (hu : s.lzwUnit = .lzwd) : Inv t := by
  obtain ⟨hd, hbit, -⟩ := hI.decoder hu
  cases h with
  | failed => exact inv_takeFault _ _ _
  | finished u v c n _ _ hm =>
    obtain ⟨used, left, -, hfed⟩ := hm.used
    have hst : v.status = s.status := by rw [hfed]; rfl
    exact inv_finishDecode (wf_fed hfed hI.memory) (by rw [State.busy, hst]; exact hb) (by rw [hst]; exact hI.err hb)
  | ran u t c n _ hm hc hbit' _ hr =>
    obtain ⟨used, left, -, hfed⟩ := hm.used
    exact codeRun_inv hI hb hu hfed (hm.sbrem hd.sbremRange) hc (hbit' hbit) hr

theorem partWaits_next {p q : SState} (h : partNext p = some q) : partWaits q = true := by
  cases p <;> cases h <;> rfl

theorem partStep_inv {s t : State} (h : PartStep s (.next t)) (hI : Inv s) (hb : s.busy = true) (hc : s.cmd = .serialize)
    (hu : s.lzwUnit = .off) : Inv t := by
  have hd : s.doc ≠ none := ((controlOk_serialize hc).1 (hI.control hb)).1
  cases h with
  | failed => exact inv_takeFault _ _ _
  | handed ws next hn => exact inv_part hI.memory hc hd hu (partWaits_next hn) (hI.err hb)
  | image ws d m hs _ _ _ _ hk ha =>
    exact inv_startEncode (s := wrote ws { s with pixWritten := false }) hI.memory hb (.inl ⟨hc, hd, hs⟩) hk ha (hI.err hb)
  | done => exact inv_finishCommand (hI.err hb)

/-- The end of an encode: the next image of a SERIALIZE is due, or the command has ended. -/
theorem inv_finishEncode {v : State} (hw : Memory.wf (finishEncode v) = true)
    (hc : (v.cmd = .serialize ∧ v.doc ≠ none ∧ v.sst = .image) ∨ v.cmd = .encode) (he : v.status.err = 0) :
    Inv (finishEncode v) := by
  rcases hc with ⟨hc, hd, hs⟩ | hc
  · rw [finishEncode_serialize hc] at hw ⊢
    exact inv_part hw hc hd rfl (by simp [hs, partWaits]) he
  · rw [finishEncode_other (by simp [hc])]
    exact inv_finishCommand he

theorem encodeStep_inv {s t : State} (h : EncodeStep s t) (hI : Inv s) (hb : s.busy = true) (hu : encoding s.lzwUnit = true) :
    Inv t := by
  have hc := (controlOk_encoding hu).1 (hI.control hb)
  have he := hI.err hb
  have hw := encodeStep_wf h hI.memory
  cases h with
  | failed => exact inv_takeFault _ _ _
  | clear0 ws e hs _ _ _ _ hi =>
    obtain ⟨k, pix, hk, ha, hstart⟩ := hI.encoderStart hs
    exact inv_encode hw hb rfl ((controlOk_encoding (s := wrote ws { s with enc := e, lzwUnit := .lzwe }) rfl).2 hc)
      (hi (hstart ▸ encoderInv_start hk.1 hk.2 ha)) he
  | ran ws e p hs _ _ _ _ hi =>
    exact inv_encode hw hb hs ((controlOk_encoding (s := wrote ws { s with enc := e }) hu).2 hc) (hi (hI.encoder hs)) he
  | finished ws e => exact inv_finishEncode (v := wrote ws { s with enc := e }) hw hc he

/-! ## The whole machine -/

theorem runningStep_inv {s t : State} {bs : List Byte} {rest : List (Option Byte)} (h : CoreStep s bs rest (.next t)) (hI : Inv s)
    (hb : s.busy = true) : Inv t := by
  cases h with
  | parse slot _ hu hc hp h => exact parseStep_inv h hI hb hc hu hp
  | lzwStart hu hc hp hk => exact inv_startDecode hI.memory hb (.inl ⟨hc, hp⟩) hk (hI.err hb)
  | decode _ hu h => exact decodeStep_inv h hI hb hu
  | part _ hu hc _ h => exact partStep_inv h hI hb hc hu
  | encode _ hu h => exact encodeStep_inv h hI hb hu

/-- Settles O48: an act of the host that is accepted finds the CORE idle, and a step of the running command is one of the steps its
unit can take. -/
theorem stepKeepsInvariant : Obligations.StepKeepsInvariant := by
  intro s t hI h
  obtain ⟨u, es, rfl, ⟨a, h⟩ | ⟨-, rfl⟩ | ⟨rest, hb, h⟩⟩ := step_cases h
  · exact hostStep_inv h (inv_host hI es)
  · exact inv_host hI es
  · exact runningStep_inv h (inv_host hI es) hb

end Sys2Proof.Machine
end

section
/-! PROOFS. The encoder's rows (42_lzw_encoder.md): which row a step selects (R202, R204, R205, R207, R208, R214), and what each row
emits and does to the table (R202 to R210). -/

namespace Sys2Proof.Machine

/-! ## The selection of a row -/

theorem selectStep_first {e : Encoder} (p : Byte) (hc : e.cur = none) : selectStep e p = .eMatch p := by
  simp only [selectStep, hc]

theorem selectStep_match {e : Encoder} {c : Nat} {p : Byte} (hc : e.cur = some c) (ht : tabRead e.tab c p ≠ none) :
    selectStep e p = .eMatch p := by
  obtain ⟨v, hv⟩ := Option.ne_none_iff_exists'.1 ht
  simp only [selectStep, hc, hv]

theorem selectStep_miss {e : Encoder} {c : Nat} {p : Byte} (hc : e.cur = some c) (ht : tabRead e.tab c p = none)
    (hn : e.next < 4096) : selectStep e p = .eMiss p := by
  simp only [selectStep, hc, ht]
  exact if_pos hn

theorem selectStep_overflow {e : Encoder} {c : Nat} {p : Byte} (hc : e.cur = some c) (ht : tabRead e.tab c p = none)
    (hn : 4096 ≤ e.next) : selectStep e p = .eOverflow p := by
  simp only [selectStep, hc, ht]
  exact if_neg (Nat.not_lt.2 hn)

theorem coreStep_lzweStart {s : State} (hb : s.busy = true) (hu : s.lzwUnit = .lzweStart) : coreStep s = exec .eClear0 s := by
  rw [coreStep_some hb (fetch_lzweStart hu), Res.toOutcome_ok]

theorem coreStep_index {s : State} {p : Byte} {ps : List Byte} (hb : s.busy = true) (hu : s.lzwUnit = .lzwe)
    (hr : s.enc.rest = p :: ps) :
    coreStep s = exec (selectStep s.enc p) { s with enc := { s.enc with rest := ps } } := by
  rw [coreStep_some hb (fetch_lzwe hu), fetchStep_cons hr, Res.toOutcome_ok]

theorem coreStep_noIndex {s : State} (hb : s.busy = true) (hu : s.lzwUnit = .lzwe) (hr : s.enc.rest = []) :
    coreStep s = exec .eFinish s := by
  rw [coreStep_some hb (fetch_lzwe hu), fetchStep_nil hr, Res.toOutcome_ok]

/-- Settles O12: the step runs what the fetch selects, and the four conditions on an index are the branches of `selectStep`. -/
theorem stepRunsEncoderRow : Obligations.StepRunsEncoderRow := by
  intro s t hq hb
  rw [step_quiet hq]
  refine ⟨fun hu => by rw [coreStep_lzweStart hb hu], fun hu hr => by rw [coreStep_noIndex hb hu hr], fun p ps hu hr => ?_⟩
  rw [coreStep_index hb hu hr]
  exact ⟨fun hc => by rw [selectStep_first p hc], fun c hc => ⟨fun ht => by rw [selectStep_match hc ht],
    fun ht hn => by rw [selectStep_miss hc ht hn], fun ht hn => by rw [selectStep_overflow hc ht hn]⟩⟩

/-! ## What an operation emits -/

/-- `Emitted` speaks of SNK's bytes, the bit buffer and EBUF alone. -/
theorem Emitted.congr {base : List Byte} {bits : List Bool} {s t : State} (h : Emitted base bits s)
    (hsnk : t.snk.bytes = s.snk.bytes) (hbuf : t.enc.buf = s.enc.buf) (hacc : t.enc.acc = s.enc.acc) (hnb : t.enc.nb = s.enc.nb) :
    Emitted base bits t := by
  rw [Emitted, hsnk, hbuf, hacc, hnb]
  exact h

/-- The bit buffer and EBUF of an encode are in range between two codes, so the invariant asks only for the table. -/
theorem EncoderInv.of_emitted {e : Encoder} (h : EncoderInv e) {base : List Byte} {bits : List Bool} {t : State}
    (hs : SameTable e t.enc) (hE : Emitted base bits t) : EncoderInv t.enc := by
  obtain ⟨packed, -, hp, hnb⟩ := (emitted_iff base bits t).1 hE
  rw [hs]
  exact h.withBuffer ⟨hnb, hp.acc⟩ (hp.buf ▸ waiting_le packed)

@[simp] theorem eWiden_acc (e : Encoder) : (eWiden e).acc = e.acc := by rw [eWiden_eq]
@[simp] theorem eWiden_nb (e : Encoder) : (eWiden e).nb = e.nb := by rw [eWiden_eq]
@[simp] theorem eWiden_buf (e : Encoder) : (eWiden e).buf = e.buf := by rw [eWiden_eq]

theorem SameTable.eWiden {e e' : Encoder} (h : SameTable e e') : SameTable (eWiden e) (eWiden e') := by
  have hw : (Machine.eWiden e').w = (Machine.eWiden e).w := by rw [eWiden_w, eWiden_w, h]
  rw [SameTable, eWiden_eq e', eWiden_eq e, hw, h]

section Rows

variable {base : List Byte} {bits : List Bool} {s : State}

/-- PutCode puts the EW bits of a code behind the bits emitted (R209, 40_cursor.md R162). -/
theorem putCode_emits (h : Emitted base bits s) {c : Nat} (hc : c < 2 ^ s.enc.w) :
    ∃ ws e, EWrites (putCode c) s.enc ws e ∧ SameTable s.enc e ∧
      Emitted base (bits ++ toBits s.enc.w c) (wrote ws { s with enc := e }) := by
  obtain ⟨packed, hsnk, hp, -⟩ := (emitted_iff base bits s).1 h
  obtain ⟨ws, packed', acc, nb, hw, hp', hnb, hch⟩ := ewrites_putCode hp hc
  refine ⟨ws, _, hw, rfl, (emitted_iff _ _ _).2 ⟨packed', ?_, hp', hnb⟩⟩
  rw [wrote_snk, hch, ← List.append_assoc, ← hsnk]

/-- PutCode and EWIDEN, the common start of E.MISS, E.OVERFLOW and E.FINISH. -/
theorem putMatch_emits (h : Emitted base bits s) {c : Nat} (hc : c < 2 ^ s.enc.w) :
    ∃ ws e, EWrites (putMatch c) s.enc ws (eWiden e) ∧ SameTable s.enc e ∧ (EncoderInv s.enc → EncoderInv e) ∧
      Emitted base (bits ++ toBits s.enc.w c) (wrote ws { s with enc := eWiden e }) := by
  obtain ⟨ws, e, hw, hs, hE⟩ := putCode_emits h hc
  refine ⟨ws, e, ?_, hs, fun hI => hI.of_emitted hs hE, hE.congr rfl (eWiden_buf e) (eWiden_acc e) (eWiden_nb e)⟩
  have hb := hw.bind (ewrites_update eWiden e)
  rw [List.append_nil] at hb
  exact hb

/-! ## E.CLEAR0 -/

theorem clear0_emits (h : Emitted base bits s) (hc : s.enc.clr < 2 ^ s.enc.w) :
    ∃ ws e, SameTable s.enc e ∧
      (room s ws.length = true → exec .eClear0 s = .next (wrote ws { s with enc := e, lzwUnit := .lzwe })) ∧
      Emitted base (bits ++ toBits s.enc.w s.enc.clr) (wrote ws { s with enc := e, lzwUnit := .lzwe }) := by
  obtain ⟨ws, e, hw, hs, hE⟩ := putCode_emits h hc
  exact ⟨ws, e, hs, fun hr => hw.toOutcome rfl hr _, hE.congr rfl rfl rfl rfl⟩

/-! ## E.MATCH -/

theorem exec_eMatch_first (p : Byte) (hc : s.enc.cur = none) :
    exec (.eMatch p) s = .next { s with enc := { s.enc with cur := some p.toNat } } := by
  simp only [exec, execEMatch, hc]

theorem exec_eMatch_known {c v : Nat} {p : Byte} (hc : s.enc.cur = some c) (ht : tabRead s.enc.tab c p = some v) :
    exec (.eMatch p) s = .next { s with enc := { s.enc with cur := some v } } := by
  simp only [exec, execEMatch, hc, ht]

/-! ## E.MISS -/

theorem miss_emits (h : Emitted base bits s) {c : Nat} (p : Byte) (hcur : s.enc.cur = some c) (hc : c < 2 ^ s.enc.w) :
    ∃ ws e, SameTable s.enc e ∧ (EncoderInv s.enc → EncoderInv e) ∧
      (room s ws.length = true → exec (.eMiss p) s = .next (wrote ws { s with enc := registerMiss c p (eWiden e) })) ∧
      Emitted base (bits ++ toBits s.enc.w c) (wrote ws { s with enc := registerMiss c p (eWiden e) }) := by
  obtain ⟨ws, e, hw, hs, hI, hE⟩ := putMatch_emits h hc
  refine ⟨ws, e, hs, hI, fun hr => ?_, hE.congr rfl rfl rfl rfl⟩
  simp only [exec, execEMiss, hcur]
  exact hw.toOutcome rfl hr _

/-- The object behind E.MISS, field by field (R205, R206). -/
theorem registerMiss_eq {e e' : Encoder} (hs : SameTable e e') (c : Nat) (p : Byte) :
    registerMiss c p (eWiden e') = { e with
      acc := e'.acc, nb := e'.nb, buf := e'.buf, tab := tabWrite e.tab c p e.next, next := e.next + 1
      w := if e.next = 2 ^ e.w ∧ e.w < 12 then e.w + 1 else e.w
      cur := some p.toNat } := by
  rw [eWiden_eq, eWiden_w, hs]
  rfl

/-! ## E.OVERFLOW -/

theorem overflow_emits (h : Emitted base bits s) {c : Nat} (p : Byte) (hcur : s.enc.cur = some c) (hc : c < 2 ^ s.enc.w)
    (hclr : s.enc.clr < 2 ^ (eWiden s.enc).w) :
    ∃ ws e, SameTable (eWiden s.enc) e ∧ (EncoderInv s.enc → EncoderInv e) ∧
      (room s ws.length = true → exec (.eOverflow p) s = .next (wrote ws { s with enc := resetTable p e })) ∧
      Emitted base (bits ++ toBits s.enc.w c ++ toBits (eWiden s.enc).w s.enc.clr)
        (wrote ws { s with enc := resetTable p e }) := by
  obtain ⟨w1, e1, hw1, hs1, hI1, hE1⟩ := putMatch_emits h hc
  have hs := hs1.eWiden
  have hw : (eWiden e1).w = (eWiden s.enc).w := by rw [hs]
  have hcl : (eWiden e1).clr = s.enc.clr := by rw [eWiden_clr, hs1.clr]
  obtain ⟨w2, e2, hw2, hs2, hE2⟩ := putCode_emits hE1 (c := s.enc.clr) (by rw [wrote_enc, hw]; exact hclr)
  rw [wrote_enc] at hw2 hs2 hE2
  have hboth := hw1.bind (r2 := fun t => putCode t.enc.clr t) (hw2.congr fun t ht => by rw [ht, hcl])
  rw [hw] at hE2
  refine ⟨w1 ++ w2, e2, hs.trans hs2, fun hI => (hI1 hI).widened.of_emitted hs2 hE2, fun hr => ?_,
    hE2.congr (List.append_assoc _ _ _).symm rfl rfl rfl⟩
  simp only [exec, execEOverflow, hcur]
  exact hboth.toOutcome rfl hr _

/-- The object behind E.OVERFLOW, field by field (R207). -/
theorem resetTable_eq {e e' : Encoder} (hs : SameTable (eWiden e) e') (p : Byte) : resetTable p e' = { e with
    acc := e'.acc, nb := e'.nb, buf := e'.buf, tab := [], next := e.clr + 2, w := e.k + 1, cur := some p.toNat } := by
  rw [hs, eWiden_eq]
  rfl

/-! ## E.FINISH -/

/-- The bits of the pending match, none where there is none. -/
def pendingBits (e : Encoder) : List Bool := e.cur.elim [] (toBits e.w)

/-- The object whose width the end code has: widened where a match was pending (R206, R208). -/
def finalTable (e : Encoder) : Encoder := if e.cur = none then e else eWiden e

theorem EncoderInv.finalTable {e : Encoder} (h : EncoderInv e) : EncoderInv (finalTable e) := by
  unfold Machine.finalTable
  split
  · exact h
  · exact h.widened

theorem finalTable_endc (e : Encoder) : (finalTable e).endc = e.endc := by
  unfold finalTable
  split
  · rfl
  · rw [eWiden_eq]

theorem finalTable_w (e : Encoder) :
    (finalTable e).w = if e.cur ≠ none ∧ e.next = 2 ^ e.w ∧ e.w < 12 then e.w + 1 else e.w := by
  unfold finalTable
  split
  · rename_i h; simp [h]
  · rename_i h; simp [eWiden_w, h]

theorem putPending_emits (h : Emitted base bits s) (hI : EncoderInv s.enc) :
    ∃ ws e, EWrites putPending s.enc ws e ∧ SameTable (finalTable s.enc) e ∧
      Emitted base (bits ++ pendingBits s.enc) (wrote ws { s with enc := e }) := by
  cases hcur : s.enc.cur with
  | none =>
    refine ⟨[], s.enc, (ewrites_update id s.enc).congr fun t ht => ?_, ?_, ?_⟩
    · have hcur' : t.enc.cur = none := by rw [ht, hcur]
      simp only [putPending, hcur']
      rfl
    · rw [finalTable, if_pos hcur]; rfl
    · rw [pendingBits, hcur, wrote_nil]; simpa using h
  | some c =>
    obtain ⟨ws, e, hw, hs, -, hE⟩ := putMatch_emits h (hI.cur_lt hcur)
    refine ⟨ws, eWiden e, hw.congr fun t ht => ?_, ?_, ?_⟩
    · simp only [putPending, ht, hcur]
    · rw [finalTable, if_neg (by simp [hcur])]; exact hs.eWiden
    · rw [pendingBits, hcur]; exact hE

/-- FlushBits and the last chunk: the last byte is filled with zero bits, and SNK holds the framing of the whole output (R209,
R210). -/
theorem flush_frames (h : Emitted base bits s) :
    ∃ ws packed z e, EWrites (fun t => (flushBits t).bind fun _ u => flushChunks u) s.enc ws e ∧
      s.snk.bytes ++ ws = base ++ frame packed ∧ z < 8 ∧ bitsOfBytes packed = bits ++ List.replicate z false := by
  obtain ⟨packed, hsnk, hp, hnb⟩ := (emitted_iff base bits s).1 h
  obtain ⟨w1, packed', acc, nb, hw1, ⟨z, hz, hbits⟩, hc1⟩ := ewrites_flushBits hp hnb
  obtain ⟨w2, hw2, hc2⟩ :=
    ewrites_flushChunks (e := { s.enc with buf := waiting packed', acc := acc, nb := nb }) (packed := packed') rfl
  exact ⟨w1 ++ w2, packed', z, _, hw1.bind hw2, by rw [hsnk, ← hc2, hc1]; simp only [List.append_assoc], hz, hbits⟩

theorem finish_emits (h : Emitted base bits s) (hI : EncoderInv s.enc) :
    ∃ ws packed z e, (room s ws.length = true → exec .eFinish s = .next (finishEncode (wrote ws { s with enc := e }))) ∧
      s.snk.bytes ++ ws = base ++ frame packed ∧ z < 8 ∧
      bitsOfBytes packed = bits ++ pendingBits s.enc ++ toBits (finalTable s.enc).w s.enc.endc ++ List.replicate z false := by
  obtain ⟨w1, e1, hw1, hs1, hE1⟩ := putPending_emits h hI
  have hw : e1.w = (finalTable s.enc).w := by rw [hs1]
  have he : e1.endc = s.enc.endc := by rw [hs1]; exact finalTable_endc _
  have hlt : s.enc.endc < 2 ^ (finalTable s.enc).w := finalTable_endc s.enc ▸ hI.finalTable.control_lt.2
  obtain ⟨w2, e2, hw2, -, hE2⟩ := putCode_emits hE1 (c := s.enc.endc) (by rw [wrote_enc, hw]; exact hlt)
  rw [wrote_enc] at hw2 hE2
  obtain ⟨w3, packed, z, e3, hw3, hsnk, hz, hbits⟩ := flush_frames hE2
  rw [wrote_enc] at hw3
  have hall := hw1.bind (r2 := fun t => (putCode t.enc.endc t).bind fun _ u => (flushBits u).bind fun _ v => flushChunks v)
    ((hw2.bind hw3).congr fun t ht => by rw [ht, he])
  refine ⟨w1 ++ (w2 ++ w3), packed, z, e3, fun hr => hall.toOutcome rfl hr _, ?_, hz, ?_⟩
  · rw [← hsnk]; simp
  · rw [hbits]; exact congrArg (fun w => _ ++ toBits w _ ++ _) hw

end Rows

/-! ## What each row does -/

/-- Settles O38: the row is PutCode of the clear code (`putCode_emits`), which leaves the table alone. -/
theorem initialClearEmitted : Obligations.InitialClearEmitted := by
  intro s base bits hE hc
  obtain ⟨ws, e, hs, hexec, hE'⟩ := clear0_emits hE hc
  exact ⟨ws, _, hexec, hE', congrArg (fun e' => ({ wrote ws s with enc := e', lzwUnit := .lzwe } : State)) hs⟩

/-- Settles O39: both forms of the row change ECUR alone. -/
theorem matchExtendsPendingString : Obligations.MatchExtendsPendingString :=
  fun _ p => ⟨exec_eMatch_first p, fun _ _ => exec_eMatch_known⟩

/-- Settles O40: the row is PutCode and EWIDEN (`putMatch_emits`), then one write of ETAB. -/
theorem missEmitsAndRegisters : Obligations.MissEmitsAndRegisters := by
  intro s p c base bits hE hcur hc
  obtain ⟨ws, e, hs, -, hexec, hE'⟩ := miss_emits hE p hcur hc
  rw [registerMiss_eq hs] at hexec hE'
  exact ⟨ws, _, hexec, hE', rfl, fun c' p' => tabRead_tabWrite _ _ _ _ _ _⟩

/-- Settles O41: at width 12 EWIDEN does nothing, so both codes have 12 bits; then the table is reset. -/
theorem overflowEmitsClearAndResets : Obligations.OverflowEmitsClearAndResets := by
  intro s p c base bits hE hcur hc hclr hnext hw
  have hwide : (eWiden s.enc).w = 12 := by rw [eWiden_w, if_neg (by omega), hw]
  obtain ⟨ws, e, hs, -, hexec, hE'⟩ := overflow_emits hE p hcur (by rw [hw]; exact hc) (by rw [hwide]; exact hclr)
  rw [resetTable_eq hs] at hexec hE'
  rw [hw, hwide] at hE'
  exact ⟨ws, _, hexec, hE', rfl, tabRead_nil⟩

/-- Settles O42: the row is the pending match, the end code and the two flushes (`finish_emits`), and `finishEncode` ends the ENCODE
or counts the image. -/
theorem finishEmitsEndCodeAndFrames : Obligations.FinishEmitsEndCodeAndFrames := by
  intro s base bits hE hI hcmd
  obtain ⟨ws, packed, z, e, hexec, hsnk, hz, hbits⟩ := finish_emits hE hI
  have hpend : pendingBits s.enc = (match s.enc.cur with | none => [] | some c => toBits s.enc.w c) := by
    unfold pendingBits
    cases s.enc.cur <;> rfl
  rw [hpend, finalTable_w] at hbits
  refine ⟨ws, packed, z, _, _, hexec, by rw [finishEncode_snk]; exact hsnk, hz, rfl, hbits, ?_⟩
  rcases hcmd with hc | hc
  · rw [finishEncode_other (s := wrote ws { s with enc := e }) (by simp [hc])]
    exact ⟨fun _ => rfl, fun h => by simp [hc] at h, rfl⟩
  · rw [finishEncode_serialize (s := wrote ws { s with enc := e }) hc]
    exact ⟨fun h => by simp [hc] at h, fun _ => ⟨rfl, rfl, rfl, rfl⟩, rfl⟩

end Sys2Proof.Machine
end

section
/-! PROOFS. The round trip (42_lzw_encoder.md R213). An encoder's object and a decoder's object `Agree` where every code stands for
the same string in both; the one entry the decoder lacks is the one its next code makes it register. `Decodes e bits pix` says that
a decoder which agrees with `e` and finds `bits` in front of it puts out the pending string and then `pix`, up to an end code. The
encode is followed from its first step to its last: the bits of each row are put in front of those that the rest of PIX gives. -/

namespace Sys2Proof.Machine

/-! ## Runs of a CORE that the host leaves alone -/

theorem step_running {s : State} (hh : s.host = []) (hp : s.params = Params.spec) : step s = coreStep s := by
  simp only [step_spec hp, uncappedStep, hostDue, hh]

/-- The write of CMD, where the CORE is not BUSY. -/
theorem step_command {s : State} {c : StartCommand} (hb : s.busy = false) (hh : s.host = [⟨none, .writeCmd c⟩])
    (hp : s.params = Params.spec) : step s = exec (decodeCommand c) { s with host := [] } := by
  simp [step_spec hp, uncappedStep, hostDue, hh, hb, hostStep]

theorem run_succ {M : Host.Core} {s t : M.State} (h : M.step s = .next t) (n : Nat) : M.run (n + 1) s = M.run n t := by
  rw [Host.Core.run, h]

theorem run_snoc {M : Host.Core} {n : Nat} {s t u : M.State} (hn : M.run n s = .next t) (h : M.step t = .next u) :
    M.run (n + 1) s = .next u := by
  induction n generalizing s with
  | zero =>
    cases hn
    exact run_succ h 0
  | succ n ih =>
    cases hs : M.step s with
    | next v => rw [run_succ hs] at hn ⊢; exact ih hn
    | fault f => simp [Host.Core.run, hs] at hn
    | refused r => simp [Host.Core.run, hs] at hn

/-! ## A running DECODE -/

/-- A DECODE that runs with this spec's parameters, the host being quiet: `bits` are in front of it, `tail` stands on SRC behind its
sub-block sequence, and `total` bytes are taken or on SRC. -/
structure Decoding (s : State) (total : Nat) (tail : List Byte) (bits : List Bool) : Prop where
  busy : s.busy = true
  cmd : s.cmd = .decode
  unit : s.lzwUnit = .lzwd
  host : s.host = []
  params : s.params = Params.spec
  source : ∃ bs, sourceHolds s bs ∧ s.pos + bs.length = total
  behind : behind s = tail
  bits : bitsLeft s = bits
  buffer : bitBufferOk s.dec
  inv : DecoderInv s.dec

/-- Nothing of the object but its bit buffer and its sub-block state differs. -/
def SameDict (d d' : Decoder) : Prop :=
  d' = { d with acc := d'.acc, nb := d'.nb, sbrem := d'.sbrem, sbterm := d'.sbterm, sbeos := d'.sbeos }

theorem SameDict.context {d d' : Decoder} (h : SameDict d d') : codeContext d' = codeContext d := by rw [h]; rfl

section RoundTrip

variable {s : State} {total : Nat} {tail : List Byte} {bits : List Bool}

/-- A step of the decode takes the code in front and runs its class. -/
theorem Decoding.fetch {c : Nat} (h : Decoding s total tail (toBits s.dec.w c ++ bits)) (hc : c < 2 ^ s.dec.w) :
    ∃ u, step s = exec (classify (codeContext s.dec) c) u ∧ Decoding u total tail bits ∧ SameDict s.dec u.dec ∧
      u.out = s.out := by
  obtain ⟨bs, hsrc, htotal⟩ := h.source
  obtain ⟨u, n, hfetch, hm, hbits, hok⟩ := fetchCode_holds (by rw [List.append_nil]; exact hsrc) h.buffer
  have hdec := decodeCode_toBits (x := codeContext s.dec) hc bits
  rw [h.bits] at hfetch hbits hok
  rw [show s.dec.w = (codeContext s.dec).w from rfl, hdec] at hfetch hbits
  obtain ⟨used, left, hbs, hfed⟩ := hm.used
  rw [List.append_nil] at hfed
  have hdict : SameDict s.dec u.dec := congrArg State.dec hfed
  have hpos := hfed.pos
  refine ⟨u, ?_, ?_, hdict, by rw [hfed]; rfl⟩
  · rw [step_running h.host h.params, coreStep_some h.busy (fetch_lzwd h.unit), hfetch, Res.toOutcome_ok]
  · have htot : u.pos + left.length = total := by rw [hpos, ← htotal, hbs, List.length_append, Nat.add_assoc]
    exact ⟨by rw [hfed]; exact h.busy, by rw [hfed]; exact h.cmd, by rw [hfed]; exact h.unit, by rw [hfed]; exact h.host,
      by rw [hfed]; exact h.params, ⟨left, hfed.answers, htot⟩, hm.behind.trans h.behind, hbits, hok (by simp),
      h.inv.fed hdict (hm.sbrem h.inv.sbremRange)⟩

/-- OUT, DICT, NEXT, W and PREV do not matter to what is left to read. -/
theorem Decoding.update (h : Decoding s total tail bits) {out : List Byte} {dict : Dict} {next w : Nat} {prev : Option Nat}
    (hd : DecoderInv { s.dec with dict := dict, next := next, w := w, prev := prev }) :
    Decoding { s with out := out, dec := { s.dec with dict := dict, next := next, w := w, prev := prev } } total tail bits :=
  ⟨h.busy, h.cmd, h.unit, h.host, h.params, h.source, h.behind, h.bits, h.buffer, hd⟩

theorem Decoding.resolve (h : Decoding s total tail bits) {c : Nat} {seq : List Byte}
    (hd : DecoderInv (setPrev c (register seq s.dec))) : Decoding (resolve c seq s) total tail bits := by
  rw [Machine.resolve, setPrev_register_frame]
  exact h.update (setPrev_register_frame c seq s.dec ▸ hd)

theorem DecoderInv.control_lt {d : Decoder} (h : DecoderInv d) : d.clr < 2 ^ d.w ∧ d.endc < 2 ^ d.w := by
  have := h.endIs
  have := h.nextRange
  have := h.nextFits
  omega

theorem DecoderInv.classes {d : Decoder} (h : DecoderInv d) :
    classify (codeContext d) d.endc = .endCode ∧ classify (codeContext d) d.clr = .clear ∧
    (∀ c, c < d.next → c ≠ d.clr → c ≠ d.endc → classify (codeContext d) c = .known c) ∧
    (∀ q, d.prev = some q → classify (codeContext d) d.next = .nextCode d.next) := by
  have hnext : d.endc < d.next := by have := h.endIs; have := h.nextRange; omega
  have hclass := fun c => codeClassConditions (codeContext d) c h.endIs hnext
  refine ⟨(hclass _).1.2 rfl, ?_, fun c h1 h2 h3 => ?_, fun q hq => ?_⟩
  · obtain ⟨-, hclear, -⟩ := hclass d.clr
    exact hclear.2 rfl
  · obtain ⟨-, -, hknown, -⟩ := hclass c
    exact hknown.2 ⟨h1, h2, h3⟩
  · obtain ⟨-, -, -, hnew, -⟩ := hclass d.next
    exact hnew.2 ⟨rfl, by simp [codeContext, hq]⟩

/-- A clear code in front: the step resets the dictionary and puts nothing out. -/
theorem Decoding.clear (h : Decoding s total tail (toBits s.dec.w s.dec.clr ++ bits)) :
    ∃ t, step s = .next t ∧ Decoding t total tail bits ∧ t.dec.k = s.dec.k ∧ t.dec.w = s.dec.k + 1 ∧ t.dec.prev = none ∧
      t.out = s.out := by
  obtain ⟨u, hstep, hu, hsame, hout⟩ := h.fetch h.inv.control_lt.1
  obtain ⟨-, hclear, -⟩ := h.inv.classes
  have hk : u.dec.k = s.dec.k := by rw [hsame]
  rw [hclear] at hstep
  exact ⟨_, hstep, hu.update (decoderInv_clear hu.inv), hk, congrArg (· + 1) hk, rfl, hout⟩

/-- An end code in front: the step ends the DECODE behind the sub-block sequence. -/
theorem Decoding.finish (h : Decoding s total tail (toBits s.dec.w s.dec.endc ++ bits)) :
    (decodeCode (codeContext s.dec) (bitsLeft s)).1 = .endCode ∧
    ∃ t, step s = .next t ∧ t.host = [] ∧ t.status.state = .doneOk ∧ t.out = s.out ∧ t.pos + tail.length = total ∧
      available t.src.answers = tail := by
  have hlt := h.inv.control_lt.2
  obtain ⟨hend, -⟩ := h.inv.classes
  refine ⟨?_, ?_⟩
  · rw [h.bits]
    exact (congrArg Prod.fst (decodeCode_toBits (x := codeContext s.dec) hlt bits)).trans hend
  · obtain ⟨u, hstep, hu, -, hout⟩ := h.fetch hlt
    obtain ⟨bs, hsrc, htotal⟩ := hu.source
    obtain ⟨t, used, hexec, hbs, hsrc', hpos, hout', -, hstatus, -, hframe⟩ :=
      endOfDataFinishesDecode u bs .endCode (.inl rfl) hsrc (.inr hu.cmd)
    rw [hend, hexec] at hstep
    refine ⟨t, hstep, by rw [hframe]; exact hu.host, by rw [(hstatus hu.cmd).1], hout'.trans hout, ?_, ?_⟩
    · rw [hpos, ← htotal, hbs, List.length_append, hu.behind, Nat.add_assoc]
    · rw [hsrc', available_map, hu.behind]

/-! ## Two objects that agree -/

/-- The encoder's and the decoder's object between two codes, `word` being the string that each code stands for. Behind a data code
ENEXT is one ahead of NEXT: entry NEXT is the previous string and the first byte of the pending one. -/
structure Agree (e : Encoder) (d : Decoder) (word : Nat → List Byte) : Prop where
  k : d.k = e.k
  w : d.w = e.w
  literal : ∀ p : Byte, p.toNat < e.clr → word p.toNat = [p]
  known : ∀ c, c < d.next → c ≠ e.clr → c ≠ e.endc → dictRead d.dict c = word c
  table : ∀ c p v, tabRead e.tab c p = some v → c < e.next ∧ word v = word c ++ [p]
  last : (d.prev = none ∧ e.next = d.next) ∨
    ∃ q c b, d.prev = some q ∧ e.cur = some c ∧ e.next = d.next + 1 ∧ word d.next = word q ++ [b] ∧ (word c).head? = some b

/-- Nothing of the object but its bit buffer, EBUF and the indices to come differs. -/
def SameCodes (e e' : Encoder) : Prop := e' = { e with acc := e'.acc, nb := e'.nb, buf := e'.buf, rest := e'.rest }

variable {e e' : Encoder} {d d' : Decoder} {word : Nat → List Byte} {c : Nat} {p : Byte}

theorem Agree.encoder (h : Agree e d word) (hs : SameCodes e e') : Agree e' d word := by
  rw [hs]
  exact ⟨h.k, h.w, h.literal, h.known, h.table, h.last⟩

theorem Agree.decoder (h : Agree e d word) (hs : SameDict d d') : Agree e d' word := by
  rw [hs]
  exact ⟨h.k, h.w, h.literal, h.known, h.table, h.last⟩

theorem control_eq (he : EncoderInv e) (hd : DecoderInv d) (hk : d.k = e.k) : d.clr = e.clr ∧ d.endc = e.endc := by
  have hclr : d.clr = e.clr := by rw [hd.clrIs, he.clrIs, hk]
  exact ⟨hclr, by rw [hd.endIs, he.endIs, hclr]⟩

/-- The string of each code where the table is empty. -/
def literalWord (c : Nat) : List Byte := [BitVec.ofNat 8 c]

/-- Behind a clear code the two agree on the literals. -/
theorem agree_cleared (hd : DecoderInv d) (hk : d.k = e.k) (hw : d.w = e.w) (hp : d.prev = none) (hclr : e.clr = 2 ^ e.k)
    (hendc : e.endc = e.clr + 1) (htab : e.tab = []) (hnext : e.next = e.clr + 2) : Agree e d literalWord := by
  have hclr' : d.clr = e.clr := by rw [hd.clrIs, hclr, hk]
  have hnext' := hd.prevNone hp
  refine ⟨hk, hw, fun p _ => by simp [literalWord], fun c h1 h2 h3 => hd.literals c (by omega), fun c p v h => ?_,
    .inl ⟨hp, by omega⟩⟩
  rw [htab] at h
  cases h

/-- E.MATCH at the first index. -/
theorem Agree.first (h : Agree e d word) (hc : e.cur = none) : Agree { e with cur := some p.toNat } d word := by
  refine ⟨h.k, h.w, h.literal, h.known, h.table, h.last.imp_right fun ⟨q, c, b, _, hc', _⟩ => ?_⟩
  rw [hc] at hc'
  cases hc'

/-- E.MATCH at a longer known string: it begins like the pending one. -/
theorem Agree.extended (h : Agree e d word) {v : Nat} (hc : e.cur = some c) (ht : tabRead e.tab c p = some v) :
    Agree { e with cur := some v } d word := by
  refine ⟨h.k, h.w, h.literal, h.known, h.table, h.last.imp_right fun ⟨q, c', b, hp, hc', hn, hw, hb⟩ => ?_⟩
  obtain rfl : c = c' := Option.some.inj (hc.symm.trans hc')
  exact ⟨q, v, b, hp, rfl, hn, hw, by rw [(h.table c p v ht).2, List.head?_append, hb]; rfl⟩

theorem take_one_of_head? {α : Type} {l : List α} {b : α} (h : l.head? = some b) : l.take 1 = [b] := by
  rw [List.take_one, h]
  rfl

/-- The previous code is an entry of the decoder, and its string is not empty. -/
theorem Agree.prev_word (h : Agree e d word) (he : EncoderInv e) (hd : DecoderInv d) {q : Nat} (hp : d.prev = some q) :
    dictRead d.dict q = word q ∧ word q ≠ [] := by
  obtain ⟨eclr, eend⟩ := control_eq he hd h.k
  obtain ⟨hlt, hclr, hend⟩ := hd.prevKnown q hp
  have hq : dictRead d.dict q = word q := h.known q hlt (eclr ▸ hclr) (eend ▸ hend)
  exact ⟨hq, hq ▸ hd.dictRead_ne_nil hlt hclr hend⟩

/-- The decoder reads the pending code: as an entry it has, or as the one it is about to register. -/
theorem Agree.reads (h : Agree e d word) (he : EncoderInv e) (hd : DecoderInv d) (hc : e.cur = some c) :
    (c < d.next ∧ dictRead d.dict c = word c) ∨
    ∃ q, c = d.next ∧ d.prev = some q ∧ d.next < 4096 ∧ dictRead d.dict q ++ (dictRead d.dict q).take 1 = word c := by
  obtain ⟨hlt, hclr, hend⟩ := he.curKnown c hc
  rcases h.last with ⟨hp, hn⟩ | ⟨q, c', b, hp, hc', hn, hw, hb⟩
  · exact .inl ⟨by omega, h.known c (by omega) hclr hend⟩
  · obtain rfl : c = c' := Option.some.inj (hc.symm.trans hc')
    by_cases hk : c < d.next
    · exact .inl ⟨hk, h.known c hk hclr hend⟩
    · obtain rfl : c = d.next := by omega
      obtain ⟨hq, hne⟩ := h.prev_word he hd hp
      rw [hw, List.head?_append_of_ne_nil _ hne] at hb
      exact .inr ⟨q, rfl, hp, by have := he.nextRange; omega, by rw [hq, take_one_of_head? hb, hw]⟩

/-- The class of the pending code resolves it to its string. -/
theorem Agree.exec_cur (h : Agree e s.dec word) (he : EncoderInv e) (hd : DecoderInv s.dec) (hc : e.cur = some c) :
    exec (classify (codeContext s.dec) c) s = .next (resolve c (word c) s) ∧
      DecoderInv (setPrev c (register (word c) s.dec)) := by
  obtain ⟨-, hclr, hend⟩ := he.curKnown c hc
  obtain ⟨eclr, eend⟩ := control_eq he hd h.k
  obtain ⟨-, -, hknown, hnew⟩ := hd.classes
  rcases h.reads he hd hc with ⟨hk, hw⟩ | ⟨q, rfl, hp, hfull, hw⟩
  · rw [hknown c hk (eclr ▸ hclr) (eend ▸ hend), ← hw]
    exact ⟨rfl, decoderInv_known hd hk (eclr ▸ hclr) (eend ▸ hend)⟩
  · rw [hnew q hp, exec_nextCode _ hp, hw, ← hw]
    exact ⟨rfl, decoderInv_next hd hp hfull⟩

/-- The decoder behind the pending code `c` of `e`: it has caught up with the encoder's table and has widened with it. -/
structure Followed (e : Encoder) (c : Nat) (d : Decoder) (word : Nat → List Byte) : Prop where
  k : d.k = e.k
  w : d.w = (eWiden e).w
  next : d.next = e.next
  prev : d.prev = some c
  known : ∀ i, i < e.next → i ≠ e.clr → i ≠ e.endc → dictRead d.dict i = word i

theorem Agree.followed (h : Agree e d word) (he : EncoderInv e) (hd : DecoderInv d) (hc : e.cur = some c) :
    Followed e c (setPrev c (register (word c) d)) word := by
  rcases h.last with ⟨hp, hn⟩ | ⟨q, c', b, hp, hc', hn, hw, hb⟩
  · rw [register_none _ hp]
    have hwide : (eWiden e).w = e.w := by
      rw [eWiden_w, if_neg]
      rintro ⟨h1, h2⟩
      have := hd.nextFull (by rw [← hn, h1, h.w])
      rw [h.w] at this
      omega
    exact ⟨h.k, h.w.trans hwide.symm, hn.symm, rfl, fun i hi => h.known i (hn ▸ hi)⟩
  · obtain rfl : c = c' := Option.some.inj (hc.symm.trans hc')
    have hfull : d.next < 4096 := by have := he.nextRange; omega
    obtain ⟨hq, -⟩ := h.prev_word he hd hp
    have hreg := register_some (word c) hp hfull
    refine ⟨(congrArg Decoder.k hreg).trans h.k, (congrArg Decoder.w hreg).trans ?_, (congrArg Decoder.next hreg).trans hn.symm,
      rfl, fun i hi h1 h2 => (dictRead_register (word c) hp hfull i).trans ?_⟩
    · rw [eWiden_w, ← h.w, hn]
    · split
      · rename_i hi'
        rw [hi', hw, hq, take_one_of_head? hb]
      · exact h.known i (by omega) h1 h2

/-- A data code in front that an agreeing encoder has put there: the step puts out its string and follows the encoder. -/
theorem Decoding.data (h : Decoding s total tail (toBits e.w c ++ bits)) (ha : Agree e s.dec word) (he : EncoderInv e)
    (hc : e.cur = some c) :
    ∃ t, step s = .next t ∧ Decoding t total tail bits ∧ Followed e c t.dec word ∧ t.out = s.out ++ word c := by
  rw [← ha.w] at h
  obtain ⟨u, hstep, hu, hsame, hout⟩ := h.fetch (ha.w ▸ he.cur_lt hc)
  have hau := ha.decoder hsame
  obtain ⟨hexec, hinv⟩ := hau.exec_cur he hu.inv hc
  rw [← hsame.context, hexec] at hstep
  exact ⟨_, hstep, hu.resolve hinv, hau.followed he hu.inv hc, congrArg (· ++ word c) hout⟩

/-- E.MISS makes the two agree again: the new entry is the string that begins with the code just read. -/
theorem Agree.missed (h : Agree e d word) (he : EncoderInv e) (hf : Followed e c d' word) (hc : e.cur = some c)
    (hp : p.toNat < e.clr) :
    Agree (registerMiss c p (eWiden e)) d' (Function.update word e.next (word c ++ [p])) := by
  have hnext := he.nextRange
  obtain ⟨hlt, -⟩ := he.curKnown c hc
  have hold : ∀ i, i < e.next → Function.update word e.next (word c ++ [p]) i = word i :=
    fun i hi => Function.update_of_ne hi.ne _ _
  rw [registerMiss_eq (show SameTable e e from rfl)]
  refine ⟨hf.k, hf.w.trans (eWiden_w e), fun p' hp' => ?_, fun i hi h1 h2 => ?_, fun c' p' v hv => ?_, .inr ⟨c,
    p.toNat, p, hf.prev, rfl, congrArg (· + 1) hf.next.symm, ?_, ?_⟩⟩
  · have hlit : p'.toNat < e.clr := hp'
    rw [hold _ (by omega), h.literal p' hlit]
  · have hi' : i < e.next := hf.next ▸ hi
    rw [hold i hi', hf.known i hi' h1 h2]
  · change tabRead (tabWrite e.tab c p e.next) c' p' = some v at hv
    show c' < e.next + 1 ∧ _
    rw [tabRead_tabWrite] at hv
    split at hv
    · rename_i hkey
      obtain ⟨rfl, rfl⟩ := hkey
      cases hv
      exact ⟨by omega, by rw [Function.update_self, hold c' hlt]⟩
    · obtain ⟨hc', hw⟩ := h.table c' p' v hv
      exact ⟨by omega, by rw [hold v (he.table c' p' v hv).2, hold c' hc', hw]⟩
  · rw [hf.next, Function.update_self, hold c hlt]
  · rw [hold _ (by omega), h.literal p hp]
    rfl

/-! ## What is emitted decodes -/

/-- The decode comes to an end code with this OUT. -/
def EndsIn (s : State) (total : Nat) (tail out : List Byte) : Prop :=
  ∃ n d bits, Sys2Proof.core.run n s = .next d ∧ Decoding d total tail (toBits d.dec.w d.dec.endc ++ bits) ∧ d.out = out

theorem EndsIn.step {t : State} {out : List Byte} (hs : step s = .next t) (h : EndsIn t total tail out) :
    EndsIn s total tail out := by
  obtain ⟨n, d, bits, hn, hd⟩ := h
  exact ⟨n + 1, d, bits, (run_succ (M := Sys2Proof.core) hs n).trans hn, hd⟩

/-- The string of the pending match, none where there is none. -/
def pendingWord (word : Nat → List Byte) (e : Encoder) : List Byte := e.cur.elim [] word

/-- A DECODE that agrees with the encoder's object `e` and has `bits` in front of it puts out the pending string and then `pix`, and
comes to an end code. -/
def Decodes (e : Encoder) (bits : List Bool) (pix : List Byte) : Prop :=
  ∀ (s : State) (total : Nat) (tail : List Byte) (word : Nat → List Byte), Decoding s total tail bits → Agree e s.dec word →
    EndsIn s total tail (s.out ++ pendingWord word e ++ pix)

variable {ps : List Byte}

theorem Decodes.congr {pix : List Byte} (h : Decodes e' bits pix) (hs : SameCodes e e') : Decodes e bits pix := by
  intro s total tail word hd ha
  have hcur : e'.cur = e.cur := by rw [hs]
  have hend := h s total tail word hd (ha.encoder hs)
  rwa [pendingWord, hcur] at hend

theorem decodes_first (h : Decodes { e with cur := some p.toNat } bits ps) (hc : e.cur = none) (hp : p.toNat < e.clr) :
    Decodes e bits (p :: ps) := by
  intro s total tail word hd ha
  have hend := h s total tail word hd (ha.first hc)
  simpa [pendingWord, hc, ha.literal p hp] using hend

theorem decodes_extended {v : Nat} (h : Decodes { e with cur := some v } bits ps) (hc : e.cur = some c)
    (ht : tabRead e.tab c p = some v) : Decodes e bits (p :: ps) := by
  intro s total tail word hd ha
  have hend := h s total tail word hd (ha.extended hc ht)
  simpa [pendingWord, hc, (ha.table c p v ht).2] using hend

theorem decodes_missed (h : Decodes (registerMiss c p (eWiden e)) bits ps) (he : EncoderInv e) (hc : e.cur = some c)
    (hp : p.toNat < e.clr) : Decodes e (toBits e.w c ++ bits) (p :: ps) := by
  intro s total tail word hd ha
  obtain ⟨t, hstep, ht, hf, hout⟩ := hd.data ha he hc
  have hagree := ha.missed he hf hc hp
  have hend := h t total tail _ ht hagree
  have hword : pendingWord (Function.update word e.next (word c ++ [p])) (registerMiss c p (eWiden e)) = [p] :=
    hagree.literal p (by rw [registerMiss, eWiden_clr]; exact hp)
  rw [hword, hout] at hend
  simpa [pendingWord, hc] using hend.step hstep

theorem decodes_reset (h : Decodes (resetTable p e) bits ps) (he : EncoderInv e) (hc : e.cur = some c) (hp : p.toNat < e.clr) :
    Decodes e (toBits e.w c ++ (toBits (eWiden e).w e.clr ++ bits)) (p :: ps) := by
  intro s total tail word hd ha
  obtain ⟨t, hstep, ht, hf, hout⟩ := hd.data ha he hc
  rw [← hf.w, ← (control_eq he ht.inv hf.k).1] at ht
  obtain ⟨u, hstep', hu, hk, hw, hprev, hout'⟩ := ht.clear
  have hku : u.dec.k = e.k := hk.trans hf.k
  have hagree : Agree (resetTable p e) u.dec literalWord :=
    agree_cleared hu.inv hku (hw.trans (congrArg (· + 1) hf.k)) hprev he.clrIs he.endIs rfl rfl
  have hend := h u total tail _ hu hagree
  have hword : pendingWord literalWord (resetTable p e) = [p] := hagree.literal p hp
  rw [hword, hout', hout] at hend
  simpa [pendingWord, hc] using (hend.step hstep').step hstep

theorem decodes_finish (he : EncoderInv e) (bits : List Bool) :
    Decodes e (pendingBits e ++ (toBits (finalTable e).w e.endc ++ bits)) [] := by
  intro s total tail word hd ha
  rw [pendingBits, finalTable] at hd
  rw [pendingWord, List.append_nil]
  cases hc : e.cur with
  | none =>
    rw [hc, if_pos rfl, ← ha.w, ← (control_eq he hd.inv ha.k).2] at hd
    exact ⟨0, s, bits, rfl, hd, (List.append_nil _).symm⟩
  | some c =>
    rw [hc, if_neg (by simp)] at hd
    obtain ⟨t, hstep, ht, hf, hout⟩ := hd.data ha he hc
    rw [← hf.w, ← (control_eq he ht.inv hf.k).2] at ht
    exact ⟨1, t, bits, run_succ (M := Sys2Proof.core) hstep 0, ht, hout⟩

/-! ## A running ENCODE -/

/-- An ENCODE that runs with this spec's parameters behind its initial clear code, the host being quiet: SNK takes everything, and
`bits` have been emitted since it was empty. -/
structure Encoding (s : State) (bits : List Bool) : Prop where
  busy : s.busy = true
  cmd : s.cmd = .encode
  unit : s.lzwUnit = .lzwe
  host : s.host = []
  params : s.params = Params.spec
  sink : s.snk.okWrites = none
  count : s.spos = s.snk.bytes.length
  inv : EncoderInv s.enc
  emitted : Emitted [] bits s

/-- Where SPOS counts the bytes of SNK, it goes on to. -/
theorem wrote_count (ws : List Byte) (h : s.spos = s.snk.bytes.length) : (wrote ws s).spos = (wrote ws s).snk.bytes.length := by
  rw [wrote_spos, wrote_snk, h, List.length_append]

/-- A write of the running ENCODE with an update of its object. -/
theorem Encoding.wrote (h : Encoding s bits) {bits' : List Bool} {ws : List Byte} (he : EncoderInv e)
    (hE : Emitted [] bits' (wrote ws { s with enc := e })) : Encoding (wrote ws { s with enc := e }) bits' :=
  ⟨h.busy, h.cmd, h.unit, h.host, h.params, by rw [wrote_snk, h.sink]; rfl,
    wrote_count (s := { s with enc := e }) ws h.count, he, hE⟩

/-- An update of the object that emits nothing. -/
theorem Encoding.update (h : Encoding s bits) (he : EncoderInv e) (hacc : e.acc = s.enc.acc) (hnb : e.nb = s.enc.nb)
    (hbuf : e.buf = s.enc.buf) : Encoding { s with enc := e } bits :=
  ⟨h.busy, h.cmd, h.unit, h.host, h.params, h.sink, h.count, he, h.emitted.congr rfl hbuf hacc hnb⟩

/-- The row of an index p: the bits it emits, in front of bits that decode to `ps`, decode to p and `ps`. -/
theorem Encoding.row (h : Encoding s bits) (hp : p.toNat < s.enc.clr) :
    ∃ t row, exec (selectStep s.enc p) s = .next t ∧ Encoding t (bits ++ row) ∧ t.enc.rest = s.enc.rest ∧
      ∀ more ps, Decodes t.enc more ps → Decodes s.enc (row ++ more) (p :: ps) := by
  have hroom : ∀ n, room s n = true := room_none h.sink
  rcases selectStep_cases s.enc p with
    ⟨hc, hsel⟩ | ⟨c, v, hc, hv, hsel⟩ | ⟨c, hc, hv, hn, hsel⟩ | ⟨c, hc, hv, hn, hsel⟩ <;> rw [hsel]
  · refine ⟨_, [], exec_eMatch_first p hc, ?_, rfl, fun more ps hm => decodes_first hm hc hp⟩
    rw [List.append_nil]
    exact h.update (encoderInv_first h.inv hp) rfl rfl rfl
  · refine ⟨_, [], exec_eMatch_known hc hv, ?_, rfl, fun more ps hm => decodes_extended hm hc hv⟩
    rw [List.append_nil]
    exact h.update (encoderInv_match h.inv hv) rfl rfl rfl
  · obtain ⟨ws, e, hs, hI, hexec, hE⟩ := miss_emits h.emitted p hc (h.inv.cur_lt hc)
    have hnext : e.next = s.enc.next := by rw [hs]
    have hinv := encoderInv_miss (hI h.inv) (c := c) (hs.clr ▸ hp) (hnext ▸ hn)
    have hcodes : SameCodes (registerMiss c p (eWiden s.enc)) (registerMiss c p (eWiden e)) := by
      rw [registerMiss_eq hs, registerMiss_eq (show SameTable s.enc s.enc from rfl)]
      rfl
    refine ⟨_, _, hexec (hroom _), h.wrote hinv hE, ?_, fun more ps hm => decodes_missed (hm.congr hcodes) h.inv hc hp⟩
    rw [wrote_enc, registerMiss_eq hs]
  · obtain ⟨ws, e, hs, hI, hexec, hE⟩ :=
      overflow_emits h.emitted p hc (h.inv.cur_lt hc) (eWiden_clr s.enc ▸ h.inv.widened.control_lt.1)
    have hclr : e.clr = s.enc.clr := by rw [hs.clr, eWiden_clr]
    have hinv := encoderInv_reset (hI h.inv) (hclr ▸ hp)
    have hcodes : SameCodes (resetTable p s.enc) (resetTable p e) := by
      rw [resetTable_eq hs]
      rfl
    rw [List.append_assoc] at hE
    refine ⟨_, _, hexec (hroom _), h.wrote hinv hE, ?_, fun more ps hm => ?_⟩
    · rw [wrote_enc, resetTable_eq hs]
    · rw [List.append_assoc]
      exact decodes_reset (hm.congr hcodes) h.inv hc hp

/-- A step that takes an index. -/
theorem Encoding.takesIndex (h : Encoding s bits) (hr : s.enc.rest = p :: ps) :
    ∃ t row, step s = .next t ∧ Encoding t (bits ++ row) ∧ t.enc.rest = ps ∧
      ∀ more, Decodes t.enc more ps → Decodes s.enc (row ++ more) (p :: ps) := by
  obtain ⟨hI, hp⟩ := h.inv.takeIndex hr
  have hu : Encoding { s with enc := { s.enc with rest := ps } } bits := h.update hI rfl rfl rfl
  obtain ⟨t, row, hexec, ht, hrest, hback⟩ := hu.row (p := p) hp
  exact ⟨t, row, (step_running h.host h.params).trans ((coreStep_index h.busy h.unit hr).trans hexec), ht, hrest,
    fun more hm => (hback more ps hm).congr rfl⟩

/-- An ENCODE that has ended: SNK holds the framing of `packed`. -/
structure Encoded (t : State) (packed : List Byte) : Prop where
  host : t.host = []
  cmd : t.cmd = .encode
  ok : t.status.state = .doneOk
  sink : t.snk.bytes = frame packed
  count : t.spos = t.snk.bytes.length

/-- The step behind the last index. -/
theorem Encoding.finish (h : Encoding s bits) (hr : s.enc.rest = []) :
    ∃ t packed more, step s = .next t ∧ Encoded t packed ∧ bitsOfBytes packed = bits ++ more ∧ Decodes s.enc more [] := by
  obtain ⟨ws, packed, z, e, hexec, hsnk, -, hbits⟩ := finish_emits h.emitted h.inv
  refine ⟨_, packed, _, (step_running h.host h.params).trans ((coreStep_noIndex h.busy h.unit hr).trans
    (hexec (room_none h.sink _))), ?_, ?_, decodes_finish h.inv (List.replicate z false)⟩
  · rw [finishEncode_other (by rw [wrote_cmd]; simp [h.cmd])]
    exact ⟨h.host, h.cmd, rfl, hsnk, wrote_count (s := { s with enc := e }) ws h.count⟩
  · rw [hbits]
    simp only [List.append_assoc]

/-- The whole of a running ENCODE: what it has still to emit decodes to the pending string and the rest of PIX. -/
theorem Encoding.completes (ps : List Byte) : ∀ {s : State} {bits : List Bool}, Encoding s bits → s.enc.rest = ps →
    ∃ n t packed more, Sys2Proof.core.run n s = .next t ∧ Encoded t packed ∧ bitsOfBytes packed = bits ++ more ∧
      Decodes s.enc more ps := by
  induction ps with
  | nil =>
    intro s bits h hr
    obtain ⟨t, packed, more, hstep, ht, hbits, hdec⟩ := h.finish hr
    exact ⟨1, t, packed, more, run_succ (M := Sys2Proof.core) hstep 0, ht, hbits, hdec⟩
  | cons p ps ih =>
    intro s bits h hr
    obtain ⟨t, row, hstep, ht, hrest, hback⟩ := h.takesIndex hr
    obtain ⟨n, u, packed, more, hrun, hu, hbits, hdec⟩ := ih ht hrest
    exact ⟨n + 1, u, packed, row ++ more, (run_succ (M := Sys2Proof.core) hstep n).trans hrun, hu,
      by rw [hbits, List.append_assoc], hback more hdec⟩

/-! ## The two starts -/

/-- The write of CMD and the initial clear code of an ENCODE. -/
theorem encode_starts {a : State} (h2 : 2 ≤ a.argK.toNat) (h8 : a.argK.toNat ≤ 8)
    (hpix : ∀ p, p ∈ a.out → p.toNat < 2 ^ a.argK.toNat) (hb : a.busy = false) (hh : a.host = [⟨none, .writeCmd .encode⟩])
    (hp : a.params = Params.spec) (hs : a.snk.attached = true) (hw : a.snk.okWrites = none) (hk : a.argKWritten = true)
    (hx : a.pixWritten = true) :
    ∃ s, (∀ n, Sys2Proof.core.run (n + 2) a = Sys2Proof.core.run n s) ∧
      Encoding s (toBits (a.argK.toNat + 1) (2 ^ a.argK.toNat)) ∧
      SameTable (startEncoder a.argK.toNat a.out) s.enc := by
  have hal : alphabetOk a.argK.toNat a.out = true := by simpa [alphabetOk] using hpix
  have hI := encoderInv_start h2 h8 hal
  have hstart := (step_command hb hh hp).trans
    (execEncode_next_iff.2 ⟨hb, hs, hk, hx, (minCodeSizeOk_iff _).2 ⟨h2, h8⟩, hal, rfl⟩)
  set s0 : State := startEncode a.argK.toNat a.out
    { startCommand .encode { a with host := [] } with snk := { a.snk with bytes := [] } }
  have hE0 : Emitted [] [] s0 := (emitted_iff _ _ _).2 ⟨[], rfl, pending_start _ _, Nat.zero_le 7⟩
  obtain ⟨ws, e, hsame, hexec, hE⟩ := clear0_emits hE0 hI.control_lt.1
  have hclear : step s0 = .next (wrote ws { s0 with enc := e, lzwUnit := .lzwe }) :=
    (step_running (s := s0) rfl hp).trans ((coreStep_lzweStart (s := s0) rfl rfl).trans (hexec (room_none hw _)))
  have hinv := hI.of_emitted (t := wrote ws { s0 with enc := e, lzwUnit := .lzwe }) hsame hE
  refine ⟨_, fun n => (run_succ (M := Sys2Proof.core) hstart (n + 1)).trans (run_succ (M := Sys2Proof.core) hclear n),
    ⟨rfl, rfl, rfl, rfl, hp, congrArg (Option.map _) hw, wrote_count (s := { s0 with enc := e, lzwUnit := .lzwe }) ws rfl,
      hinv, hE⟩, hsame⟩

/-- The write of CMD of a DECODE that finds a framed sequence on SRC. -/
theorem decode_starts {b : State} {packed rest : List Byte} (h2 : 2 ≤ b.argK.toNat) (h8 : b.argK.toNat ≤ 8)
    (hb : b.busy = false) (hh : b.host = [⟨none, .writeCmd .decode⟩]) (hp : b.params = Params.spec) (hs : b.src.attached = true)
    (hk : b.argKWritten = true) (hsrc : sourceHolds b (frame packed ++ rest)) :
    ∃ s, step b = .next s ∧ Decoding s (frame packed ++ rest).length rest (bitsOfBytes packed) ∧
      s.dec = startDecoder b.argK.toNat ∧ s.out = [] := by
  have hstart := (step_command hb hh hp).trans (execDecode_next_iff.2 ⟨hb, hs, hk, (minCodeSizeOk_iff _).2 ⟨h2, h8⟩, rfl⟩)
  have hav : available b.src.answers = frame packed ++ rest := by rw [hsrc, available_map]
  have hbehind : behindFrom 0 (available b.src.answers) = rest := by rw [hav, behindFrom_frame]
  have hdata : payloadFrom 0 (available b.src.answers) = packed := by rw [hav, payloadFrom_frame]
  exact ⟨_, hstart, ⟨rfl, rfl, rfl, rfl, hp, ⟨_, hsrc, Nat.zero_add _⟩, hbehind, congrArg bitsOfBytes hdata,
    ⟨Nat.zero_le 7, Nat.one_pos⟩, decoderInv_start h2 h8⟩, rfl, rfl⟩

end RoundTrip

/-- Settles O47: what the ENCODE emits behind its clear code decodes to PIX (`Encoding.completes`), the decoder agrees with the
encoder behind that code (`agree_cleared`), and the end code drains the sequence (`Decoding.finish`). -/
theorem encodeThenDecodeReturnsPixels : Obligations.EncodeThenDecodeReturnsPixels := by
  rintro a k pix h2 h8 hpix hb hh hp hs hw rfl hk rfl hx
  obtain ⟨s, hrun2, henc, hsame⟩ := encode_starts h2 h8 hpix hb hh hp hs hw hk hx
  have hfields : s.enc.k = a.argK.toNat ∧ s.enc.tab = [] ∧ s.enc.next = s.enc.clr + 2 ∧ s.enc.w = a.argK.toNat + 1 ∧
      s.enc.cur = none ∧ s.enc.rest = a.out := by rw [hsame]; exact ⟨rfl, rfl, rfl, rfl, rfl, rfl⟩
  obtain ⟨hke, htab, hnext, hwidth, hcur, hrest⟩ := hfields
  obtain ⟨m, c, packed, more, hrun, hc, hbits, hdec⟩ := henc.completes _ hrest
  refine ⟨m + 2, c, (hrun2 m).trans hrun, hc.host, hc.cmd, hc.ok, hc.count, fun b rest hb' hh' hp' hs' hk' hkw' hsrc => ?_⟩
  rw [hc.sink] at hsrc ⊢
  obtain ⟨t, hstart, ht, hdt, hout⟩ := decode_starts (hk' ▸ h2) (hk' ▸ h8) hb' hh' hp' hs' hkw' hsrc
  rw [hk'] at hdt
  obtain ⟨u, hclear, hu, hku, hwu, hprev, hout'⟩ := Decoding.clear (bits := more) (by rw [hdt]; exact hbits ▸ ht)
  have hkt : t.dec.k = a.argK.toNat := by rw [hdt]; rfl
  have hagree : Agree s.enc u.dec literalWord :=
    agree_cleared hu.inv (by rw [hku, hkt, hke]) (by rw [hwu, hkt, hwidth]) hprev henc.inv.clrIs henc.inv.endIs htab hnext
  obtain ⟨n, d, bits, hrund, hd, houtd⟩ := ((hdec u _ _ _ hu hagree).step hclear).step hstart
  obtain ⟨hend, e, hlast, hhost, hok, houte, hpos, hleft⟩ := hd.finish
  refine ⟨n, d, e, hrund, hd.busy, hend, run_snoc (M := Sys2Proof.core) hrund hlast, hhost, hok, ?_, ?_, hleft⟩
  · rw [houte, houtd, pendingWord, hcur, hout', hout]
    simp
  · rw [List.length_append] at hpos
    omega

end Sys2Proof.Machine
end

section
/-! PROOFS. A step of a PARSE outside its decodes (43_container_parser.md): the instruction that the bytes at POS decode to (R230,
R236, R256), the end of SRC inside one (R251), a failing access (R252), and where PST goes (R257). -/

namespace Sys2Proof.Machine

/-! ## The instruction at POS -/

theorem coreStep_slot {s : State} {slot : Slot} (hb : s.busy = true) (hc : s.cmd = .parse) (hu : s.lzwUnit = .off)
    (hp : parseSlot s = some slot) : coreStep s = (readInstr slot s).toOutcome exec :=
  coreStep_some hb (by rw [fetch_parse hu hc, fetchParse_slot hp])

/-- Bytes that decode are the encoding of what they decode to, so the read has taken exactly that encoding. -/
theorem coreStep_decoded {s : State} {slot : Slot} {i : Instr} {tail : List Byte} (hb : s.busy = true) (hc : s.cmd = .parse)
    (hu : s.lzwUnit = .off) (hp : parseSlot s = some slot) (hd : decode slot (available s.src.answers) = .ok (i, tail))
    (he : i = .eos → s.src.answers = []) :
    coreStep s = exec i (took (encode i) (s.src.answers.drop (encode i).length) s) := by
  obtain ⟨rest, hs, -⟩ := source_split s
  have hend : slot = .indicator → available s.src.answers = [] → rest = [] := fun hi ha => by
    rw [hi, ha] at hd
    cases hd
    rw [he rfl] at hs
    exact hs.symm
  obtain ⟨used, hused, hread⟩ := readInstr_of_decode hs hd hend
  obtain ⟨henc, -, -⟩ := decodedBytesAreTheEncoding _ _ _ _ hd
  have hu' : used = encode i := List.append_cancel_right (hused.symm.trans henc)
  have hleft : s.src.answers.drop (encode i).length = tail.map some ++ rest := by
    rw [hs, hused, hu', List.map_append, List.append_assoc]
    exact List.drop_left' (List.length_map _)
  rw [coreStep_slot hb hc hu hp, hread, Res.toOutcome_ok, hleft, hu']

theorem coreStep_lzw {s : State} (hb : s.busy = true) (hc : s.cmd = .parse) (hu : s.lzwUnit = .off) (hp : s.pst = .lzw) :
    coreStep s = exec .lzw s := by
  rw [coreStep_some hb (by rw [fetch_parse hu hc, fetchParse_lzw hp]), Res.toOutcome_ok]

/-- Settles O8: the fetch reads the slot's bytes (`coreStep_decoded`), and at P_LZW it reads none. -/
theorem stepRunsDecodedInstruction : Obligations.StepRunsDecodedInstruction :=
  ⟨fun s t slot i rest hq hb hc hu hp hd he => by rw [step_quiet hq, coreStep_decoded hb hc hu hp hd he],
    fun s t hq hb hc hu hp => by rw [step_quiet hq, coreStep_lzw hb hc hu hp]⟩

/-! ## The end of SRC inside an instruction -/

/-- Settles O9: the read takes the bytes at hand and raises (`readInstr_of_truncated`), and a raise is the fault of a PARSE. -/
theorem stepFaultsAtTruncation : Obligations.StepFaultsAtTruncation := by
  intro s t slot bs n hq hb hc hu hp hs hd
  obtain ⟨heof, -⟩ := readInstr_of_truncated (by rw [List.append_nil]; exact hs) hd
  obtain ⟨v, hfed, hraise⟩ := heof rfl
  have hcmd : v.cmd = .parse := by rw [hfed]; exact hc
  have hseen : v.status.pteSeen = t.status.pteSeen := by rw [hfed]; rfl
  refine ⟨takeFault (.ioError .unexpectedEof) (t.pos + bs.length) v, ?_, ?_, ?_, ?_, ?_, ?_, ?_⟩
  · rw [step_quiet hq, coreStep_slot hb hc hu hp, hraise, Res.toOutcome_raise]
  · rw [takeFault_status, hseen]; rfl
  · rw [takeFault_errInfo]
  · rw [takeFault_pos, hfed.pos]
  · rw [takeFault_src, hfed.answers]
  · rw [takeFault_pst, if_pos hcmd]
  · rw [takeFault_doc, if_pos hcmd]

/-! ## A failing access behind the bytes at hand -/

section Failing

variable {s t : State} {bs : List Byte} {more : List (Option Byte)}

theorem parseStep_failing {slot : Slot} (h : ParseStep s slot bs (none :: more) t) :
    (TookFirst s t bs (none :: more) ∧ ¬ InstrRunsOut slot bs) ∨ (ReadFailed s t bs (none :: more) ∧ InstrRunsOut slot bs) := by
  cases h with
  | failed k p u h ho =>
    rcases h.cause with ⟨-, hend, -⟩ | ⟨rfl, hr, hv⟩
    · cases hend
    · exact .inr ⟨⟨p, u, ⟨h.position, hr, hv⟩, rfl⟩, ho⟩
  | ran i used tail t hb he ho h =>
    obtain ⟨hsrc, hpos, -⟩ := parseRun_src h
    exact .inl ⟨⟨used, tail, hb, by rw [hsrc]; rfl, hpos⟩, ho (List.cons_ne_nil _ _)⟩

theorem decodeStep_failing (hbit : bitBufferOk s.dec) (h : DecodeStep s bs (none :: more) t) :
    (TookFirst s t bs (none :: more) ∧ ¬ CodesRunOut s) ∨ (ReadFailed s t bs (none :: more) ∧ CodesRunOut s) := by
  cases h with
  | failed p u h ho => exact .inr ⟨⟨p, u, h, rfl⟩, ho hbit⟩
  | finished u v c n h hc hm hd ho =>
    exact .inl ⟨hm.tookFirst.congr (finishDecode_src v) (finishDecode_pos v), ho (List.cons_ne_nil _ _)⟩
  | ran u t c n h hm hc hb ho hr =>
    obtain ⟨hsrc, hpos, -⟩ := codeRun_src hr
    exact .inl ⟨hm.tookFirst.congr hsrc hpos, ho hbit⟩

theorem available_failing (h : s.src.answers = bs.map some ++ none :: more) : available s.src.answers = bs := by
  rw [h, available_map_append, available_none, List.append_nil]

theorem readsBeyond_parse {slot : Slot} (hu : s.lzwUnit = .off) (hc : s.cmd = .parse) (hp : parseSlot s = some slot) :
    ReadsBeyond s ↔ InstrRunsOut slot (available s.src.answers) := by
  simp [ReadsBeyond, hu, hc, hp]

theorem readsBeyond_decode (hu : s.lzwUnit = .lzwd) : ReadsBeyond s ↔ CodesRunOut s := by
  simp [ReadsBeyond, hu]

/-- A step stays before the failing access where it needs no more than the bytes at hand, and else fails there. -/
theorem runningStep_failing (h : CoreStep s bs (none :: more) (.next t)) (hs : s.src.answers = bs.map some ++ none :: more)
    (hbit : s.lzwUnit = .lzwd → bitBufferOk s.dec) :
    (TookFirst s t bs (none :: more) ∧ ¬ ReadsBeyond s) ∨ (ReadFailed s t bs (none :: more) ∧ ReadsBeyond s) := by
  cases h with
  | parse slot _ hu hc hp h => rw [readsBeyond_parse hu hc hp, available_failing hs]; exact parseStep_failing h
  | lzwStart hu hc hp => exact .inl ⟨tookFirst_none hs ⟨rfl, rfl⟩, by simp [ReadsBeyond, hu, parseSlot, hp]⟩
  | decode _ hu h => rw [readsBeyond_decode hu]; exact decodeStep_failing (hbit hu) h
  | part _ hu hc _ h => exact .inl ⟨tookFirst_none hs (partStep_src h), by simp [ReadsBeyond, hu, hc]⟩
  | encode _ hu h =>
    refine .inl ⟨tookFirst_none hs (encodeStep_src h), ?_⟩
    rintro (⟨hoff, -⟩ | ⟨hd, -⟩)
    · rw [hoff] at hu; cases hu
    · rw [hd] at hu; cases hu

/-- The units that read never refuse a step. -/
theorem ReadsBeyond.step_next (hb : s.busy = true) (h : ReadsBeyond s) : ∃ u, coreStep s = .next u := by
  obtain ⟨rest, hs, hr⟩ := source_split s
  rcases h with ⟨hu, hc, slot, hp, -⟩ | ⟨hu, -⟩
  · obtain ⟨u, hstep, -⟩ := parseStep_cases hb hu hc hp hs hr
    exact ⟨u, hstep⟩
  · obtain ⟨u, hstep, -⟩ := decodeStep_cases hb hu hs hr
    exact ⟨u, hstep⟩

/-- What the fault of a failing access leaves (R301, R306, R309). -/
theorem ReadFailed.fault {rest : List (Option Byte)} (h : ReadFailed s t bs rest) :
    t.status = ⟨.doneFault, 1, s.status.pteSeen⟩ ∧ t.errInfo = ⟨.ioError .readFailure, s.pos + bs.length⟩ := by
  obtain ⟨p, u, hfail, rfl⟩ := h
  have hstatus : u.status = s.status := by rw [hfail.onlyRead]
  obtain ⟨rfl, -⟩ := hfail
  rw [takeFault_status, takeFault_errInfo, hstatus]
  exact ⟨rfl, rfl⟩

end Failing

/-- Settles O55: a step stays before the failing access or fails there (`runningStep_took`), and which of the two it does is decided
by `ReadsBeyond` (`runningStep_failing`). -/
theorem readFailureRaisedAtTheAccess : Obligations.ReadFailureRaisedAtTheAccess := by
  intro s t bs more hb hq hs
  have hcore := coreStep_cases hb hs (.inr ⟨more, rfl⟩)
  refine ⟨fun u h => ?_, fun hbit => ⟨fun hreads => ?_, fun hreads u h => ?_⟩⟩
  · rw [step_next_quiet hq h] at hcore
    exact (runningStep_took hcore hs).imp_right ReadFailed.fault
  · obtain ⟨u, hu⟩ := hreads.step_next hb
    rw [hu] at hcore
    refine ⟨u, by rw [step_quiet hq, hu], ?_⟩
    rcases runningStep_failing hcore hs hbit with ⟨-, hn⟩ | ⟨hfail, -⟩
    · exact absurd hreads hn
    · exact hfail.fault
  · rw [step_next_quiet hq h] at hcore
    rcases runningStep_failing hcore hs hbit with ⟨hstays, -⟩ | ⟨-, hr⟩
    · exact hstays
    · exact absurd hr hreads

/-! ## Where PST goes -/

/-- Where a step that takes no fault leaves PST, by the place it starts from: the transfers of R257, and the place itself where more
bytes are due there; behind a plain text extension R253 may end the parse instead. -/
def nextPStates (policy : PtePolicy) : PState → List PState
  | .header => [.lsd]
  | .lsd => [.gct, .loop]
  | .gct => [.loop]
  | .loop => [.label, .imgDesc, .done]
  | .label => [.gce, .comment, .app, .pte, .skip]
  | .gce => [.loop]
  | .comment => [.comment, .loop]
  | .app => [.app, .loop]
  | .pte => [.pte, .loop] ++ if policy = .earlyReturn then [.done] else []
  | .skip => [.skip, .loop]
  | .imgDesc => [.lct, .minCode]
  | .lct => [.minCode]
  | .minCode => [.lzw]
  | .lzw => [.lzw, .loop]
  | .idle => []
  | .done => []
  | .fault => []

/-- A slot other than a sub-block is read at one place of the parser. -/
theorem parseSlot_place {s : State} {slot : Slot} (h : parseSlot s = some slot) :
    slot = .subBlock ∨ s.pst = slotPState slot := by
  cases hp : s.pst with
  | idle | lzw | done | fault => simp [parseSlot, hp] at h
  | app | pte =>
    simp only [parseSlot, hp, Option.some.injEq] at h
    subst h
    split
    · exact .inr rfl
    · exact .inl rfl
  | _ =>
    simp only [parseSlot, hp, Option.some.injEq] at h
    subst h
    simp [slotPState]

theorem takeFault_parse_pst {s : State} (c : Cause) (p : Nat) (h : s.cmd = .parse) : (takeFault c p s).pst = .fault := by
  rw [takeFault_pst, if_pos h]

theorem sbTerm_pst {u t : State} (h : execSbTerm u = .next t)
    (hp : u.pst = .comment ∨ u.pst = .app ∨ u.pst = .pte ∨ u.pst = .skip) : t.pst ∈ nextPStates u.params.ptePolicy u.pst := by
  obtain ⟨d, ⟨rfl, -⟩ | ⟨rfl, hpte, hpol⟩⟩ := sbTerm_cases h
  · rcases hp with h | h | h | h <;> simp [h, nextPStates]
  · simp [hpte, hpol, nextPStates]

theorem sbData_pst {u t : State} {f : List Byte} (h : execSbData f u = .next t)
    (hp : u.pst = .comment ∨ u.pst = .app ∨ u.pst = .pte ∨ u.pst = .skip) : t.pst ∈ nextPStates u.params.ptePolicy u.pst := by
  rw [(sbData_inv h).1]
  rcases hp with h | h | h | h <;> simp [h, nextPStates]

theorem parseRun_pst {u t : State} {slot : Slot} {i : Instr} (h : ParseRun u slot i t) (hc : u.cmd = .parse)
    (hp : parseSlot u = some slot) : t.pst = .fault ∨ t.pst ∈ nextPStates u.params.ptePolicy u.pst := by
  have place := (parseSlot_place hp).resolve_left
  cases h with
  | term _ h => exact .inr (sbTerm_pst h (parseSlot_sub hp))
  | data _ _ h => exact .inr (sbData_pst h (parseSlot_sub hp))
  | badSignature => exact .inl (takeFault_parse_pst _ _ hc)
  | unknown => exact .inl (takeFault_parse_pst _ _ hc)
  | badSize => exact .inl (takeFault_parse_pst _ _ hc)
  | lsd => rw [place nofun]; dsimp only; split <;> simp [slotPState, nextPStates]
  | img => rw [place nofun]; dsimp only; split <;> simp [slotPState, nextPStates]
  | _ => rw [place nofun]; simp [slotPState, nextPStates]

theorem parseStep_pst {s t : State} {slot : Slot} {bs : List Byte} {rest : List (Option Byte)} (h : ParseStep s slot bs rest t)
    (hc : s.cmd = .parse) (hp : parseSlot s = some slot) : t.pst = .fault ∨ t.pst ∈ nextPStates s.params.ptePolicy s.pst := by
  cases h with
  | failed k p u h => exact .inl (takeFault_parse_pst _ _ (by rw [h.onlyRead]; exact hc))
  | ran i used tail t hb he ho h => exact parseRun_pst (u := took used (tail.map some ++ rest) s) h hc hp

theorem decodeStep_pst {s t : State} {bs : List Byte} {rest : List (Option Byte)} (h : DecodeStep s bs rest t)
    (hc : s.cmd = .parse) (hp : s.pst = .lzw) : t.pst = .fault ∨ t.pst = .lzw ∨ t.pst = .loop := by
  cases h with
  | failed p u h => exact .inl (takeFault_parse_pst _ _ (by rw [h.onlyRead]; exact hc))
  | finished u v c n h hc' hm => rw [finishDecode_parse (by rw [hm.onlyRead]; exact hc)]; exact .inr (.inr rfl)
  | ran u t c n h hm hc' hb ho hr =>
    have hpst : u.pst = .lzw := by rw [hm.onlyRead]; exact hp
    cases hr with
    | invalid => exact .inl (takeFault_parse_pst _ _ (by rw [hm.onlyRead]; exact hc))
    | _ => exact .inr (.inl hpst)

/-- Under the invariant a PARSE runs rows of its own, or at P_LZW the decoder. -/
theorem runningStep_pst {s t : State} {bs : List Byte} {rest : List (Option Byte)} (h : CoreStep s bs rest (.next t))
    (hctl : controlOk s) (hc : s.cmd = .parse) : t.pst = .fault ∨ t.pst ∈ nextPStates s.params.ptePolicy s.pst := by
  cases h with
  | parse _ _ _ _ hp h => exact parseStep_pst h hc hp
  | lzwStart _ _ hp => rw [startDecode_pst, hp]; exact .inr (List.mem_cons_self ..)
  | decode _ hu h =>
    have hp : s.pst = .lzw := by
      rcases (controlOk_parse hc).1 hctl with ⟨hoff, -⟩ | ⟨-, hp⟩
      · rw [hoff] at hu; cases hu
      · exact hp
    simpa [hp, nextPStates] using decodeStep_pst h hc hp
  | part _ _ hs => rw [hs] at hc; cases hc
  | encode _ hu => rcases cmd_encode hctl hu with ⟨hs, -⟩ | hs <;> rw [hs] at hc <;> cases hc

/-- Settles O59: `nextPStates` is the table of the transfers, place by place. -/
theorem parserControlTransfers : Obligations.ParserControlTransfers := by
  intro s t u hI hb hq hc h
  obtain ⟨rest, -, -, hstep⟩ := core_of hb hq h
  refine (runningStep_pst hstep ((inv_quiet hI hq).control hb) hc).imp_right fun hmem => ?_
  cases hp : t.pst with
  | idle | done | fault => simp [hp, nextPStates] at hmem
  | pte => simp [hp, nextPStates] at hmem ⊢; tauto
  | _ => simpa [hp, nextPStates] using hmem

end Sys2Proof.Machine
end

section
/-! PROOFS. What each row of a PARSE stores and where it leaves PST (43_container_parser.md R232 to R250, R253): the rows by position,
the indicators, the labels with their fixed parts, and the rows of a sub-block loop. -/

namespace Sys2Proof.Machine

/-! ## The colour table a packed byte announces -/

theorem ctLen_packed (p : Byte) : ctLen (gctFlag p) (gctExp p) = if 128 ≤ p.toNat then 2 ^ (p.toNat % 8 + 1) else 0 := by
  have hp : p.toNat < 256 := p.isLt
  have hbit : gctFlag p = decide (128 ≤ p.toNat) := by
    rw [gctFlag, bits, beq_eq_decide]
    exact decide_eq_decide.2 (by omega)
  simp only [ctLen, hbit, decide_eq_true_eq]
  rw [gctExp, bits, Nat.pow_zero, Nat.div_one, show 2 ^ (2 - 0 + 1) = 8 from rfl]

/-- Bit 7 announces a table (R103). -/
theorem ctLen_announced {p : Byte} (h : 128 ≤ p.toNat) : ctLen (gctFlag p) (gctExp p) = 2 ^ (p.toNat % 8 + 1) := by
  rw [ctLen_packed, if_pos h]

theorem ctLen_absent {p : Byte} (h : p.toNat < 128) : ctLen (gctFlag p) (gctExp p) = 0 := by
  rw [ctLen_packed, if_neg (Nat.not_le.2 h)]

theorem ctLen_announced_ne_zero {p : Byte} (h : 128 ≤ p.toNat) : ctLen (gctFlag p) (gctExp p) ≠ 0 := by
  rw [ctLen_announced h]
  exact (Nat.two_pow_pos _).ne'

/-! ## The rows by position -/

theorem exec_hdr_gif (v : Bytes3) (s : State) : exec (.hdr gifSignature v) s = .next { s with
    scratch := { s.scratch with doc := { s.scratch.doc with header := ⟨gifSignature, v⟩ } }, pst := .lsd } := by
  rw [exec, execHdr, if_pos rfl]

/-- Settles O21: each row is one write of the working Document or of the image; LSD's next place is decided by `ctLen_packed`. -/
theorem positionalRowsStoreWhatWasRead : Obligations.PositionalRowsStoreWhatWasRead := fun s =>
  ⟨fun v => ⟨_, exec_hdr_gif v s, rfl, rfl⟩,
    fun _ _ _ _ _ => ⟨_, rfl, rfl, rfl, fun hp => if_neg (ctLen_announced_ne_zero hp), fun hp => if_pos (ctLen_absent hp)⟩,
    fun _ => ⟨_, rfl, rfl, rfl⟩, fun _ => ⟨_, rfl, rfl, rfl⟩, fun _ => ⟨_, rfl, rfl, rfl⟩⟩

/-! ## The indicators and the labels -/

/-- Settles O23: the local table is announced by the same bits as the global one (R114). -/
theorem extensionAndImageOpen : Obligations.ExtensionAndImageOpen := fun _ =>
  ⟨rfl, rfl, rfl, rfl, rfl, fun _ _ _ _ _ => ⟨_, rfl, rfl, rfl, rfl, rfl, rfl, rfl, rfl,
    fun hp => if_neg (ctLen_announced_ne_zero hp), fun hp => if_pos (ctLen_absent hp)⟩⟩

/-- Settles O24: both rows are PDONE. -/
theorem trailerOrEndOfStreamEndsParse : Obligations.TrailerOrEndOfStreamEndsParse := by
  rintro s i (rfl | rfl)
  · exact ⟨parseDone s, rfl, rfl, rfl, rfl, rfl⟩
  · exact ⟨parseDone s, rfl, rfl, rfl, rfl, rfl⟩

theorem exec_extGce_body (p : Byte) (d : Half) (ti : Byte) (s : State) : exec (.extGce (.body p d ti 0)) s = .next { s with
    scratch := { s.scratch with doc := { s.scratch.doc with gces := s.scratch.doc.gces ++ [⟨p, d, ti⟩] } }, pst := .loop } := by
  rw [exec, execExtGce, if_pos rfl]

/-- Settles O26: the terminator is judged first, and zero passes. -/
theorem controlExtensionStored : Obligations.ControlExtensionStored := fun s p d ti => ⟨_, exec_extGce_body p d ti s, rfl, rfl⟩

/-- Settles O27: each row is the start of a sub-block loop, behind what it keeps of its fixed part. -/
theorem subBlockLoopsOpen : Obligations.SubBlockLoopsOpen := by
  rintro s i p (⟨rfl, rfl⟩ | ⟨a, b, rfl, rfl⟩ | ⟨f, rfl, rfl⟩ | ⟨l, rfl, rfl⟩)
  · exact ⟨startSubBlocks .comment s, rfl, rfl, rfl, rfl, rfl, rfl, nofun, nofun, rfl⟩
  · refine ⟨_, rfl, rfl, rfl, rfl, rfl, rfl, fun a' b' h => ?_, nofun, rfl⟩
    cases h
    exact ⟨rfl, rfl⟩
  · refine ⟨_, rfl, rfl, rfl, rfl, rfl, rfl, nofun, fun f' h => ?_, rfl⟩
    cases h
    rfl
  · exact ⟨startSubBlocks .skip s, rfl, rfl, rfl, rfl, rfl, rfl, nofun, nofun, rfl⟩

/-! ## The rows of a sub-block loop -/

/-- The fragments held once `new` have been read: a skipped extension keeps none. -/
def collected (p : PState) (old new : List (List Byte)) : List (List Byte) := if p = .skip then old else old ++ new

theorem collected_nil (p : PState) (old : List (List Byte)) : collected p old [] = old := by
  rw [collected, List.append_nil, ite_self]

theorem collected_collected (p : PState) (old a b : List (List Byte)) :
    collected p (collected p old a) b = collected p old (a ++ b) := by
  unfold collected
  split
  · rfl
  · rw [List.append_assoc]

theorem collected_of_ne_skip {p : PState} (h : p ≠ .skip) (old new : List (List Byte)) : collected p old new = old ++ new :=
  if_neg h

theorem exec_sbData (f : List Byte) (s : State) : exec (.sbData f) s = .next { s with
    scratch := { s.scratch with frags := collected s.pst s.scratch.frags [f] }, dec := { s.dec with sbrem := 0 } } := by
  show execSbData f s = _
  unfold execSbData
  split
  next h => rw [h]; rfl
  next h => rw [collected_of_ne_skip h]

/-- The working Document behind the terminator of the extension that PST, at `p`, stands in (R239 to R242). -/
def storedDoc (p : PState) (c : Scratch) : Document :=
  match p with
  | .comment => { c.doc with comments := c.doc.comments ++ [⟨c.frags.map utf8Lossy⟩] }
  | .app => { c.doc with apps := c.doc.apps ++ [⟨c.appId, c.appAuth, c.frags.flatten⟩] }
  | .pte => { c.doc with ptes := c.doc.ptes ++ [⟨c.pteFields, c.frags.flatten⟩] }
  | _ => c.doc

/-- SB.TERM where the loop goes on behind it. -/
theorem exec_sbTerm_loop {s : State} (h : s.pst = .pte → s.params.ptePolicy = .continueLoop) :
    exec .sbTerm s = .next { termStored s (storedDoc s.pst s.scratch) with pst := .loop } := by
  show execSbTerm s = _
  unfold execSbTerm storedDoc termStored
  split
  next hp => simp [hp, storeComment]
  next hp => simp [hp, storeApp]
  next hp => simp [hp, h hp, afterPte, storePte, setPteSeen]
  next _ _ hp => simp [show s.pst ≠ .pte from hp]

/-- SB.TERM behind a plain text extension by the other PTE_POLICY (R253). -/
theorem exec_sbTerm_return {s : State} (hp : s.pst = .pte) (h : s.params.ptePolicy = .earlyReturn) :
    exec .sbTerm s = .next (parseDone (termStored s (storedDoc .pte s.scratch))) := by
  simp [exec, execSbTerm, storedDoc, termStored, hp, h, afterPte, storePte, setPteSeen]

/-- Settles O28: the fragments are `collected`, the record is in `storedDoc`. -/
theorem subBlockRowsStore : Obligations.SubBlockRowsStore := by
  rintro s p hs -
  refine ⟨fun f => ⟨_, exec_sbData f s, rfl, by rw [hs]; rfl⟩, fun hpol => ?_, fun hp hpol => ?_⟩
  · have hexec := exec_sbTerm_loop (s := s) (hs ▸ hpol)
    rw [hs] at hexec
    refine ⟨_, hexec, rfl, by rw [← hs]; rfl, ?_, ?_, ?_, ?_⟩ <;> rintro rfl <;> rfl
  · refine ⟨_, exec_sbTerm_return (hs.trans hp) hpol, rfl, rfl, ?_, rfl⟩
    rw [parseDone_status, termStored, if_pos (hs.trans hp)]
    rfl

end Sys2Proof.Machine
end

section
/-! PROOFS. Several steps of a PARSE that the host leaves alone (43_container_parser.md): the screen descriptor with its global table
(R234, R235), an image block up to its code stream (R243 to R245), and the extensions with a sub-block loop (R239 to R242, R253). Each
is a chain of rows; `Reads` is what the rows of a chain have in common. -/

namespace Sys2Proof.Machine

/-! ## A chain of rows -/

/-- From `s` to `t` the PARSE has run `n` rows: it has taken `used` from SRC, where `tail` is left, and stands at `q`. -/
structure Reads (n : Nat) (s : State) (used tail : List Byte) (q : PState) (t : State) : Prop where
  run : ∀ k, Sys2Proof.core.run (k + n) s = Sys2Proof.core.run k t
  parsing : Parsing q t
  pos : t.pos = s.pos + used.length
  left : available t.src.answers = tail
  doc : t.doc = s.doc

theorem Parsing.reads_none {p : PState} {s : State} (h : Parsing p s) {tail : List Byte}
    (ha : available s.src.answers = tail) : Reads 0 s [] tail p s := ⟨fun _ => rfl, h, rfl, ha, rfl⟩

theorem Reads.trans {m n : Nat} {s t u : State} {a b mid tail : List Byte} {p q : PState} (h1 : Reads m s a mid p t)
    (h2 : Reads n t b tail q u) : Reads (n + m) s (a ++ b) tail q u where
  run k := by rw [← Nat.add_assoc, h1.run, h2.run]
  parsing := h2.parsing
  pos := by rw [h2.pos, h1.pos, List.length_append, Nat.add_assoc]
  left := h2.left
  doc := h2.doc.trans h1.doc

theorem Reads.pos_append {n : Nat} {s t : State} {a b tail : List Byte} {q : PState} (h : Reads n s (a ++ b) tail q t) :
    t.pos = s.pos + a.length + b.length := by
  rw [h.pos, List.length_append, Nat.add_assoc]

theorem Reads.run_eq {m n : Nat} {s t : State} {used tail : List Byte} {q : PState} (h : Reads n s used tail q t) (hm : m = n) :
    Sys2Proof.core.run m s = .next t := by
  rw [hm, ← Nat.zero_add n, h.run]
  rfl

/-! ## One row -/

section Row

variable {p q : PState} {s : State} {i : Instr} {slot : Slot} {tail : List Byte}

theorem Parsing.pst (h : Parsing p s) : s.pst = p := by
  obtain ⟨-, -, -, -, -, hp⟩ := h
  exact hp

theorem Parsing.continues (h : Parsing p s) : s.params.ptePolicy = .continueLoop := by
  obtain ⟨-, -, -, -, hparams, -⟩ := h
  rw [hparams]
  rfl

/-- The step of a row whose encoding stands at POS. -/
theorem Parsing.step_row (h : Parsing p s) (hp : parseSlot s = some slot) (hs : slotOf i = some slot) (hw : i.wellFormed = true)
    (he : i ≠ .eos) (ha : available s.src.answers = encode i ++ tail) :
    ∃ rest, step s = exec i (took (encode i) rest s) ∧ available rest = tail := by
  obtain ⟨hb, hc, hu, hh, hparams, -⟩ := h
  have hd : decode slot (available s.src.answers) = .ok (i, tail) :=
    ha ▸ decodeEncodeBlocks i slot tail hw hs fun e => absurd e he
  refine ⟨_, (step_running hh hparams).trans (coreStep_decoded hb hc hu hp hd fun e => absurd e he), ?_⟩
  obtain ⟨rest, hrest, hr⟩ := source_split s
  have hnone : available rest = [] := by rcases hr with rfl | ⟨r, rfl⟩ <;> rfl
  rw [ha, List.map_append, List.append_assoc] at hrest
  rw [hrest, List.drop_left' (List.length_map _), available_map_append, hnone, List.append_nil]

/-- A row that changes nothing but the working fields, the decoder's dead object, PST and the flags of STATUS is a chain of one. -/
theorem Parsing.reads_row (h : Parsing p s) (hp : parseSlot s = some slot) (hs : slotOf i = some slot) (hw : i.wellFormed = true)
    (he : i ≠ .eos) (ha : available s.src.answers = encode i ++ tail) {c : Scratch} {d : Decoder} {st : Status}
    (hx : ∀ rest, exec i (took (encode i) rest s) =
      .next { took (encode i) rest s with scratch := c, dec := d, pst := q, status := st })
    (hst : st.state = s.status.state) : ∃ t, Reads 1 s (encode i) tail q t ∧ t.scratch = c ∧ t.status = st := by
  obtain ⟨rest, hstep, hleft⟩ := h.step_row hp hs hw he ha
  rw [hx] at hstep
  obtain ⟨hb, hc, hu, hh, hparams, -⟩ := h
  refine ⟨_, ⟨fun k => run_succ (M := Sys2Proof.core) hstep k, ⟨?_, hc, hu, hh, hparams, rfl⟩, rfl, hleft, rfl⟩, rfl, rfl⟩
  rw [busy_state] at hb ⊢
  exact hst.trans hb

end Row

/-! ## A colour table -/

/-- The bytes of an announced table are its entries. -/
theorem exists_table {p : Byte} {table : List Byte} (hp : 128 ≤ p.toNat) (h : table.length = 3 * 2 ^ (p.toNat % 8 + 1)) :
    ∃ tab : List Rgb, table = tab.flatMap Rgb.toList ∧ tab.length = ctLen (gctFlag p) (gctExp p) ∧
      tableLengths.contains tab.length = true := by
  obtain ⟨tab, htab⟩ := decodeEntries_full (2 ^ (p.toNat % 8 + 1)) [] h
  obtain ⟨hbytes, hlen⟩ := decodeEntries_some htab
  rw [← ctLen_announced hp] at hlen
  refine ⟨tab, by simpa using hbytes, hlen, ?_⟩
  rw [hlen]
  exact (tableLength_ok (gctFlag p) p).resolve_left (ctLen_announced_ne_zero hp)

/-! ## The screen descriptor and the global table -/

theorem Parsing.reads_lsd {s : State} {w h : Half} {p bg a : Byte} {tail : List Byte} (hP : Parsing .lsd s)
    (ha : available s.src.answers = encode (.lsd w h p bg a) ++ tail) :
    ∃ t, Reads 1 s (encode (.lsd w h p bg a)) tail (if ctLen (gctFlag p) (gctExp p) = 0 then .loop else .gct) t ∧
      t.scratch = { s.scratch with doc := { s.scratch.doc with screen := ⟨w, h, p, bg, a⟩ } } ∧ t.status = s.status :=
  hP.reads_row (i := .lsd w h p bg a) (by simp [parseSlot, hP.pst]) rfl rfl nofun ha (fun _ => rfl) rfl

theorem Parsing.reads_gct {s : State} {tab : List Rgb} {tail : List Byte} (hP : Parsing .gct s)
    (hlen : tab.length = ctLen (gctFlag s.scratch.doc.screen.packed) (gctExp s.scratch.doc.screen.packed))
    (hok : tableLengths.contains tab.length = true) (ha : available s.src.answers = encode (.gct tab) ++ tail) :
    ∃ t, Reads 1 s (encode (.gct tab)) tail .loop t ∧
      t.scratch = { s.scratch with doc := { s.scratch.doc with gct := some tab } } ∧ t.status = s.status :=
  hP.reads_row (i := .gct tab) (by simp [parseSlot, hP.pst, hlen]) rfl hok nofun ha (fun _ => rfl) rfl

/-- Settles O43: the place LSD leads to is GCT's exactly where the packed byte announces a table. -/
theorem screenDescriptorThenGlobalTable : Obligations.ScreenDescriptorThenGlobalTable := by
  intro s w h p bg a table rest hP ha
  rw [List.append_assoc] at ha
  obtain ⟨t, hlsd, hscr, -⟩ := hP.reads_lsd ha
  refine ⟨fun hp htable => ?_, fun hp hlen => ?_⟩
  · rw [if_pos (ctLen_absent hp), htable] at hlsd
    exact ⟨t, hlsd.run_eq rfl, hlsd.parsing, by rw [hscr], hlsd.pos, hlsd.left⟩
  · rw [if_neg (ctLen_announced_ne_zero hp)] at hlsd
    obtain ⟨tab, rfl, htab, hok⟩ := exists_table hp hlen
    obtain ⟨u, hgct, hscr', -⟩ := hlsd.parsing.reads_gct (by rw [hscr]; exact htab) hok hlsd.left
    have hall := hlsd.trans hgct
    refine ⟨u, tab, hall.run_eq rfl, hall.parsing, htab.trans (ctLen_announced hp), rfl, by rw [hscr', hscr], hall.pos_append,
      hall.left⟩

/-! ## An image block -/

section Image

variable {s : State} {tail : List Byte}

theorem Parsing.reads_imgIndicator (hP : Parsing .loop s) (ha : available s.src.answers = encode imgIndicator ++ tail) :
    ∃ t, Reads 1 s (encode imgIndicator) tail .imgDesc t ∧ t.scratch = s.scratch ∧ t.status = s.status :=
  hP.reads_row (i := imgIndicator) (by simp [parseSlot, hP.pst]) rfl rfl nofun ha (fun _ => rfl) rfl

theorem Parsing.reads_img {l t w h : Half} {p : Byte} (hP : Parsing .imgDesc s)
    (ha : available s.src.answers = encode (imgAt l t w h p) ++ tail) :
    ∃ u, Reads 1 s (encode (imgAt l t w h p)) tail (if ctLen (lctFlag p) (lctExp p) = 0 then .minCode else .lct) u ∧
      u.scratch = { s.scratch with img := ⟨l, t, w, h, p, none, 0, []⟩ } ∧ u.status = s.status :=
  hP.reads_row (i := imgAt l t w h p) (by simp [parseSlot, hP.pst]) rfl rfl nofun ha (fun _ => rfl) rfl

theorem Parsing.reads_lct {tab : List Rgb} (hP : Parsing .lct s)
    (hlen : tab.length = ctLen (lctFlag s.scratch.img.packed) (lctExp s.scratch.img.packed))
    (hok : tableLengths.contains tab.length = true) (ha : available s.src.answers = encode (.lct tab) ++ tail) :
    ∃ t, Reads 1 s (encode (.lct tab)) tail .minCode t ∧
      t.scratch = { s.scratch with img := { s.scratch.img with lct := some tab } } ∧ t.status = s.status :=
  hP.reads_row (i := .lct tab) (by simp [parseSlot, hP.pst, hlen]) rfl hok nofun ha (fun _ => rfl) rfl

theorem Parsing.reads_mcs {k : Byte} (hP : Parsing .minCode s) (ha : available s.src.answers = encode (.mcs k) ++ tail) :
    ∃ t, Reads 1 s (encode (.mcs k)) tail .lzw t ∧
      t.scratch = { s.scratch with img := { s.scratch.img with minCodeSize := k } } ∧ t.status = s.status :=
  hP.reads_row (i := .mcs k) (by simp [parseSlot, hP.pst]) rfl rfl nofun ha (fun _ => rfl) rfl

end Image

/-- Settles O44: indicator and descriptor, the table where it is announced, the minimum code size. -/
theorem imageDescriptorThenLocalTable : Obligations.ImageDescriptorThenLocalTable := by
  intro s l t w h p k table rest hP ha
  obtain ⟨s1, hind, hscr1, -⟩ := hP.reads_imgIndicator
    (tail := encode (imgAt l t w h p) ++ (table ++ ([k] ++ rest))) (by rw [ha]; simp [encode, imgIndicator, imgAt])
  obtain ⟨s2, himg, hscr2, -⟩ := hind.parsing.reads_img hind.left
  rw [hscr1] at hscr2
  have hopen := hind.trans himg
  refine ⟨fun hp htable => ?_, fun hp hlen => ?_⟩
  · rw [if_pos (show ctLen (lctFlag p) (lctExp p) = 0 from ctLen_absent hp)] at himg
    obtain ⟨u, hmcs, hscr, -⟩ := himg.parsing.reads_mcs (by rw [himg.left, htable]; rfl)
    have hall := hopen.trans hmcs
    rw [hscr2] at hscr
    refine ⟨u, hall.run_eq rfl, hall.parsing, ?_⟩
    rw [hscr]
    exact ⟨rfl, rfl, rfl, rfl, rfl, rfl, rfl, rfl, hall.pos, hall.left⟩
  · rw [if_neg (show ctLen (lctFlag p) (lctExp p) ≠ 0 from ctLen_announced_ne_zero hp)] at himg
    obtain ⟨tab, rfl, htab, hok⟩ := exists_table hp hlen
    obtain ⟨s3, hlct, hscr3, -⟩ := himg.parsing.reads_lct (by rw [hscr2]; exact htab) hok himg.left
    obtain ⟨u, hmcs, hscr, -⟩ := hlct.parsing.reads_mcs hlct.left
    have hall := hopen.trans (hlct.trans hmcs)
    rw [hscr3, hscr2] at hscr
    refine ⟨u, tab, hall.run_eq rfl, hall.parsing, ?_⟩
    rw [hscr]
    refine ⟨rfl, rfl, rfl, rfl, rfl, rfl, rfl, htab.trans (ctLen_announced hp), rfl, rfl, ?_, hall.left⟩
    rw [hall.pos]
    simp [encode, imgIndicator, imgAt, encodeU16]
    omega

/-! ## A sub-block loop -/

/-- The places of a sub-block loop. -/
def inLoop (p : PState) : Prop := p = .comment ∨ p = .app ∨ p = .pte ∨ p = .skip

theorem parseSlot_inLoop {p : PState} {s : State} (hp : s.pst = p) (hl : inLoop p) (hd : s.scratch.headerDue = false) :
    parseSlot s = some .subBlock := by
  rcases hl with rfl | rfl | rfl | rfl <;> simp [parseSlot, hp, hd]

section Loop

variable {p : PState} {s : State} {tail : List Byte}

theorem Parsing.reads_sbData {f : List Byte} (hP : Parsing p s) (hl : inLoop p) (hd : s.scratch.headerDue = false)
    (hf : 1 ≤ f.length ∧ f.length ≤ 255) (ha : available s.src.answers = encode (.sbData f) ++ tail) :
    ∃ t, Reads 1 s (encode (.sbData f)) tail p t ∧
      t.scratch = { s.scratch with frags := collected p s.scratch.frags [f] } ∧ t.status = s.status := by
  refine hP.reads_row (i := .sbData f) (d := { s.dec with sbrem := 0 }) (parseSlot_inLoop hP.pst hl hd) rfl
    ((wellFormed_sbData_iff f).2 hf) nofun ha (fun rest => ?_) rfl
  rw [exec_sbData, took_pst, hP.pst]
  rfl

/-- The terminator, with this spec's PTE_POLICY. -/
theorem Parsing.reads_sbTerm (hP : Parsing p s) (hl : inLoop p) (hd : s.scratch.headerDue = false)
    (ha : available s.src.answers = encode .sbTerm ++ tail) :
    ∃ t, Reads 1 s (encode .sbTerm) tail .loop t ∧ t.scratch = { s.scratch with doc := storedDoc p s.scratch } ∧
      t.status = if p = .pte then { s.status with pteSeen := true } else s.status := by
  refine hP.reads_row (i := .sbTerm) (d := { s.dec with sbrem := 0, sbterm := true }) (parseSlot_inLoop hP.pst hl hd) rfl rfl
    nofun ha (fun rest => ?_) (by split <;> rfl)
  rw [exec_sbTerm_loop (s := took (encode .sbTerm) rest s) fun _ => hP.continues, termStored, took_pst, hP.pst]
  rfl

/-- The data sub-blocks of a loop, one row each. -/
theorem Parsing.reads_fragments {frags : List (List Byte)} (hP : Parsing p s) (hl : inLoop p) (hd : s.scratch.headerDue = false)
    (hok : payloadsOk frags) (ha : available s.src.answers = (frags.flatMap fun f => encode (.sbData f)) ++ tail) :
    ∃ t, Reads frags.length s (frags.flatMap fun f => encode (.sbData f)) tail p t ∧
      t.scratch = { s.scratch with frags := collected p s.scratch.frags frags } ∧ t.status = s.status := by
  induction frags generalizing s with
  | nil => exact ⟨s, hP.reads_none ha, by rw [collected_nil], rfl⟩
  | cons f frags ih =>
    rw [List.flatMap_cons, List.append_assoc] at ha
    obtain ⟨hf, hok'⟩ := List.forall_mem_cons.1 hok
    obtain ⟨t, hdata, hscr, hst⟩ := hP.reads_sbData hl hd hf ha
    obtain ⟨u, hrest, hscr', hst'⟩ := ih hdata.parsing (by rw [hscr]; exact hd) hok' hdata.left
    refine ⟨u, hdata.trans hrest, ?_, hst'.trans hst⟩
    rw [hscr', hscr, collected_collected, List.singleton_append]

/-- A whole sub-block loop behind the row that has opened it. -/
theorem Reads.loop {n : Nat} {used : List Byte} {t : State} {frags : List (List Byte)}
    (h : Reads n s used (subBlocks frags ++ tail) p t) (hl : inLoop p) (hd : t.scratch.headerDue = false)
    (hnew : t.scratch.frags = []) (hok : payloadsOk frags) :
    ∃ u, Reads (frags.length + 1 + n) s (used ++ subBlocks frags) tail .loop u ∧
      u.scratch.doc = storedDoc p { t.scratch with frags := collected p [] frags } ∧
      u.status = if p = .pte then { t.status with pteSeen := true } else t.status := by
  have ha : available t.src.answers = (frags.flatMap fun f => encode (.sbData f)) ++ (encode .sbTerm ++ tail) :=
    h.left.trans (List.append_assoc ..)
  obtain ⟨v, hdata, hscr, hst⟩ := h.parsing.reads_fragments hl hd hok ha
  obtain ⟨u, hterm, hscr', hst'⟩ := hdata.parsing.reads_sbTerm hl (by rw [hscr]; exact hd) hdata.left
  rw [hst] at hst'
  refine ⟨u, ?_, ?_, hst'⟩
  · rw [Nat.add_comm frags.length]
    exact h.trans (hdata.trans hterm)
  · rw [hscr', hscr, hnew]

end Loop

/-! ## The extensions -/

section Label

variable {p : PState} {s : State} {i j : Instr} {slot : Slot} {keep : Scratch → Scratch} {tail : List Byte}

/-- A row that opens a sub-block loop behind what it keeps of its fixed part. -/
theorem Parsing.reads_open {q : PState} (hP : Parsing q s) (hp : parseSlot s = some slot) (hs : slotOf i = some slot)
    (hw : i.wellFormed = true) (he : i ≠ .eos)
    (hx : ∀ u, exec i u = .next (startSubBlocks p { u with scratch := keep u.scratch }))
    (ha : available s.src.answers = encode i ++ tail) :
    ∃ t, Reads 1 s (encode i) tail p t ∧ t.scratch = { keep s.scratch with headerDue := false, frags := [] } ∧
      t.status = s.status :=
  hP.reads_row (d := clearSubBlockFlags s.dec) hp hs hw he ha (fun _ => hx _) rfl

/-- A label and the fixed part that it makes due. -/
theorem Parsing.reads_label_open (hP : Parsing .label s) (hi : slotOf i = some .label) (hiw : i.wellFormed = true)
    (hie : i ≠ .eos) (hix : ∀ u, exec i u = .next (awaitHeader p u))
    (hp : ∀ t : State, t.pst = p → t.scratch.headerDue = true → parseSlot t = some slot) (hj : slotOf j = some slot)
    (hjw : j.wellFormed = true) (hje : j ≠ .eos)
    (hjx : ∀ u, exec j u = .next (startSubBlocks p { u with scratch := keep u.scratch }))
    (ha : available s.src.answers = encode i ++ (encode j ++ tail)) :
    ∃ t, Reads 2 s (encode i ++ encode j) tail p t ∧
      t.scratch = { keep { s.scratch with headerDue := true } with headerDue := false, frags := [] } ∧ t.status = s.status := by
  obtain ⟨t, hlabel, hscr, hst⟩ : ∃ t, Reads 1 s (encode i) (encode j ++ tail) p t ∧
      t.scratch = { s.scratch with headerDue := true } ∧ t.status = s.status :=
    hP.reads_row (d := s.dec) (by simp [parseSlot, hP.pst]) hi hiw hie ha (fun _ => hix _) rfl
  obtain ⟨u, hfixed, hscr', hst'⟩ :=
    hlabel.parsing.reads_open (hp t hlabel.parsing.pst (by rw [hscr])) hj hjw hje hjx hlabel.left
  exact ⟨u, hlabel.trans hfixed, by rw [hscr', hscr], hst'.trans hst⟩

end Label

theorem utf8Lossy_valid {f : List Byte} (h : utf8Valid f = true) : utf8Lossy f = f := if_pos h

/-- Settles O45: the label opens a loop (`Parsing.reads_open`), and what the loop leaves is `storedDoc`. -/
theorem commentAndUnknownExtensionsRead : Obligations.CommentAndUnknownExtensionsRead := by
  intro s lab frags rest hP hok ha
  rw [List.append_assoc] at ha
  have hslot : parseSlot s = some .label := by simp [parseSlot, hP.pst]
  refine ⟨?_, fun hGce hCom hApp hPte => ?_⟩
  · rintro rfl
    obtain ⟨t, hlabel, hscr, -⟩ :=
      hP.reads_open (i := .extCom) (p := .comment) (keep := id) hslot rfl rfl nofun (fun _ => rfl) ha
    obtain ⟨u, hall, hdoc, -⟩ := hlabel.loop (.inl rfl) (by rw [hscr]) (by rw [hscr]) hok
    refine ⟨u, hall.run_eq rfl, hall.parsing, by rw [hdoc, hscr]; rfl, fun hv => ?_, hall.pos_append, hall.left⟩
    rw [List.map_congr_left fun f hf => utf8Lossy_valid (hv f hf), List.map_id']
  · obtain ⟨t, hlabel, hscr, hst⟩ := hP.reads_open (i := .extSkip lab) (p := .skip) (keep := id) hslot rfl
      ((wellFormed_extSkip_iff lab).2 ⟨hGce, hCom, hApp, hPte⟩) nofun (fun _ => rfl) ha
    obtain ⟨u, hall, hdoc, hst'⟩ := hlabel.loop (.inr (.inr (.inr rfl))) (by rw [hscr]) (by rw [hscr]) hok
    refine ⟨u, hall.run_eq rfl, hall.parsing, by rw [hdoc, hscr]; rfl, hall.doc, hst'.trans hst, hall.pos_append, hall.left⟩

/-- Settles O46: label and fixed part open the loop (`Parsing.reads_label_open`), and what the loop leaves is `storedDoc`. -/
theorem applicationAndPlainTextRead : Obligations.ApplicationAndPlainTextRead := by
  intro s frags rest hP hok
  refine ⟨fun a b ha => ?_, fun f ha => ?_⟩
  · obtain ⟨t, hopen, hscr, hst⟩ := hP.reads_label_open (i := .extApp .label) (j := .extApp (.header a b)) (p := .app)
      (slot := .appHeader) (keep := fun c => { c with appId := a, appAuth := b }) (tail := subBlocks frags ++ rest)
      rfl rfl nofun (fun _ => rfl) (fun t hp hd => by simp [parseSlot, hp, hd]) rfl rfl nofun (fun _ => rfl)
      (by rw [ha]; simp only [List.append_assoc]; rfl)
    obtain ⟨u, hall, hdoc, hst'⟩ := hopen.loop (.inr (.inl rfl)) (by rw [hscr]) (by rw [hscr]) hok
    refine ⟨u, hall.run_eq rfl, hall.parsing, hst'.trans hst, by rw [hdoc, hscr]; rfl, hall.pos_append, hall.left⟩
  · obtain ⟨t, hopen, hscr, hst⟩ := hP.reads_label_open (i := .extPte .label) (j := .extPte (.header f)) (p := .pte)
      (slot := .pteHeader) (keep := fun c => { c with pteFields := f }) (tail := subBlocks frags ++ rest)
      rfl rfl nofun (fun _ => rfl) (fun t hp hd => by simp [parseSlot, hp, hd]) rfl rfl nofun (fun _ => rfl)
      (by rw [ha]; simp only [List.append_assoc]; rfl)
    obtain ⟨u, hall, hdoc, hst'⟩ := hopen.loop (.inr (.inr (.inl rfl))) (by rw [hscr]) (by rw [hscr]) hok
    refine ⟨u, hall.run_eq rfl, hall.parsing, by rw [hst', hst]; rfl, by rw [hdoc, hscr]; rfl, hall.pos_append, hall.left⟩

end Sys2Proof.Machine
end

section
/-! PROOFS. The serializer (44_container_serializer.md): which part a step runs (R271, R284, R285), what each part writes and where it
hands over (R272 to R280), and that a write SNK refuses is the only fault of a SERIALIZE or an ENCODE (R282; 42_lzw_encoder.md R212). -/

namespace Sys2Proof.Machine

/-! ## The selection of a part -/

/-- The row of the part that SST stands at (44_container_serializer.md R271, R285). -/
def partRow : SState → Option Instr
  | .header => some .sHdr
  | .lsd => some .sLsd
  | .gct => some .sGct
  | .gce => some .sGce
  | .comment => some .sCom
  | .app => some .sApp
  | .pte => some .sPte
  | .image => some .sImg
  | .trailer => some .sTrl
  | .idle => none
  | .done => none
  | .fault => none

theorem fetchPart_eq (s : State) : fetchPart s = (partRow s.sst).map fun i => .ok i s := by
  unfold fetchPart
  cases s.sst <;> rfl

theorem coreStep_part {s : State} {i : Instr} (hb : s.busy = true) (hu : s.lzwUnit = .off) (hc : s.cmd = .serialize)
    (hi : partRow s.sst = some i) : coreStep s = exec i s := by
  have hf : fetch s = some (.ok i s) := by rw [fetch_serialize hu hc, fetchPart_eq, hi]; rfl
  rw [coreStep_some hb hf, Res.toOutcome_ok]

/-- Settles O11: the step runs the row that `partRow` names for SST. -/
theorem stepRunsPartOfSst : Obligations.StepRunsPartOfSst := by
  intro s t hq hb hc hu
  have run : ∀ {p i}, partRow p = some i → t.sst = p → step s = capped (exec i t) := fun hi hp => by
    rw [step_quiet hq, coreStep_part hb hu hc (hp ▸ hi)]
  exact ⟨run rfl, run rfl, run rfl, run rfl, run rfl, run rfl, run rfl, run rfl, run rfl⟩

/-! ## The parts that only write -/

/-- `emitPart_room` for bytes written out in another form. -/
theorem emitPart_wrote {here next : SState} {write : Document → State → Res Unit} {bytes : Document → List Byte}
    (hw : ∀ d, Writes (write d) (bytes d)) {s : State} {d : Document} {bs : List Byte} (hd : s.doc = some d)
    (hr : room s bs.length = true) (hb : bs = bytes d) :
    emitPart here next write s = .next (wrote bs { s with sst := next }) := by
  subst hb
  exact emitPart_room hw hd hr

/-- Settles O33: the bytes of both parts are those of `writes_hdr` and `writes_lsd`. -/
theorem headerAndScreenWritten : Obligations.HeaderAndScreenWritten := by
  intro s d hd
  refine ⟨fun sig ver hsig hver hr => ?_, fun hr => emitPart_wrote writes_lsd hd hr rfl⟩
  subst hsig hver
  exact emitPart_wrote writes_hdr hd hr rfl

/-- Settles O34: each part writes what its records write (`writes_putOptTable`, `writes_putGce`, `writes_putComment`,
`writes_putApp`), one after another. -/
theorem tableAndExtensionsWritten : Obligations.TableAndExtensionsWritten := by
  intro s d bs hd hr
  refine ⟨fun h => ?_, emitPart_wrote (fun d => writes_putEach writes_putGce d.gces) hd hr,
    emitPart_wrote (fun d => writes_putEach writes_putComment d.comments) hd hr, fun h => ?_⟩
  · refine emitPart_wrote (fun d => writes_putOptTable d.gct) hd hr ?_
    rw [h]
    cases d.gct <;> rfl
  · refine emitPart_wrote (fun d => writes_putEach writes_putApp d.apps) hd hr ?_
    simpa only [List.append_assoc] using h

/-- Settles O35: the two branches of S.PTE, with the bytes of `writes_pte`. -/
theorem plainTextsWritten : Obligations.PlainTextsWritten := by
  intro s d bs hd hr
  refine ⟨fun h => ?_, fun h hbs => ?_⟩
  · have hw := emitPart_wrote (here := .pte) (next := .image) (bs := []) writes_pte hd (room_zero s) (by rw [if_pos h])
    rwa [wrote_nil] at hw
  · refine emitPart_wrote writes_pte hd hr ?_
    rw [if_neg h]
    simpa only [List.append_assoc] using hbs

/-! ## S.IMG -/

theorem alphabetOk_iff (k : Nat) (pix : List Byte) : alphabetOk k pix = true ↔ ∀ p, p ∈ pix → p.toNat < 2 ^ k := by
  simp only [alphabetOk, List.all_eq_true, decide_eq_true_eq]

/-- Where SNK takes the head of the next image, S.IMG comes to the two tests of the encode. -/
theorem execSImg_room {s : State} {d : Document} {m : ImageBlock} (hd : s.doc = some d) (hm : d.images[s.imgIdx]? = some m)
    (hr : room s (imageHead m).length = true) :
    execSImg s = startImageEncode m (wrote (imageHead m) { s with sst := .image }) := by
  have hhead := execSImg_image (s := { s with sst := .image }) hd hm rfl
  rw [(writes_putImageHead m).full { s with sst := .image } hr, Res.toOutcome_ok] at hhead
  exact hhead

/-- Settles O36: behind the head (`execSImg_room`) the encode starts, or one of its two tests refuses it. -/
theorem imageHeadWrittenAndEncodeStarted : Obligations.ImageHeadWrittenAndEncodeStarted := by
  intro s d hd
  refine ⟨execSImg_last hd, fun m bs hm hbs hr => ?_⟩
  have hhead : bs = imageHead m := by
    rw [hbs, imageHead]
    simp only [List.append_assoc]
    cases m.lct <;> rfl
  subst hhead
  have hexec : exec .sImg s = startImageEncode m (wrote (imageHead m) { s with sst := .image }) := execSImg_room hd hm hr
  rw [hexec]
  refine ⟨fun h2 h8 ha => ?_, fun hk => ?_, fun h2 h8 ⟨p, hp, hlt⟩ => ?_⟩
  · exact ⟨_, startImageEncode_ok ((minCodeSizeOk_iff _).2 ⟨h2, h8⟩) ((alphabetOk_iff _ _).2 ha),
      rfl, rfl, rfl, rfl, tabRead_nil, rfl, rfl, rfl, rfl, rfl, rfl, rfl⟩
  · exact startImageEncode_k fun h => by have := (minCodeSizeOk_iff _).1 h; omega
  · exact startImageEncode_alphabet ((minCodeSizeOk_iff _).2 ⟨h2, h8⟩) fun h =>
      absurd ((alphabetOk_iff _ _).1 h p hp) (Nat.not_lt.2 hlt)

/-! ## S.TRL -/

theorem execSTrl_room {s : State} (hr : room s 1 = true) :
    execSTrl s = .next (finishCommand { wrote [0x3B] s with sst := .done }) := by
  rw [execSTrl, (writes_mustPut 0x3B).full { s with sst := .trailer } hr, Res.toOutcome_ok]
  rfl

/-- Settles O37: the byte is written and the command finishes; `finishCommand` leaves free LZW objects. -/
theorem trailerWrittenEndsSerialize : Obligations.TrailerWrittenEndsSerialize :=
  fun _ hr => ⟨_, execSTrl_room hr, rfl, rfl, rfl, rfl, rfl⟩

/-! ## A write that SNK refuses -/

theorem finishEncode_no_fault {s : State} (h : s.status.state ≠ .doneFault) : (finishEncode s).status.state ≠ .doneFault := by
  by_cases hc : s.cmd = .serialize
  · rw [finishEncode_serialize hc]; exact h
  · rw [finishEncode_other hc]; simp [okStatus]

/-- All a step of a SERIALIZE or an ENCODE can do, as far as SNK is concerned: the fault of the first write that SNK refuses, or the
whole of what it would write and no fault. -/
inductive WriteStep (s : State) : Host.Outcome State Fault Refusal → Prop where
  | failed (b : Byte) (ws all : List Byte) (e : Encoder) (h : s.snk.okWrites = some ws.length) (ha : ws ++ [b] <+: all)
      (hw : WouldWrite s all) :
      WriteStep s (.next (takeFault (.ioError .writeFailure) (s.spos + ws.length) (failedWrite b (wrote ws { s with enc := e }))))
  | whole (all : List Byte) (o : Host.Outcome State Fault Refusal) (hr : room s all.length = true) (hw : WouldWrite s all)
      (hno : ∀ u, o = .next u → u.status.state ≠ .doneFault) : WriteStep s o

/-- A step that goes on without a fault and writes all that it would. -/
theorem WriteStep.of_next {s u : State} {all : List Byte} (hr : room s all.length = true) (hw : WouldWrite s all)
    (hu : u.status.state ≠ .doneFault) : WriteStep s (.next u) := .whole all _ hr hw fun v hv => by cases hv; exact hu

/-- What a step refused behind an image's head would write is the head. -/
theorem wouldWrite_refused {s : State} {m : ImageBlock} {r : Refusal} (hm : imageAtHand s = some m)
    (h : coreStep (roomy s) = .refused r) : WouldWrite s (imageHead m) where
  image := fun m' hm' => by rw [hm] at hm'; cases hm'; rfl
  bytes := fun v hv => by rw [h] at hv; cases hv
  goesOn := fun hn => by rw [hm] at hn; cases hn

theorem PartStep.writeStep {s : State} {o : Host.Outcome State Fault Refusal} (h : PartStep s o) (hd : s.doc ≠ none)
    (hs : s.status.state ≠ .doneFault) : WriteStep s o := by
  cases h with
  | refused r h hi =>
    obtain ⟨m, hm, hr⟩ := hi.resolve_left hd
    exact .whole _ _ hr (wouldWrite_refused hm h) fun u hu => by cases hu
  | failed b ws all h ha hw => exact .failed b ws all s.enc h ha hw
  | handed ws next h hr hw hi => exact .of_next hr hw hs
  | image ws d m h hd' hm hr hw hk ha => exact .of_next hr hw hs
  | done h hr hw => exact .of_next (all := [0x3B]) hr hw (by simp [okStatus])

theorem EncodeStep.writeStep {s u : State} (h : EncodeStep s u) (hs : s.status.state ≠ .doneFault) : WriteStep s (.next u) := by
  cases h with
  | failed b ws all e h ha hw => exact .failed b ws all e h ha hw
  | clear0 ws e h hr hw => exact .of_next hr hw hs
  | ran ws e p h hr hw => exact .of_next hr hw hs
  | finished ws e h hr hw => exact .of_next hr hw (finishEncode_no_fault hs)

theorem state_ne_fault_of_busy {s : State} (h : s.busy = true) : s.status.state ≠ .doneFault := by
  intro hs
  simp [State.busy, hs] at h

/-- Under the invariant a SERIALIZE has a Document, so the step of either command is a `WriteStep`. -/
theorem writeStep_cases {s : State} (hctl : controlOk s) (hb : s.busy = true) (hc : s.cmd = .serialize ∨ s.cmd = .encode) :
    WriteStep s (coreStep s) := by
  have hs := state_ne_fault_of_busy hb
  have enc : encoding s.lzwUnit = true → WriteStep s (coreStep s) := fun hu => by
    obtain ⟨u, hcore, hstep⟩ := encodeStep_cases hb hu
    rw [hcore]
    exact hstep.writeStep hs
  unfold controlOk at hctl
  rcases hc with hc | hc <;> simp only [hc] at hctl
  · obtain ⟨hd, ⟨hu, hp⟩ | ⟨hu, -⟩⟩ := hctl
    · exact (partStep_cases hb hu hc hp).writeStep hd hs
    · exact enc hu
  · exact enc hctl

theorem WriteStep.wouldWrite {s : State} {o : Host.Outcome State Fault Refusal} (h : WriteStep s o) :
    ∃ all, WouldWrite s all := by
  cases h with
  | failed b ws all e h ha hw => exact ⟨all, hw⟩
  | whole all _ hr hw => exact ⟨all, hw⟩

/-- What the fault of a write leaves, where SNK has taken the first `m` bytes of `all`. -/
def WriteFailed (s u : State) (m : Nat) (all : List Byte) : Prop :=
  u.status.state = .doneFault ∧ u.status.err = 1 ∧ u.errInfo = ⟨.ioError .writeFailure, s.spos + m⟩ ∧
    (u.snk.bytes = s.snk.bytes ++ all.take m ∨ u.snk.bytes = s.snk.bytes ++ all.take (m + 1)) ∧ u.spos = s.spos + m ∧
    u.doc = s.doc ∧ (s.cmd = .serialize → u.sst = .fault)

/-- Whether the byte of a failed write reached SNK is open (U6). -/
theorem failedWrite_bytes (b : Byte) (s : State) :
    (failedWrite b s).snk.bytes = s.snk.bytes ∨ (failedWrite b s).snk.bytes = s.snk.bytes ++ [b] := by
  show (if Config.freeBool s.fresh 0 then s.snk.bytes ++ [b] else s.snk.bytes) = _ ∨
    (if Config.freeBool s.fresh 0 then s.snk.bytes ++ [b] else s.snk.bytes) = _
  split
  · exact .inr rfl
  · exact .inl rfl

theorem writeFailed_takeFault {s : State} {b : Byte} {ws all : List Byte} (e : Encoder) (ha : ws ++ [b] <+: all)
    (hc : s.cmd ≠ .parse) :
    WriteFailed s (takeFault (.ioError .writeFailure) (s.spos + ws.length) (failedWrite b (wrote ws { s with enc := e })))
      ws.length all := by
  have hws : ws = all.take ws.length := List.prefix_iff_eq_take.1 ((List.prefix_append ws [b]).trans ha)
  have hwsb : ws ++ [b] = all.take (ws.length + 1) := by simpa using List.prefix_iff_eq_take.1 ha
  refine ⟨by simp, by simp [causeCode], by simp, ?_, by rw [takeFault_spos]; rfl,
    by rw [takeFault_doc]; exact if_neg hc, fun h => by rw [takeFault_sst]; exact if_pos h⟩
  rw [takeFault_snk, ← hws, ← hwsb, ← List.append_assoc]
  exact failedWrite_bytes b (wrote ws { s with enc := e })

theorem WriteStep.fault {s u : State} (h : WriteStep s (.next u)) (hc : s.cmd ≠ .parse) (hf : u.status.state = .doneFault) :
    ∃ m all, s.snk.okWrites = some m ∧ WouldWrite s all ∧ m < all.length ∧ WriteFailed s u m all := by
  cases h with
  | failed b ws all e h ha hw =>
    exact ⟨ws.length, all, h, hw, by simpa using ha.length_le, writeFailed_takeFault e ha hc⟩
  | whole all _ hr hw hno => exact absurd hf (hno u rfl)

theorem WriteStep.short {s : State} {o : Host.Outcome State Fault Refusal} (h : WriteStep s o) (hc : s.cmd ≠ .parse) {m : Nat}
    {all : List Byte} (hm : s.snk.okWrites = some m) (hw : WouldWrite s all) (hl : m < all.length) :
    ∃ u, o = .next u ∧ WriteFailed s u m all := by
  cases h with
  | failed b ws all' e h ha hw' =>
    obtain rfl := hw'.unique hw
    obtain rfl : ws.length = m := Option.some.inj (h.symm.trans hm)
    exact ⟨_, rfl, writeFailed_takeFault e ha hc⟩
  | whole all' _ hr hw' =>
    obtain rfl := hw'.unique hw
    exact absurd ((room_some hm _).1 hr) (Nat.not_le.2 hl)

/-- Settles O56: the step is a `WriteStep`, which faults exactly where SNK takes fewer bytes than it would write. -/
theorem writeFailureKeepsWhatWasWritten : Obligations.WriteFailureKeepsWhatWasWritten := by
  intro s t hI hb hq hc failed
  have hstep := writeStep_cases ((inv_quiet hI hq).control hb) hb hc
  have hp : t.cmd ≠ .parse := by rcases hc with hc | hc <;> simp [hc]
  refine ⟨hstep.wouldWrite, fun u hu hf => ?_, fun m all hm hw hl => ?_⟩
  · rw [step_next_quiet hq hu] at hstep
    exact hstep.fault hp hf
  · obtain ⟨u, hcore, hfail⟩ := hstep.short hp hm hw hl
    exact ⟨u, by rw [step_quiet hq, hcore], hfail⟩

end Sys2Proof.Machine
end

section
/-! PROOFS. The commands' starts, refusals and faults (60_exceptions.md): what the host does between two commands (R310, R321, R322),
how each command starts (R311 to R314) and what is refused instead (93_implementation_defined.md U1 to U5), what a fault records and
leaves (R301 to R309), and how a command ends (R319). -/

namespace Sys2Proof.Machine

/-! ## The host between two commands -/

/-- R310: no command is accepted while one runs. -/
theorem exec_command_busy {s : State} (c : StartCommand) (hb : s.busy = true) : exec (decodeCommand c) s = .refused .busy := by
  cases c with
  | parse => exact if_pos hb
  | serialize => exact if_pos hb
  | decode => exact if_pos hb
  | encode => exact if_pos hb

theorem hostWrite_busy {s : State} (f : State → State) (hb : s.busy = true) : hostWrite f s = .refused .busy := if_pos hb

theorem hostWrite_idle {s : State} (f : State → State) (hb : s.busy = false) : hostWrite f s = .next (f s) :=
  hostWrite_next_iff.2 ⟨hb, rfl⟩

theorem hostStep_busy {s : State} (a : HostAction) (hb : s.busy = true) : hostStep a s = .refused .busy := by
  cases a with
  | writeCmd c => exact exec_command_busy c hb
  | _ => exact hostWrite_busy _ hb

/-- Settles O13: an act that lands is `hostStep`, which refuses every act where the CORE is BUSY and else makes it. -/
theorem hostActsBetweenCommands : Obligations.HostActsBetweenCommands := by
  intro s t
  refine ⟨fun a ha => ?_, fun hq hb => by rw [step_quiet hq, coreStep_idle hb]⟩
  rw [step_act ha]
  refine ⟨fun hb => by rw [hostStep_busy a hb, capped_refused], fun hb => ⟨?_, ?_, ?_, ?_, ?_, ?_⟩⟩ <;> rintro x rfl
  · exact congrArg capped (hostWrite_idle (attachSource x) hb)
  · exact congrArg capped (hostWrite_idle (attachSink x) hb)
  · exact congrArg capped (hostWrite_idle (writeArgK x) hb)
  · exact congrArg capped (hostWrite_idle (writePix x) hb)
  · exact congrArg capped (hostWrite_idle (putDocument x) hb)
  · rfl

/-! ## The starts -/

/-- Settles O16: the state PSTART leaves (`execParse_next_iff`), field by field. -/
theorem parseStarts : Obligations.ParseStarts := fun _ hb hs =>
  ⟨_, execParse_next_iff.2 ⟨hb, hs, rfl⟩, rfl, rfl, rfl, rfl, rfl, rfl, rfl, rfl, rfl, rfl, rfl, rfl, rfl, rfl⟩

/-- Settles O17: the state behind the three tests of SERIALIZE (`execSerialize_next_iff`), field by field. -/
theorem serializeStarts : Obligations.SerializeStarts := fun _ hb hd hs =>
  ⟨_, execSerialize_next_iff.2 ⟨hb, hd, hs, rfl⟩, rfl, rfl, rfl, rfl, rfl, rfl, rfl, rfl, rfl⟩

/-- Settles O18: START's registers are written out in `startDecoder`, and its dictionary holds the literals alone
(`dictRead_dictInit`). -/
theorem decodeStarts : Obligations.DecodeStarts := fun _ hb hs ha h2 h8 =>
  ⟨_, execDecode_next_iff.2 ⟨hb, hs, ha, (minCodeSizeOk_iff _).2 ⟨h2, h8⟩, rfl⟩, rfl, rfl, rfl, rfl, rfl, rfl, rfl, rfl, rfl, rfl,
    rfl, rfl, rfl, rfl, rfl, fun i hi => (dictRead_dictInit _ i).trans (if_pos hi),
    fun i hi => (dictRead_dictInit _ i).trans (if_neg (Nat.not_lt.2 hi)), rfl, rfl, rfl⟩

/-- Settles O19: ESTART's registers are written out in `startEncoder`, and its table is empty. -/
theorem encodeStarts : Obligations.EncodeStarts := fun _ hb hs ha hp h2 h8 hpix =>
  ⟨_, execEncode_next_iff.2 ⟨hb, hs, ha, hp, (minCodeSizeOk_iff _).2 ⟨h2, h8⟩, (alphabetOk_iff _ _).2 hpix, rfl⟩,
    rfl, rfl, rfl, rfl, rfl, rfl, rfl, rfl, tabRead_nil, rfl, rfl, rfl, rfl, rfl, rfl, rfl, rfl, rfl⟩

/-! ## The refusals -/

theorem minCodeSizeOk_false {k : Nat} (h : k < 2 ∨ 8 < k) : minCodeSizeOk k = false := by
  rw [Bool.eq_false_iff, ne_eq, minCodeSizeOk_iff]
  omega

theorem alphabetOk_false {k : Nat} {pix : List Byte} (h : ∃ p, p ∈ pix ∧ 2 ^ k ≤ p.toNat) : alphabetOk k pix = false := by
  obtain ⟨p, hp, hk⟩ := h
  rw [Bool.eq_false_iff, ne_eq, alphabetOk_iff]
  exact fun hall => absurd (hall p hp) (Nat.not_lt.2 hk)

theorem emitPart_none {here next : SState} {write : Document → State → Res Unit} {s : State} (hd : s.doc = none) :
    emitPart here next write s = .refused .noDocument := by
  rw [emitPart, hd]

/-- The start of an image's encode overwrites the buffer (R48). -/
theorem startImageEncode_pixWritten {m : ImageBlock} {s t : State} (h : startImageEncode m s = .next t) :
    t.pixWritten = false := by
  obtain ⟨-, h⟩ := refuse_ite_next.1 h
  obtain ⟨-, h⟩ := refuse_ite_next.1 h
  cases h
  rfl

/-- S.IMG leaves a unit running only where it has started an image's encode: behind the last image it starts none, and the fault of
a write leaves none. -/
theorem execSImg_pixWritten {s t : State} (hu : s.lzwUnit = .off) (h : execSImg s = .next t) (ht : t.lzwUnit ≠ .off) :
    t.pixWritten = false := by
  cases hd : s.doc with
  | none => rw [execSImg_none hd] at h; cases h
  | some d =>
    cases hm : d.images[s.imgIdx]? with
    | none => rw [execSImg_last hd hm] at h; cases h; exact absurd hu ht
    | some m =>
      have himage : execSImg s = (putImageHead m { s with sst := .image }).toOutcome fun _ t => startImageEncode m t :=
        execSImg_image (s := { s with sst := .image }) hd hm rfl
      rw [himage] at h
      cases hr : putImageHead m { s with sst := .image } with
      | ok _ v => rw [hr] at h; exact startImageEncode_pixWritten h
      | raise c p v => rw [hr] at h; cases h; exact absurd (takeFault_lzwUnit c p v) ht

/-- The starts that overwrite the buffer: of a decode, and of an image's encode (R48, R341). -/
theorem exec_start_pixWritten {s t : State} {i : Instr} (hi : i = .decode ∨ i = .lzw ∨ i = .sImg) (hu : s.lzwUnit = .off)
    (h : exec i s = .next t) (ht : t.lzwUnit ≠ .off) : t.pixWritten = false := by
  rcases hi with rfl | rfl | rfl
  · obtain ⟨-, -, -, -, rfl⟩ := execDecode_next_iff.1 h
    rfl
  · change execLzw s = _ at h
    rw [execLzw] at h
    split at h <;> cases h
    rfl
  · exact execSImg_pixWritten hu h ht

/-- Settles O20: each command asks its tests in one order, and the first that fails names the refusal. -/
theorem undefinedCommandsRefused : Obligations.UndefinedCommandsRefused := by
  refine ⟨fun c _ => exec_command_busy c, fun s hb hd => ?_, fun s hb hs ha => ?_, fun s hb hs ha => ?_,
    fun s hb hs ha hp => ?_, fun _ _ _ => exec_start_pixWritten, fun s hb hs ha hk => ?_, fun s hb hs ha hp hk => ?_,
    fun s hb hs ha hp h2 h8 hpix => ?_, fun s hk => ?_, fun s hd => ?_⟩
  · simp [exec, execSerialize, hb, hd]
  · simp [exec, execDecode, hb, hs, ha]
  · simp [exec, execEncode, hb, hs, ha]
  · simp [exec, execEncode, hb, hs, ha, hp]
  · simp [exec, execDecode, hb, hs, ha, minCodeSizeOk_false hk]
  · simp [exec, execEncode, hb, hs, ha, hp, minCodeSizeOk_false hk]
  · simp [exec, execEncode, hb, hs, ha, hp, (minCodeSizeOk_iff _).2 ⟨h2, h8⟩, alphabetOk_false hpix]
  · simp [exec, execLzw, minCodeSizeOk_false hk]
  · simp only [exec, execSHdr, execSLsd, execSGct, execSGce, execSCom, execSApp, execSPte, emitPart_none hd, execSImg_none hd,
      and_self]

/-! ## The faults of the format -/

/-- What taking a fault may change; the other registers and the streams are as before. -/
theorem takeFault_frame (c : Cause) (p : Nat) (s : State) : takeFault c p s = { s with
    status := (takeFault c p s).status, errInfo := (takeFault c p s).errInfo, pst := (takeFault c p s).pst
    sst := (takeFault c p s).sst, doc := (takeFault c p s).doc, dec := (takeFault c p s).dec, out := (takeFault c p s).out
    enc := (takeFault c p s).enc, scratch := (takeFault c p s).scratch, lzwUnit := (takeFault c p s).lzwUnit
    imgIdx := (takeFault c p s).imgIdx, fresh := (takeFault c p s).fresh } := by
  rw [← takeFault_cmd c p s, ← takeFault_argK c p s, ← takeFault_argKWritten c p s, ← takeFault_pos c p s,
    ← takeFault_spos c p s, ← takeFault_pixWritten c p s, ← takeFault_src c p s, ← takeFault_snk c p s, ← takeFault_params c p s,
    ← takeFault_host c p s]

/-- Settles O25: each of the seven rows raises its cause at POS, and the rest is what taking a fault leaves. -/
theorem formatFaultsRecordTheirValues : Obligations.FormatFaultsRecordTheirValues := by
  intro s i c h
  have hexec : exec i s = .next (takeFault c s.pos s) := by
    rcases h with ⟨sig, v, rfl, hsig, rfl⟩ | ⟨b, rfl, rfl⟩ | ⟨n, rfl, rfl⟩ | ⟨p, d, ti, t, rfl, ht, rfl⟩ | ⟨n, rfl, rfl⟩ |
      ⟨n, rfl, rfl⟩ | ⟨n, rfl, rfl⟩
    · exact if_neg hsig
    · rfl
    · rfl
    · exact if_neg ht
    · rfl
    · rfl
    · rfl
  refine ⟨_, hexec, takeFault_errInfo .., ?_, ?_, takeFault_lzwUnit .., ?_, fun hc => ?_, fun hc => ?_, takeFault_frame ..⟩
  · rw [takeFault_status]
  · rw [takeFault_status]
  · rw [takeFault_status]
    cases c <;> rfl
  · simp [hc]
  · simp [hc]

/-! ## The fault that ends a command -/

/-- The commands, and for an unknown block the place and the byte, from which a cause can come (R301 to R305). -/
inductive Raises (s : State) : Cause → Prop where
  | readFailure (h : s.cmd = .parse ∨ s.cmd = .decode) : Raises s (.ioError .readFailure)
  | unexpectedEof (h : s.cmd = .parse) : Raises s (.ioError .unexpectedEof)
  | writeFailure (h : s.cmd = .serialize ∨ s.cmd = .encode) : Raises s (.ioError .writeFailure)
  | invalidSignature (h : s.cmd = .parse) (sig : Bytes3) : Raises s (.invalidSignature sig)
  | unknownBlock (h : s.cmd = .parse) (hp : s.pst = .loop) (b : Byte) (hb : b ≠ 0x21 ∧ b ≠ 0x2C ∧ b ≠ 0x3B) :
      Raises s (.unknownBlock b)
  | badBlockSize (h : s.cmd = .parse) (l n : Byte) : Raises s (.badBlockSize l n)
  | invalidCode (h : s.cmd = .parse ∨ s.cmd = .decode) (c w : Nat) : Raises s (.invalidCode c w)

/-- Nothing that taking a fault reads of the control state differs. -/
structure SameControl (s v : State) : Prop where
  cmd : v.cmd = s.cmd
  pst : v.pst = s.pst
  sst : v.sst = s.sst
  doc : v.doc = s.doc

/-- A fault of the command that runs in `s`, taken in a state `v` that the step has come to. -/
inductive FaultedFrom (s : State) : State → Prop where
  | taken (c : Cause) (p : Nat) (v : State) (hv : SameControl s v) (hc : Raises s c) : FaultedFrom s (takeFault c p v)

theorem OnlyRead.sameControl {s u : State} (h : OnlyRead s u) : SameControl s u := by
  rw [h]
  exact ⟨rfl, rfl, rfl, rfl⟩

theorem OnlyRead.status {s u : State} (h : OnlyRead s u) : u.status = s.status := by rw [h]

/-! ### A step that reads -/

theorem sbTerm_no_fault {u t : State} (h : execSbTerm u = .next t) (hs : u.status.state ≠ .doneFault) :
    t.status.state ≠ .doneFault := by
  obtain ⟨d, ⟨rfl, -⟩ | ⟨rfl, -⟩⟩ := sbTerm_cases h
  · by_cases hp : u.pst = .pte <;> simpa [termStored, hp] using hs
  · simp [okStatus]

theorem sbData_no_fault {u t : State} {f : List Byte} (h : execSbData f u = .next t) (hs : u.status.state ≠ .doneFault) :
    t.status.state ≠ .doneFault := by
  obtain ⟨-, -, -, hstatus, -⟩ := sbData_inv h
  rwa [hstatus]

theorem finishDecode_no_fault {s : State} (hs : s.status.state ≠ .doneFault) : (finishDecode s).status.state ≠ .doneFault := by
  by_cases hc : s.cmd = .parse
  · rw [finishDecode_parse hc]
    exact hs
  · rw [finishDecode_other hc]
    simp [okStatus]

section Reading

variable {s t : State} {bs : List Byte} {rest : List (Option Byte)}

theorem parseRun_fault {u : State} {slot : Slot} {i : Instr} (h : ParseRun u slot i t) (hv : SameControl s u) (hc : s.cmd = .parse)
    (hp : parseSlot u = some slot) (hs : u.status.state ≠ .doneFault) (hf : t.status.state = .doneFault) : FaultedFrom s t := by
  cases h with
  | badSignature a b h => exact .taken _ _ u hv (.invalidSignature hc a)
  | unknown b h =>
    have hloop : u.pst = .loop := (parseSlot_place hp).resolve_left nofun
    exact .taken _ _ u hv (.unknownBlock hc (hv.pst.symm.trans hloop) b h)
  | badSize _ _ l n h => exact .taken _ _ u hv (.badBlockSize hc l n)
  | term _ h => exact absurd hf (sbTerm_no_fault h hs)
  | data _ _ h => exact absurd hf (sbData_no_fault h hs)
  | done => simp [okStatus] at hf
  | _ => exact absurd hf hs

theorem parseStep_fault {slot : Slot} (h : ParseStep s slot bs rest t) (hc : s.cmd = .parse) (hp : parseSlot s = some slot)
    (hs : s.status.state ≠ .doneFault) (hf : t.status.state = .doneFault) : FaultedFrom s t := by
  cases h with
  | failed k p u h ho =>
    refine .taken _ p u h.onlyRead.sameControl ?_
    rcases h.cause with ⟨rfl, -⟩ | ⟨rfl, -⟩
    · exact .unexpectedEof hc
    · exact .readFailure (.inl hc)
  | ran i used tail t _ _ _ h =>
    exact parseRun_fault (u := took used (tail.map some ++ rest) s) h ⟨rfl, rfl, rfl, rfl⟩ hc hp hs hf

theorem decodeStep_fault (h : DecodeStep s bs rest t) (hc : s.cmd = .parse ∨ s.cmd = .decode)
    (hs : s.status.state ≠ .doneFault) (hf : t.status.state = .doneFault) : FaultedFrom s t := by
  cases h with
  | failed p u h => exact .taken _ p u h.onlyRead.sameControl (.readFailure hc)
  | finished u v c n h hc' hm => exact absurd hf (finishDecode_no_fault (by rwa [hm.onlyRead.status]))
  | ran u t c n h hm hc' hb ho hr =>
    cases hr with
    | invalid => exact .taken _ _ u hm.onlyRead.sameControl (.invalidCode hc c _)
    | _ => exact absurd ((congrArg Status.state hm.onlyRead.status).symm.trans hf) hs

end Reading

/-! ### A step of any unit -/

/-- A step that writes takes its one fault in a state that differs from the first in SNK, SPOS, the encoder's object and the counter
of free values. -/
theorem WriteStep.faultedFrom {s u : State} (h : WriteStep s (.next u)) (hc : s.cmd = .serialize ∨ s.cmd = .encode)
    (hf : u.status.state = .doneFault) : FaultedFrom s u := by
  cases h with
  | failed b ws all e => exact .taken _ _ _ ⟨rfl, rfl, rfl, rfl⟩ (.writeFailure hc)
  | whole all _ hr hw hno => exact absurd hf (hno u rfl)

/-- Under the invariant only PARSE and DECODE read and only SERIALIZE and ENCODE write. -/
theorem runningStep_fault {s u : State} {bs : List Byte} {rest : List (Option Byte)} (h : CoreStep s bs rest (.next u))
    (hctl : controlOk s) (hb : s.busy = true) (hf : u.status.state = .doneFault) : FaultedFrom s u := by
  have hs := state_ne_fault_of_busy hb
  cases h with
  | parse _ _ _ hc hp h => exact parseStep_fault h hc hp hs hf
  | lzwStart => exact absurd hf hs
  | decode _ hu h => exact decodeStep_fault h (cmd_decode hctl hu) hs hf
  | part _ _ hc _ h => exact (h.writeStep ((controlOk_serialize hc).1 hctl).1 hs).faultedFrom (.inl hc) hf
  | encode _ hu h => exact (h.writeStep hs).faultedFrom ((cmd_encode hctl hu).imp_left And.left) hf

/-- The causes of each command, read off `Raises`. -/
theorem Raises.parse {s : State} {c : Cause} (h : Raises s c) (hc : s.cmd = .parse) : c ≠ .ioError .writeFailure := by
  cases h with
  | writeFailure h => simp [hc] at h
  | _ => nofun

theorem Raises.decode {s : State} {c : Cause} (h : Raises s c) (hc : s.cmd = .decode) :
    c = .ioError .readFailure ∨ ∃ n w, c = .invalidCode n w := by
  cases h with
  | readFailure => exact .inl rfl
  | invalidCode _ n w => exact .inr ⟨n, w, rfl⟩
  | _ h => simp [hc] at h

theorem Raises.write {s : State} {c : Cause} (h : Raises s c) (hc : s.cmd = .serialize ∨ s.cmd = .encode) :
    c = .ioError .writeFailure := by
  cases h with
  | writeFailure => rfl
  | _ h => rcases hc with hc | hc <;> simp [hc] at h

theorem Raises.unknown {s : State} {b : Byte} (h : Raises s (.unknownBlock b)) :
    s.pst = .loop ∧ b ≠ 0x21 ∧ b ≠ 0x2C ∧ b ≠ 0x3B := by
  cases h with
  | unknownBlock _ hp _ hb => exact ⟨hp, hb⟩

/-- Settles O58: a step that faults has taken one fault of its command (`runningStep_fault`) in a state with the same control state,
and `takeFault` leaves of that what is claimed. -/
theorem faultEntryOfEachCommand : Obligations.FaultEntryOfEachCommand := by
  intro s t u hI hb hq h hf
  obtain ⟨rest, -, -, hstep⟩ := core_of hb hq h
  obtain ⟨c, p, v, hv, hr⟩ := runningStep_fault hstep ((inv_quiet hI hq).control hb) hb hf
  simp only [takeFault_status, takeFault_errInfo, takeFault_lzwUnit, takeFault_scratch, takeFault_pst, takeFault_sst,
    takeFault_doc, hv.cmd, hv.pst, hv.sst, hv.doc, true_and]
  refine ⟨fun hc => ?_, fun hc => ?_, fun hc => ?_, fun hc => ?_, fun b hb => (hb ▸ hr).unknown⟩
  · simpa [hc] using hr.parse hc
  · simpa [hc] using hr.decode hc
  · simpa [hc] using hr.write (.inl hc)
  · simpa [hc] using hr.write (.inr hc)

/-! ## How a command ends -/

/-- Under the invariant the CORE never stops with a fault of the model. -/
theorem coreStep_no_fault {s : State} (hI : Inv s) (f : Fault) : coreStep s ≠ .fault f := by
  intro hf
  cases hb : s.busy with
  | false => rw [coreStep_idle hb] at hf; cases hf
  | true =>
    obtain ⟨rest, hs, hr⟩ := source_split s
    have hstep := coreStep_cases hb hs hr
    rw [hf] at hstep
    cases hstep with
    | lost _ h => exact not_lost hI hb h
    | part _ _ _ _ h => cases h

theorem step_no_fault {s : State} (hI : Inv s) (f : Fault) : step s ≠ .fault f := by
  rw [ne_eq, step_fault]
  obtain ⟨es, ⟨a, hd⟩ | hd⟩ := hostDue_cases s <;> rw [uncappedStep, hd]
  · exact hostStep_noFault
  · exact coreStep_no_fault (inv_host hI es) f

/-- A step of a running command leaves it running, ended successfully, or ended by a fault. -/
theorem ViewStep.state_cases {a b : HostView} (h : ViewStep a b) :
    b.status.state = a.status.state ∨ b.status.state = .doneOk ∨ b.status.state = .doneFault := by
  cases h with
  | stays => exact .inl rfl
  | sawPlainText => exact .inl rfl
  | ended => exact .inr (.inl rfl)
  | parsed => exact .inr (.inl rfl)
  | returnedEarly => exact .inr (.inl rfl)
  | faulted => exact .inr (.inr rfl)

/-- Settles O50: no act of the host ends a command, and a step of the CORE that ends it either goes to DONE_OK, where the invariant
has code 0, or takes a fault. -/
theorem commandEndsOkOrByOneOfFiveFaults : Obligations.CommandEndsOkOrByOneOfFiveFaults := by
  refine fun s hI => ⟨step_no_fault hI, fun t h hb ht => ?_⟩
  have hIt := stepKeepsInvariant s t hI h
  obtain ⟨u, es, rfl, ⟨a, h⟩ | ⟨hidle, -⟩ | ⟨rest, hbu, h⟩⟩ := step_cases h
  · exact (hostStep_busyEnd (s := { s with host := es }) hb h).elim
  · exact absurd (hidle.symm.trans hb) Bool.false_ne_true
  · have hctl := (inv_host hI es).control hbu
    have hview : t.status.state = s.status.state ∨ t.status.state = .doneOk ∨ t.status.state = .doneFault :=
      (runningStep_view h hctl).state_cases
    rcases hview with hstay | hok | hfault
    · rw [State.busy, hstay] at ht
      exact absurd (ht.symm.trans hb) Bool.false_ne_true
    · exact .inl ⟨hok, hIt.errZero (by simp [hok])⟩
    · obtain ⟨c, p, v, -, -⟩ := runningStep_fault h hctl hbu hfault
      exact .inr (by simpa using causeCode_range c)

end Sys2Proof.Machine
end

section
/-! PROOFS. Reset and the end of every command (70_reset_and_hazards.md). Every step of a running command leaves less to do. A
command that reads takes bytes of SRC, or it moves between P_LZW and the decoder, or takes a code off the bits it has (`readingLeft`);
a command that writes goes on to a later part or image, or nearer to the end of an encode (`writingLeft`). Both measures are
lexicographic, so no step can be taken for ever. -/

namespace Sys2Proof.Machine

/-! ## Reset -/

/-- Settles O14: the values stand in `State.reset`. -/
theorem resetValuesOfTheSpec : Obligations.ResetValuesOfTheSpec := ⟨rfl, rfl, rfl, rfl, rfl, rfl, rfl⟩

/-- Settles O15: the CORE is idle after reset, so the memories, the unit and STATUS are all the invariant speaks of. -/
theorem resetMeetsInvariant : Obligations.ResetMeetsInvariant :=
  inv_idle rfl rfl rfl (fun _ => rfl) (Nat.zero_le 5)

/-! ## What is left to do -/

/-- Three numbers, the first one the most significant. -/
abbrev Work := ℕ ×ₗ ℕ ×ₗ ℕ

/-- The measure with these three numbers. -/
def Work.of (a b c : ℕ) : Work := toLex (a, toLex (b, c))

theorem Work.of_lt_of {a b c a' b' c' : ℕ} : Work.of a b c < Work.of a' b' c' ↔
    a ≤ a' ∧ (a = a' → b ≤ b' ∧ (b = b' → c < c')) := by
  simp only [Work.of, Prod.Lex.toLex_lt_toLex']

theorem Work.of_lt_first {a b c a' b' c' : ℕ} (h : a < a') : Work.of a b c < Work.of a' b' c' :=
  Work.of_lt_of.2 ⟨h.le, fun e => absurd e h.ne⟩

theorem Work.of_lt_second {a b c a' b' c' : ℕ} (ha : a ≤ a') (h : b < b') : Work.of a b c < Work.of a' b' c' :=
  Work.of_lt_of.2 ⟨ha, fun _ => ⟨h.le, fun e => absurd e h.ne⟩⟩

theorem Work.of_lt_third {a b c a' b' c' : ℕ} (ha : a ≤ a') (hb : b ≤ b') (h : c < c') : Work.of a b c < Work.of a' b' c' :=
  Work.of_lt_of.2 ⟨ha, fun _ => ⟨hb, fun _ => h⟩⟩

/-- The moves of a `PARSE` that may take no byte: P_LZW starts the decoder, which leads back to P_LOOP. -/
def lzwMovesLeft (s : State) : ℕ := if s.lzwUnit = .lzwd then 1 else if s.pst = .lzw then 2 else 0

/-- What a PARSE or DECODE has left: the answers of SRC, the moves that take none of them, the bits in front of the decoder. -/
def readingLeft (s : State) : Work := .of s.src.answers.length (lzwMovesLeft s) (bitsLeft s).length

/-- The parts from this one on (44_container_serializer.md R285). -/
def partsLeft : SState → ℕ
  | .header => 9
  | .lsd => 8
  | .gct => 7
  | .gce => 6
  | .comment => 5
  | .app => 4
  | .pte => 3
  | .image => 2
  | .trailer => 1
  | .idle => 0
  | .done => 0
  | .fault => 0

/-- The images of DOC. -/
def imageCount (s : State) : ℕ := (s.doc.map fun d => d.images.length).getD 0

/-- The images from this one on: the one whose encode runs is counted whatever its number. -/
def imagesLeft (s : State) : ℕ :=
  if encoding s.lzwUnit then imageCount s - (s.imgIdx + 1) + 1 else imageCount s - s.imgIdx

/-- How far the LZW unit is from the indices of PIX: not started, before its clear code, there. -/
def startsLeft : LzwUnit → ℕ
  | .off => 2
  | .lzweStart => 1
  | .lzwe => 0
  | .lzwd => 0

/-- What a SERIALIZE or ENCODE has left: parts and images, the start of an encode, the indices of PIX. -/
def writingLeft (s : State) : Work := .of (partsLeft s.sst + imagesLeft s) (startsLeft s.lzwUnit) s.enc.rest.length

/-- What the running command has left. -/
def workLeft (s : State) : Work :=
  match s.cmd with
  | .none => readingLeft s
  | .parse => readingLeft s
  | .decode => readingLeft s
  | .serialize => writingLeft s
  | .encode => writingLeft s

theorem workLeft_reads {s : State} (h : s.cmd = .parse ∨ s.cmd = .decode) : workLeft s = readingLeft s := by
  rcases h with h | h <;> rw [workLeft, h]

theorem workLeft_writes {s : State} (h : s.cmd = .serialize ∨ s.cmd = .encode) : workLeft s = writingLeft s := by
  rcases h with h | h <;> rw [workLeft, h]

/-- The step leaves the host's events alone, and less by the measure, if the command goes on. -/
structure Lessens (measure : State → Work) (s t : State) : Prop where
  host : t.host = s.host
  less : t.busy = true → measure t < measure s

theorem lessens_takeFault {m : State → Work} {s u : State} (c : Cause) (p : ℕ) (h : u.host = s.host) :
    Lessens m s (takeFault c p u) :=
  ⟨(takeFault_host c p u).trans h, fun hb => by simp [State.busy] at hb⟩

theorem lessens_finishCommand {m : State → Work} {s u : State} (h : u.host = s.host) : Lessens m s (finishCommand u) :=
  ⟨h, fun hb => by simp [State.busy, okStatus] at hb⟩

theorem OnlyRead.host {s u : State} (h : OnlyRead s u) : u.host = s.host := by rw [h]

/-! ## A step of PARSE outside its decodes -/

theorem sbTerm_host {u t : State} (h : execSbTerm u = .next t) : t.host = u.host := by
  obtain ⟨d, ⟨rfl, -⟩ | ⟨rfl, -⟩⟩ := sbTerm_cases h <;> rfl

theorem sbData_host {u t : State} {f : List Byte} (h : execSbData f u = .next t) : t.host = u.host := by
  unfold execSbData at h
  split at h <;> cases h <;> rfl

theorem parseRun_host {u t : State} {slot : Slot} {i : Instr} (h : ParseRun u slot i t) : t.host = u.host := by
  cases h with
  | term _ h => exact sbTerm_host h
  | data _ _ h => exact sbData_host h
  | badSignature => exact takeFault_host ..
  | unknown => exact takeFault_host ..
  | badSize => exact takeFault_host ..
  | done => exact parseDone_host _
  | _ => rfl

/-- The one row that takes no byte ends the command. -/
theorem parseRun_eos_ends {u t : State} {slot : Slot} (h : ParseRun u slot .eos t) : t.busy = false := by
  cases h with
  | done => simp [State.busy, okStatus]
  | badSize => simp [State.busy]

/-- A table that is announced has an entry (R104). -/
theorem ctLen_true_ne_zero (e : ℕ) : ctLen true e ≠ 0 := by simp [ctLen]

/-- Under the invariant PARSE reads no colour table of no entries. -/
theorem Inv.parseSlot_table {s : State} {slot : Slot} (hI : Inv s) (hb : s.busy = true) (hc : s.cmd = .parse)
    (hp : parseSlot s = some slot) : slot ≠ .globalTable 0 ∧ slot ≠ .localTable 0 := by
  obtain ⟨hgct, hlct⟩ := hI.tables hb hc
  constructor <;> rintro rfl
  · have hpst : s.pst = .gct := (parseSlot_place hp).resolve_left nofun
    simp [parseSlot, hpst, hgct hpst, ctLen_true_ne_zero] at hp
  · have hpst : s.pst = .lct := (parseSlot_place hp).resolve_left nofun
    simp [parseSlot, hpst, hlct hpst, ctLen_true_ne_zero] at hp

/-- Every row of PARSE that does not end the command has taken a byte. -/
theorem parseStep_lessens {s t : State} {slot : Slot} {bs : List Byte} {rest : List (Option Byte)} (h : ParseStep s slot bs rest t)
    (hs : s.src.answers = bs.map some ++ rest) (hslot : slot ≠ .globalTable 0 ∧ slot ≠ .localTable 0) :
    Lessens readingLeft s t := by
  cases h with
  | failed k p u h => exact lessens_takeFault _ _ h.onlyRead.host
  | ran i used tail t hbs he ho h =>
    refine ⟨parseRun_host (u := took used (tail.map some ++ rest) s) h, fun hb => Work.of_lt_first ?_⟩
    have heos : i ≠ .eos := by
      rintro rfl
      rw [parseRun_eos_ends h] at hb
      cases hb
    have hused := List.length_pos_iff.2 (he heos hslot.1 hslot.2)
    have hsrc : t.src.answers = tail.map some ++ rest := by rw [(parseRun_src h).1]; rfl
    rw [hsrc, hs, hbs]
    simp only [List.length_append, List.length_map]
    omega

/-! ## A step of the decoder -/

/-- A code takes its bits off the bit stream, whose width is never 0. -/
theorem nextCode_bits_taken {s u : State} {c : ℕ} (hbuf : bitBufferOk s.dec) (hw : 0 < s.dec.w) (h : nextCode s = .ok (some c) u) :
    (bitsLeft u).length < (bitsLeft s).length := by
  obtain ⟨rest, hs, hr⟩ := source_split s
  rcases nextCode_spec hs hr hbuf.2 with ⟨hle, v, n, hv, -, hbits, -⟩ | ⟨-, v, n, hv, -⟩ | ⟨-, -, p, v, hv, -⟩ <;>
    rw [hv] at h <;> cases h
  rw [hbits, List.length_drop]
  omega

/-- The row of a code leaves the bits behind it alone. -/
theorem codeRun_bitsLeft {u t : State} {c : ℕ} (h : CodeRun u c t) (hb : t.busy = true) : bitsLeft t = bitsLeft u := by
  have resolved : ∀ n l, bitsLeft (resolve n l u) = bitsLeft u := fun n l => by
    simp [bitsLeft, dataLeft, subBlocksDone, setPrev, register_fields l u.dec]
  cases h with
  | clear => rfl
  | known => exact resolved _ _
  | next => exact resolved _ _
  | invalid => simp [State.busy] at hb

theorem codeRun_host {u t : State} {c : ℕ} (h : CodeRun u c t) : t.host = u.host := by
  cases h with
  | invalid => exact takeFault_host ..
  | _ => rfl

theorem codeRun_unit {u t : State} {c : ℕ} (h : CodeRun u c t) (hb : t.busy = true) : t.lzwUnit = u.lzwUnit := by
  cases h with
  | invalid => simp [State.busy] at hb
  | _ => rfl

theorem OnlyRead.lzwUnit {s u : State} (h : OnlyRead s u) : u.lzwUnit = s.lzwUnit := by rw [h]

theorem OnlyRead.cmd {s u : State} (h : OnlyRead s u) : u.cmd = s.cmd := by rw [h]

theorem lzwMovesLeft_lzwd {s : State} (h : s.lzwUnit = .lzwd) : lzwMovesLeft s = 1 := if_pos h

/-- SRC never has more answers to give than before. -/
theorem Moved.answers_le {s t : State} {bs : List Byte} {rest : List (Option Byte)} {n : ℕ} (h : Moved s t bs rest n)
    (hs : s.src.answers = bs.map some ++ rest) : t.src.answers.length ≤ s.src.answers.length := by
  obtain ⟨used, bs', hb, hfed⟩ := h.used
  rw [hfed.answers, hs, hb]
  simp

/-- The end of an image's decode leads out of the decoder. -/
theorem finishDecode_lessens {s v : State} (hu : s.lzwUnit = .lzwd) (hv : OnlyRead s v)
    (hle : v.src.answers.length ≤ s.src.answers.length) : Lessens readingLeft s (finishDecode v) := by
  by_cases hc : v.cmd = .parse
  · rw [finishDecode_parse hc]
    refine ⟨hv.host, fun _ => Work.of_lt_second hle ?_⟩
    rw [lzwMovesLeft_lzwd hu]
    exact Nat.one_pos
  · rw [finishDecode_other hc]
    exact lessens_finishCommand hv.host

theorem decodeStep_lessens {s t : State} {bs : List Byte} {rest : List (Option Byte)} (h : DecodeStep s bs rest t)
    (hs : s.src.answers = bs.map some ++ rest) (hu : s.lzwUnit = .lzwd) (hd : DecoderInv s.dec) (hbuf : bitBufferOk s.dec) :
    Lessens readingLeft s t := by
  cases h with
  | failed p u h => exact lessens_takeFault _ _ h.onlyRead.host
  | finished u v c n h hc hm => exact finishDecode_lessens hu hm.onlyRead (hm.answers_le hs)
  | ran u t c n h hm hc _ ho hr =>
    refine ⟨(codeRun_host hr).trans hm.onlyRead.host, fun hb => Work.of_lt_third ?_ ?_ ?_⟩
    · rw [(codeRun_src hr).1]
      exact hm.answers_le hs
    · rw [lzwMovesLeft_lzwd hu, lzwMovesLeft_lzwd ((codeRun_unit hr hb).trans (hm.onlyRead.lzwUnit.trans hu))]
    · rw [codeRun_bitsLeft hr hb]
      exact nextCode_bits_taken hbuf (Nat.zero_lt_of_lt hd.wRange.1) h

/-- The start of an image's decode leads from P_LZW into the decoder. -/
theorem startDecode_lessens {s : State} (k : ℕ) (hu : s.lzwUnit = .off) (hp : s.pst = .lzw) :
    Lessens readingLeft s (startDecode k s) := by
  refine ⟨rfl, fun _ => Work.of_lt_second le_rfl ?_⟩
  rw [lzwMovesLeft_lzwd rfl]
  simp [lzwMovesLeft, hu, hp]

/-! ## A step of SERIALIZE and of the encoder -/

theorem imagesLeft_encoding {s : State} (h : encoding s.lzwUnit = true) : imagesLeft s = imageCount s - (s.imgIdx + 1) + 1 := if_pos h

theorem imagesLeft_off {s : State} (h : s.lzwUnit = .off) : imagesLeft s = imageCount s - s.imgIdx := by
  rw [imagesLeft, h]; rfl

theorem partsLeft_next {p q : SState} (h : partNext p = some q) : partsLeft q < partsLeft p := by
  cases p <;> cases h <;> decide

/-- The start of an image's encode counts that image among those left still. -/
theorem imagesLeft_startEncode {s : State} {d : Document} {m : ImageBlock} (k : ℕ) (pix : List Byte) (hu : s.lzwUnit = .off)
    (hd : s.doc = some d) (hm : d.images[s.imgIdx]? = some m) : imagesLeft (startEncode k pix s) = imagesLeft s := by
  have hlt : s.imgIdx < imageCount s := by
    obtain ⟨hlt, -⟩ := List.getElem?_eq_some_iff.1 hm
    rwa [imageCount, hd]
  calc imagesLeft (startEncode k pix s) = imageCount s - (s.imgIdx + 1) + 1 := imagesLeft_encoding rfl
    _ = imageCount s - s.imgIdx := by omega
    _ = imagesLeft s := (imagesLeft_off hu).symm

theorem partStep_lessens {s t : State} (h : PartStep s (.next t)) (hu : s.lzwUnit = .off) : Lessens writingLeft s t := by
  cases h with
  | failed => exact lessens_takeFault _ _ rfl
  | handed ws next hn => exact ⟨rfl, fun _ => Work.of_lt_first (Nat.add_lt_add_right (partsLeft_next hn) _)⟩
  | image ws d m hs hd hm =>
    refine ⟨rfl, fun _ => Work.of_lt_second (Nat.add_le_add_left (Nat.le_of_eq ?_) _) ?_⟩
    · exact imagesLeft_startEncode (s := wrote ws { s with pixWritten := false }) _ _ hu hd hm
    · rw [hu]
      exact Nat.one_lt_two
  | done => exact lessens_finishCommand rfl

/-- The end of an image's encode leaves an image less. -/
theorem imagesLeft_finishEncode {s : State} (hu : encoding s.lzwUnit = true) (hc : s.cmd = .serialize) :
    imagesLeft (finishEncode s) < imagesLeft s := by
  calc imagesLeft (finishEncode s) = imageCount s - (s.imgIdx + 1) := by rw [finishEncode_serialize hc]; exact imagesLeft_off rfl
    _ < imageCount s - (s.imgIdx + 1) + 1 := Nat.lt_succ_self _
    _ = imagesLeft s := (imagesLeft_encoding hu).symm

theorem encodeStep_lessens {s t : State} (h : EncodeStep s t) : Lessens writingLeft s t := by
  cases h with
  | failed => exact lessens_takeFault _ _ rfl
  | clear0 ws e hu =>
    have himages : imagesLeft (wrote ws { s with enc := e, lzwUnit := .lzwe }) = imagesLeft s :=
      (imagesLeft_encoding rfl).trans (imagesLeft_encoding (by rw [hu]; rfl)).symm
    refine ⟨rfl, fun _ => Work.of_lt_second (Nat.add_le_add_left himages.le _) ?_⟩
    rw [hu]
    exact Nat.one_pos
  | ran ws e p hu _ _ _ hrest =>
    refine ⟨rfl, fun _ => Work.of_lt_third le_rfl le_rfl ?_⟩
    rw [hrest]
    exact Nat.lt_succ_self _
  | finished ws e hu =>
    by_cases hc : s.cmd = .serialize
    · refine ⟨finishEncode_host _, fun _ => Work.of_lt_first ?_⟩
      rw [finishEncode_sst]
      exact Nat.add_lt_add_left (imagesLeft_finishEncode (s := wrote ws { s with enc := e }) (by rw [wrote_lzwUnit, hu]; rfl) hc) _
    · rw [finishEncode_other (s := wrote ws { s with enc := e }) hc]
      exact lessens_finishCommand rfl

/-! ## A step of the running command -/

/-- No step of a running command writes CMD. -/
theorem runningStep_cmd {s t : State} {bs : List Byte} {rest : List (Option Byte)} (h : CoreStep s bs rest (.next t))
    (hctl : controlOk s) (hb : s.busy = true) : t.cmd = s.cmd :=
  ((runningStep_view h hctl).visible (busy_state.1 hb)).1

theorem Lessens.work_of_reads {s t : State} (h : Lessens readingLeft s t) (hs : s.cmd = .parse ∨ s.cmd = .decode) (ht : t.cmd = s.cmd) :
    Lessens workLeft s t :=
  ⟨h.host, fun hb => by rw [workLeft_reads hs, workLeft_reads (ht ▸ hs)]; exact h.less hb⟩

theorem Lessens.work_of_writes {s t : State} (h : Lessens writingLeft s t) (hs : s.cmd = .serialize ∨ s.cmd = .encode)
    (ht : t.cmd = s.cmd) : Lessens workLeft s t :=
  ⟨h.host, fun hb => by rw [workLeft_writes hs, workLeft_writes (ht ▸ hs)]; exact h.less hb⟩

theorem runningStep_lessens {s t : State} {bs : List Byte} {rest : List (Option Byte)} (h : CoreStep s bs rest (.next t))
    (hs : s.src.answers = bs.map some ++ rest) (hI : Inv s) (hb : s.busy = true) : Lessens workLeft s t := by
  have hctl := hI.control hb
  have hcmd := runningStep_cmd h hctl hb
  cases h with
  | parse slot _ hu hc hp h =>
    exact (parseStep_lessens h hs (hI.parseSlot_table hb hc hp)).work_of_reads (.inl hc) hcmd
  | lzwStart hu hc hp => exact (startDecode_lessens _ hu hp).work_of_reads (.inl hc) hcmd
  | decode _ hu h =>
    obtain ⟨hd, hbuf, -⟩ := hI.decoder hu
    exact (decodeStep_lessens h hs hu hd hbuf).work_of_reads (cmd_decode hctl hu) hcmd
  | part _ hu hc _ h => exact (partStep_lessens h hu).work_of_writes (.inl hc) hcmd
  | encode _ hu h => exact (encodeStep_lessens h).work_of_writes ((cmd_encode hctl hu).imp_left And.left) hcmd

theorem hostDue_nil {s : State} (h : s.host = []) : hostDue s = .quiet s := by rw [hostDue, h]

theorem step_lessens {s t : State} (hI : Inv s) (hb : s.busy = true) (hh : s.host = []) (h : step s = .next t) :
    Lessens workLeft s t := by
  obtain ⟨rest, hs, -, hstep⟩ := core_of hb (hostDue_nil hh) h
  exact runningStep_lessens hstep hs hI hb

/-! ## The run to the end -/

/-- A run from `s` comes to the end of the command or to a refusal. -/
def Ends (s : State) : Prop :=
  ∃ n, (∃ t, Sys2Proof.core.run n s = .next t ∧ t.busy = false) ∨ (∃ r, Sys2Proof.core.run n s = .refused r)

theorem ends_idle {s : State} (h : s.busy = false) : Ends s := ⟨0, .inl ⟨s, rfl, h⟩⟩

theorem ends_refused {s : State} {r : Refusal} (h : step s = .refused r) : Ends s :=
  ⟨1, .inr ⟨r, by simp only [Host.Core.run, show core.step s = .refused r from h]⟩⟩

theorem ends_of_next {s t : State} (h : step s = .next t) (ht : Ends t) : Ends s := by
  obtain ⟨n, hn⟩ := ht
  exact ⟨n + 1, by rwa [run_succ (M := core) h]⟩

/-- Settles O51: by induction on what the command has left, which each step lessens (`step_lessens`). -/
theorem everyCommandEnds : Obligations.EveryCommandEnds := by
  intro s hI hb hh
  change Ends s
  induction hw : workLeft s using WellFoundedLT.induction generalizing s with
  | ind w ih =>
    subst hw
    cases h : step s with
    | fault f => exact absurd h (step_no_fault hI f)
    | refused r => exact ends_refused h
    | next t =>
      have hless := step_lessens hI hb hh h
      cases htb : t.busy with
      | false => exact ends_of_next h (ends_idle htb)
      | true => exact ends_of_next h (ih _ (hless.less htb) t (stepKeepsInvariant s t hI h) htb (hless.host.trans hh) rfl)

end Sys2Proof.Machine
end
